-- ==== Sys2Proof/Word.lean ====
section
/-! DEFINITION. The plain data types of the part: bytes, 16-bit raw field values and 32-bit words (00_scope, section 5). -/

namespace Sys2Proof

/-- A word: 32 bits at an address that is a multiple of 4. -/
abbrev Word := BitVec 32

/-- A raw field value or a 16-bit data word of the zone link. -/
abbrev Half := BitVec 16

/-- One byte of memory, or one character of the zone link. -/
abbrev Byte := BitVec 8

end Sys2Proof
end

