-- ==== Sys2Proof/Syntax.lean ====
section
/-! DEFINITION. The commands of the part: one constructor per row of spec/opcode_table.json, with the row's operands. -/

namespace Sys2Proof

/-- The strap settings sampled at the end of a pin reset (Table 1-1, R1). -/
structure Straps where
  /-- CA: the control area base is 0x40000 × CA. -/
  ca  : BitVec 2
  /-- MS: the memory size is 1 MiB × 2^MS. -/
  ms  : BitVec 2
  /-- UBO: false little, true big. -/
  ubo : Bool
  /-- LR: the zone link rate, 0.5, 1, 2, 4 Mbit/s. -/
  lr  : BitVec 2
  deriving DecidableEq, Repr

/-- One upstream access (R2): a direction, a byte address, four byte enables and, for a write, the data lines.
Data lane k (bits 8k to 8k+7) and byte enable k belong to the byte at word address + k. -/
structure Access where
  write : Bool
  addr  : Word
  be    : BitVec 4
  data  : Word
  deriving DecidableEq, Repr

/-- The commands. A host write row carries what the host drives; a taking reads its arguments from the slot at the
head of the submission queue; a reply row carries the characters of the reply; a timer row names its owner. -/
inductive Instr where
  /-- PIN_RESET: the straps and the STOP_N level (true high) at its end, and the accesses presented while RESET_N is low. -/
  | pinReset (straps : Straps) (stopHigh : Bool) (during : List Access)
  /-- STOP_N_FALLING_EDGE. -/
  | stopNFallingEdge
  /-- STOP_N_RISING_EDGE. -/
  | stopNRisingEdge
  /-- STAGING_WRITE: the byte offset in the staging region, byte enables, data lines. -/
  | stagingWrite (offset : BitVec 16) (be : BitVec 4) (data : Word)
  /-- STAGING_READ. -/
  | stagingRead
  /-- INPUT_CHANNEL_WRITE: byte address, byte enables, data lines. -/
  | inputChannelWrite (addr : Word) (be : BitVec 4) (data : Word)
  /-- PART_OUTPUT_WRITE: byte address, byte enables, data lines. -/
  | partOutputWrite (addr : Word) (be : BitVec 4) (data : Word)
  /-- OUTPUT_HOST_WRITE: byte address and data lines of a full-word write. -/
  | outputHostWrite (addr : Word) (data : Word)
  /-- OUTPUT_PARTIAL_WRITE: byte address, byte enables, data lines. -/
  | outputPartialWrite (addr : Word) (be : BitVec 4) (data : Word)
  /-- NOTICE_WORD_WRITE: data lines of a full-word write. -/
  | noticeWordWrite (data : Word)
  /-- NOTICE_ENABLE_WRITE: data lines of a full-word write. -/
  | noticeEnableWrite (data : Word)
  /-- HEARTBEAT: data lines of a full-word write. -/
  | heartbeat (data : Word)
  /-- LOG_RELEASE: data lines of a full-word write. -/
  | logRelease (data : Word)
  /-- REQUEST_ARGUMENT_WRITE: slot, word 1 to 7, data lines of a full-word write. -/
  | requestArgumentWrite (slot : BitVec 4) (word : BitVec 4) (data : Word)
  /-- SUBMISSION: the slot whose word 0 is written with 1. -/
  | submission (slot : BitVec 4)
  /-- SLOT_FREE: the slot whose word 0 is written with 0. -/
  | slotFree (slot : BitVec 4)
  /-- DISCARDED_WRITE: byte address, byte enables, data lines of a write to the part-owned area. -/
  | discardedWrite (addr : Word) (be : BitVec 4) (data : Word)
  /-- REQUEST_UNKNOWN_KIND. -/
  | requestUnknownKind
  /-- COMMIT_FULL. -/
  | commitFull
  /-- COMMIT_RECIPE. -/
  | commitRecipe
  /-- REINIT. -/
  | reinit
  /-- REINIT_COMPLETION. -/
  | reinitCompletion
  /-- DISCOVER. -/
  | discover
  /-- LINK_START. -/
  | linkStart
  /-- LINK_HALT. -/
  | linkHalt
  /-- NODE_READ. -/
  | nodeRead
  /-- NODE_WRITE. -/
  | nodeWrite
  /-- ZONE_START. -/
  | zoneStart
  /-- ZONE_RUN. -/
  | zoneRun
  /-- ZONE_STOP. -/
  | zoneStop
  /-- ZONE_RESET. -/
  | zoneReset
  /-- ZONE_SIMULATE_ENTER. -/
  | zoneSimulateEnter
  /-- ZONE_SIMULATE_LEAVE. -/
  | zoneSimulateLeave
  /-- LOT_OPEN. -/
  | lotOpen
  /-- LOT_CLOSE. -/
  | lotClose
  /-- LOT_FLUSH. -/
  | lotFlush
  /-- INJECT_BAG. -/
  | injectBag
  /-- PALLET_CLOSE. -/
  | palletClose
  /-- PALLET_CONFIRM. -/
  | palletConfirm
  /-- SCAN_REPLY: the characters of the reply. -/
  | scanReply (chars : List Byte)
  /-- ENUM_REPLY: the characters of the reply. -/
  | enumReply (chars : List Byte)
  /-- ONE_SHOT_REPLY: the characters of the reply. -/
  | oneShotReply (chars : List Byte)
  /-- REPLY_LIMIT_EXPIRY. -/
  | replyLimitExpiry
  /-- REPLY_CHARACTER_GAP. -/
  | replyCharacterGap
  /-- SAFE_FRAME_SENT. -/
  | safeFrameSent
  /-- PERIOD_TIMER_EXPIRY. -/
  | periodTimerExpiry
  /-- STALE_TIMER_EXPIRY: the channel. -/
  | staleTimerExpiry (channel : BitVec 8)
  /-- WATCHDOG_EXPIRY. -/
  | watchdogExpiry
  /-- WAIT_TIME_EXPIRY: the zone. -/
  | waitTimeExpiry (zone : BitVec 3)
  /-- WAIT_UNTIL_TIMEOUT: the zone. -/
  | waitUntilTimeout (zone : BitVec 3)
  /-- EXPOSURE_TIMER_EXPIRY: the pallet's number. -/
  | exposureTimerExpiry (pallet : BitVec 16)
  /-- TRANSIT_TIMER_EXPIRY. -/
  | transitTimerExpiry
  /-- REPLY_CHECK_FAILURE: the characters of the reply. -/
  | replyCheckFailure (chars : List Byte)
  /-- PASS_THROUGH_ACCESS: the access. -/
  | passThroughAccess (access : Access)
  deriving DecidableEq, Repr

end Sys2Proof
end

