-- ==== Sys2Proof/Config.lean ====
section
/-! DEFINITION. What an implementation fixes, the sizes the manual gives, and the free values: constants without a body, of which
nothing can be proved. -/

namespace Sys2Proof.Config

/-- What a byte of process memory reads as before anything has written it.
DESIGN CHOICE (notes/assumptions/2): the manual gives the static RAM no contents at power-on. Unsafe. -/
def memoryFill : Byte := 0#8

/-- FREE VALUE (R4, notes/assumptions/3): where the memory puts an address at or above its size: at some location of
its own, or nowhere. "What the memory does with such an address is fixed by the memory itself." -/
opaque beyondMemory : Nat → Option Nat

/-- FREE VALUE (R4, notes/assumptions/3): the byte the memory answers for an address it holds nowhere, by a fresh
number and the address. -/
opaque openBus : Nat → Nat → Byte

/-- FREE VALUE (R41, notes/assumptions/11): which of the zone sequencer and the track unit, stated to be without order at a
fresh sample, comes first, by a fresh number. -/
opaque freeOrder : Nat → Bool

/-- FREE VALUE (notes/assumptions/11, 13, 14): which of several admissible candidates is taken, by a fresh number: a table
position, a trip's detail or cause, or the next of several parts of one event that the manual leaves without order. -/
opaque freeIndex : Nat → Nat

/-- The submission queue's and the slot table's size (R18, R19). -/
def slotCount : Nat := 16
/-- Entries of the active channel table (R32). -/
def channelCount : Nat := 256
/-- Addresses of the node table (R57). -/
def nodeCount : Nat := 16
/-- Entries of the zone table (R88). -/
def zoneCount : Nat := 8
/-- Entries of the lot table (R118). -/
def lotCount : Nat := 48
/-- Entries of the recipe table (R126). -/
def recipeCount : Nat := 32
/-- Records of the pallet table (R148). -/
def palletCount : Nat := 32
/-- Entries of the feed list (R140). -/
def feedCount : Nat := 16
/-- Entries of the recent bag ring (R147). -/
def ringCount : Nat := 64
/-- Entries of the record log (R170). -/
def logCount : Nat := 1024
/-- Places of a pallet's lot list (R148). -/
def palletLots : Nat := 8
/-- One-shots the queue holds (R69). -/
def oneShotCount : Nat := 4
/-- Staging words a COMMIT_FULL reads (R76). -/
def commitWords : Nat := 3232
/-- Words of one recipe descriptor (R85). -/
def recipeWords : Nat := 16
/-- Upstream grants a waiting staging read stands back for (R9). -/
def arbiterLimit : Nat := 16
/-- The largest 32-bit count; masses saturate here (R118, R140, R148). -/
def maxCount : Nat := 4294967295
/-- The largest number of units in one cell (R108, R114). -/
def maxUnits : Nat := 65535
/-- The largest thermal credit, in milliseconds (R130). -/
def maxCredit : Nat := 2147483647

end Sys2Proof.Config
end

