-- ==== Sys2Proof/Machine/State.lean ====
section
/-! DEFINITION. The state of the part, block by block (Table 3-1), and its value after a pin reset. Plain data. -/

namespace Sys2Proof.Machine

/-! ## Reasons to stop -/

/-- Faults. The manual names no event at which the part stops (notes/assumptions/26). -/
inductive Fault where
  /-- Raised by no command: a placeholder, safe because no step answers it. -/
  | neverRaised
  deriving DecidableEq, Repr

/-- Refusals. -/
inductive Refusal where
  /-- Raised by an arm of exec whose command has no meaning yet; safe. -/
  | notModelled (mnemonic : String)
  deriving DecidableEq, Repr

/-! ## Memory -/

/-- Process memory (1.1, R4): (address, byte) pairs, addresses rising, none equal to `Config.memoryFill`. -/
abbrev Memory := List Host.Cell

/-! ## Request unit (Chapter 2) -/

/-- A request slot's state, word 0 of the slot (2.1). -/
inductive SlotState where
  | free | submitted | taken | done
  deriving DecidableEq, Repr

/-- A request slot: word 0, the kind (word 1), the arguments (words 2 to 7), the result (word 8) and the result values
(words 9 to 12) (2.1). -/
structure Slot where
  state  : SlotState
  kind   : Word
  arg2   : Word
  arg3   : Word
  arg4   : Word
  arg5   : Word
  arg6   : Word
  arg7   : Word
  result : Word
  val9   : Word
  val10  : Word
  val11  : Word
  val12  : Word
  deriving DecidableEq, Repr

/-- A slot after pin reset (R25). -/
def Slot.empty : Slot := ⟨.free, 0, 0, 0, 0, 0, 0, 0, 0, 0, 0, 0, 0⟩

/-- A COMMIT_FULL in flight: its slot and the staging words read so far, in reading order (R76). -/
structure CommitJob where
  slot  : Nat
  words : List Word
  deriving DecidableEq, Repr

/-- A COMMIT_RECIPE taking in progress: its slot, the recipe index and the words read so far (R85). -/
structure RecipeJob where
  slot  : Nat
  index : Nat
  words : List Word
  deriving DecidableEq, Repr

/-- The request unit. -/
structure RequestUnit where
  slots     : List Slot
  /-- The submission queue: slot numbers, head first (R19). -/
  queue     : List Nat
  /-- The COMMIT_RECIPE taking that has not ended (R85). -/
  recipeJob : Option RecipeJob
  /-- The COMMIT_FULL in flight (R75). -/
  commit    : Option CommitJob
  /-- The slot of the REINIT in flight (R86). -/
  reinit    : Option Nat
  deriving DecidableEq, Repr

/-! ## Status block (Chapter 2) -/

/-- The host watchdog's state (2.7). -/
inductive WatchdogState where
  | stopped | running | expired
  deriving DecidableEq, Repr

/-- The status block. -/
structure Status where
  /-- The notice word: bit n is the notice at bit n of Table 12-1 (R26). -/
  notices   : BitVec 18
  /-- The notice enable word (R27). -/
  enables   : BitVec 18
  /-- Line time of the last heartbeat write (R29). -/
  heartbeat : Word
  watchdog  : WatchdogState
  /-- Line time of the watchdog timer's last restart (R29, R30). -/
  restart   : Word
  /-- The last bad write address (R7). -/
  lastBad   : Word
  /-- The line time (R31). -/
  time      : Word
  deriving DecidableEq, Repr

/-! ## Channel unit (Chapter 3) -/

inductive ChanKind where
  | unused | inputAnalog | inputCounter | inputDiscrete | outputAnalog | outputDiscrete | partOutput | event
  deriving DecidableEq, Repr

inductive ChanFunction where
  | none | laneSelect | baggerHold | transferStart | bagDone | storeDone
  deriving DecidableEq, Repr

inductive LimitAction where
  | clamp | refuse
  deriving DecidableEq, Repr

inductive Readback where
  | commanded | applied
  deriving DecidableEq, Repr

inductive Arrangement where
  | asIs | swapBytes | swapHalves | swapBoth
  deriving DecidableEq, Repr

/-- An input's quality (3.4); an output's is UNBOUND or GOOD (R42). -/
inductive Quality where
  | unbound | good | stale | fault
  deriving DecidableEq, Repr

/-- An input's stale timer (Table 3-3): the line time it runs out at, while it runs. -/
inductive StaleTimer where
  | stopped | suspended
  | running (deadline : Word)
  deriving DecidableEq, Repr

/-- A channel descriptor (Table 3-2). -/
structure ChanDesc where
  kind        : ChanKind
  func        : ChanFunction
  addr        : Word
  owner       : Option Nat
  node        : Nat
  point       : Nat
  engMin      : Int
  engMax      : Int
  decimals    : Nat
  limit       : LimitAction
  safe        : Int
  fallback    : Int
  staleLimit  : Nat
  readback    : Readback
  arrangement : Arrangement
  partner     : Option Nat
  deriving DecidableEq, Repr

/-- The raw range a bound channel takes from its point (R33). -/
structure RawRange where
  rawMin : Half
  rawMax : Half
  deriving DecidableEq, Repr

/-- A channel's runtime state (Table 3-3). -/
structure ChanRun where
  quality       : Quality
  raw           : Half
  eng           : Int
  lastSample    : Option Word
  timer         : StaleTimer
  simValue      : Int
  simFlag       : Bool
  simSource     : Option Nat
  hostValue     : Int
  programValue  : Int
  functionValue : Int
  applied       : Int
  appliedRaw    : Half
  limitRefused  : Bool
  partialWrite  : Bool
  events        : Word
  /-- The binding of R33: none when unbound. -/
  bound         : Option RawRange
  deriving DecidableEq, Repr

structure Channel where
  desc : ChanDesc
  run  : ChanRun
  deriving DecidableEq, Repr

/-- An entry of kind UNUSED (R32, R34). -/
def Channel.unused : Channel where
  desc := { kind := .unused, func := .none, addr := 0, owner := none, node := 0, point := 0, engMin := 0, engMax := 0,
            decimals := 0, limit := .clamp, safe := 0, fallback := 0, staleLimit := 0, readback := .commanded,
            arrangement := .asIs, partner := none }
  run := { quality := .unbound, raw := 0, eng := 0, lastSample := none, timer := .stopped, simValue := 0,
           simFlag := false, simSource := none, hostValue := 0, programValue := 0, functionValue := 0, applied := 0,
           appliedRaw := 0, limitRefused := false, partialWrite := false, events := 0, bound := none }

/-! ## Link controller (Chapter 4) -/

inductive LinkState where
  | idle | discovering | scanning | halting
  deriving DecidableEq, Repr

inductive NodeState where
  | absent | discovered | bound | running | faulted
  deriving DecidableEq, Repr

inductive DiscoveryOutcome where
  | none | found | noReply | incomplete | badPoints
  deriving DecidableEq, Repr

inductive Direction where
  | input | output | event
  deriving DecidableEq, Repr

/-- A point record of a node's point list (4.2). -/
structure Point where
  index     : Nat
  direction : Direction
  ptype     : Byte
  unitCode  : Byte
  rawMin    : Half
  rawMax    : Half
  safeRaw   : Half
  deriving DecidableEq, Repr

/-- A record of the node table (R57, R61, R67, R74). -/
structure Node where
  state         : NodeState
  outcome       : DiscoveryOutcome
  kindCode      : Byte
  timeout       : Half
  points        : List Point
  misses        : Nat
  status        : Byte
  pendingEvents : Byte
  lastTaken     : Nat
  repeats       : Word
  unbound       : Word
  deriving DecidableEq, Repr

/-- An address after pin reset or REINIT (R57). -/
def Node.absent : Node := ⟨.absent, .none, 0, 0, [], 0, 0, 0, 0, 0, 0⟩

/-- A one-shot: its slot, PSET (true) or PGET, node, parameter and value (R69). -/
structure OneShot where
  slot  : Nat
  isSet : Bool
  node  : Nat
  param : Nat
  value : Nat
  deriving DecidableEq, Repr

inductive FrameKind where
  | scan | enum | pget | pset | safe
  deriving DecidableEq, Repr

/-- What an exchange is for. -/
inductive ExchangeJob where
  | scan
  | enum (page : Nat)
  | oneShot (o : OneShot)
  deriving DecidableEq, Repr

/-- An exchange: the frame, kept for the retry (R55), and whether it is the retry. -/
structure Exchange where
  kind    : FrameKind
  addr    : Nat
  control : Byte
  payload : List Byte
  retry   : Bool
  job     : ExchangeJob
  deriving DecidableEq, Repr

/-- What is on the link: nothing, an exchange whose reply is awaited (R53), or a SAFE being sent, with the exchange
whose retry waits behind it (R64, R72). -/
inductive LinkBusy where
  | quiet
  | waiting (x : Exchange)
  | safe (resume : Option Exchange)
  deriving DecidableEq, Repr

/-- A scan cycle in progress (R63): the nodes still to be scanned, and whether a one-shot may go first (R70). -/
structure Cycle where
  rest : List Nat
  turn : Bool
  deriving DecidableEq, Repr

/-- A DISCOVER in flight (R58 to R60): its slot, the address and page asked for, the good payloads of that address so
far, and the new node table for the addresses finished. -/
structure Discovery where
  slot  : Nat
  addr  : Nat
  page  : Nat
  pages : List (List Byte)
  built : List Node
  deriving DecidableEq, Repr

/-- The link controller. -/
structure Link where
  state     : LinkState
  nodes     : List Node
  /-- Exchange sequence bits of addresses 1 to 16 (R55). -/
  seqBits   : List Bool
  busy      : LinkBusy
  safeWaits : Bool
  scanList  : List Nat
  /-- The period timer's next expiry (R63), none while stopped. -/
  period    : Option Word
  cycle     : Option Cycle
  owed      : Bool
  oneShots  : List OneShot
  discovery : Option Discovery
  /-- The slot of the LINK_HALT in flight (R71). -/
  halt      : Option Nat
  overrun   : Word
  safeCount : Word
  /-- The characters of the last frame sent (R177). -/
  sent      : List Byte
  /-- ZL_DE: the driver is enabled, a frame is being sent (R53). -/
  driving   : Bool
  /-- The reply limit, in microseconds, that the last exchange sent started under (R53, R83). -/
  limit     : Nat
  /-- The line time at which the reply limit of the exchange on the link has run out, from the end of its frame (R53). -/
  replyDue  : Option Word
  deriving DecidableEq, Repr

/-! ## Configuration (Chapter 5) -/

/-- The general block (Table 5-2). -/
structure General where
  scanPeriod     : Nat
  replyLimit     : Nat
  heartbeatLimit : Nat
  palletCapacity : Nat
  transitLimit   : Nat
  logThreshold   : Nat
  reserveFloor   : Nat
  deriving DecidableEq, Repr

/-! ## Zone sequencer (Chapter 6) -/

/-- The kinds of a present zone; an absent zone has no entry (Table 6-1). -/
inductive ZoneKind where
  | track | bag | transfer | utility
  deriving DecidableEq, Repr

inductive ZoneState where
  | off | starting | ready | running | stopping | tripped | simulate
  deriving DecidableEq, Repr

inductive Program where
  | start | stop
  deriving DecidableEq, Repr

/-- A trip cause with its trip detail (R88). -/
inductive TripCause where
  | none | watchdog | stopInput
  | stepTimeout (program : Program) (step : Nat)
  | condition (index : Nat)
  | conditionLost (index : Nat)
  | nodeFault (node : Nat)
  | prereqLost (zone : Nat)
  deriving DecidableEq, Repr

inductive Comparison where
  | ge | le
  deriving DecidableEq, Repr

/-- A program step (Table 6-2). -/
inductive Step where
  | set (channel : Nat) (value : Int)
  | waitTime (ms : Nat)
  | waitUntil (channel : Nat) (cmp : Comparison) (threshold : Int) (timeout : Nat)
  deriving DecidableEq, Repr

/-- A trip condition (Table 6-1). -/
structure Condition where
  channel    : Nat
  cmp        : Comparison
  limit      : Int
  tripOnLoss : Bool
  deriving DecidableEq, Repr

structure ZoneDesc where
  kind           : ZoneKind
  prereqs        : List Nat
  guarded        : Bool
  nodeFaultTrips : Bool
  startProgram   : List Step
  stopProgram    : List Step
  conditions     : List Condition
  deriving DecidableEq, Repr

/-- A present zone's state (R88). -/
structure ZoneRun where
  state      : ZoneState
  runPending : Bool
  cause      : TripCause
  /-- The running program and its current step number. -/
  program    : Option (Program × Nat)
  deadline   : Option Word
  entryTime  : Word
  trips      : Word
  deriving DecidableEq, Repr

structure Zone where
  desc : ZoneDesc
  run  : ZoneRun
  deriving DecidableEq, Repr

/-! ## Track unit (Chapters 7 and 8) -/

inductive Criterion where
  | none | blanch | freeze
  deriving DecidableEq, Repr

/-- A section descriptor (Table 7-1) of a used section. -/
structure SectionDesc where
  zone          : Nat
  length        : Nat
  motion        : Nat
  countsPerCell : Nat
  criterion     : Criterion
  criterionChan : Nat
  maxGap        : Nat
  arrivalFlag   : Bool
  deriving DecidableEq, Repr

/-- Cell outcomes, in the severity order of R135. -/
inductive CellOutcome where
  | pass | short | overMax | unmeasured | positionLost | deviation
  deriving DecidableEq, Repr

/-- An occupied cell (R108). -/
structure TrackCell where
  lot             : Nat
  units           : Nat
  entryTime       : Word
  blanchCredit    : Nat
  freezeCredit    : Nat
  blanchOutcome   : Option CellOutcome
  overall         : Option CellOutcome
  blanchDeviation : Bool
  freezeDeviation : Bool
  unmeasured      : Bool
  positionLost    : Bool
  mixed           : Bool
  deriving DecidableEq, Repr

/-- A used section: its descriptor, its places from entry to exit, its remainder (R109), its last criterion sample
time (R128), its last received lot and its arrival record (R124). -/
structure Section where
  desc          : SectionDesc
  places        : List (Option TrackCell)
  remainder     : Nat
  lastCriterion : Option Word
  lastLot       : Nat
  arrival       : Option (Nat × Word)
  deriving DecidableEq, Repr

/-- A stored count and its source, true for simulated (R109). -/
structure StoredCount where
  count     : Nat
  simulated : Bool
  deriving DecidableEq, Repr

inductive Verdict where
  | pending | released | held | trial | empty
  deriving DecidableEq, Repr

/-- The six outcome unit counts (R135). -/
structure OutcomeUnits where
  pass         : Word
  short        : Word
  overMax      : Word
  unmeasured   : Word
  positionLost : Word
  deviation    : Word
  deriving DecidableEq, Repr

/-- A live lot's record (R118); `pos` is its entry of the lot table. -/
structure Lot where
  pos            : Nat
  number         : Nat
  isOpen         : Bool
  trial          : Bool
  recipe         : Nat
  admissionTime  : Word
  admissionOrder : Word
  admitted       : Word
  mergedIn       : Word
  onTrack        : Word
  unevaluated    : Word
  mixedAway      : Word
  mixed          : Bool
  outcomes       : OutcomeUnits
  verdict        : Verdict
  /-- The reason mask (R137, Table 12-1). -/
  reasons        : BitVec 7
  verdictTime    : Option Word
  massDelivered  : Nat
  massBagged     : Nat
  residual       : Nat
  bagsMade       : Word
  bagsRejected   : Word
  livePallets    : Nat
  exposedPallets : Word
  firstExit      : Option Word
  deriving DecidableEq, Repr

/-- A valid recipe (Table 8-1). -/
structure Recipe where
  product         : Nat
  blanchMin       : Int
  blanchDeviation : Int
  blanchCreditMin : Nat
  blanchCreditMax : Nat
  freezeMax       : Int
  freezeDeviation : Int
  freezeCreditMin : Nat
  massPerUnit     : Nat
  bagTarget       : Nat
  bagMin          : Nat
  bagMax          : Nat
  exposureLimit   : Nat
  deriving DecidableEq, Repr

/-- The track unit. `sections` holds the used sections, from section 0; `motion` holds, by channel, the stored count of
each motion channel; `lots` holds the live lots; an entry of `recipes` is none when it is not valid. -/
structure Track where
  sections   : List Section
  motion     : List (Option StoredCount)
  lots       : List Lot
  lotCounter : Nat
  admissions : Word
  recipes    : List (Option Recipe)
  deriving DecidableEq, Repr

/-! ## Pack unit (Chapter 9) -/

/-- A feed list entry (R140). -/
structure FeedEntry where
  lot  : Nat
  mass : Nat
  exit : Word
  deriving DecidableEq, Repr

inductive Lane where
  | release | hold | reject
  deriving DecidableEq, Repr

inductive BagReason where
  | none | zone | noLot | overspan | trial | weight | noPallet | recipes | lotHeld
  deriving DecidableEq, Repr

inductive PalletState where
  | opened | closed | inTransit | unconfirmed | stored
  deriving DecidableEq, Repr

inductive CloseReason where
  | none | capacity | lots | host | exposed
  deriving DecidableEq, Repr

/-- An exposure timer (R156). A running one runs out at the pallet's deadline. -/
inductive ExposureTimer where
  | idle | running | expired
  deriving DecidableEq, Repr

/-- A lot list entry (R148). -/
structure PalletLot where
  lot         : Nat
  bags        : Nat
  provisional : Nat
  deriving DecidableEq, Repr

/-- A live pallet's record (R148); `pos` is its record of the pallet table. -/
structure Pallet where
  pos           : Nat
  number        : Nat
  lane          : Lane
  state         : PalletState
  bags          : Nat
  mass          : Nat
  lots          : List PalletLot
  exposureStart : Option Word
  deadline      : Option Word
  exposed       : Bool
  reason        : CloseReason
  joinOrder     : Option Word
  timer         : ExposureTimer
  deriving DecidableEq, Repr

/-- An entry of the recent bag ring (R147). -/
structure RingEntry where
  bag         : Word
  weight      : Nat
  pallet      : Nat
  first       : Nat
  second      : Nat
  lane        : Lane
  reason      : BagReason
  provisional : Bool
  deriving DecidableEq, Repr

/-- An entry of the ring that no bag has been written to (R147). -/
def RingEntry.zero : RingEntry := ⟨0, 0, 0, 0, 0, .release, .none, false⟩

/-- The pack unit. -/
structure Pack where
  feed          : List FeedEntry
  pallets       : List Pallet
  palletCounter : Nat
  bagCounter    : Word
  ring          : List RingEntry
  ringNext      : Nat
  /-- The lane decision it gives LANE_SELECT (R147). -/
  laneSelect    : Lane
  /-- The value it gives BAGGER_HOLD (R154). -/
  baggerHold    : Bool
  deriving DecidableEq, Repr

/-! ## Transfer unit (Chapter 10) -/

/-- The pallet in transit and the transit timer's deadline (R159). -/
structure Transit where
  number   : Nat
  deadline : Word
  deriving DecidableEq, Repr

/-- The transfer unit; the path is BUSY while `transit` holds a pallet. -/
structure Transfer where
  transit       : Option Transit
  joinCounter   : Word
  lastDispatch  : Word
  dispatches    : Word
  confirmations : Word
  lates         : Word
  timeouts      : Word
  mismatches    : Word
  lastMismatch  : Nat
  deriving DecidableEq, Repr

/-! ## Record log (Chapter 11) -/

inductive RecordKind where
  | lotAdmitted | lotVerdict | lotSummary | pallet | zoneTrip | nodeFault | nodeRecovered | configCommitted
  | storeMismatch | exposure | watchdog
  deriving DecidableEq, Repr

/-- A written entry: words 0 to 2, and the payload from word 3 (12.5). -/
structure LogEntry where
  seq     : Word
  kind    : RecordKind
  time    : Word
  payload : List Word
  deriving DecidableEq, Repr

/-- The record log; an entry is none until it is first written. -/
structure RecordLog where
  entries  : List (Option LogEntry)
  producer : Nat
  consumer : Nat
  full     : Bool
  reserved : Nat
  seq      : Word
  drops    : Word
  deriving DecidableEq, Repr

/-! ## The whole part -/

/-- The blocks behind the path unit. `choices` is the model's own: it numbers the free values taken from Config
(notes/assumptions/11, 13, 14). -/
structure Line where
  status     : Status
  request    : RequestUnit
  /-- The general block of the active configuration, none while no configuration is active (R75, R86). -/
  active     : Option General
  chans      : List Channel
  /-- The match table: word address and channel (R11). -/
  matchTable : List (Word × Nat)
  link       : Link
  zones      : List (Option Zone)
  /-- The level of STOP_N, true high (R73, R88). -/
  stopHigh   : Bool
  track      : Track
  pack       : Pack
  transfer   : Transfer
  log        : RecordLog
  choices    : Nat
  deriving DecidableEq, Repr

/-- The path unit (R17). `readData` is what the data lines carried at the last completed upstream read; `freeReads` is
the model's own: it numbers the free bytes of Config.openBus. -/
structure Path where
  straps    : Straps
  touch     : Bool
  arbiter   : Nat
  readData  : Word
  freeReads : Nat
  deriving DecidableEq, Repr

/-- The machine: the waiting commands, first in, first out, process memory, the path unit and the blocks behind it. -/
structure State where
  pending : List Instr
  mem     : Memory
  path    : Path
  line    : Line
  deriving DecidableEq, Repr

/-! ## Reset -/

/-- The blocks right after a pin reset, with STOP_N high (R17, R25, R28, R29, R34, R57, R88, R107, R118, R126, R140,
R142, R147, R148, R158, R169, R175). -/
def Line.reset : Line where
  status := { notices := 0, enables := 0, heartbeat := 0, watchdog := .stopped, restart := 0, lastBad := 0, time := 0 }
  request := { slots := List.replicate Config.slotCount Slot.empty, queue := [], recipeJob := none, commit := none,
               reinit := none }
  active := none
  chans := List.replicate Config.channelCount Channel.unused
  matchTable := []
  link := { state := .idle, nodes := List.replicate Config.nodeCount Node.absent,
            seqBits := List.replicate Config.nodeCount false, busy := .quiet, safeWaits := false, scanList := [],
            period := none, cycle := none, owed := false, oneShots := [], discovery := none, halt := none, overrun := 0,
            safeCount := 0, sent := [], driving := false, limit := 5000, replyDue := none }
  zones := List.replicate Config.zoneCount none
  stopHigh := true
  track := { sections := [], motion := List.replicate Config.channelCount none, lots := [], lotCounter := 1,
             admissions := 0, recipes := List.replicate Config.recipeCount none }
  pack := { feed := [], pallets := [], palletCounter := 1, bagCounter := 1,
            ring := List.replicate Config.ringCount RingEntry.zero, ringNext := 0, laneSelect := .release,
            baggerHold := false }
  transfer := { transit := none, joinCounter := 0, lastDispatch := 0, dispatches := 0, confirmations := 0, lates := 0,
                timeouts := 0, mismatches := 0, lastMismatch := 0 }
  log := { entries := List.replicate Config.logCount none, producer := 0, consumer := 0, full := false, reserved := 0,
           seq := 0, drops := 0 }
  choices := 0

/-- The machine right after reset: every block at its pin reset state, memory with nothing listed, no command waiting.
The straps all 0 and STOP_N high are DESIGN CHOICES (notes/assumptions/1): the manual samples them from pins. -/
def State.reset : State where
  pending := []
  mem := []
  path := { straps := { ca := 0, ms := 0, ubo := false, lr := 0 }, touch := false, arbiter := 0, readData := 0,
            freeReads := 0 }
  line := Line.reset

end Sys2Proof.Machine
end

