-- ==== Sys2Proof/Machine/Codes.lean ====
section
/-! DEFINITION. The numeric codes of Table 12-1. -/

namespace Sys2Proof.Machine

def SlotState.code : SlotState → Nat
  | .free => 0 | .submitted => 1 | .taken => 2 | .done => 3

/-- The request kinds by number; `none` is a kind outside the list (R21). -/
inductive RequestKind where
  | commitFull | commitRecipe | reinit | discover | linkStart | linkHalt | nodeRead | nodeWrite | zoneStart | zoneRun
  | zoneStop | zoneReset | zoneSimulate | lotOpen | lotClose | lotFlush | injectBag | palletClose | palletConfirm
  deriving DecidableEq, Repr

def RequestKind.ofCode : Nat → Option RequestKind
  | 1 => some .commitFull | 2 => some .commitRecipe | 3 => some .reinit | 4 => some .discover | 5 => some .linkStart
  | 6 => some .linkHalt | 7 => some .nodeRead | 8 => some .nodeWrite | 9 => some .zoneStart | 10 => some .zoneRun
  | 11 => some .zoneStop | 12 => some .zoneReset | 13 => some .zoneSimulate | 14 => some .lotOpen
  | 15 => some .lotClose | 16 => some .lotFlush | 17 => some .injectBag | 18 => some .palletClose
  | 19 => some .palletConfirm | _ => none

/-- The result codes (Table 2-3). -/
inductive ResultCode where
  | ok | busy | badRequest | zoneState | prereq | stopActive | inUse | tableFull | noLogSpace | noLot | notFound
  | linkState | configInvalid | stagingChanged | timeout | nodeError | palletState | tripActive
  deriving DecidableEq, Repr

def ResultCode.code : ResultCode → Nat
  | .ok => 1 | .busy => 2 | .badRequest => 3 | .zoneState => 4 | .prereq => 5 | .stopActive => 6 | .inUse => 7
  | .tableFull => 8 | .noLogSpace => 9 | .noLot => 10 | .notFound => 11 | .linkState => 12 | .configInvalid => 13
  | .stagingChanged => 14 | .timeout => 15 | .nodeError => 16 | .palletState => 17 | .tripActive => 18

def ChanKind.code : ChanKind → Nat
  | .unused => 0 | .inputAnalog => 1 | .inputCounter => 2 | .inputDiscrete => 3 | .outputAnalog => 4
  | .outputDiscrete => 5 | .partOutput => 6 | .event => 7

def ChanKind.ofCode : Nat → ChanKind
  | 1 => .inputAnalog | 2 => .inputCounter | 3 => .inputDiscrete | 4 => .outputAnalog | 5 => .outputDiscrete
  | 6 => .partOutput | 7 => .event | _ => .unused

/-- "Inputs" of Chapter 3. -/
def ChanKind.isInput : ChanKind → Bool
  | .inputAnalog | .inputCounter | .inputDiscrete => true
  | _ => false

/-- "Outputs" of Chapter 3: not the part-driven ones. -/
def ChanKind.isOutput : ChanKind → Bool
  | .outputAnalog | .outputDiscrete => true
  | _ => false

/-- Outputs and part-driven outputs. -/
def ChanKind.drives (k : ChanKind) : Bool := k.isOutput || k == .partOutput

def ChanFunction.ofCode : Nat → ChanFunction
  | 1 => .laneSelect | 2 => .baggerHold | 3 => .transferStart | 4 => .bagDone | 5 => .storeDone | _ => .none

def Quality.code : Quality → Nat
  | .unbound => 0 | .good => 1 | .stale => 2 | .fault => 3

def ZoneKind.code : ZoneKind → Nat
  | .track => 1 | .bag => 2 | .transfer => 3 | .utility => 4

def ZoneState.code : ZoneState → Nat
  | .off => 0 | .starting => 1 | .ready => 2 | .running => 3 | .stopping => 4 | .tripped => 5 | .simulate => 6

def Program.code : Program → Nat
  | .start => 1 | .stop => 2

def TripCause.code : TripCause → Nat
  | .none => 0 | .watchdog => 1 | .stopInput => 2 | .stepTimeout _ _ => 3 | .condition _ => 4 | .conditionLost _ => 5
  | .nodeFault _ => 6 | .prereqLost _ => 7

def LinkState.code : LinkState → Nat
  | .idle => 0 | .discovering => 1 | .scanning => 2 | .halting => 3

def NodeState.code : NodeState → Nat
  | .absent => 0 | .discovered => 1 | .bound => 2 | .running => 3 | .faulted => 4

def DiscoveryOutcome.code : DiscoveryOutcome → Nat
  | .none => 0 | .found => 1 | .noReply => 2 | .incomplete => 3 | .badPoints => 4

def Direction.code : Direction → Nat
  | .input => 0 | .output => 1 | .event => 2

def Direction.ofCode : Nat → Direction
  | 0 => .input | 1 => .output | _ => .event

def Criterion.code : Criterion → Nat
  | .none => 0 | .blanch => 1 | .freeze => 2

def CellOutcome.code : CellOutcome → Nat
  | .pass => 1 | .short => 2 | .overMax => 3 | .unmeasured => 4 | .positionLost => 5 | .deviation => 6

def Verdict.code : Verdict → Nat
  | .pending => 0 | .released => 1 | .held => 2 | .trial => 3 | .empty => 4

def Lane.code : Lane → Nat
  | .release => 0 | .hold => 1 | .reject => 2

def BagReason.code : BagReason → Nat
  | .none => 0 | .zone => 1 | .noLot => 2 | .overspan => 3 | .trial => 4 | .weight => 5 | .noPallet => 6
  | .recipes => 7 | .lotHeld => 8

def PalletState.code : PalletState → Nat
  | .opened => 1 | .closed => 2 | .inTransit => 3 | .unconfirmed => 4 | .stored => 5

def CloseReason.code : CloseReason → Nat
  | .none => 0 | .capacity => 1 | .lots => 2 | .host => 3 | .exposed => 4

def WatchdogState.code : WatchdogState → Nat
  | .stopped => 0 | .running => 1 | .expired => 2

def RecordKind.code : RecordKind → Nat
  | .lotAdmitted => 1 | .lotVerdict => 2 | .lotSummary => 3 | .pallet => 4 | .zoneTrip => 5 | .nodeFault => 6
  | .nodeRecovered => 7 | .configCommitted => 8 | .storeMismatch => 9 | .exposure => 10 | .watchdog => 11

def FrameKind.code : FrameKind → Byte
  | .scan => 0x01 | .enum => 0x02 | .pget => 0x03 | .pset => 0x04 | .safe => 0x0F

/-- Trip detail as the zone view and the ZONE_TRIP record show it (Table 12-3, R88). -/
def TripCause.detail : TripCause → Nat
  | .stepTimeout p k => p.code + 256 * k
  | .condition i | .conditionLost i => i
  | .nodeFault n => n
  | .prereqLost z => z
  | .none | .watchdog | .stopInput => 0

end Sys2Proof.Machine
end

