-- ==== Sys2Proof/Machine/Operands.lean ====
section
/-! DEFINITION. The operand forms: bit fields of words, data lanes and byte enables (R2), byte order and arrangements
(R12), access classes (R3), control-area addresses (Table 1-2), and comparisons of line times (00_scope, section 5). -/

namespace Sys2Proof.Machine

/-! ## Bit fields of words (12.1) -/

/-- The unsigned field of `len` bits at bit `lo` of a word (R176). -/
def bits (w : Word) (lo len : Nat) : Nat := (w.toNat / 2 ^ lo) % 2 ^ len

/-- One bit of a word. -/
def bit (w : Word) (n : Nat) : Bool := bits w n 1 == 1

/-- The word whose fields (bit position, width, value) are given; every other bit is 0 (R176). -/
def fields (fs : List (Nat × Nat × Nat)) : Word :=
  BitVec.ofNat 32 (fs.foldl (fun acc f => acc + (f.2.2 % 2 ^ f.2.1) * 2 ^ f.1) 0)

/-- A Bool as a one-bit field. -/
def flag (b : Bool) : Nat := if b then 1 else 0

/-- A number as a word. -/
def word (n : Nat) : Word := BitVec.ofNat 32 n

/-- A signed value as a word, in two's complement (R176). -/
def signedWord (v : Int) : Word := BitVec.ofInt 32 v

/-- An absent word reads 0 (R176). -/
def orZero (w : Option Word) : Word := w.getD 0

/-- The lesser of a count and a bound: the saturated fields of R176 and the saturating masses of Chapter 9. -/
def capped (bound n : Nat) : Nat := if bound < n then bound else n

/-- A mass added to a mass, saturating at 2^32 - 1 (R118, R140, R141, R148). -/
def addMass (a b : Nat) : Nat := capped Config.maxCount (a + b)

/-! ## Lanes, byte order and arrangement -/

/-- The four bytes of a word reversed. -/
def reverseBytes (w : Word) : Word :=
  fields [(0, 8, bits w 24 8), (8, 8, bits w 16 8), (16, 8, bits w 8 8), (24, 8, bits w 0 8)]

/-- A value placed on the data lanes in the upstream byte order, and a value taken from them: little puts the least
significant byte at the lowest address, big the most significant (R12). -/
def upstreamOrder (ubo : Bool) (w : Word) : Word := if ubo then reverseBytes w else w

/-- The channel's arrangement (R12). -/
def arrange : Arrangement → Word → Word
  | .asIs, w => w
  | .swapBytes, w => fields [(0, 8, bits w 8 8), (8, 8, bits w 0 8), (16, 8, bits w 24 8), (24, 8, bits w 16 8)]
  | .swapHalves, w => fields [(0, 16, bits w 16 16), (16, 16, bits w 0 16)]
  | .swapBoth, w => reverseBytes w

/-- Byte k of a word: data lane k, or the byte at word address + k. -/
def lane (w : Word) (k : Nat) : Byte := BitVec.ofNat 8 (bits w (8 * k) 8)

/-- The word whose lanes 0 to 3 carry the given bytes. -/
def ofLanes (b0 b1 b2 b3 : Byte) : Word :=
  fields [(0, 8, b0.toNat), (8, 8, b1.toNat), (16, 8, b2.toNat), (24, 8, b3.toNat)]

/-- Byte enable k. -/
def enabled (be : BitVec 4) (k : Nat) : Bool := (be.toNat / 2 ^ k) % 2 == 1

/-- A part-answered read drives the enabled lanes from its answer and the disabled lanes at zero (R2). -/
def maskLanes (be : BitVec 4) (w : Word) : Word :=
  fields ((List.range 4).map fun k => (8 * k, 8, if enabled be k then bits w (8 * k) 8 else 0))

/-- All four enables set: a full-word access (R2). -/
def fullWord (be : BitVec 4) : Bool := be == 15#4

/-- The word address: the byte address with its two lowest bits cleared (R2). -/
def wordAddress (a : Word) : Nat := a.toNat - a.toNat % 4

/-! ## Straps (Table 1-1) -/

/-- The control area base (R1). -/
def controlBase (st : Straps) : Nat := st.ca.toNat * 0x40000

/-- The process memory size in bytes (R1). -/
def memorySize (st : Straps) : Nat := 2 ^ (20 + st.ms.toNat)

/-- Where the staging region starts (Table 1-2, R10). -/
def stagingBase (st : Straps) : Nat := controlBase st + 0x20000

/-- The byte address of word `w` of request slot `i` (2.1). -/
def slotAddress (st : Straps) (i w : Nat) : Word := word (controlBase st + 0x100 + 64 * i + 4 * w)

/-! ## Access classes (R3) -/

/-- The class of an access with enables set. -/
inductive AccessClass where
  /-- The part-owned area, at an offset below 0x20000. -/
  | part (offset : Nat)
  /-- The staging region. -/
  | staging
  /-- The word of a channel. -/
  | channel (index : Nat)
  | passThrough
  deriving DecidableEq, Repr

/-- The channel a word address belongs to in the match table (R11). -/
def matchChannel : List (Word × Nat) → Nat → Option Nat
  | [], _ => none
  | (a, i) :: rest, w => if a.toNat = w then some i else matchChannel rest w

/-- The class of a word address, by the table of R3. -/
def classify (st : Straps) (table : List (Word × Nat)) (w : Nat) : AccessClass :=
  if controlBase st ≤ w ∧ w ≤ controlBase st + 0x2FFFF then
    if w - controlBase st < 0x20000 then .part (w - controlBase st) else .staging
  else
    match matchChannel table w with
    | some i => .channel i
    | none => .passThrough

/-! ## Line time -/

/-- Line time `now` has reached `deadline`, compared modulo 2^32 (00_scope, section 5). -/
def reached (now deadline : Word) : Bool := (now - deadline).toNat < 2 ^ 31

/-- `a` is earlier than `b`, modulo 2^32. -/
def earlier (a b : Word) : Bool := a != b && reached b a

/-- The time passed from `since` to `now`. -/
def elapsed (now since : Word) : Nat := (now - since).toNat

/-- `now` plus a duration in milliseconds. -/
def after (now : Word) (ms : Nat) : Word := now + word ms

/-! ## Tables -/

/-- The entries of a list with the given predicate, by index. -/
def indicesWhere {α : Type} (p : α → Bool) (xs : List α) : List Nat :=
  (List.range xs.length).filter fun i => (xs[i]?).any p

/-- Replace one entry of a table. -/
def change {α : Type} (xs : List α) (i : Nat) (f : α → α) : List α := xs.modify i f

/-- A signed comparison of two exact values clamped into [lo, hi] (R35, R43, R44). -/
def clampInt (lo hi v : Int) : Int := if v < lo then lo else if hi < v then hi else v

end Sys2Proof.Machine
end

