-- ==== Sys2Proof/Machine/Flags.lean ====
section
/-! DEFINITION. The notices and the attention line (2.6): raising, clearing, enabling, and ATTN. -/

namespace Sys2Proof.Machine

/-- The eighteen notices (Table 2-4). -/
inductive Notice where
  | reqDone | zoneChange | zoneTrip | nodeFault | linkHalted | channelStale | limitRefused | badWrite | watchdog
  | lotArrival | lotVerdict | baggerHold | palletExposed | palletResolved | storeMismatch | logThreshold | logDrop
  | stopInput
  deriving DecidableEq, Repr

/-- A notice's bit position (Table 12-1). -/
def Notice.bit : Notice → Nat
  | .reqDone => 0 | .zoneChange => 1 | .zoneTrip => 2 | .nodeFault => 3 | .linkHalted => 4 | .channelStale => 5
  | .limitRefused => 6 | .badWrite => 7 | .watchdog => 8 | .lotArrival => 9 | .lotVerdict => 10 | .baggerHold => 11
  | .palletExposed => 12 | .palletResolved => 13 | .storeMismatch => 14 | .logThreshold => 15 | .logDrop => 16
  | .stopInput => 17

/-- A notice's bit in the notice word. -/
def Notice.mask (n : Notice) : BitVec 18 := 1#18 <<< n.bit

/-- A block raises a notice: its bit is set, and stays set if it was (R26). -/
def raise (n : Notice) (l : Line) : Line :=
  { l with status := { l.status with notices := l.status.notices ||| n.mask } }

/-- A notice is set. -/
def noticeSet (l : Line) (n : Notice) : Bool := l.status.notices &&& n.mask != 0

/-- A full-word write to the notice word clears each notice whose bit is 1 and ignores the bits above the eighteen
(R26). -/
def clearNotices (v : Word) (l : Line) : Line :=
  { l with status := { l.status with notices := l.status.notices &&& ~~~(v.setWidth 18) } }

/-- A full-word write to the enable word replaces the eighteen enables (R27). -/
def setEnables (v : Word) (l : Line) : Line :=
  { l with status := { l.status with enables := v.setWidth 18 } }

/-- ATTN is asserted (driven low) while at least one set notice is enabled (R27). -/
def attnAsserted (l : Line) : Bool := l.status.notices &&& l.status.enables != 0

/-- A discarded write records its byte address and raises BAD_WRITE (R7). -/
def badWrite (addr : Word) (l : Line) : Line :=
  raise .badWrite { l with status := { l.status with lastBad := addr } }

end Sys2Proof.Machine
end

