-- ==== Sys2Proof/Machine/Ops.lean ====
section
/-! DEFINITION. The named operations over memory, tables, request slots and the record log. -/

namespace Sys2Proof.Machine

/-! ## Process memory (R4, R10) -/

/-- The byte at a memory location. -/
def Memory.read : Memory → Nat → Byte
  | [], _ => Config.memoryFill
  | (k, b) :: rest, a => if k = a then b else Memory.read rest a

/-- Write one byte, keeping the canonical form: a byte equal to what an unlisted location reads as is not listed. -/
def Memory.write : Memory → Nat → Byte → Memory
  | [], a, b => if b = Config.memoryFill then [] else [(a, b)]
  | (k, c) :: rest, a, b =>
    if a < k then if b = Config.memoryFill then (k, c) :: rest else (a, b) :: (k, c) :: rest
    else if a = k then if b = Config.memoryFill then rest else (a, b) :: rest
    else (k, c) :: Memory.write rest a b

/-- Every listed address is at or above `lo`, addresses rise, and no listed byte is the fill. -/
def Memory.above : Nat → Memory → Bool
  | _, [] => true
  | lo, (k, b) :: rest => decide (lo ≤ k) && b != Config.memoryFill && Memory.above (k + 1) rest

/-- The canonical form. -/
def Memory.wf (m : Memory) : Bool := Memory.above 0 m

/-- Where the memory keeps a byte address: an address below the memory size at its own place; another wherever the
memory itself puts it, or nowhere (R4, notes/assumptions/3). -/
def memoryPlace (st : Straps) (a : Nat) : Option Nat :=
  if a < memorySize st then some a
  else (Config.beyondMemory a).bind fun p => if p < memorySize st then some p else none

/-- One byte read through the memory port; `n` numbers the free byte of an address the memory does not hold. -/
def memoryByte (st : Straps) (m : Memory) (n a : Nat) : Byte :=
  match memoryPlace st a with
  | some p => m.read p
  | none => Config.openBus n a

/-- One word read through the memory port, its lanes in address order. -/
def memoryWord (st : Straps) (m : Memory) (n w : Nat) : Word :=
  ofLanes (memoryByte st m n w) (memoryByte st m n (w + 1)) (memoryByte st m n (w + 2)) (memoryByte st m n (w + 3))

/-- One byte written through the memory port. -/
def writeByte (st : Straps) (m : Memory) (a : Nat) (b : Byte) : Memory :=
  match memoryPlace st a with
  | some p => m.write p b
  | none => m

/-- The enabled lanes of a word written through the memory port (R4). -/
def writeLanes (st : Straps) (m : Memory) (w : Nat) (be : BitVec 4) (data : Word) : Memory :=
  (List.range 4).foldl (fun m k => if enabled be k then writeByte st m (w + k) (lane data k) else m) m

/-! ## Free choices (notes/assumptions/11, 13, 14) -/

/-- One of several admissible numbers: the only one where there is one, else a free one. -/
def pickOne (candidates : List Nat) (l : Line) : Nat × Line :=
  match candidates with
  | [] => (0, l)
  | [c] => (c, l)
  | c :: rest =>
    ((c :: rest).getD (Config.freeIndex l.choices % (c :: rest).length) c, { l with choices := l.choices + 1 })

/-- Two parts of one event that the manual states to be without order. Where only one of them acts (`both` is false)
there is nothing to choose; otherwise the order is free. -/
def unordered (both : Bool) (f g : Line → Line) (l : Line) : Line :=
  if both then
    if Config.freeOrder l.choices then f (g { l with choices := l.choices + 1 })
    else g (f { l with choices := l.choices + 1 })
  else g (f l)

/-- Parts of an event in a free order: one after another is picked from those left. -/
def freely : Nat → List (Line → Line) → Line → Line
  | 0, _, l => l
  | fuel + 1, parts, l =>
    let (k, l) := pickOne (List.range parts.length) l
    freely fuel (parts.eraseIdx k) ((parts.getD k id) l)

/-- Parts of one event that the manual gives no order, each with whether it acts where the order can show. The others go
first; those that act go in a free order, and where at most one does there is nothing to choose. -/
def inFreeOrder (parts : List (Bool × (Line → Line))) (l : Line) : Line :=
  let act := (parts.filter (·.1)).map (·.2)
  freely act.length act ((parts.filter fun p => !p.1).foldl (fun l p => p.2 l) l)

/-! ## Tables -/

/-- The line time now. -/
def now (l : Line) : Word := l.status.time

/-- An entry of the channel table. -/
def chan (l : Line) (i : Nat) : Channel := l.chans.getD i Channel.unused

/-- Change one channel's runtime state. -/
def changeRun (i : Nat) (f : ChanRun → ChanRun) (l : Line) : Line :=
  { l with chans := change l.chans i fun c => { c with run := f c.run } }

/-- A present zone of the zone table. -/
def zone? (l : Line) (z : Nat) : Option Zone := l.zones.getD z none

/-- A present zone's state. -/
def zoneState (l : Line) (z : Nat) : Option ZoneState := (zone? l z).map (·.run.state)

/-- A zone is present and RUNNING. -/
def isRunning (l : Line) (z : Nat) : Bool := zoneState l z == some .running

/-- The present zone of a kind, of which the commit allows one (R79). -/
def zoneOfKind (l : Line) (k : ZoneKind) : Option Nat :=
  (List.range Config.zoneCount).find? fun z => (zone? l z).any (·.desc.kind == k)

/-- The present zone of a kind is in the given state. -/
def kindIn (l : Line) (k : ZoneKind) (s : ZoneState) : Bool :=
  match zoneOfKind l k with
  | some z => zoneState l z == some s
  | none => false

/-- A node's record, by address 1 to 16. -/
def nodeAt (l : Line) (n : Nat) : Node := l.link.nodes.getD (n - 1) Node.absent

/-- Change a node's record, by address 1 to 16. -/
def changeNode (n : Nat) (f : Node → Node) (l : Line) : Line :=
  { l with link := { l.link with nodes := change l.link.nodes (n - 1) f } }

/-- A node's point record, by point index. -/
def pointAt (nd : Node) (p : Nat) : Option Point := nd.points.find? (·.index == p)

/-- The general block's log threshold; 1024 with no active configuration (R175). -/
def logThreshold (l : Line) : Nat := (l.active.map (·.logThreshold)).getD 1024

/-- The general block's reserve floor; 0 with no active configuration (R175). -/
def reserveFloor (l : Line) : Nat := (l.active.map (·.reserveFloor)).getD 0

/-! ## Request slots (Chapter 2) -/

/-- A slot. -/
def slotAt (l : Line) (i : Nat) : Slot := l.request.slots.getD i Slot.empty

/-- Change a slot. -/
def changeSlot (i : Nat) (f : Slot → Slot) (l : Line) : Line :=
  { l with request := { l.request with slots := change l.request.slots i f } }

/-- What an owner answers to a request: the result code and the result values (R24). -/
structure Reply where
  code : ResultCode
  v9   : Word := 0
  v10  : Word := 0
  v11  : Word := 0
  v12  : Word := 0
  deriving DecidableEq, Repr

/-- A request completes: its slot becomes DONE with the result, and REQ_DONE is raised, as one change (R21, R22). -/
def complete (i : Nat) (r : Reply) (l : Line) : Line :=
  raise .reqDone (changeSlot i (fun s =>
    { s with state := .done, result := word r.code.code, val9 := r.v9, val10 := r.v10, val11 := r.v11, val12 := r.v12 }) l)

/-- A long request goes from SUBMITTED to TAKEN (R21). -/
def markTaken (i : Nat) (l : Line) : Line := changeSlot i (fun s => { s with state := .taken }) l

/-! ## The record log (Chapter 11) -/

/-- The used count (R170). -/
def usedCount (g : RecordLog) : Nat :=
  if g.full then Config.logCount else (g.producer + Config.logCount - g.consumer) % Config.logCount

/-- The free unreserved count (11.2). -/
def freeUnreserved (g : RecordLog) : Nat := Config.logCount - usedCount g - g.reserved

/-- A record is written at the producer index, takes the next sequence number, and the index moves on (R170). -/
def appendRecord (g : RecordLog) (kind : RecordKind) (time : Word) (payload : List Word) : RecordLog :=
  let next := (g.producer + 1) % Config.logCount
  { g with
    entries := change g.entries g.producer fun _ => some { seq := g.seq, kind := kind, time := time, payload := payload }
    producer := next
    full := next == g.consumer
    seq := g.seq + 1 }

/-- LOG_THRESHOLD is raised when used plus reserved stands at or above the threshold (R174). -/
def judgeThreshold (l : Line) : Line :=
  if logThreshold l ≤ usedCount l.log + l.log.reserved then raise .logThreshold l else l

/-- The log can grant n reservations (R171). -/
def canGrant (l : Line) (n : Nat) : Bool := n ≤ freeUnreserved l.log

/-- A grant of n reservations (R171, R174). -/
def grant (n : Nat) (l : Line) : Line :=
  judgeThreshold { l with log := { l.log with reserved := l.log.reserved + n } }

/-- A reservation returned unwritten (R171). -/
def returnReservation (l : Line) : Line :=
  { l with log := { l.log with reserved := l.log.reserved - 1 } }

/-- A reserved record is written and ends one reservation (R171). With no reservation outstanding, which no run
reaches, nothing is written (notes/assumptions/24). -/
def writeReserved (kind : RecordKind) (payload : List Word) (l : Line) : Line :=
  if 0 < l.log.reserved then
    let g := appendRecord l.log kind (now l) payload
    { l with log := { g with reserved := g.reserved - 1 } }
  else l

/-- An unreserved record is offered: written while the free unreserved count is above the floor, dropped otherwise
(R172, R174). -/
def offer (kind : RecordKind) (payload : List Word) (l : Line) : Line :=
  if reserveFloor l < freeUnreserved l.log then
    judgeThreshold { l with log := appendRecord l.log kind (now l) payload }
  else raise .logDrop { l with log := { l.log with drops := l.log.drops + 1 } }

/-- The distance of a release (R173). -/
def releaseDistance (g : RecordLog) (v : Nat) : Nat :=
  let d := (v + Config.logCount - g.consumer) % Config.logCount
  if d = 0 ∧ g.full then Config.logCount else d

/-- A release write is valid (R173). -/
def releaseValid (g : RecordLog) (v : Nat) : Bool :=
  v < Config.logCount && 1 ≤ releaseDistance g v && releaseDistance g v ≤ usedCount g

end Sys2Proof.Machine
end

