-- ==== Sys2Proof/Machine/Scaling.lean ====
section
/-! DEFINITION. Exact arithmetic on process values, rounded once (R35 to R37, R48, R127). -/

namespace Sys2Proof.Machine

/-- num ÷ den rounded to the nearest integer, halfway cases away from zero (R35); den is not 0. -/
def roundQuotient (num den : Int) : Int :=
  let size := (2 * num.natAbs + den.natAbs) / (2 * den.natAbs)
  if decide (num < 0) == decide (den < 0) then (size : Int) else -(size : Int)

/-- An INPUT_ANALOG raw value as an engineering value (R35). -/
def analogEng (d : ChanDesc) (b : RawRange) (raw : Half) : Int :=
  let span : Int := (b.rawMax.toNat : Int) - (b.rawMin.toNat : Int)
  if span = 0 then d.engMin
  else
    clampInt d.engMin d.engMax
      (roundQuotient (d.engMin * span + ((raw.toNat : Int) - (b.rawMin.toNat : Int)) * (d.engMax - d.engMin)) span)

/-- The engineering value of a field sample, by the input's kind (R35, R36). -/
def engineering (c : Channel) (b : RawRange) (raw : Half) : Int :=
  match c.desc.kind with
  | .inputAnalog => analogEng c.desc b raw
  | .inputDiscrete => if raw = 0 then 0 else 1
  | _ => raw.toNat

/-- The raw range of R37: the bound one, or 0 to 65 535 for an unbound channel. -/
def rangeOf (c : Channel) : RawRange := c.run.bound.getD ⟨0, 65535⟩

/-- A value clamped into the range between raw min and raw max, whichever is greater. -/
def clampRaw (b : RawRange) (v : Int) : Half :=
  let lo := min b.rawMin.toNat b.rawMax.toNat
  let hi := max b.rawMin.toNat b.rawMax.toNat
  BitVec.ofInt 16 (clampInt lo hi v)

/-- The applied raw of an applied value (R37). -/
def rawOfApplied (c : Channel) (applied : Int) : Half :=
  let b := rangeOf c
  match c.desc.kind with
  | .outputAnalog =>
    let span := c.desc.engMax - c.desc.engMin
    if span = 0 then b.rawMin
    else
      clampRaw b (roundQuotient ((b.rawMin.toNat : Int) * span
        + (applied - c.desc.engMin) * ((b.rawMax.toNat : Int) - (b.rawMin.toNat : Int))) span)
  | .outputDiscrete => if applied = 0 then 0 else 1
  | .partOutput => clampRaw b applied
  | _ => 0

/-- A value carried from `have_` decimals to `want` decimals: multiplied by 10 for each extra decimal, divided by 10
for each decimal fewer and rounded once (R48, R127). -/
def carryDecimals (have_ want : Nat) (v : Int) : Int :=
  if have_ ≤ want then v * 10 ^ (want - have_) else roundQuotient v (10 ^ (have_ - want))

/-- The simulated value a host value gives its loopback partner (R48). -/
def loopbackValue (source partner : ChanDesc) (v : Int) : Int :=
  match partner.kind with
  | .inputAnalog => clampInt partner.engMin partner.engMax (carryDecimals source.decimals partner.decimals v)
  | .inputCounter => v % 65536
  | _ => if v = 0 then 0 else 1

end Sys2Proof.Machine
end

