-- ==== Sys2Proof/Machine/Channels.lean ====
section
/-! DEFINITION. The channel unit's own state (Chapter 3): values shown, applied values, function and program values. -/

namespace Sys2Proof.Machine

/-- A channel's current value for zones and reads: its simulated value while the flag is set, else its engineering
value (R91). -/
def currentValue (c : Channel) : Int := if c.run.simFlag then c.run.simValue else c.run.eng

/-- An input is GOOD. -/
def isGood (l : Line) (i : Nat) : Bool := (chan l i).run.quality == .good

/-- The state of a channel's owner zone; none for no owner zone or one without a descriptor, which count as OFF (R45). -/
def ownerState (l : Line) (d : ChanDesc) : Option ZoneState := d.owner.bind (zoneState l)

/-- The applied value by owner zone state (Table 3-6). -/
def appliedValue (st : Option ZoneState) (c : Channel) : Int :=
  if c.desc.kind.isOutput then
    match st with
    | some .running => c.run.hostValue
    | some .starting | some .stopping | some .ready => c.run.programValue
    | some .off | some .tripped | some .simulate | none => c.desc.safe
  else if st = some .running then c.run.functionValue else c.desc.safe

/-- Recompute a channel's applied value and applied raw (R37, R45). Inputs and events have none. -/
def refresh (st : Option ZoneState) (c : Channel) : Channel :=
  if c.desc.kind.drives then
    { c with run := { c.run with applied := appliedValue st c, appliedRaw := rawOfApplied c (appliedValue st c) } }
  else c

/-- Recompute one channel from its owner zone's state. -/
def refreshChannel (i : Nat) (l : Line) : Line :=
  { l with chans := change l.chans i fun c => refresh (ownerState l c.desc) c }

/-- A zone's state change reaches every output and part-driven output it owns (R46). -/
def refreshZone (z : Nat) (l : Line) : Line :=
  { l with chans := l.chans.map fun c => if c.desc.owner = some z then refresh (zoneState l z) c else c }

/-- The program values of a zone's outputs return to their safe values (R44). -/
def safePrograms (z : Nat) (l : Line) : Line :=
  { l with
    chans := l.chans.map fun c =>
      if c.desc.owner = some z ∧ c.desc.kind.isOutput then
        { c with run := { c.run with programValue := c.desc.safe } }
      else c }

/-- A SET step: the program value of an output becomes the step's value clamped into its range; a part-driven output
is left alone (R44). -/
def setProgram (i : Nat) (v : Int) (l : Line) : Line :=
  if (chan l i).desc.kind.isOutput then
    refreshChannel i
      (changeRun i (fun r =>
        { r with programValue := clampInt (chan l i).desc.engMin (chan l i).desc.engMax v }) l)
  else l

/-- A part-driven output's function value, given by its unit (R47). -/
def setFunction (f : ChanFunction) (v : Int) (l : Line) : Line :=
  { l with
    chans := l.chans.map fun c =>
      if c.desc.kind = .partOutput ∧ c.desc.func = f then
        refresh (ownerState l c.desc) { c with run := { c.run with functionValue := v } }
      else c }

/-- The answer to a read of an input's word (R13). -/
def inputAnswer (c : Channel) : Int :=
  if c.run.simFlag then c.run.simValue
  else if c.run.quality = .good then c.run.eng else c.desc.fallback

/-- A comparison of a value with a limit or threshold (R93, R99). -/
def meets : Comparison → Int → Int → Bool
  | .ge, v, limit => limit ≤ v
  | .le, v, limit => v ≤ limit

/-- The index of the channel on a node's point, of the kinds given (check 23 of R78 allows one). -/
def channelOn (l : Line) (p : ChanKind → Bool) (node point : Nat) : Option Nat :=
  l.chans.findIdx? fun c => p c.desc.kind && c.desc.node == node && c.desc.point == point && c.run.bound.isSome

end Sys2Proof.Machine
end

