-- ==== Sys2Proof/Machine/Frames.lean ====
section
/-! DEFINITION. Zone link frames (R54, R55, R177): the CRC, the frames the part sends, and the judgment of a reply. -/

namespace Sys2Proof.Machine

/-! ## CRC (R54) -/

/-- One bit of the CRC: shift left, and subtract the polynomial x^16 + x^12 + x^5 + 1 when a 1 leaves. -/
def crcShift (c : Half) : Half := if c.msb then (c <<< 1) ^^^ 0x1021#16 else c <<< 1

/-- n bits of the CRC. -/
def crcShifts : Nat → Half → Half
  | 0, c => c
  | n + 1, c => crcShifts n (crcShift c)

/-- One byte into the CRC, most significant bit first. -/
def crcByte (c : Half) (b : Byte) : Half := crcShifts 8 (c ^^^ (b.setWidth 16 <<< 8))

/-- The CRC of a byte string, initial value 0xFFFF, no final inversion (R54). -/
def crc (bs : List Byte) : Half := bs.foldl crcByte 0xFFFF#16

/-! ## Bytes of the link: most significant first (R177) -/

/-- A 16-bit value as two bytes. -/
def halfBytes (h : Half) : List Byte := [BitVec.ofNat 8 (h.toNat / 256), BitVec.ofNat 8 (h.toNat % 256)]

/-- Two bytes as a 16-bit value. -/
def byteHalf (hi lo : Byte) : Half := BitVec.ofNat 16 (hi.toNat * 256 + lo.toNat)

/-- The 16-bit value at byte offset k. -/
def halfAt (bs : List Byte) (k : Nat) : Half := byteHalf (bs.getD k 0) (bs.getD (k + 1) 0)

/-- A frame's bytes: start character, address, kind, control byte, payload length, payload, CRC (R177). -/
def frameBytes (kind : FrameKind) (addr : Nat) (control : Byte) (payload : List Byte) : List Byte :=
  let body := [BitVec.ofNat 8 addr, kind.code, control, BitVec.ofNat 8 payload.length] ++ payload
  0xA5#8 :: body ++ halfBytes (crc body)

/-- An exchange's frame. -/
def Exchange.bytes (x : Exchange) : List Byte := frameBytes x.kind x.addr x.control x.payload

/-- The control byte: last-taken sequence in bits 0 to 3, exchange sequence bit in bit 7 (R177). -/
def controlByte (lastTaken : Nat) (seqBit : Bool) : Byte := BitVec.ofNat 8 (lastTaken % 16 + 128 * flag seqBit)

/-! ## Points of a node -/

/-- The points of a direction, in ascending index (R59). -/
def pointsOf (nd : Node) (d : Direction) : List Point := nd.points.filter (·.direction == d)

/-- The raw value a SCAN frame carries for an OUT point: the bound channel's applied raw, else the safe raw (R64). -/
def outRaw (l : Line) (n : Nat) (p : Point) : Half :=
  match channelOn l ChanKind.drives n p.index with
  | some i => (chan l i).run.appliedRaw
  | none => p.safeRaw

/-- The payload of a SCAN frame to node n as it is formed now (R64). -/
def scanPayload (l : Line) (n : Nat) : List Byte :=
  (pointsOf (nodeAt l n) .output).flatMap fun p => halfBytes (outRaw l n p)

/-- The payload of a one-shot's frame (R177). -/
def oneShotPayload (o : OneShot) : List Byte :=
  BitVec.ofNat 8 o.param :: (if o.isSet then halfBytes (BitVec.ofNat 16 o.value) else [])

/-! ## Judging a reply (R54) -/

/-- The payload of a reply that has arrived whole. -/
def replyPayload (chars : List Byte) : List Byte := (chars.drop 5).take (chars.getD 4 0).toNat

/-- The reply has arrived whole: as many characters as its length byte says (notes/assumptions/7). -/
def replyWhole (chars : List Byte) : Bool := 7 + (chars.getD 4 0).toNat ≤ chars.length && 5 ≤ chars.length

/-- The length check of a SCAN reply: 2 per IN point, 2, and 6 per event record, 0 to 2 records (R56). -/
def scanLengthOk (l : Line) (n len : Nat) : Bool :=
  let base := 2 * (pointsOf (nodeAt l n) .input).length + 2
  len == base || len == base + 6 || len == base + 12

/-- The length and byte-code checks by the exchange's job (R56, R59, R70, R177). -/
def payloadOk (l : Line) (x : Exchange) (payload : List Byte) : Bool :=
  match x.job with
  | .scan => scanLengthOk l x.addr payload.length
  | .enum _ => 4 ≤ payload.length && (payload.length - 4) % 10 == 0 && (payload.length - 4) / 10 ≤ 8
  | .oneShot _ => payload.length == 3 && (payload.getD 0 0).toNat ≤ 1

/-- The checks of R54 on a whole reply to exchange x. -/
def replyGood (l : Line) (x : Exchange) (chars : List Byte) : Bool :=
  let payload := replyPayload chars
  let body := (chars.drop 1).take (4 + payload.length)
  replyWhole chars
    && chars.getD 0 0 == 0xA5#8
    && (chars.getD 1 0).toNat == x.addr
    && chars.getD 2 0 == x.kind.code
    && (chars.getD 3 0).msb == x.control.msb
    && payloadOk l x payload
    && halfAt chars (5 + payload.length) == crc body

end Sys2Proof.Machine
end

