-- ==== Sys2Proof/Machine/Lots.lean ====
section
/-! DEFINITION. The lot table and lot retirement (R118, R167). -/

namespace Sys2Proof.Machine

/-- A live lot, by number. -/
def lot? (l : Line) (n : Nat) : Option Lot := l.track.lots.find? (·.number == n)

/-- Change a live lot's record, by number (a claim the track unit applies). -/
def changeLot (n : Nat) (f : Lot → Lot) (l : Line) : Line :=
  { l with track := { l.track with lots := l.track.lots.map fun x => if x.number = n then f x else x } }

/-- The OPEN lot. -/
def openLot (l : Line) : Option Lot := l.track.lots.find? (·.isOpen)

/-- The recipe at an index. -/
def recipeAt (l : Line) (i : Nat) : Option Recipe := l.track.recipes.getD i none

/-- A lot's recipe, as its entry stands now (R126). -/
def lotRecipe (l : Line) (n : Nat) : Option Recipe := (lot? l n).bind fun x => recipeAt l x.recipe

/-- The table positions no live entry holds. -/
def freePositions (size : Nat) (used : List Nat) : List Nat := (List.range size).filter fun p => !used.contains p

/-- The successor of a 16-bit sequence number, skipping 0 and the numbers held (R118, R148). At most 48 numbers are
held, so `fuel` of 64 always reaches a free one. -/
def nextNumber (held : List Nat) : Nat → Nat → Nat
  | 0, n => n
  | fuel + 1, n =>
    let m := if n = 65535 then 1 else n + 1
    if held.contains m then nextNumber held fuel m else m

/-- A lot has an entry in the feed list. -/
def hasFeed (l : Line) (n : Nat) : Bool := l.pack.feed.any (·.lot == n)

/-- The product code of a lot's recipe. -/
def productOf (l : Line) (x : Lot) : Nat := ((recipeAt l x.recipe).map (·.product)).getD 0

/-- Payload word 3 of the lot records (Table 12-5). -/
def lotWord (x : Lot) : List (Nat × Nat × Nat) := [(0, 16, x.number), (16, 8, x.recipe), (24, 1, flag x.trial)]

/-- The LOT_ADMITTED payload (R120, Table 12-5). -/
def lotAdmittedPayload (l : Line) (x : Lot) : List Word :=
  [fields (lotWord x), word (productOf l x), x.admissionOrder]

/-- Payload word 4 of LOT_VERDICT and LOT_SUMMARY. -/
def verdictWord (l : Line) (x : Lot) : Word := fields [(0, 16, productOf l x), (16, 8, x.verdict.code)]

/-- The LOT_VERDICT payload (R138, Table 12-5). -/
def lotVerdictPayload (l : Line) (x : Lot) : List Word :=
  [fields (lotWord x), verdictWord l x, word x.reasons.toNat, x.outcomes.pass, x.outcomes.short, x.outcomes.overMax,
   x.outcomes.unmeasured, x.outcomes.positionLost, x.outcomes.deviation, x.admitted, x.mergedIn, x.mixedAway,
   orZero x.verdictTime]

/-- The LOT_SUMMARY payload (R167, Table 12-5). -/
def lotSummaryPayload (l : Line) (x : Lot) : List Word :=
  [fields (lotWord x ++ [(25, 1, flag x.firstExit.isSome)]), verdictWord l x,
   fields [(0, 8, x.reasons.toNat), (16, 16, capped 65535 x.exposedPallets.toNat)],
   x.admitted, x.mergedIn, x.mixedAway, word x.massDelivered, word x.massBagged, word x.residual,
   fields [(0, 16, capped 65535 x.bagsMade.toNat), (16, 16, capped 65535 x.bagsRejected.toNat)],
   x.admissionTime, orZero x.firstExit, orZero x.verdictTime]

/-- The conditions of retirement (R167). -/
def canRetire (l : Line) (x : Lot) : Bool :=
  !x.isOpen && x.verdict != .pending && x.onTrack == 0 && !hasFeed l x.number && x.livePallets == 0

/-- The retirement judgment of a lot: it writes LOT_SUMMARY and frees the entry (R167). -/
def judgeRetirement (n : Nat) (l : Line) : Line :=
  match lot? l n with
  | none => l
  | some x =>
    if canRetire l x then
      let l := writeReserved .lotSummary (lotSummaryPayload l x) l
      { l with track := { l.track with lots := l.track.lots.filter (·.number != n) } }
    else l

end Sys2Proof.Machine
end

