-- ==== Sys2Proof/Machine/Pallets.lean ====
section
/-! DEFINITION. The pallet table, dispatch, exposure, resolution and verdicts (Chapters 8 to 10): what the pack, transfer
and track units do to each other's records within one event. -/

namespace Sys2Proof.Machine

/-- A live pallet, by number. -/
def pallet? (l : Line) (n : Nat) : Option Pallet := l.pack.pallets.find? (·.number == n)

/-- Change a live pallet's record, by number (a claim the pack unit applies). -/
def changePallet (n : Nat) (f : Pallet → Pallet) (l : Line) : Line :=
  { l with pack := { l.pack with pallets := l.pack.pallets.map fun p => if p.number = n then f p else p } }

/-- The OPEN pallet of a lane (R149). -/
def openPallet (l : Line) (lane : Lane) : Option Pallet :=
  l.pack.pallets.find? fun p => p.lane == lane && p.state == .opened

/-- The BAG zone is RUNNING. -/
def bagRunning (l : Line) : Bool := kindIn l .bag .running

/-! ## Opening pallets and BAGGER_HOLD -/

/-- A pallet at its opening (R149). -/
def newPallet (pos number : Nat) (lane : Lane) : Pallet where
  pos := pos
  number := number
  lane := lane
  state := .opened
  bags := 0
  mass := 0
  lots := []
  exposureStart := none
  deadline := none
  exposed := false
  reason := .none
  joinOrder := none
  timer := .idle

/-- The pack unit tries to open a pallet for a lane that has none: while the BAG zone is RUNNING, with a free record and
a reservation granted (R149). -/
def tryOpen (lane : Lane) (l : Line) : Line :=
  if bagRunning l && (openPallet l lane).isNone && l.pack.pallets.length < Config.palletCount && canGrant l 1 then
    let (pos, l) := pickOne (freePositions Config.palletCount (l.pack.pallets.map (·.pos))) (grant 1 l)
    let number := l.pack.palletCounter
    let pallets := l.pack.pallets ++ [newPallet pos number lane]
    { l with
      pack := { l.pack with
        pallets := pallets
        palletCounter := nextNumber (pallets.map (·.number)) 64 number } }
  else l

/-- The value of BAGGER_HOLD: a lane lacks a pallet while the BAG zone is RUNNING (R154). -/
def holdWanted (l : Line) : Bool :=
  bagRunning l && ((openPallet l .release).isNone || (openPallet l .hold).isNone)

/-- BAGGER_HOLD recomputed; a rise raises the notice (R154). -/
def judgeHold (l : Line) : Line :=
  let want := holdWanted l
  let rose := want && !l.pack.baggerHold
  let l := setFunction .baggerHold (flag want) { l with pack := { l.pack with baggerHold := want } }
  if rose then raise .baggerHold l else l

/-- An attempt for each lane that lacks a pallet, the release lane first, and BAGGER_HOLD after it (R149, R154). -/
def openPallets (l : Line) : Line := judgeHold (tryOpen .hold (tryOpen .release l))

/-! ## Dispatch (R158, R159) -/

/-- The transfer queue: the CLOSED pallets (R158). -/
def transferQueue (l : Line) : List Pallet := l.pack.pallets.filter (·.state == .closed)

/-- `a` goes before `b`: the earlier deadline, then the earlier queue-join order, modulo 2^32 (R159). -/
def goesBefore (a b : Pallet) : Bool :=
  let da := orZero a.deadline
  let db := orZero b.deadline
  if da = db then earlier (orZero a.joinOrder) (orZero b.joinOrder) else earlier da db

/-- The queued pallet the next dispatch would choose (R159, R169). -/
def nextChoice (l : Line) : Option Pallet :=
  (transferQueue l).foldl (fun best p =>
    match best with
    | none => some p
    | some b => if goesBefore p b then some p else some b) none

/-- The transit limit of the active configuration, in milliseconds (R159). -/
def transitMs (l : Line) : Nat := ((l.active.map (·.transitLimit)).getD 0) * 1000

/-- The dispatch judgment: with the path IDLE, the TRANSFER zone RUNNING and the queue not empty, the chosen pallet goes
(R159). -/
def judgeDispatch (l : Line) : Line :=
  if l.transfer.transit.isNone && kindIn l .transfer .running then
    match nextChoice l with
    | none => l
    | some p =>
      let l := changePallet p.number (fun q => { q with state := .inTransit }) l
      setFunction .transferStart p.number
        { l with
          transfer := { l.transfer with
            transit := some { number := p.number, deadline := after (now l) (transitMs l) }
            lastDispatch := now l
            dispatches := l.transfer.dispatches + 1 } }
  else l

/-- The path becomes IDLE: the transit timer stops and TRANSFER_START's function value becomes 0 (R160 to R162). -/
def freePath (l : Line) : Line :=
  setFunction .transferStart 0 { l with transfer := { l.transfer with transit := none } }

/-- The in-transit pallet becomes UNCONFIRMED and the path IDLE (R160 to R162). -/
def abandonTransit (l : Line) : Line :=
  match l.transfer.transit with
  | none => l
  | some t => freePath (changePallet t.number (fun q => { q with state := .unconfirmed }) l)

/-! ## Closing (R152) and exposure (R156, R157) -/

/-- An OPEN pallet closes, joins the transfer queue, which may dispatch it, and its lane is tried again (R152, R158). -/
def closePallet (number : Nat) (reason : CloseReason) (l : Line) : Line :=
  let l := changePallet number (fun p =>
    { p with state := .closed, reason := reason, joinOrder := some l.transfer.joinCounter }) l
  openPallets (judgeDispatch { l with transfer := { l.transfer with joinCounter := l.transfer.joinCounter + 1 } })

/-- A lot list entry of a record, with the verdict bit (Table 12-5). -/
def palletLotWord (l : Line) (withVerdict : Bool) (e : PalletLot) : Word :=
  let held := withVerdict && (lot? l e.lot).any (·.verdict == .held)
  fields [(0, 16, e.lot), (16, 7, e.bags), (23, 7, e.provisional), (31, 1, flag held)]

/-- The EXPOSURE payload (R157, Table 12-5). -/
def exposurePayload (l : Line) (p : Pallet) : List Word :=
  [fields [(0, 16, p.number), (16, 1, p.lane.code), (20, 4, p.state.code), (28, 4, p.lots.length)],
   orZero p.exposureStart, orZero p.deadline] ++ p.lots.map (palletLotWord l false)

/-- A pallet's exposure timer runs out (R157). Near the reserve floor it shows whether the EXPOSURE record of an OPEN
pallet is offered before or after the reservation of the lane's new pallet is granted; the manual gives no order, and it
is free (R149, R157, R172, notes/assumptions/11). -/
def exposePallet (number : Nat) (l : Line) : Line :=
  match pallet? l number with
  | none => l
  | some p =>
    let l := changePallet number (fun q => { q with exposed := true, timer := .expired }) l
    let l := p.lots.foldl (fun l e => changeLot e.lot (fun x => { x with exposedPallets := x.exposedPallets + 1 }) l) l
    let opened := p.state == .opened
    inFreeOrder
      [(opened, fun l => if opened then closePallet number .exposed l else l),
       (true, offer .exposure (exposurePayload l p))]
      (raise .palletExposed l)

/-- A pallet becomes STORED and its exposure timer is cancelled (R156, R160, R163). -/
def storePallet (number : Nat) (l : Line) : Line :=
  changePallet number (fun q => { q with state := .stored, timer := .idle }) l

/-! ## Resolution (R164 to R166) -/

/-- Every lot in a pallet's list has a final verdict (R164). -/
def lotsFinal (l : Line) (p : Pallet) : Bool :=
  p.lots.all fun e => (lot? l e.lot).all (·.verdict != .pending)

/-- The reason mask: HOLD_LANE, EXPOSED, LOT_HELD (R165, Table 12-1). -/
def palletReasons (l : Line) (p : Pallet) : Nat :=
  flag (p.lane == .hold) + 2 * flag p.exposed
    + 4 * flag (p.lots.any fun e => (lot? l e.lot).any (·.verdict != .released))

/-- The outcome: 0 RELEASED for an empty mask, else 1 QUARANTINE (R165). -/
def palletOutcome (l : Line) (p : Pallet) : Nat := if palletReasons l p = 0 then 0 else 1

/-- The PALLET payload (R166, Table 12-5). -/
def palletPayload (l : Line) (p : Pallet) : List Word :=
  [fields [(0, 16, p.number), (16, 1, p.lane.code), (17, 1, palletOutcome l p), (18, 1, flag p.exposed),
           (20, 4, p.reason.code), (24, 3, palletReasons l p), (28, 4, p.lots.length)],
   word p.bags, word p.mass, orZero p.exposureStart, orZero p.deadline] ++ p.lots.map (palletLotWord l true)

/-- A resolved pallet's record is closed out, in the order of R166. -/
def resolvePallet (p : Pallet) (l : Line) : Line :=
  let l := raise .palletResolved (writeReserved .pallet (palletPayload l p) l)
  let l := { l with pack := { l.pack with pallets := l.pack.pallets.filter (·.number != p.number) } }
  let l := p.lots.foldl (fun l e => changeLot e.lot (fun x => { x with livePallets := x.livePallets - 1 }) l) l
  let l := p.lots.foldl (fun l e => judgeRetirement e.lot l) l
  openPallets l

/-- The resolution judgment of one pallet: it must be STORED with every lot final (R164). -/
def judgeResolution (number : Nat) (l : Line) : Line :=
  match pallet? l number with
  | none => l
  | some p => if p.state = .stored ∧ lotsFinal l p then resolvePallet p l else l

/-- Put a pallet into a list ordered by queue-join order. -/
def insertByJoin (p : Pallet) : List Pallet → List Pallet
  | [] => [p]
  | q :: rest =>
    if earlier (orZero p.joinOrder) (orZero q.joinOrder) then p :: q :: rest else q :: insertByJoin p rest

/-- The STORED pallets that name a lot, in ascending queue-join order (R164). -/
def storedWith (l : Line) (n : Nat) : List Pallet :=
  (l.pack.pallets.filter fun p => p.state == .stored && p.lots.any (·.lot == n)).foldr insertByJoin []

/-! ## Verdicts (R136 to R138) -/

/-- The lot reason mask (R137, Table 12-1). -/
def lotReasons (x : Lot) : BitVec 7 :=
  BitVec.ofNat 7 (flag (x.outcomes.short != 0) + 2 * flag (x.outcomes.overMax != 0) + 4 * flag (x.outcomes.unmeasured != 0)
    + 8 * flag (x.outcomes.positionLost != 0) + 16 * flag (x.outcomes.deviation != 0) + 32 * flag x.mixed
    + 64 * flag (x.mixedAway != 0))

/-- The verdict and its reason mask, the first row of R137 that applies. -/
def verdictOf (x : Lot) : Verdict × BitVec 7 :=
  if x.admitted = 0 then (.empty, 0)
  else if x.trial then (.trial, lotReasons x)
  else if lotReasons x = 0 then (.released, 0)
  else (.held, lotReasons x)

/-- A verdict is due: the lot is CLOSED, nothing is unevaluated and it is not final (R136). -/
def verdictDue (x : Lot) : Bool := !x.isOpen && x.unevaluated == 0 && x.verdict == .pending

/-- The verdict judgment of a lot, and what its becoming final brings (R136 to R138). -/
def judgeVerdict (n : Nat) (l : Line) : Line :=
  match lot? l n with
  | none => l
  | some x =>
    if verdictDue x then
      let y := { x with verdict := (verdictOf x).1, reasons := (verdictOf x).2, verdictTime := some (now l) }
      let l := changeLot n (fun _ => y) l
      let l := raise .lotVerdict (writeReserved .lotVerdict (lotVerdictPayload l y) l)
      let l := (storedWith l n).foldl (fun l p => judgeResolution p.number l) l
      judgeRetirement n l
    else l

/-- The lot is closed and handed to the verdict and the retirement judgments (R121, R167). -/
def closeLot (n : Nat) (l : Line) : Line :=
  judgeRetirement n (judgeVerdict n (changeLot n (fun x => { x with isOpen := false }) l))

/-! ## Store confirmation (R160) -/

/-- A store confirmation naming pallet n (R160). -/
def storeConfirmation (n : Nat) (l : Line) : Line :=
  let inTransit := (l.transfer.transit.map (·.number)).getD 0
  if l.transfer.transit.isSome ∧ inTransit = n then
    let l := freePath (storePallet n l)
    let l := { l with transfer := { l.transfer with confirmations := l.transfer.confirmations + 1 } }
    judgeDispatch (judgeResolution n l)
  else if (pallet? l n).any (·.state == .unconfirmed) then
    let l := storePallet n l
    judgeResolution n { l with transfer := { l.transfer with lates := l.transfer.lates + 1 } }
  else
    let l := offer .storeMismatch [word n, word inTransit] (raise .storeMismatch l)
    let l := { l with transfer := { l.transfer with mismatches := l.transfer.mismatches + 1, lastMismatch := n } }
    if l.transfer.transit.isSome then judgeDispatch (abandonTransit l) else l

end Sys2Proof.Machine
end

