-- ==== Sys2Proof/Machine/Bags.lean ====
section
/-! DEFINITION. The feed list and the judgment of a bag (Chapter 9). -/

namespace Sys2Proof.Machine

/-! ## The feed list (R140, R141) -/

/-- A feed entry's retirement, once it has left the list: its remaining mass joins its lot's residual, and the lot is
handed to the retirement judgment (R140). -/
def retireFeed (e : FeedEntry) (l : Line) : Line :=
  judgeRetirement e.lot (changeLot e.lot (fun x => { x with residual := addMass x.residual e.mass }) l)

/-- Replace the feed list. -/
def setFeed (feed : List FeedEntry) (l : Line) : Line := { l with pack := { l.pack with feed := feed } }

/-- The list and the entry retired when a mass of lot n joins it at line time t (R141). -/
def feedJoin (feed : List FeedEntry) (n mass : Nat) (t : Word) : List FeedEntry × Option FeedEntry :=
  let new : FeedEntry := { lot := n, mass := mass, exit := t }
  match feed.getLast? with
  | none => ([new], none)
  | some tail =>
    if tail.lot = n then (feed.dropLast ++ [{ tail with mass := addMass tail.mass mass }], none)
    else if tail.mass = 0 then (feed.dropLast ++ [new], some tail)
    else if feed.length < Config.feedCount then (feed ++ [new], none)
    else (feed.tail ++ [new], feed.head?)

/-- The mass of a lot's units: units times the recipe's mass per unit, saturating (R141). -/
def unitsMass (l : Line) (n units : Nat) : Nat :=
  capped Config.maxCount (units * ((lotRecipe l n).map (·.massPerUnit)).getD 0)

/-- A cell leaving the track is handed to the pack unit: its mass is delivered and joins the feed (R141). -/
def feedCell (n units : Nat) (l : Line) : Line :=
  let m := unitsMass l n units
  let l := changeLot n (fun x => { x with massDelivered := addMass x.massDelivered m }) l
  let (feed, retired) := feedJoin l.pack.feed n m (now l)
  match retired with
  | none => setFeed feed l
  | some e => retireFeed e (setFeed feed l)

/-! ## Attribution (R144) -/

/-- What a bag took from one entry it reached: the lot, its share, and the entry's earliest exit time (R144, R151). -/
structure Share where
  lot  : Nat
  mass : Nat
  exit : Word
  deriving DecidableEq, Repr

/-- The attribution of a weight to the feed list: the shares, the list after it, and the entries retired (R144). -/
structure Attribution where
  shares  : List Share
  feed    : List FeedEntry
  retired : List FeedEntry
  deriving DecidableEq, Repr

/-- Draw `need` grams from the head of the list. The tail is charged all of the need, its mass clamped at 0; an
entry before the tail that falls to 0 is retired (R144). -/
def drawMass : List FeedEntry → Nat → Attribution
  | [], _ => { shares := [], feed := [], retired := [] }
  | [e], need =>
    { shares := [{ lot := e.lot, mass := need, exit := e.exit }], feed := [{ e with mass := e.mass - need }],
      retired := [] }
  | e :: f :: rest, need =>
    let taken := min need e.mass
    let share : Share := { lot := e.lot, mass := taken, exit := e.exit }
    let left := { e with mass := e.mass - taken }
    let further :=
      if need - taken = 0 then { shares := [], feed := f :: rest, retired := [] } else drawMass (f :: rest) (need - taken)
    { shares := share :: further.shares
      feed := if left.mass = 0 then further.feed else left :: further.feed
      retired := if left.mass = 0 then left :: further.retired else further.retired }

/-! ## The lane decision (R143, R146) -/

/-- A lane, a reason and the provisional mark. -/
structure Decision where
  lane        : Lane
  reason      : BagReason
  provisional : Bool
  deriving DecidableEq, Repr

/-- REJECT with a reason. The provisional mark is clear, also for a bag given a provisional RELEASE that then finds no
pallet: the manual does not say whether it stays set (the model's choice, notes/assumptions/38). -/
def Decision.rejected (r : BagReason) : Decision := { lane := .reject, reason := r, provisional := false }

/-- The tests of R146 on the bag's lots (one or two), in order. -/
def laneTests (l : Line) (w : Nat) (lots : List Nat) : Decision :=
  let records := lots.filterMap (lot? l)
  let first := (lots.head?.bind (lotRecipe l))
  if records.any (·.trial) then .rejected .trial
  else if first.any fun r => w < r.bagMin || r.bagMax < w then .rejected .weight
  else if (records.map (·.recipe)).any fun r => (records.map (·.recipe)).any (· != r) then
    { lane := .hold, reason := .recipes, provisional := false }
  else if records.any (·.verdict == .held) then { lane := .hold, reason := .lotHeld, provisional := false }
  else { lane := .release, reason := .none, provisional := records.any (·.verdict == .pending) }

/-- The bag's lane before any pallet is considered: ZONE first, then the attribution's findings, then R146 (R143,
R144). -/
def decideLane (l : Line) (zoneBag : Bool) (w : Nat) (shares : List Share) : Decision :=
  if zoneBag then .rejected .zone
  else
    match shares with
    | [] => .rejected .noLot
    | _ :: _ :: _ :: _ => .rejected .overspan
    | listed => laneTests l w (listed.map (·.lot))

/-! ## Joining a pallet (R150, R151) -/

/-- The bag's lots that a lot list lacks. -/
def newLots (p : Pallet) (lots : List Nat) : List Nat := lots.filter fun n => !p.lots.any (·.lot == n)

/-- The lot list after a bag joins: missing lots appended in order, then one more bag under the first lot (R150). -/
def joinLots (p : Pallet) (lots : List Nat) (provisional : Bool) : List PalletLot :=
  (p.lots ++ (newLots p lots).map fun n => ({ lot := n, bags := 0, provisional := 0 } : PalletLot)).map fun e =>
    if some e.lot = lots.head? then
      { e with bags := e.bags + 1, provisional := e.provisional + flag provisional }
    else e

/-- The least exposure limit of the lots' recipes, in milliseconds (R151). -/
def exposureMs (l : Line) (lots : List Nat) : Nat :=
  match (lots.filterMap (lotRecipe l)).map (·.exposureLimit) with
  | [] => 0
  | r :: rest => rest.foldl min r * 1000

/-- The earlier of a time that may be none and a new one, modulo 2^32 (R151). -/
def earliest (old : Option Word) (new : Word) : Word :=
  match old with
  | none => new
  | some t => if earlier new t then new else t

/-- The pallet capacity of the active configuration (R152). -/
def palletCapacity (l : Line) : Nat := (l.active.map (·.palletCapacity)).getD 0

/-- A bag of weight w joins pallet p: the changes of R150 and R151 in one event, the closing for CAPACITY, and the
exposure timer that runs out at once when the deadline just set lies in the past. -/
def joinPallet (p : Pallet) (w : Nat) (lots : List Nat) (start : Word) (provisional : Bool) (l : Line) : Line :=
  let deadline := earliest p.deadline (after start (exposureMs l lots))
  let joined := newLots p lots
  let l := changePallet p.number (fun q =>
    { q with
      lots := joinLots q lots provisional
      bags := q.bags + 1
      mass := addMass q.mass w
      exposureStart := some (earliest q.exposureStart start)
      deadline := some deadline
      timer := .running }) l
  let l := joined.foldl (fun l n => changeLot n (fun x => { x with livePallets := x.livePallets + 1 }) l) l
  let l := if palletCapacity l ≤ p.bags + 1 then closePallet p.number .capacity l else l
  if p.deadline ≠ some deadline ∧ reached (now l) deadline then exposePallet p.number l else l

/-- The OPEN pallet a bag joins, after the closing for LOTS where its lots do not fit (R150). -/
def palletFor (lane : Lane) (lots : List Nat) (l : Line) : Line :=
  match openPallet l lane with
  | none => l
  | some p => if Config.palletLots < p.lots.length + (newLots p lots).length then closePallet p.number .lots l else l

/-! ## Bag intake (R142 to R147) -/

/-- What the judgment of a bag answers (R142). -/
structure BagResult where
  bag    : Word
  lane   : Lane
  reason : BagReason
  pallet : Nat
  deriving DecidableEq, Repr

/-- The bag sequence counter's successor, skipping 0 (R142). -/
def nextBag (n : Word) : Word := if n + 1 = 0 then 1 else n + 1

/-- LANE_SELECT takes the bag's final lane (R147). -/
def setLane (lane : Lane) (l : Line) : Line :=
  setFunction .laneSelect lane.code { l with pack := { l.pack with laneSelect := lane } }

/-- The bag is written into the recent bag ring (R147). -/
def writeRing (e : RingEntry) (l : Line) : Line :=
  { l with
    pack := { l.pack with
      ring := change l.pack.ring l.pack.ringNext fun _ => e
      ringNext := (l.pack.ringNext + 1) % Config.ringCount } }

/-- The claims of R145 on one lot the bag reached. -/
def claimShare (rejected : Bool) (s : Share) (l : Line) : Line :=
  changeLot s.lot (fun x =>
    { x with
      massBagged := addMass x.massBagged s.mass
      bagsMade := x.bagsMade + 1
      bagsRejected := if rejected then x.bagsRejected + 1 else x.bagsRejected }) l

/-- A bag of weight w is judged, all within its intake event (R142 to R147, R150). `injected` is INJECT_BAG. -/
def judgeBag (injected : Bool) (w : Nat) (l : Line) : BagResult × Line :=
  let number := l.pack.bagCounter
  let l := { l with pack := { l.pack with bagCounter := nextBag number } }
  let a := drawMass l.pack.feed w
  let l := setFeed a.feed l
  let d := decideLane l (!injected && !bagRunning l) w a.shares
  let listed := (a.shares.map (·.lot)).take 2
  let start := (a.shares.head?.map (·.exit)).getD (now l)
  let l := if d.lane = .reject then l else palletFor d.lane listed l
  let target := if d.lane = .reject then none else openPallet l d.lane
  let final := if d.lane ≠ .reject ∧ target.isNone then Decision.rejected .noPallet else d
  let l :=
    match target with
    | some p => joinPallet p w listed start d.provisional l
    | none => l
  let palletNumber := (target.map (·.number)).getD 0
  let l := a.shares.foldl (fun l s => claimShare (final.lane == .reject) s l) l
  let l := writeRing { bag := number, weight := w, pallet := palletNumber, first := listed.getD 0 0,
                       second := listed.getD 1 0, lane := final.lane, reason := final.reason,
                       provisional := final.provisional } (setLane final.lane l)
  let l := a.retired.foldl (fun l e => retireFeed e l) l
  ({ bag := number, lane := final.lane, reason := final.reason, pallet := palletNumber }, l)

end Sys2Proof.Machine
end

