-- ==== Sys2Proof/Machine/Thermal.lean ====
section
/-! DEFINITION. Thermal compliance of cells (Chapter 8): criterion samples, losses, and the two evaluations. -/

namespace Sys2Proof.Machine

/-! ## Sections and cells -/

/-- A used section. -/
def usedSection? (l : Line) (i : Nat) : Option Section := l.track.sections[i]?

/-- Change a used section. -/
def changeSection (i : Nat) (f : Section → Section) (l : Line) : Line :=
  { l with track := { l.track with sections := change l.track.sections i f } }

/-- Change every occupied cell of the used sections chosen by `p`. -/
def changeCells (p : SectionDesc → Bool) (f : TrackCell → TrackCell) (l : Line) : Line :=
  { l with
    track := { l.track with
      sections := l.track.sections.map fun s => if p s.desc then { s with places := s.places.map (·.map f) } else s } }

/-- The index of the last section of a criterion kind (R107). -/
def lastOf (k : Criterion) (l : Line) : Option Nat := (indicesWhere (fun s => s.desc.criterion == k) l.track.sections).getLast?

/-- The section whose exit is the blanch point (R107). -/
def blanchSection (l : Line) : Option Nat := lastOf .blanch l

/-- The section whose exit is the final point (R107). -/
def finalSection (l : Line) : Option Nat := lastOf .freeze l

/-- A cell that stands in section i has passed the final point. -/
def pastFinal (l : Line) (i : Nat) : Bool := (finalSection l).any (· < i)

/-! ## Severity and outcome counts (R135) -/

/-- The severity order PASS < SHORT < OVER < UNMEASURED < POSITION_LOST < DEVIATION. -/
def CellOutcome.severity : CellOutcome → Nat
  | .pass => 0 | .short => 1 | .overMax => 2 | .unmeasured => 3 | .positionLost => 4 | .deviation => 5

/-- The more severe of two outcomes. -/
def worse (a b : CellOutcome) : CellOutcome := if a.severity < b.severity then b else a

/-- The more severe of two outcomes that may be absent (R114). -/
def worseOption : Option CellOutcome → Option CellOutcome → Option CellOutcome
  | none, b => b
  | a, none => a
  | some a, some b => some (worse a b)

/-- Units added to a lot's count for an outcome. -/
def OutcomeUnits.add (o : OutcomeUnits) (k : CellOutcome) (u : Word) : OutcomeUnits :=
  match k with
  | .pass => { o with pass := o.pass + u }
  | .short => { o with short := o.short + u }
  | .overMax => { o with overMax := o.overMax + u }
  | .unmeasured => { o with unmeasured := o.unmeasured + u }
  | .positionLost => { o with positionLost := o.positionLost + u }
  | .deviation => { o with deviation := o.deviation + u }

/-! ## The two evaluations (R134, R135) -/

/-- The blanch outcome, the first row of R134 that applies. -/
def blanchOutcome (r : Recipe) (c : TrackCell) : CellOutcome :=
  if c.blanchDeviation then .deviation
  else if c.blanchCredit < r.blanchCreditMin then .short
  else if r.blanchCreditMax ≠ 0 ∧ r.blanchCreditMax < c.blanchCredit then .overMax
  else .pass

/-- The freeze outcome (R135). -/
def freezeOutcome (r : Recipe) (c : TrackCell) : CellOutcome :=
  if c.freezeDeviation then .deviation
  else if c.freezeCredit < r.freezeCreditMin then .short
  else .pass

/-- The overall outcome: the most severe of the findings of R135. -/
def overallOutcome (r : Recipe) (c : TrackCell) : CellOutcome :=
  let found := worse (c.blanchOutcome.getD .pass) (freezeOutcome r c)
  let found := if c.unmeasured then worse found .unmeasured else found
  let found := if c.positionLost then worse found .positionLost else found
  if c.blanchDeviation then worse found .deviation else found

/-- A cell leaving the blanch point has its blanch outcome fixed against its lot's recipe (R112, R134). -/
def evaluateBlanch (l : Line) (c : TrackCell) : TrackCell :=
  match lotRecipe l c.lot with
  | some r => { c with blanchOutcome := some (blanchOutcome r c) }
  | none => c

/-- A cell leaving the final point has its overall outcome fixed (R135). -/
def evaluateFinal (l : Line) (c : TrackCell) : TrackCell :=
  match lotRecipe l c.lot with
  | some r => { c with overall := some (overallOutcome r c) }
  | none => c

/-- The evaluated cell's units are counted in its lot and leave its unevaluated units; the lot's verdict is judged
(R112, R135, R136). -/
def countFinal (c : TrackCell) (l : Line) : Line :=
  judgeVerdict c.lot
    (changeLot c.lot (fun x =>
      { x with
        outcomes := x.outcomes.add (c.overall.getD .pass) (word c.units)
        unevaluated := x.unevaluated - word c.units }) l)

/-! ## Criterion samples (R127 to R130) -/

/-- A section's interval at a sample (R128). -/
def criterionInterval (s : Section) (t : Word) : Nat :=
  match s.lastCriterion with
  | none => 0
  | some last => min (elapsed t last) s.desc.maxGap

/-- A credit raised, saturating (R130). -/
def addCredit (a b : Nat) : Nat := capped Config.maxCredit (a + b)

/-- A BLANCH sample judged on one cell against its lot's recipe (R129). -/
def blanchSample (r : Recipe) (v : Int) (interval : Nat) (c : TrackCell) : TrackCell :=
  { c with
    blanchCredit := if r.blanchMin ≤ v then addCredit c.blanchCredit interval else c.blanchCredit
    blanchDeviation := c.blanchDeviation || decide (v < r.blanchDeviation) }

/-- A FREEZE sample judged on one cell against its lot's recipe (R130). -/
def freezeSample (r : Recipe) (v : Int) (interval : Nat) (c : TrackCell) : TrackCell :=
  { c with
    freezeCredit := if v ≤ r.freezeMax then addCredit c.freezeCredit interval else c.freezeCredit
    freezeDeviation := c.freezeDeviation || decide (r.freezeDeviation < v) }

/-- One cell at a criterion sample, with its cell interval (R128 to R130). -/
def sampleCell (l : Line) (s : Section) (v : Int) (c : TrackCell) : TrackCell :=
  let interval := min (criterionInterval s (now l)) (elapsed (now l) c.entryTime)
  match lotRecipe l c.lot, s.desc.criterion with
  | some r, .blanch => blanchSample r v interval c
  | some r, .freeze => freezeSample r v interval c
  | _, _ => c

/-- A section is BLANCH or FREEZE and names the channel as its criterion channel. -/
def judgedBy (i : Nat) (d : SectionDesc) : Bool := d.criterion != .none && d.criterionChan == i

/-- A fresh sample of a criterion channel: every section that names it forms its interval and judges its cells, with the
value carried to one decimal (R127, R128). -/
def criterionSample (i : Nat) (v : Int) (l : Line) : Line :=
  let carried := carryDecimals (chan l i).desc.decimals 1 v
  { l with
    track := { l.track with
      sections := l.track.sections.map fun s =>
        if judgedBy i s.desc then
          { s with places := s.places.map (·.map (sampleCell l s carried)), lastCriterion := some (now l) }
        else s } }

/-! ## Losses (R117, R132) -/

/-- A motion channel leaves GOOD: the cells it drives are POSITION_LOST and its stored count is none (R117). -/
def motionLoss (i : Nat) (l : Line) : Line :=
  if l.track.sections.any (·.desc.motion == i) then
    let l := changeCells (fun d => d.motion == i) (fun c => { c with positionLost := true }) l
    { l with track := { l.track with motion := change l.track.motion i fun _ => none } }
  else l

/-- A criterion channel leaves GOOD: the cells of its sections are UNMEASURED (R132). -/
def criterionLoss (i : Nat) (l : Line) : Line :=
  changeCells (judgedBy i) (fun c => { c with unmeasured := true }) l

end Sys2Proof.Machine
end

