-- ==== Sys2Proof/Machine/Track.lean ====
section
/-! DEFINITION. Motion on the track (Chapter 7): counts, shifts, placements, merges, arrivals and track exit. -/

namespace Sys2Proof.Machine

/-! ## Placement, merging and arrival (R113 to R115, R124) -/

/-- Put a cell into a section's entry place. -/
def setEntry (c : Option TrackCell) (s : Section) : Section :=
  match s.places with
  | [] => s
  | _ :: rest => { s with places := c :: rest }

/-- The lot arrival judgment at a section's entry (R124). -/
def judgeArrival (i n : Nat) (l : Line) : Line :=
  match usedSection? l i with
  | none => l
  | some s =>
    let arrives := s.desc.arrivalFlag && s.lastLot != n
    let l := changeSection i (fun s =>
      { s with arrival := if arrives then some (n, now l) else s.arrival, lastLot := n }) l
    if arrives then raise .lotArrival l else l

/-- A cell as it takes an empty entry place: entered now, POSITION_LOST when the motion channel is not GOOD, UNMEASURED
when a BLANCH or FREEZE section's criterion channel is not GOOD (R113, R133). -/
def enteringCell (l : Line) (d : SectionDesc) (c : TrackCell) : TrackCell :=
  { c with
    entryTime := now l
    positionLost := c.positionLost || !isGood l d.motion
    unmeasured := c.unmeasured || (d.criterion != .none && !isGood l d.criterionChan) }

/-- The merged cell of an incoming cell and a resident (R114). -/
def mergedCell (incoming resident : TrackCell) : TrackCell where
  lot := incoming.lot
  units := capped Config.maxUnits (incoming.units + resident.units)
  entryTime := resident.entryTime
  blanchCredit := min incoming.blanchCredit resident.blanchCredit
  freezeCredit := min incoming.freezeCredit resident.freezeCredit
  blanchOutcome := worseOption incoming.blanchOutcome resident.blanchOutcome
  overall := worseOption incoming.overall resident.overall
  blanchDeviation := incoming.blanchDeviation || resident.blanchDeviation
  freezeDeviation := incoming.freezeDeviation || resident.freezeDeviation
  unmeasured := incoming.unmeasured || resident.unmeasured
  positionLost := incoming.positionLost || resident.positionLost
  mixed := incoming.mixed || resident.mixed || incoming.lot != resident.lot

/-- The saturation excess of a merge (R115). -/
def mergeExcess (incoming resident : TrackCell) : Nat := incoming.units + resident.units - Config.maxUnits

/-- The lot records after a merge within one lot (R115). -/
def mergeSameLot (past : Bool) (incoming resident : TrackCell) (l : Line) : Line :=
  let e := word (mergeExcess incoming resident)
  changeLot incoming.lot (fun x =>
    { x with
      onTrack := x.onTrack - e
      mixedAway := x.mixedAway + e
      unevaluated := if past then x.unevaluated else x.unevaluated - e }) l

/-- The lot records after a merge of two lots: the resident's is the older (R115). -/
def mergeTwoLots (past : Bool) (incoming resident : TrackCell) (l : Line) : Line :=
  let lost := word resident.units
  let gained := word (resident.units - mergeExcess incoming resident)
  let l := changeLot resident.lot (fun x =>
    { x with
      onTrack := x.onTrack - lost
      mixedAway := x.mixedAway + lost
      unevaluated := if past then x.unevaluated else x.unevaluated - lost
      mixed := true }) l
  changeLot incoming.lot (fun x =>
    { x with
      onTrack := x.onTrack + gained
      mergedIn := x.mergedIn + gained
      unevaluated := if past then x.unevaluated else x.unevaluated + gained
      mixed := true }) l

/-- The lot records after a merge, and the judgments of the older lot (R115, R136, R167). -/
def mergeLots (past : Bool) (incoming resident : TrackCell) (l : Line) : Line :=
  if incoming.lot = resident.lot then mergeSameLot past incoming resident l
  else judgeRetirement resident.lot (judgeVerdict resident.lot (mergeTwoLots past incoming resident l))

/-- A cell is placed in the entry place of section i: it takes an empty place or merges with the resident (R113, R114),
and its lot is judged for arrival (R124). -/
def placeCell (i : Nat) (c : TrackCell) (l : Line) : Line :=
  match usedSection? l i with
  | none => l
  | some s =>
    match s.places.head?.join with
    | none => judgeArrival i c.lot (changeSection i (setEntry (some (enteringCell l s.desc c))) l)
    | some resident =>
      judgeArrival i c.lot
        (mergeLots (pastFinal l i) c resident (changeSection i (setEntry (some (mergedCell c resident))) l))

/-! ## Leaving a section (R112, R116) -/

/-- An occupied cell leaves the track: its lot's units on track fall, its mass joins the feed, and its lot is judged for
retirement (R116). -/
def exitTrack (c : TrackCell) (l : Line) : Line :=
  let l := changeLot c.lot (fun x =>
    { x with onTrack := x.onTrack - word c.units, firstExit := some (x.firstExit.getD (now l)) }) l
  judgeRetirement c.lot (feedCell c.lot c.units l)

/-- An occupied cell leaving section i is carried on: evaluated at the blanch and the final point, then placed in the
next used section or off the track (R112). -/
def carryCell (i : Nat) (c : TrackCell) (l : Line) : Line :=
  let c := if blanchSection l = some i then evaluateBlanch l c else c
  let atFinal := finalSection l = some i
  let c := if atFinal then evaluateFinal l c else c
  let l := if atFinal then countFinal c l else l
  if i + 1 < l.track.sections.length then placeCell (i + 1) c l else exitTrack c l

/-! ## Shifts (R110, R111) -/

/-- A new cell of a lot (R111). -/
def freshCell (n : Nat) (t : Word) : TrackCell where
  lot := n
  units := 1
  entryTime := t
  blanchCredit := 0
  freezeCredit := 0
  blanchOutcome := none
  overall := none
  blanchDeviation := false
  freezeDeviation := false
  unmeasured := false
  positionLost := false
  mixed := false

/-- Section 0's entry receives a new cell of the OPEN lot (R111). -/
def admitCell (l : Line) : Line :=
  match openLot l with
  | none => l
  | some x =>
    placeCell 0 (freshCell x.number (now l))
      (changeLot x.number (fun x =>
        { x with admitted := x.admitted + 1, onTrack := x.onTrack + 1, unevaluated := x.unevaluated + 1 }) l)

/-- Every cell one place toward the exit, the entry place empty (R111). -/
def shiftPlaces (s : Section) : Section :=
  match s.places with
  | [] => s
  | ps => { s with places := none :: ps.dropLast }

/-- A section shifts once (R111). -/
def shiftSection (i : Nat) (l : Line) : Line :=
  match usedSection? l i with
  | none => l
  | some s =>
    let l := changeSection i shiftPlaces l
    let l :=
      match s.places.getLast?.join with
      | none => l
      | some c => carryCell i c l
    if i = 0 then admitCell l else l

/-- One round: the sections due for it, from the most downstream to the most upstream (R110). -/
def shiftRound (ks : List Nat) (j : Nat) (l : Line) : Line :=
  (List.range ks.length).foldr (fun i l => if j ≤ ks.getD i 0 then shiftSection i l else l) l

/-- Rounds j, j + 1, … (R110). -/
def shiftRounds (ks : List Nat) : Nat → Nat → Line → Line
  | 0, _, l => l
  | n + 1, j, l => shiftRounds ks n (j + 1) (shiftRound ks j l)

/-! ## Motion samples (R109) -/

/-- The cells a section moves at a delta, and its remainder after it (R109). -/
def sectionMotion (i d : Nat) (s : Section) : Nat × Nat :=
  if s.desc.motion = i then ((d + s.remainder) / s.desc.countsPerCell, (d + s.remainder) % s.desc.countsPerCell)
  else (0, s.remainder)

/-- Store a motion channel's count and its source (R109). -/
def storeCount (i c : Nat) (simulated : Bool) (l : Line) : Line :=
  { l with track := { l.track with motion := change l.track.motion i fun _ => some { count := c, simulated := simulated } } }

/-- A rebase: the count is set, the remainders become 0, no cell moves (R109). -/
def rebase (i c : Nat) (simulated : Bool) (l : Line) : Line :=
  let l := storeCount i c simulated l
  { l with
    track := { l.track with
      sections := l.track.sections.map fun s => if s.desc.motion = i then { s with remainder := 0 } else s } }

/-- A motion of d counts: the remainders change and the rounds follow (R109, R110). -/
def moveSections (i d : Nat) (l : Line) : Line :=
  let ks := l.track.sections.map fun s => (sectionMotion i d s).1
  let l := { l with
    track := { l.track with
      sections := l.track.sections.map fun s => { s with remainder := (sectionMotion i d s).2 } } }
  shiftRounds ks (ks.foldl max 0) 1 l

/-- A fresh sample of a motion channel: a rebase or a motion (R109). -/
def motionSample (i : Nat) (v : Int) (l : Line) : Line :=
  if l.track.sections.any (·.desc.motion == i) then
    let c := (v % 65536).toNat
    let simulated := (chan l i).run.simFlag
    match l.track.motion.getD i none with
    | some old =>
      if old.simulated = simulated then
        moveSections i ((c + 65536 - old.count) % 65536) (storeCount i c simulated l)
      else rebase i c simulated l
    | none => rebase i c simulated l
  else l

/-- The track unit's part of a fresh sample of channel i (R41). A motion channel is a counter and a criterion channel
is analog (R80), so at most one of the two acts. -/
def trackSample (i : Nat) (v : Int) (l : Line) : Line := criterionSample i v (motionSample i v l)

/-- The track unit takes the fresh samples of channel i (R41). -/
def trackTakes (l : Line) (i : Nat) : Bool :=
  l.track.sections.any fun s => s.desc.motion == i || judgedBy i s.desc

end Sys2Proof.Machine
end

