-- ==== Sys2Proof/Machine/Zones.lean ====
section
/-! DEFINITION. The zone sequencer (Chapter 6): programs, prerequisites, trips, and the reports of zone changes. -/

namespace Sys2Proof.Machine

/-! ## Zone table accesses -/

/-- Change a present zone's state. -/
def changeZone (z : Nat) (f : ZoneRun → ZoneRun) (l : Line) : Line :=
  { l with zones := change l.zones z fun o => o.map fun x => { x with run := f x.run } }

/-- A present zone's descriptor, with no program, prerequisite or condition for an absent zone. -/
def zoneDesc (l : Line) (z : Nat) : ZoneDesc :=
  ((zone? l z).map (·.desc)).getD
    { kind := .utility, prereqs := [], guarded := false, nodeFaultTrips := false, startProgram := [], stopProgram := [],
      conditions := [] }

/-- The zones by number. -/
def zoneNumbers : List Nat := List.range Config.zoneCount

/-- The states in which trips and trip conditions act (R97, R99). -/
def ZoneState.isActive : ZoneState → Bool
  | .starting | .ready | .running | .stopping => true
  | .off | .tripped | .simulate => false

/-- A zone is in STARTING, READY, RUNNING or STOPPING. -/
def isActive (l : Line) (z : Nat) : Bool := (zoneState l z).any (·.isActive)

/-- Every prerequisite of a zone is RUNNING (R95). -/
def prereqsRun (l : Line) (z : Nat) : Bool := (zoneDesc l z).prereqs.all (isRunning l)

/-! ## Changes of state (R105) -/

/-- A zone changes state: the entry time is now, ZONE_CHANGE is raised, program values return to safe on entry to
STARTING or STOPPING (R44), and the zone's outputs follow (R46). -/
def enterState (z : Nat) (st : ZoneState) (l : Line) : Line :=
  let l := raise .zoneChange (changeZone z (fun r => { r with state := st, entryTime := now l }) l)
  let l := if st = .starting ∨ st = .stopping then safePrograms z l else l
  refreshZone z l

/-- A zone enters RUNNING, and carries with it each waiting zone that names it and now finds every prerequisite RUNNING
(R95). The graph has no cycles, so a chain is at most eight zones long. -/
def enterRunning : Nat → Nat → Line → Line
  | 0, _, l => l
  | fuel + 1, z, l =>
    let l := enterState z .running (changeZone z (fun r => { r with runPending := false }) l)
    zoneNumbers.foldl (fun l w =>
      if zoneState l w = some .ready ∧ ((zone? l w).any (·.run.runPending)) ∧ (zoneDesc l w).prereqs.contains z
          ∧ prereqsRun l w then
        enterRunning fuel w l
      else l) l

/-! ## Programs (R92 to R94, R96) -/

/-- The steps of a zone's program. -/
def programSteps (l : Line) (z : Nat) : Program → List Step
  | .start => (zoneDesc l z).startProgram
  | .stop => (zoneDesc l z).stopProgram

/-- A program ends: START leads to READY and perhaps RUNNING (R94), STOP to OFF (R96). -/
def endProgram (z : Nat) (p : Program) (l : Line) : Line :=
  let l := changeZone z (fun r => { r with program := none, deadline := none }) l
  match p with
  | .stop => enterState z .off l
  | .start =>
    let l := enterState z .ready l
    if (zone? l z).any (·.run.runPending) ∧ prereqsRun l z then enterRunning Config.zoneCount z l else l

/-- The program stands at step k with a deadline `ms` from now (R92, R93). -/
def waitAt (z : Nat) (p : Program) (k ms : Nat) (l : Line) : Line :=
  changeZone z (fun r => { r with program := some (p, k), deadline := some (after (now l) ms) }) l

/-- A program advances from step k, whose remaining steps are given, until a step must wait or the program ends
(R92, R93). -/
def runSteps (z : Nat) (p : Program) : Nat → List Step → Line → Line
  | _, [], l => endProgram z p l
  | k, .set i v :: rest, l => runSteps z p (k + 1) rest (setProgram i v l)
  | k, .waitTime ms :: _, l => waitAt z p k ms l
  | k, .waitUntil i cmp threshold timeout :: rest, l =>
    if isGood l i ∧ meets cmp (currentValue (chan l i)) threshold then runSteps z p (k + 1) rest l
    else waitAt z p k timeout l

/-- The program goes on from the step after its current one (R92, R93). -/
def advanceProgram (z : Nat) (l : Line) : Line :=
  match (zone? l z).bind (·.run.program) with
  | none => l
  | some (p, k) => runSteps z p (k + 1) ((programSteps l z p).drop k) l

/-- The current step of a zone's running program. -/
def currentStep (l : Line) (z : Nat) : Option Step :=
  match (zone? l z).bind (·.run.program) with
  | none => none
  | some (p, k) => (programSteps l z p)[k - 1]?

/-- A program begins at step 1, the zone having entered its state (R91, R96). -/
def beginProgram (z : Nat) (p : Program) (l : Line) : Line :=
  runSteps z p 1 (programSteps l z p) (changeZone z (fun r => { r with program := some (p, 1), deadline := none }) l)

/-- OFF to STARTING: the start program begins; ZONE_RUN also sets run pending (R90, R91). -/
def startZone (z : Nat) (run : Bool) (l : Line) : Line :=
  beginProgram z .start (enterState z .starting (changeZone z (fun r => { r with runPending := r.runPending || run }) l))

/-- To STOPPING: any program is abandoned, run pending is cleared, the stop program begins (R96). -/
def stopZone (z : Nat) (l : Line) : Line :=
  beginProgram z .stop
    (enterState z .stopping (changeZone z (fun r => { r with runPending := false, program := none, deadline := none }) l))

/-! ## Trips (R97, R98) -/

/-- A zone trips: the changes of R97 to the zone and its outputs, and the notices. Records and reports follow in
`zoneEvent`. -/
def tripZone (z : Nat) (cause : TripCause) (l : Line) : Line :=
  raise .zoneTrip
    (enterState z .tripped
      (changeZone z (fun r =>
        { r with runPending := false, cause := cause, program := none, deadline := none, trips := r.trips + 1 }) l))

/-- An event's own causes trip zones: for each active zone with a cause, one of its causes is recorded; where there are
several, which is free (R97, R100, notes/assumptions/14). -/
def tripOwn (causes : Nat → List TripCause) (l : Line) : Line :=
  zoneNumbers.foldl (fun l z =>
    if isActive l z ∧ causes z ≠ [] then
      let (k, l) := pickOne (List.range (causes z).length) l
      tripZone z ((causes z).getD k .none) l
    else l) l

/-- The zones given, and with them the zones RUNNING in `before` that name one of them as a prerequisite (R98). -/
def withNamers (before : Line) (left : List Nat) : List Nat :=
  zoneNumbers.filter fun z =>
    left.contains z || (isRunning before z && (zoneDesc before z).prereqs.any left.contains)

/-- The zones that left RUNNING between two states. -/
def leftRunning (before l : Line) : List Nat := zoneNumbers.filter fun z => isRunning before z && !isRunning l z

/-- One round of a cascade, `left` having left RUNNING: every zone still RUNNING that names one of `left` trips with
PREREQ_LOST, its detail that zone. Where it names several, which of them is free: they left in the round before (R98,
notes/assumptions/14). -/
def cascadeRound (before : Line) (left : List Nat) (l : Line) : Line :=
  let reached := withNamers before left
  zoneNumbers.foldl (fun l z =>
    if reached.contains z ∧ isRunning l z then
      let (w, l) := pickOne ((zoneDesc l z).prereqs.filter left.contains) l
      tripZone z (.prereqLost w) l
    else l) l

/-- The rounds of a cascade: the zones that a round trips trip in turn the RUNNING zones that name them (R98). -/
def cascadeRounds (before : Line) : Nat → List Nat → Line → Line
  | 0, _, l => l
  | n + 1, left, l => cascadeRounds before n (withNamers before left) (cascadeRound before left l)

/-- The cascade of an event, from the zones that the event's own changes took out of RUNNING (R98). A zone trips in the
first round that reaches it, so its detail is a zone that left no later than any other that it names. -/
def cascade (before l : Line) : Line := cascadeRounds before Config.zoneCount (leftRunning before l) l

/-! ## Reports and records of a zone event (R97, R105) -/

/-- A zone's state before and after an event differ: it left, or entered, the state given. -/
def leaves (before l : Line) (z : Nat) (st : ZoneState) : Bool := zoneState before z == some st && zoneState l z != some st

def enters (before l : Line) (z : Nat) (st : ZoneState) : Bool := zoneState before z != some st && zoneState l z == some st

/-- The zone of section 0. -/
def firstZone (l : Line) : Option Nat := (usedSection? l 0).map (·.desc.zone)

/-- The OPEN lot that a change of section 0's zone closes (R122). -/
def lotClosedBy (before l : Line) : Option Lot :=
  match openLot l, firstZone l with
  | some x, some z =>
    if x.trial then if leaves before l z .simulate then some x else none
    else if leaves before l z .running then some x else none
  | _, _ => none

/-- The track unit takes the changes (R122). -/
def trackReport (before l : Line) : Line :=
  match lotClosedBy before l with
  | some x => closeLot x.number l
  | none => l

/-- The pack unit takes the changes: pallets are opened at the BAG zone's entry into RUNNING, and BAGGER_HOLD is
recomputed at every change of its state (R149, R154). -/
def packReport (before l : Line) : Line :=
  match zoneOfKind l .bag with
  | none => l
  | some z =>
    if zoneState before z = zoneState l z then l
    else if enters before l z .running then openPallets l
    else judgeHold l

/-- The transfer unit takes the changes: dispatch at the TRANSFER zone's entry into RUNNING, and the in-transit pallet
UNCONFIRMED at its leaving (R159, R162). -/
def transferReport (before l : Line) : Line :=
  match zoneOfKind l .transfer with
  | none => l
  | some z =>
    if enters before l z .running then judgeDispatch l
    else if leaves before l z .running then abandonTransit l
    else l

/-- The zones an event tripped: first those with a cause other than PREREQ_LOST, then those with it, each in ascending
index (R97). -/
def trippedBetween (before l : Line) : List Nat :=
  let tripped := zoneNumbers.filter fun z => enters before l z .tripped
  let lost z := (zone? l z).any fun x => match x.run.cause with | .prereqLost _ => true | _ => false
  tripped.filter (fun z => !lost z) ++ tripped.filter lost

/-- The ZONE_TRIP payload: zone, cause, state left; detail (Table 12-5). -/
def zoneTripPayload (before l : Line) (z : Nat) : List Word :=
  let cause := ((zone? l z).map (·.run.cause)).getD .none
  [fields [(0, 8, z), (8, 8, cause.code), (16, 8, ((zoneState before z).map (·.code)).getD 0)], word cause.detail]

/-- The ZONE_TRIP records of an event (R97). -/
def offerTrips (before after : Line) (l : Line) : Line :=
  (trippedBetween before after).foldl (fun l z => offer .zoneTrip (zoneTripPayload before after z) l) l

/-- The BAG zone enters RUNNING in an event, and pallets are opened with it. -/
def bagEnters (before l : Line) : Bool := (zoneOfKind l .bag).any fun z => enters before l z .running

/-- One event at the zone sequencer: `f` makes its zone changes, the cascade follows, then the records (`lead` first,
told which zones tripped) and the reports to the other blocks, every change having been made (R105). The manual gives no
order among the trip records, the closing of the OPEN lot and the opening of pallets, which all meet at the record log
(R97, R105, R149, R172): their order is free (notes/assumptions/11, 12). Each of the three acts whole: that no record of
the closing and no reservation falls between the event's own record (NODE_FAULT, WATCHDOG) and the ZONE_TRIP records, or
between two ZONE_TRIP records, is the model's choice (DESIGN CHOICE, notes/assumptions/44). -/
def zoneEvent (lead : List Nat → Line → Line) (f : Line → Line) (l : Line) : Line :=
  let changed := cascade l (f l)
  let tripped := trippedBetween l changed
  inFreeOrder
    [(!tripped.isEmpty, fun x => offerTrips l changed (lead tripped x)), ((lotClosedBy l changed).isSome, trackReport l),
     (bagEnters l changed, packReport l), (false, transferReport l)]
    changed

/-- A zone event with no record of its own before the trips. -/
def plainEvent (f : Line → Line) (l : Line) : Line := zoneEvent (fun _ l => l) f l

/-! ## Trip conditions (R91, R99, R103) -/

/-- A condition's channel is GOOD and its current value meets it. -/
def conditionMet (l : Line) (c : Condition) : Bool :=
  isGood l c.channel && meets c.cmp (currentValue (chan l c.channel)) c.limit

/-- A zone's trip conditions refuse its start (R91). -/
def startBlocked (l : Line) (z : Nat) : Bool :=
  (zoneDesc l z).conditions.any fun c => (c.tripOnLoss && !isGood l c.channel) || conditionMet l c

/-- The index of the first condition with a property. -/
def firstCondition (l : Line) (z : Nat) (p : Condition → Bool) : Option Nat := (zoneDesc l z).conditions.findIdx? p

/-- The cause a sample of value v on channel i gives a zone: its lowest met condition (R99). -/
def sampleCauses (l : Line) (i : Nat) (v : Int) (z : Nat) : List TripCause :=
  match firstCondition l z (fun c => c.channel == i && meets c.cmp v c.limit) with
  | some k => [.condition k]
  | none => []

/-- The causes that losses of GOOD on the channels given bring a zone (R99). Where two trip-on-loss conditions of the zone
name one channel, the lowest index is recorded: R99 gives the lowest index for samples only, and the choice for losses is
the model's (notes/assumptions/37). -/
def lossCauses (l : Line) (lost : List Nat) (z : Nat) : List TripCause :=
  lost.filterMap fun i =>
    (firstCondition l z fun c => c.channel == i && c.tripOnLoss).map .conditionLost

/-- A waiting WAIT_UNTIL of the zone that a sample of value v on channel i meets (R93). -/
def waitMet (l : Line) (i : Nat) (v : Int) (z : Nat) : Bool :=
  match currentStep l z with
  | some (.waitUntil c cmp threshold _) => c == i && meets cmp v threshold
  | _ => false

/-- The zone changes a fresh sample makes: trip conditions and their cascade first, then the waits (R93, R98, R99). R93
has the trip before the wait within one zone and says nothing of two. That the trips of all zones and their cascade come
before the wait of any zone is the model's choice (notes/assumptions/43): a zone whose wait is met by the sample that
trips its prerequisite stops in READY. -/
def sampleZones (i : Nat) (v : Int) (l : Line) : Line :=
  let l := cascade l (tripOwn (sampleCauses l i v) l)
  zoneNumbers.foldl (fun l z => if waitMet l i v z then advanceProgram z l else l) l

/-- The zone sequencer's part of a fresh sample (R41, R93, R99). -/
def zoneSample (i : Nat) (v : Int) (l : Line) : Line := plainEvent (sampleZones i v) l

/-- The sample changes something at the zone sequencer. -/
def zoneTakes (i : Nat) (v : Int) (l : Line) : Bool := (sampleZones i v l).zones != l.zones

/-- A fresh-sample event reaches the zone sequencer and the track unit, without order between them (R41). -/
def freshSample (i : Nat) (v : Int) (l : Line) : Line :=
  unordered (zoneTakes i v l && trackTakes l i) (zoneSample i v) (trackSample i v) l

/-! ## Losses of GOOD (R39, R40, R50) -/

/-- The track unit's part of the quality changes from GOOD on the channels given (R117, R132). -/
def trackLosses (lost : List Nat) (l : Line) : Line :=
  lost.foldl (fun l i => criterionLoss i (motionLoss i l)) l

/-- Quality changes from GOOD on one channel reach its consumers (R39, R41, R99). -/
def loseGood (i : Nat) (l : Line) : Line :=
  plainEvent (fun l => tripOwn (lossCauses l [i]) l) (trackLosses [i] l)

/-! ## The end of a simulation (R50) -/

/-- The field state of an input at the end of its simulation: its quality and its timer (R50). -/
def fieldQuality (l : Line) (c : Channel) : Quality × StaleTimer :=
  match c.run.bound, c.run.lastSample with
  | none, _ => (.unbound, .stopped)
  | some _, last =>
    if (nodeAt l c.desc.node).state = .faulted then (.fault, .stopped)
    else
      match last with
      | none => (.stale, .stopped)
      | some t =>
        if elapsed (now l) t ≤ c.desc.staleLimit then (.good, .running (after t c.desc.staleLimit))
        else (.stale, .stopped)

/-- An input is simulated by an output of the zone. -/
def simulatedBy (l : Line) (z : Nat) (c : Channel) : Bool :=
  c.run.simFlag && c.run.simSource.any fun o => (chan l o).desc.owner == some z

/-- An input's simulation ends. -/
def endSimulation (l : Line) (c : Channel) : Channel :=
  { c with
    run := { c.run with simFlag := false, simSource := none, quality := (fieldQuality l c).1, timer := (fieldQuality l c).2 } }

/-- The inputs that leave GOOD when a zone's simulation ends. -/
def simulationLosses (l : Line) (z : Nat) : List Nat :=
  indicesWhere (fun c => simulatedBy l z c && (fieldQuality l c).1 != .good) l.chans

/-- The outputs of the zone take their safe value as host and program value (R50). -/
def safeOutputs (z : Nat) (l : Line) : Line :=
  { l with
    chans := l.chans.map fun c =>
      if c.desc.owner = some z ∧ c.desc.kind.isOutput then
        { c with run := { c.run with hostValue := c.desc.safe, programValue := c.desc.safe } }
      else c }

/-- A zone leaves SIMULATE for OFF: its outputs return to safe, the inputs it simulated take their quality from the
field, and the losses reach their consumers, all in one event (R50, R104). -/
def leaveSimulate (z : Nat) (l : Line) : Line :=
  let lost := simulationLosses l z
  let stale := l.chans.any fun c => simulatedBy l z c && (fieldQuality l c).1 == .stale
  plainEvent (fun l =>
    let ended := { l with chans := l.chans.map fun c => if simulatedBy l z c then endSimulation l c else c }
    let ended := if stale then raise .channelStale ended else ended
    let off := enterState z .off (safeOutputs z ended)
    let off := trackLosses lost off
    tripOwn (lossCauses off lost) off) l

end Sys2Proof.Machine
end

