-- ==== Sys2Proof/Machine/Samples.lean ====
section
/-! DEFINITION. Field samples, node faults and taken events as the channel unit and its consumers take them (R38 to R40,
R48, R49, R51, R65 to R68, R100). -/

namespace Sys2Proof.Machine

/-- A field sample of an input: stored and converted; unless the input is simulated it becomes GOOD, its timer restarts
and its consumers receive a fresh sample (R38, R49). -/
def fieldSample (i : Nat) (raw : Half) (l : Line) : Line :=
  let c := chan l i
  let v := engineering c (rangeOf c) raw
  let l := changeRun i (fun r => { r with raw := raw, eng := v, lastSample := some (now l) }) l
  if c.run.simFlag then l
  else
    freshSample i v
      (changeRun i (fun r =>
        { r with quality := .good, timer := .running (after (now l) c.desc.staleLimit) }) l)

/-- The field samples of a good SCAN reply, one for each IN point bound to an input (R65). -/
def deliverSamples (n : Nat) (payload : List Byte) : Nat → List Point → Line → Line
  | _, [], l => l
  | k, p :: rest, l =>
    let l :=
      match channelOn l ChanKind.isInput n p.index with
      | some i => fieldSample i (halfAt payload (2 * k)) l
      | none => l
    deliverSamples n payload (k + 1) rest l

/-- A host value looped back to its partner: the partner becomes GOOD with the simulated value, its timer suspended, and
its consumers receive a fresh sample (R48). -/
def loopback (source : Nat) (v : Int) (l : Line) : Line :=
  match (chan l source).desc.partner with
  | none => l
  | some p =>
    let s := loopbackValue (chan l source).desc (chan l p).desc v
    freshSample p s
      (changeRun p (fun r =>
        { r with simValue := s, simFlag := true, simSource := some source, quality := .good, timer := .suspended }) l)

/-! ## Node faults (R40, R66, R100) -/

/-- A bound input on node n whose simulated flag is clear. -/
def faultsInput (n : Nat) (c : Channel) : Bool :=
  c.desc.kind.isInput && c.desc.node == n && c.run.bound.isSome && !c.run.simFlag

/-- The channel unit's part of a node fault (R40). -/
def faultChannels (n : Nat) (l : Line) : Line :=
  { l with
    chans := l.chans.map fun c =>
      if faultsInput n c then { c with run := { c.run with quality := .fault, timer := .stopped } } else c }

/-- The zone uses the faulted node: it owns a channel on it, or is the zone of a section whose motion or criterion
channel is on it (R100). -/
def zoneUsesNode (l : Line) (z n : Nat) : Bool :=
  l.chans.any (fun c => c.desc.kind != .unused && c.desc.owner == some z && c.desc.node == n)
    || l.track.sections.any fun s =>
      s.desc.zone == z
        && ((chan l s.desc.motion).desc.node == n
          || (s.desc.criterion != .none && (chan l s.desc.criterionChan).desc.node == n))

/-- The causes a node fault brings a zone: NODE_FAULT, and CONDITION_LOST for the inputs that leave GOOD (R100). -/
def faultCauses (l : Line) (n : Nat) (lost : List Nat) (z : Nat) : List TripCause :=
  (if (zoneDesc l z).nodeFaultTrips && zoneUsesNode l z n then [TripCause.nodeFault n] else []) ++ lossCauses l lost z

/-- The NODE_FAULT and NODE_RECOVERED payload (Table 12-5). -/
def nodePayload (l : Line) (n : Nat) : List Word := [word n, word (nodeAt l n).kindCode.toNat]

/-- A node becomes FAULTED: its inputs go to FAULT, the zones that the fault or the losses trip trip, the notice is
raised, and NODE_FAULT is offered before the ZONE_TRIP records (R66, R100). -/
def declareFault (n : Nat) (l : Line) : Line :=
  let lost := indicesWhere (fun c => faultsInput n c && c.run.quality == .good) l.chans
  let l := raise .nodeFault (changeNode n (fun nd => { nd with state := .faulted }) l)
  let l := trackLosses lost (faultChannels n l)
  zoneEvent (fun _ l => offer .nodeFault (nodePayload l n) l) (fun l => tripOwn (faultCauses l n lost) l) l

/-- A node misses in a cycle (R66). -/
def missNode (n : Nat) (l : Line) : Line :=
  let nd := nodeAt l n
  if nd.state = .faulted then l
  else
    let l := changeNode n (fun nd => { nd with misses := nd.misses + 1 }) l
    if nd.misses + 1 = 3 ∧ (nd.state = .bound ∨ nd.state = .running) then declareFault n l else l

/-! ## Events (R51, R67, R68) -/

/-- A record is the next event of its node (R67). -/
def eventIsNext (lastTaken s : Nat) : Bool :=
  1 ≤ s && s ≤ 15 && (lastTaken == 0 || s == (if lastTaken = 15 then 1 else lastTaken + 1))

/-- A taken event goes on by its point: counted on its EVENT channel and passed to the pack or the transfer unit, or
discarded and counted in the node view (R51, R68). -/
def routeEvent (n point : Nat) (data : Half) (l : Line) : Line :=
  match channelOn l (· == .event) n point with
  | none => changeNode n (fun nd => { nd with unbound := nd.unbound + 1 }) l
  | some i =>
    let l := changeRun i (fun r => { r with events := r.events + 1 }) l
    match (chan l i).desc.func with
    | .bagDone => (judgeBag false data.toNat l).2
    | .storeDone => storeConfirmation data.toNat l
    | _ => l

/-- One event record: point index, sequence, data word 0, data word 1 (R67, R177). -/
def takeEvent (n : Nat) (record : List Byte) (l : Line) : Line :=
  let s := (record.getD 1 0).toNat % 16
  if eventIsNext (nodeAt l n).lastTaken s then
    routeEvent n (record.getD 0 0).toNat (halfAt record 2) (changeNode n (fun nd => { nd with lastTaken := s }) l)
  else changeNode n (fun nd => { nd with repeats := nd.repeats + 1 }) l

/-- The event records of a good SCAN reply, in the order they stand (R67). -/
def takeEvents (n : Nat) (records : List Byte) (l : Line) : Line :=
  let l := if 6 ≤ records.length then takeEvent n (records.take 6) l else l
  if 12 ≤ records.length then takeEvent n (records.drop 6) l else l

/-- A good SCAN reply of node n (R65). The order of its parts is notes/assumptions/17. -/
def scanGood (n : Nat) (payload : List Byte) (l : Line) : Line :=
  let nd := nodeAt l n
  let ins := pointsOf nd .input
  let tail := payload.drop (2 * ins.length)
  let l := changeNode n (fun nd =>
    { nd with
      misses := 0
      status := tail.getD 0 0
      pendingEvents := tail.getD 1 0
      state := if nd.state = .bound ∨ nd.state = .faulted then .running else nd.state }) l
  let l := if nd.state = .faulted then offer .nodeRecovered (nodePayload l n) l else l
  takeEvents n (tail.drop 2) (deliverSamples n payload 0 ins l)

end Sys2Proof.Machine
end

