-- ==== Sys2Proof/Machine/Link.lean ====
section
/-! DEFINITION. The link controller (Chapter 4): what goes on the link next, replies, failures, discovery, cycles, halts
and SAFE. -/

namespace Sys2Proof.Machine

/-- Change the link controller's state. -/
def changeLink (f : Link → Link) (l : Line) : Line := { l with link := f l.link }

/-- The exchange sequence bit of an address (R55). -/
def seqBit (l : Line) (n : Nat) : Bool := l.link.seqBits.getD (n - 1) false

/-! ## Sending (R53, R55, R64, R70, R72) -/

/-- The reply limit in force, in microseconds: the active configuration's, 5000 while none is active (R53). -/
def replyLimit (l : Line) : Nat := (l.active.map (·.replyLimit)).getD 5000

/-- A frame goes on the link with the driver enabled; no reply limit runs while it is sent (R53). -/
def sendFrame (busy : LinkBusy) (chars : List Byte) (l : Line) : Line :=
  changeLink (fun k => { k with busy := busy, sent := chars, driving := true, replyDue := none }) l

/-- An exchange goes on the link: its frame is sent, and its reply is awaited. It keeps the reply limit in force as it
starts: a swap gives its limit to later exchanges only (R83). A retry is an exchange of its own, one frame and one reply,
and takes the limit in force as it starts (R53, notes/assumptions/39). -/
def sendExchange (x : Exchange) (l : Line) : Line :=
  sendFrame (.waiting x) x.bytes (changeLink (fun k => { k with limit := replyLimit l }) l)

/-- Nothing is on the link: the driver is released and no reply limit runs (R53). -/
def releaseLink (l : Line) : Line := changeLink (fun k => { k with busy := .quiet, driving := false, replyDue := none }) l

/-- A new frame to a node: its exchange sequence bit is inverted and carried, with the last-taken sequence (R54, R55). -/
def sendNew (kind : FrameKind) (n : Nat) (payload : List Byte) (job : ExchangeJob) (l : Line) : Line :=
  let b := !seqBit l n
  sendExchange { kind := kind, addr := n, control := controlByte (nodeAt l n).lastTaken b, payload := payload,
                 retry := false, job := job }
    (changeLink (fun k => { k with seqBits := change k.seqBits (n - 1) fun _ => b }) l)

/-- A SCAN frame to node n, formed as it starts (R64). -/
def sendScan (n : Nat) (l : Line) : Line := sendNew .scan n (scanPayload l n) .scan l

/-- An ENUM frame for the page of the address under discovery (R58). -/
def sendEnum (d : Discovery) (l : Line) : Line := sendNew .enum d.addr [BitVec.ofNat 8 d.page] (.enum d.page) l

/-- The oldest one-shot leaves the queue and goes on the link (R69, R70). -/
def sendOneShot (l : Line) : Line :=
  match l.link.oneShots with
  | [] => l
  | o :: rest =>
    sendNew (if o.isSet then .pset else .pget) o.node (oneShotPayload o) (.oneShot o)
      (changeLink (fun k => { k with oneShots := rest }) l)

/-- The SAFE broadcast goes; `resume` is the exchange whose retry waits behind it (R72). Its control byte is 0: bit 7 by
R55, bits 4 to 6 by R177. Bits 0 to 3 carry a node's last-taken event sequence (R177), and SAFE addresses no node: their 0
is the model's choice (notes/assumptions/40). -/
def sendSafe (resume : Option Exchange) (l : Line) : Line :=
  sendFrame (.safe resume) (frameBytes .safe 0 0 []) (changeLink (fun k => { k with safeWaits := false }) l)

/-- The link is SCANNING or HALTING. -/
def linkScans (l : Line) : Bool := l.link.state == .scanning || l.link.state == .halting

/-! ## Cycles and halts (R63, R71) -/

/-- A cycle of the scan list starts; with an empty list it ends as it starts (R62, notes/assumptions/16). -/
def startCycle (l : Line) : Line :=
  changeLink (fun k =>
    { k with cycle := if k.scanList.isEmpty then none else some { rest := k.scanList, turn := false } }) l

/-- The end of a halt: the period timer stops, the link goes IDLE, the nodes of the scan return to BOUND, the request
completes and LINK_HALTED is raised (R71). A SAFE that still waits is dropped (notes/assumptions/15). -/
def endHalt (l : Line) : Line :=
  let slot := l.link.halt
  let back (nd : Node) : Node := if nd.state = .running ∨ nd.state = .faulted then { nd with state := .bound } else nd
  let l := l.link.scanList.foldl (fun l n => changeNode n (fun nd => { nd with misses := 0 }) l) l
  let l := changeLink (fun k =>
    { k with
      state := .idle, nodes := k.nodes.map back, period := none, owed := false, cycle := none, scanList := [],
      safeWaits := false, halt := none }) l
  let l := raise .linkHalted l
  match slot with
  | some i => complete i { code := .ok } l
  | none => l

/-- A cycle with nothing left to send ends; a halting link ends its halt, an owed cycle starts (R63, R71). -/
def settleCycle (l : Line) : Line :=
  match l.link.cycle with
  | some { rest := [], turn := t } =>
    if t && !l.link.oneShots.isEmpty then l
    else
      let l := changeLink (fun k => { k with cycle := none }) l
      if l.link.state = .halting then endHalt l
      else if l.link.owed then startCycle (changeLink (fun k => { k with owed := false }) l)
      else l
  | _ => l

/-- The next frame within a cycle or outside one: one one-shot after each SCAN exchange and then the next node; outside a
cycle the oldest one-shot (R63, R70). -/
def sendNext (l : Line) : Line :=
  match l.link.cycle with
  | none => sendOneShot l
  | some c =>
    if c.turn && !l.link.oneShots.isEmpty then
      sendOneShot (changeLink (fun k => { k with cycle := some { c with turn := false } }) l)
    else
      match c.rest with
      | [] => l
      | n :: rest => sendScan n (changeLink (fun k => { k with cycle := some { rest := rest, turn := false } }) l)

/-- What a quiet link does next: in DISCOVERING it asks for the page due; else a cycle with nothing left ends, and a halt
with it, before anything is sent; then a waiting SAFE goes, else the next frame (R58, R63, R70 to R72). -/
def pump (l : Line) : Line :=
  match l.link.busy with
  | .quiet =>
    if l.link.state = .discovering then
      match l.link.discovery with
      | some d => sendEnum d l
      | none => l
    else
      let l := settleCycle l
      if l.link.safeWaits && linkScans l then sendSafe none l else sendNext l
  | _ => l

/-- The exchange on the link has ended; the link goes on (R70, R72). After a SCAN exchange one one-shot may go. -/
def exchangeEnded (job : ExchangeJob) (l : Line) : Line :=
  let l := releaseLink l
  let l :=
    match job with
    | .scan => changeLink (fun k => { k with cycle := k.cycle.map fun c => { c with turn := true } }) l
    | _ => l
  pump l

/-- A SAFE broadcast is asked for: dropped outside SCANNING and HALTING, sent at once on a quiet link, else it waits, one
at most (R72). -/
def askSafe (l : Line) : Line :=
  if linkScans l then
    if l.link.busy = .quiet then sendSafe none l else changeLink (fun k => { k with safeWaits := true }) l
  else l

/-! ## Discovery (R58 to R60) -/

/-- The point count a page reports. -/
def pageCount (page : List Byte) : Nat := (page.getD 1 0).toNat

/-- The pages a node of P points has (R58). -/
def pagesFor (p : Nat) : Nat := if p ≤ 8 then 1 else (p + 7) / 8

/-- A point record of 10 bytes (R177). -/
def pointOf (bs : List Byte) : Point where
  index := (bs.getD 0 0).toNat
  direction := Direction.ofCode (bs.getD 1 0).toNat
  ptype := bs.getD 2 0
  unitCode := bs.getD 3 0
  rawMin := halfAt bs 4
  rawMax := halfAt bs 6
  safeRaw := halfAt bs 8

/-- A point record's direction and type codes are in their lists; an EVENT point's type is not read (R59). -/
def pointCodesOk (bs : List Byte) : Bool :=
  let d := (bs.getD 1 0).toNat
  d == 2 || (d ≤ 1 && (bs.getD 2 0).toNat ≤ 2)

/-- The point records of a page's payload. -/
def pageRecords (page : List Byte) : List (List Byte) :=
  (List.range ((page.length - 4) / 10)).map fun k => (page.drop (4 + 10 * k)).take 10

/-- Page p carries the number of records it must (R59). -/
def pageSizeOk (total p : Nat) (page : List Byte) : Bool := (pageRecords page).length == min 8 (total - 8 * p)

/-- Put a point into a list in ascending index. -/
def insertPoint (p : Point) : List Point → List Point
  | [] => [p]
  | q :: rest => if p.index < q.index then p :: q :: rest else q :: insertPoint p rest

/-- A list holds no number twice. -/
def noRepeat : List Nat → Bool
  | [] => true
  | x :: rest => !rest.contains x && noRepeat rest

/-- The good pages of one address, judged together (R59): the node found, or none for BAD_POINTS. -/
def judgePages (pages : List (List Byte)) : Option Node :=
  let first := pages.getD 0 []
  let total := pageCount first
  let records := pages.flatMap pageRecords
  let points := records.map pointOf
  if total ≤ 32
      && pages.all (fun p => pageCount p == total)
      && (List.range pages.length).all (fun k => pageSizeOk total k (pages.getD k []))
      && noRepeat (points.map (·.index)) && points.all (·.index ≤ 31)
      && records.all pointCodesOk then
    some { Node.absent with
      state := .discovered, outcome := .found, kindCode := first.getD 0 0, timeout := halfAt first 2,
      points := points.foldr insertPoint [] }
  else none

/-- DISCOVER completes: the new node table replaces the old, the link returns to IDLE (R60). -/
def endDiscovery (slot : Nat) (built : List Node) (l : Line) : Line :=
  complete slot { code := .ok, v9 := word (built.filter (·.state == .discovered)).length }
    (changeLink (fun k => { k with state := .idle, nodes := built, discovery := none }) l)

/-- The address under discovery is finished with the record given; the next address follows, or the end (R58, R60). -/
def finishAddress (d : Discovery) (nd : Node) (l : Line) : Line :=
  let built := d.built ++ [nd]
  if Config.nodeCount ≤ d.addr then endDiscovery d.slot built l
  else
    changeLink (fun k =>
      { k with discovery := some { d with addr := d.addr + 1, page := 0, pages := [], built := built } }) l

/-- A good ENUM page: the next page is asked for, or the address is judged (R58, R59; that the pages are judged together
after the last is notes/assumptions/18). -/
def enumGood (payload : List Byte) (l : Line) : Line :=
  match l.link.discovery with
  | none => l
  | some d =>
    let pages := d.pages ++ [payload]
    let total := pageCount (pages.getD 0 [])
    if total ≤ 32 ∧ d.page + 1 < pagesFor total then
      changeLink (fun k => { k with discovery := some { d with page := d.page + 1, pages := pages } }) l
    else finishAddress d ((judgePages pages).getD { Node.absent with outcome := .badPoints }) l

/-- A page unanswered after its retry: NO_REPLY for page 0, else INCOMPLETE (R58, R59). An address with a good but
inconsistent earlier page meets the row of BAD_POINTS too; that it is recorded INCOMPLETE is the model's choice
(notes/assumptions/41). -/
def enumFailed (l : Line) : Line :=
  match l.link.discovery with
  | none => l
  | some d =>
    finishAddress d { Node.absent with outcome := if d.page = 0 then .noReply else .incomplete } l

/-! ## Ends of an exchange (R65, R66, R70) -/

/-- A good one-shot reply (R70): OK or NODE_ERROR. -/
def oneShotGood (o : OneShot) (payload : List Byte) (l : Line) : Line :=
  if payload.getD 0 0 = 0 then complete o.slot { code := .ok, v9 := word (halfAt payload 1).toNat } l
  else complete o.slot { code := .nodeError } l

/-- The exchange has succeeded. -/
def exchangeGood (x : Exchange) (payload : List Byte) (l : Line) : Line :=
  exchangeEnded x.job
    (match x.job with
     | .scan => scanGood x.addr payload l
     | .enum _ => enumGood payload l
     | .oneShot o => oneShotGood o payload l)

/-- The retry has failed too: a miss, an unanswered page or TIMEOUT (R59, R66, R70). -/
def exchangeLost (x : Exchange) (l : Line) : Line :=
  exchangeEnded x.job
    (match x.job with
     | .scan => missNode x.addr l
     | .enum _ => enumFailed l
     | .oneShot o => complete o.slot { code := .timeout } l)

/-- The exchange on the link has failed: retried once at once, after any waiting SAFE, or lost (R55, R64, R70, R72). -/
def exchangeFailed (x : Exchange) (l : Line) : Line :=
  if x.retry then exchangeLost x l
  else
    let again := { x with retry := true }
    if l.link.safeWaits && linkScans l then sendSafe (some again) l else sendExchange again l

/-- The exchange whose reply is awaited fails; with none awaited nothing happens (R53). -/
def failAwaited (l : Line) : Line :=
  match l.link.busy with
  | .waiting x => exchangeFailed x l
  | _ => l

/-- Characters of a reply arrive: judged against the exchange that awaits one (R54), ignored when none does (R53). -/
def replyArrives (chars : List Byte) (l : Line) : Line :=
  match l.link.busy with
  | .waiting x => if replyGood l x chars then exchangeGood x (replyPayload chars) l else exchangeFailed x l
  | _ => l

/-- The sending of SAFE ends: the SAFE count rises, and the next SAFE, the waiting retry, or the next frame goes (R72 and
the row SAFE_FRAME_SENT of spec/opcode_table.json, which has the count rise at the end of the sending).
A SCAN retry that waited is resent as it was first sent: R55 and R64 keep a retry unchanged, where R72 lets the frame
after a SAFE carry the applied raw values as they then stand. The choice is the model's (notes/assumptions/36). -/
def safeSent (l : Line) : Line :=
  match l.link.busy with
  | .safe resume =>
    let l := releaseLink (changeLink (fun k => { k with safeCount := k.safeCount + 1 }) l)
    match resume with
    | none => pump l
    | some x => if l.link.safeWaits && linkScans l then sendSafe (some x) l else sendExchange x l
  | _ => l

/-! ## Period timer (R63) -/

/-- The scan period of the active configuration. -/
def scanPeriod (l : Line) : Nat := (l.active.map (·.scanPeriod)).getD 0

/-- The period timer runs out: it restarts, and starts a cycle, or raises the overrun count and owes one (R63). A cycle
started while a one-shot is on the link "begins when the one-shot ends" (R70), and the manual does not say whether it is
in progress before that. It counts as in progress from the expiry on, as does one that a SAFE on the link delays: a second
expiry meanwhile raises the overrun count and owes a cycle, and a LINK_HALT waits for the whole cycle (the model's
choice, notes/assumptions/42). -/
def periodExpires (dl : Word) (l : Line) : Line :=
  let l := changeLink (fun k => { k with period := some (after dl (scanPeriod l)) }) l
  if l.link.cycle.isSome then changeLink (fun k => { k with overrun := k.overrun + 1, owed := true }) l
  else pump (startCycle l)

/-! ## One-shots in flight (R23) -/

/-- An exchange is a one-shot's. -/
def Exchange.isOneShot (x : Exchange) : Bool :=
  match x.job with
  | .oneShot _ => true
  | _ => false

/-- A one-shot is on the link. -/
def oneShotOnLink (l : Line) : Bool :=
  match l.link.busy with
  | .waiting x => x.isOneShot
  | .safe (some x) => x.isOneShot
  | _ => false

/-! ## The driver and the reply limit (R53) -/

/-- ZL_DE: enabled while a frame of any kind is being sent, and only then (R53). -/
def driverEnabled (l : Line) : Bool := l.link.driving

/-- A time in microseconds as the milliseconds of line time after which it has passed. -/
def wholeMs (us : Nat) : Nat := (us + 999) / 1000

/-- The frame on the link has been sent: the driver is released, and the reply limit that the exchange started under
starts to run (R53, R83); the end of SAFE is SAFE_FRAME_SENT's. -/
def frameSent (l : Line) : Line :=
  match l.link.busy with
  | .safe _ => safeSent l
  | .waiting _ =>
    changeLink (fun k => { k with driving := false, replyDue := some (after (now l) (wholeMs l.link.limit)) }) l
  | .quiet => releaseLink l

/-- The reply limit runs and has run out (R53). -/
def replyLimitDue (l : Line) : Bool := l.link.replyDue.any (reached (now l))

end Sys2Proof.Machine
end

