-- ==== Sys2Proof/Machine/Staged.lean ====
section
/-! DEFINITION. Staging descriptors (Tables 5-1, 12-4): their fields as staged, and the typed descriptors they become. -/

namespace Sys2Proof.Machine

/-- A staged descriptor: its words. -/
abbrev Words := List Word

/-- Word k of a descriptor. -/
def wordAt (d : Words) (k : Nat) : Word := d.getD k 0

/-- A field of a descriptor's word. -/
def field (d : Words) (k lo len : Nat) : Nat := bits (wordAt d k) lo len

/-- A signed word of a descriptor (R176). -/
def signedAt (d : Words) (k : Nat) : Int := (wordAt d k).toInt

/-! ## The shadow configuration (R76) -/

/-- The byte offset in staging of the n-th word a COMMIT_FULL reads: 0x0000 to 0x027F, then 0x0400 to 0x33FF (R76). -/
def commitOffset (n : Nat) : Nat := if n < 160 then 4 * n else 0x400 + 4 * (n - 160)

/-- `count` descriptors of `size` words from word `start` of the words read. -/
def descriptors (ws : Words) (start size count : Nat) : List Words :=
  (List.range count).map fun i => (ws.drop (start + size * i)).take size

/-- A shadow configuration: the five parts as staged. -/
structure Shadow where
  general  : Words
  sections : List Words
  zones    : List Words
  recipes  : List Words
  channels : List Words
  deriving DecidableEq, Repr

/-- The shadow configuration of the 3232 words read, in their order (R76, Table 5-1). -/
def Shadow.ofWords (ws : Words) : Shadow where
  general := ws.take 64
  sections := descriptors ws 64 8 12
  zones := descriptors ws 160 64 8
  recipes := descriptors ws 672 16 32
  channels := descriptors ws 1184 8 256

/-! ## Fields of a channel descriptor (Table 12-4) -/

def chKind (d : Words) : Nat := field d 0 0 8
def chFunction (d : Words) : Nat := field d 0 8 8
def chOwner (d : Words) : Nat := field d 0 16 8
def chDecimals (d : Words) : Nat := field d 0 24 8
def chAddr (d : Words) : Nat := (wordAt d 1).toNat
def chNode (d : Words) : Nat := field d 2 0 8
def chPoint (d : Words) : Nat := field d 2 8 8
def chLimitAction (d : Words) : Nat := field d 2 16 8
def chReadback (d : Words) : Nat := field d 2 24 8
def chEngMin (d : Words) : Int := signedAt d 3
def chEngMax (d : Words) : Int := signedAt d 4
def chValue (d : Words) : Int := signedAt d 5
def chStale (d : Words) : Nat := (wordAt d 6).toNat
def chArrangement (d : Words) : Nat := field d 7 0 8
def chPartner (d : Words) : Nat := field d 7 16 16

/-- The staged channel is of an input kind. -/
def chIsInput (d : Words) : Bool := (ChanKind.ofCode (chKind d)).isInput
/-- The staged channel is an ordinary output. -/
def chIsOutput (d : Words) : Bool := (ChanKind.ofCode (chKind d)).isOutput
/-- The staged channel is an ordinary or a part-driven output. -/
def chDrives (d : Words) : Bool := (ChanKind.ofCode (chKind d)).drives
/-- The staged channel is an EVENT channel. -/
def chIsEvent (d : Words) : Bool := chKind d == 7
/-- The staged channel is part-driven. -/
def chIsPart (d : Words) : Bool := chKind d == 6

/-- An arrangement by code. -/
def arrangementOf : Nat → Arrangement
  | 1 => .swapBytes | 2 => .swapHalves | 3 => .swapBoth | _ => .asIs

/-- The descriptor a checked channel becomes (Table 3-2). -/
def channelDesc (d : Words) : ChanDesc :=
  let kind := ChanKind.ofCode (chKind d)
  { kind := kind
    func := ChanFunction.ofCode (chFunction d)
    addr := if kind = .event then 0 else wordAt d 1
    owner := if chOwner d < Config.zoneCount then some (chOwner d) else none
    node := chNode d
    point := chPoint d
    engMin := chEngMin d
    engMax := chEngMax d
    decimals := chDecimals d
    limit := if chLimitAction d = 1 then .refuse else .clamp
    safe := if kind.drives then chValue d else 0
    fallback := if kind.isInput then chValue d else 0
    staleLimit := chStale d
    readback := if chReadback d = 1 then .applied else .commanded
    arrangement := arrangementOf (chArrangement d)
    partner := if chPartner d < Config.channelCount then some (chPartner d) else none }

/-! ## Fields of a zone descriptor (Table 12-4) -/

def znKind (d : Words) : Nat := field d 0 0 8
def znStartCount (d : Words) : Nat := field d 0 16 8
def znStopCount (d : Words) : Nat := field d 0 24 8
def znConditionCount (d : Words) : Nat := (wordAt d 2).toNat
/-- The prerequisites named: the fields that are not 255. -/
def znPrereqs (d : Words) : List Nat := [field d 1 0 8, field d 1 8 8, field d 1 16 8].filter (· != 255)
/-- The start or stop steps as staged, 3 words each; at most the 8 there is room for (a greater count fails check 52). -/
def znSteps (d : Words) : Program → List Words
  | .start => descriptors d 12 3 (min 8 (znStartCount d))
  | .stop => descriptors d 36 3 (min 8 (znStopCount d))
/-- The trip conditions as staged, 2 words each; at most the 4 there is room for (a greater count fails check 56). -/
def znConditions (d : Words) : List Words := descriptors d 4 2 (min 4 (znConditionCount d))
/-- The zone is present (5.1). -/
def znPresent (d : Words) : Bool := znKind d != 0

def stKind (s : Words) : Nat := field s 0 0 8
def stCmp (s : Words) : Nat := field s 0 8 8
def stChannel (s : Words) : Nat := field s 0 16 16
def stTime (s : Words) : Nat := (wordAt s 1).toNat
def stTimeout (s : Words) : Nat := (wordAt s 2).toNat
def cdChannel (c : Words) : Nat := field c 0 0 16
def cdCmp (c : Words) : Nat := field c 0 16 8

def comparisonOf : Nat → Comparison
  | 1 => .le | _ => .ge

/-- A checked step (Table 6-2). -/
def stepOf (s : Words) : Step :=
  match stKind s with
  | 1 => .set (stChannel s) (signedAt s 1)
  | 2 => .waitTime (stTime s)
  | _ => .waitUntil (stChannel s) (comparisonOf (stCmp s)) (signedAt s 1) (stTimeout s)

/-- A checked trip condition (Table 6-1). -/
def conditionOf (c : Words) : Condition where
  channel := cdChannel c
  cmp := comparisonOf (cdCmp c)
  limit := signedAt c 1
  tripOnLoss := bit (wordAt c 0) 24

/-- The zone a checked descriptor becomes at the swap: none for kind NONE, else OFF (R83, R88). -/
def zoneOf (t : Word) (d : Words) : Option Zone :=
  let make (k : ZoneKind) : Zone :=
    { desc :=
        { kind := k, prereqs := znPrereqs d, guarded := bit (wordAt d 0) 8, nodeFaultTrips := bit (wordAt d 0) 9,
          startProgram := (znSteps d .start).map stepOf, stopProgram := (znSteps d .stop).map stepOf,
          conditions := (znConditions d).map conditionOf }
      run :=
        { state := .off, runPending := false, cause := .none, program := none, deadline := none, entryTime := t,
          trips := 0 } }
  match znKind d with
  | 1 => some (make .track)
  | 2 => some (make .bag)
  | 3 => some (make .transfer)
  | 4 => some (make .utility)
  | _ => none

/-! ## Fields of a section descriptor (Table 12-4) -/

def scZone (d : Words) : Nat := field d 0 0 8
def scCriterion (d : Words) : Nat := field d 0 8 8
def scLength (d : Words) : Nat := (wordAt d 1).toNat
def scMotion (d : Words) : Nat := (wordAt d 2).toNat
def scCounts (d : Words) : Nat := (wordAt d 3).toNat
def scCriterionChan (d : Words) : Nat := (wordAt d 4).toNat
def scMaxGap (d : Words) : Nat := (wordAt d 5).toNat
/-- A used section: non-zero length (5.1). -/
def scUsed (d : Words) : Bool := scLength d != 0

/-- The section a checked descriptor becomes at the swap, every place empty (R83, R107, R108, R124, R128). -/
def sectionOf (d : Words) : Section where
  desc :=
    { zone := scZone d, length := scLength d, motion := scMotion d, countsPerCell := scCounts d,
      criterion := match scCriterion d with | 1 => .blanch | 2 => .freeze | _ => .none
      criterionChan := scCriterionChan d, maxGap := scMaxGap d, arrivalFlag := bit (wordAt d 0) 16 }
  places := List.replicate (scLength d) none
  remainder := 0
  lastCriterion := none
  lastLot := 0
  arrival := none

/-! ## Fields of a recipe descriptor (Table 12-4) -/

/-- The valid flag. -/
def rcValid (d : Words) : Bool := bit (wordAt d 0) 31

/-- The recipe a descriptor becomes, none when its valid flag is clear (R85, R126). -/
def recipeOf (d : Words) : Option Recipe :=
  if rcValid d then
    some
      { product := field d 0 0 16, blanchMin := signedAt d 1, blanchDeviation := signedAt d 2,
        blanchCreditMin := (wordAt d 3).toNat, blanchCreditMax := (wordAt d 4).toNat, freezeMax := signedAt d 5,
        freezeDeviation := signedAt d 6, freezeCreditMin := (wordAt d 7).toNat, massPerUnit := (wordAt d 8).toNat,
        bagTarget := (wordAt d 9).toNat, bagMin := (wordAt d 10).toNat, bagMax := (wordAt d 11).toNat,
        exposureLimit := (wordAt d 12).toNat }
  else none

/-! ## The general block (Tables 5-2, 12-4) -/

/-- The general block as staged. -/
def generalOf (d : Words) : General where
  scanPeriod := (wordAt d 0).toNat
  replyLimit := (wordAt d 1).toNat
  heartbeatLimit := (wordAt d 2).toNat
  palletCapacity := (wordAt d 3).toNat
  transitLimit := (wordAt d 4).toNat
  logThreshold := (wordAt d 5).toNat
  reserveFloor := (wordAt d 6).toNat

end Sys2Proof.Machine
end

