-- ==== Sys2Proof/Machine/Validate.lean ====
section
/-! DEFINITION. The commit's validation (R77 to R81): each item's checks in the order of its table, the first failure
reported. -/

namespace Sys2Proof.Machine

/-- A failing item: table code, index, reason (R77). -/
structure Failure where
  table  : Nat
  index  : Nat
  reason : Nat
  deriving DecidableEq, Repr

/-- The reason of the first check that does not hold. -/
def firstFailing : List (Nat × Bool) → Option Nat
  | [] => none
  | (reason, holds) :: rest => if holds then firstFailing rest else some reason

/-- A number lies in a range that includes both ends. -/
def within (lo hi n : Nat) : Bool := lo ≤ n && n ≤ hi

/-- The first failure of a list of items checked in index order. -/
def firstItem (table : Nat) (check : Nat → Option Nat) : List Nat → Option Failure
  | [] => none
  | i :: rest =>
    match check i with
    | some reason => some { table := table, index := i, reason := reason }
    | none => firstItem table check rest

/-! ## General block (Table 5-2) -/

def checkGeneral (d : Words) : Option Nat :=
  let g := generalOf d
  firstFailing
    [(1, within 2 200 g.scanPeriod), (2, within 100 5000 g.replyLimit),
     (3, g.heartbeatLimit == 0 || within 20 10000 g.heartbeatLimit), (4, within 10 120 g.palletCapacity),
     (5, within 10 3600 g.transitLimit), (6, within 1 1024 g.logThreshold), (7, g.reserveFloor ≤ 64)]

/-! ## Channels (R78) -/

/-- What validation reads beside the shadow configuration: the straps and the node table in force (R78). -/
structure CheckEnv where
  straps : Straps
  nodes  : List Node
  deriving DecidableEq, Repr

/-- A staged channel by index; one outside the table counts as UNUSED. -/
def stagedChannel (s : Shadow) (i : Nat) : Words := s.channels.getD i []

/-- A staged zone by number; one outside the table counts as NONE. -/
def stagedZone (s : Shadow) (z : Nat) : Words := s.zones.getD z []

/-- The index names a staged channel with the property. -/
def channelIs (s : Shadow) (i : Nat) (p : Words → Bool) : Bool := i < Config.channelCount && p (stagedChannel s i)

/-- The number names a present staged zone with the property. -/
def zoneIs (s : Shadow) (z : Nat) (p : Words → Bool) : Bool :=
  z < Config.zoneCount && znPresent (stagedZone s z) && p (stagedZone s z)

/-- No staged channel of lower index, other than UNUSED ones, has the property. -/
def noLower (s : Shadow) (i : Nat) (p : Words → Bool) : Bool :=
  (s.channels.take i).all fun e => chKind e == 0 || !p e

/-- The node of a staged channel is not ABSENT, with its record. -/
def stagedNode (env : CheckEnv) (d : Words) : Option Node :=
  match env.nodes[chNode d - 1]? with
  | some nd => if nd.state = .absent then none else some nd
  | none => none

/-- The existing point of a staged channel. -/
def stagedPoint (env : CheckEnv) (d : Words) : Option Point := (stagedNode env d).bind fun nd => pointAt nd (chPoint d)

/-- Check 25: the point's direction fits the kind. -/
def directionFits (d : Words) (p : Point) : Bool :=
  if chIsInput d then p.direction == .input
  else if chDrives d then p.direction == .output
  else p.direction == .event

/-- Check 26: the point's type fits the kind. -/
def typeFits (d : Words) (p : Point) : Bool :=
  let t := p.ptype.toNat
  match ChanKind.ofCode (chKind d) with
  | .inputAnalog | .partOutput => t == 0 || t == 2
  | .inputCounter => t == 1
  | .inputDiscrete | .outputDiscrete => t == 2
  | .outputAnalog => t == 0
  | .unused | .event => true

/-- Check 33: the owner zone of a part-driven output. -/
def partOwnerOk (s : Shadow) (d : Words) : Bool :=
  zoneIs s (chOwner d) fun z => znKind z == (if chFunction d = 3 then 3 else 2)

/-- Check 19: below the memory size and outside the control area. -/
def addressOk (st : Straps) (a : Nat) : Bool :=
  a < memorySize st && !(controlBase st ≤ a && a ≤ controlBase st + 0x2FFFF)

/-- The checks of one channel (R78); UNUSED entries are not checked. -/
def checkChannel (env : CheckEnv) (s : Shadow) (i : Nat) : Option Nat :=
  let d := stagedChannel s i
  let valued := chIsInput d || chDrives d
  if chKind d = 0 then none
  else
    firstFailing
      [(16, within 0 7 (chKind d)),
       (17, if chIsPart d then within 1 3 (chFunction d) else if chIsEvent d then within 4 5 (chFunction d) else true),
       (18, chAddr d % 4 == 0 && (!chIsEvent d || chAddr d == 0)),
       (19, chIsEvent d || addressOk env.straps (chAddr d)),
       (20, chIsEvent d || noLower s i fun e => !chIsEvent e && chAddr e == chAddr d),
       (21, chOwner d < Config.zoneCount || chOwner d == 255),
       (22, within 1 16 (chNode d) && chPoint d ≤ 31),
       (23, noLower s i fun e => chNode e == chNode d && chPoint e == chPoint d),
       (24, (stagedNode env d).all fun nd => (pointAt nd (chPoint d)).isSome),
       (25, (stagedPoint env d).all (directionFits d)),
       (26, (stagedPoint env d).all (typeFits d)),
       (27, !valued || (chDecimals d ≤ 3 && decide (chEngMin d < chEngMax d))),
       (28, (!chIsOutput d || chLimitAction d ≤ 1) && (!chDrives d || chReadback d ≤ 1)
          && (chIsEvent d || chArrangement d ≤ 3)),
       (29, !chIsInput d || within 10 60000 (chStale d)),
       (30, !chDrives d || (decide (chEngMin d ≤ chValue d) && decide (chValue d ≤ chEngMax d))),
       (31, !chIsOutput d || chPartner d == 0xFFFF || channelIs s (chPartner d) chIsInput),
       (32, !chIsPart d || noLower s i fun e => chIsPart e && chFunction e == chFunction d),
       (33, !chIsPart d || partOwnerOk s d),
       (34, !(chIsPart d && chFunction d == 3) || decide (chValue d = 0)),
       (35, !(chIsPart d && chFunction d == 3)
          || (stagedPoint env d).all fun p => p.rawMin == 0 && p.rawMax == 65535)]

/-! ## Zones (R79) -/

/-- The zones a set reaches through the prerequisites of present zones (check 51). -/
def prereqClosure (s : Shadow) : Nat → List Nat → List Nat
  | 0, set => set
  | fuel + 1, set =>
    prereqClosure s fuel
      ((List.range Config.zoneCount).filter fun z =>
        set.contains z || (znPresent (stagedZone s z)
          && set.any fun y => (znPrereqs (stagedZone s y)).contains z))

/-- Check 51: the zone lies on no cycle of the prerequisite graph. -/
def notOnCycle (s : Shadow) (z : Nat) : Bool :=
  !(prereqClosure s Config.zoneCount
      ((znPrereqs (stagedZone s z)).filter fun y => zoneIs s y fun _ => true)).contains z

/-- Checks 53 to 55 on one step. -/
def checkStep (s : Shadow) (z : Nat) (st : Words) : Option Nat :=
  firstFailing
    [(53, stKind st != 1 || channelIs s (stChannel st) fun c => chDrives c && chOwner c == z),
     (54, (stKind st != 2 || within 1 3600000 (stTime st)) && (stKind st != 3 || within 1 3600000 (stTimeout st))),
     (55, stKind st != 3 || channelIs s (stChannel st) chIsInput)]

/-- The first failing check of a list of steps. -/
def checkSteps (s : Shadow) (z : Nat) : List Words → Option Nat
  | [] => none
  | st :: rest =>
    match checkStep s z st with
    | some r => some r
    | none => checkSteps s z rest

/-- The checks of one zone (R79); zones of kind NONE are not checked. -/
def checkZone (s : Shadow) (z : Nat) : Option Nat :=
  let d := stagedZone s z
  let steps := znSteps d .start ++ znSteps d .stop
  let unique (k : Nat) := znKind d != k || (s.zones.take z).all fun e => znKind e != k
  if znKind d = 0 then none
  else
    match
      firstFailing
        [(48, within 1 4 (znKind d)),
         (49, unique 2 && unique 3),
         (50, (znPrereqs d).all (fun y => y != z && zoneIs s y fun _ => true)
            && (znPrereqs d).all fun y => (znPrereqs d).count y == 1),
         (51, notOnCycle s z),
         (52, znStartCount d ≤ 8 && znStopCount d ≤ 8 && steps.all fun st => within 1 3 (stKind st))] with
    | some r => some r
    | none =>
      match checkSteps s z steps with
      | some r => some r
      | none =>
        firstFailing
          [(56, znConditionCount d ≤ 4 && (znConditions d).all fun c => channelIs s (cdChannel c) chIsInput),
           (57, steps.all (fun st => stKind st != 3 || stCmp st ≤ 1) && (znConditions d).all fun c => cdCmp c ≤ 1),
           (58, znKind d != 2 || s.zones.any fun e => znKind e == 3)]

/-! ## Sections (R80) -/

/-- The checks of one section (R80); a section of length 0 is checked no further. -/
def checkSection (s : Shadow) (i : Nat) : Option Nat :=
  let d := s.sections.getD i []
  let before := s.sections.take i
  let judged := scCriterion d == 1 || scCriterion d == 2
  if scLength d = 0 then none
  else
    firstFailing
      [(64, scLength d ≤ 256),
       (65, before.all scUsed),
       (66, zoneIs s (scZone d) fun z => znKind z == 1),
       (67, channelIs s (scMotion d) fun c => chKind c == 2),
       (68, within 1 65535 (scCounts d)),
       (69, scCriterion d ≤ 2 && (!judged || channelIs s (scCriterionChan d) fun c => chKind c == 1)),
       (70, within 10 10000 (scMaxGap d)),
       (71, ((before.map scLength).foldl (· + ·) 0) + scLength d ≤ 1024),
       (72, scCriterion d != 1 || before.all fun e => scCriterion e != 2)]

/-- The checks of the track as a whole (73, 74 of R80). -/
def checkTrack (s : Shadow) : Option Failure :=
  let used := s.sections.filter scUsed
  if used.isEmpty then some { table := 3, index := 0, reason := 73 }
  else if used.all fun d => scCriterion d != 2 then some { table := 3, index := used.length - 1, reason := 74 }
  else none

/-! ## Recipes (R81) -/

/-- The checks of a descriptor whose valid flag is set (R81). -/
def checkRecipe (d : Words) : Option Nat :=
  match recipeOf d with
  | none => none
  | some r =>
    firstFailing
      [(80, r.bagMin ≤ r.bagTarget && r.bagTarget ≤ r.bagMax),
       (81, 0 < r.massPerUnit),
       (82, within 1 3600 r.exposureLimit),
       (83, r.blanchCreditMax == 0 || r.blanchCreditMin ≤ r.blanchCreditMax),
       (84, decide (r.blanchDeviation ≤ r.blanchMin) && decide (r.freezeMax ≤ r.freezeDeviation))]

/-! ## The whole validation (R77) -/

/-- The first failure of several parts in order. -/
def firstFailure : List (Option Failure) → Option Failure
  | [] => none
  | some f :: _ => some f
  | none :: rest => firstFailure rest

/-- The validation of a shadow configuration: none when every check passes (R77). -/
def validate (env : CheckEnv) (s : Shadow) : Option Failure :=
  firstFailure
    [(checkGeneral s.general).map fun r => { table := 0, index := 0, reason := r },
     firstItem 1 (checkChannel env s) (List.range Config.channelCount),
     firstItem 2 (checkZone s) (List.range Config.zoneCount),
     firstItem 3 (checkSection s) (List.range 12),
     checkTrack s,
     firstItem 4 (fun i => checkRecipe (s.recipes.getD i [])) (List.range Config.recipeCount)]

end Sys2Proof.Machine
end

