-- ==== Sys2Proof/Machine/Commit.lean ====
section
/-! DEFINITION. COMMIT_FULL's completion and swap, COMMIT_RECIPE's end, and what REINIT clears (Chapter 5). -/

namespace Sys2Proof.Machine

/-! ## The swap (R33, R34, R61, R83) -/

/-- The raw range a channel is bound to: its node present and the point in the node's list (R33). -/
def bindingOf (nodes : List Node) (d : ChanDesc) : Option RawRange :=
  match nodes[d.node - 1]? with
  | none => none
  | some nd =>
    if nd.state = .absent then none else (pointAt nd d.point).map fun p => { rawMin := p.rawMin, rawMax := p.rawMax }

/-- A channel as the swap sets it afresh (R34). -/
def freshChannel (nodes : List Node) (d : ChanDesc) : Channel :=
  if d.kind = .unused then Channel.unused
  else
    let b := bindingOf nodes d
    let c : Channel :=
      { desc := d
        run := { Channel.unused.run with
          quality := if b.isNone then .unbound else if d.kind.isInput then .stale else if d.kind.drives then .good else .unbound
          hostValue := d.safe, programValue := d.safe, functionValue := d.safe, bound := b } }
    refresh none c

/-- The match table of a channel table: every active channel with a word (R11). -/
def matchTableOf (chans : List Channel) : List (Word × Nat) :=
  (indicesWhere (fun c => c.desc.kind != .unused && c.desc.kind != .event) chans).map fun i =>
    ((chans.getD i Channel.unused).desc.addr, i)

/-- An active channel of any kind names the node. -/
def namesNode (chans : List Channel) (n : Nat) : Bool :=
  chans.any fun c => c.desc.kind != .unused && c.desc.node == n

/-- A node at the swap: BOUND when an active channel names it, counts 0, last-taken sequence kept (R61). -/
def swapNode (chans : List Channel) (n : Nat) (nd : Node) : Node :=
  { nd with
    state :=
      if nd.state = .discovered ∨ nd.state = .bound then if namesNode chans n then .bound else .discovered
      else nd.state
    misses := 0, repeats := 0, unbound := 0 }

/-- The watchdog takes the new heartbeat limit (R29). -/
def startWatchdog (limit : Nat) (l : Line) : Line :=
  { l with
    status := { l.status with
      watchdog := if limit = 0 then .stopped else .running
      restart := if limit = 0 then l.status.restart else now l } }

/-- Every block's part of the swap but the log's (R83). -/
def swapBlocks (s : Shadow) (l : Line) : Line :=
  let chans := (s.channels.map channelDesc).map (freshChannel l.link.nodes)
  let g := generalOf s.general
  startWatchdog g.heartbeatLimit
    { l with
      active := some g
      chans := chans
      matchTable := matchTableOf chans
      link := { l.link with nodes := l.link.nodes.mapIdx fun k nd => swapNode chans (k + 1) nd }
      zones := s.zones.map (zoneOf (now l))
      track := { l.track with
        sections := (s.sections.filter scUsed).map sectionOf
        motion := List.replicate Config.channelCount none
        recipes := s.recipes.map recipeOf }
      transfer := { l.transfer with transit := none } }

/-- The number of active channels. -/
def activeChannels (l : Line) : Nat := (l.chans.filter (·.desc.kind != .unused)).length
/-- The number of bound channels. -/
def boundChannels (l : Line) : Nat := (l.chans.filter (·.run.bound.isSome)).length
/-- The number of BOUND nodes. -/
def boundNodes (l : Line) : Nat := (l.link.nodes.filter (·.state == .bound)).length

/-- The swap: every block's part, then the log judges its new threshold and the CONFIG_COMMITTED record (R83, R175). -/
def swap (s : Shadow) (l : Line) : Line :=
  let l := judgeThreshold (swapBlocks s l)
  offer .configCommitted [word (activeChannels l), word (boundChannels l), word (boundNodes l)] l

/-- The result a commit posts for OK (R83). -/
def swapReply (l : Line) : Reply :=
  { code := .ok, v9 := word (activeChannels l), v10 := word (boundChannels l), v11 := word (boundNodes l) }

/-- A COMMIT_FULL completes, its words all read (R82). -/
def completeCommit (st : Straps) (touched : Bool) (job : CommitJob) (l : Line) : Line :=
  let s := Shadow.ofWords job.words
  let l := { l with request := { l.request with commit := none } }
  if touched then complete job.slot { code := .stagingChanged } l
  else
    match validate { straps := st, nodes := l.link.nodes } s with
    | some f =>
      complete job.slot { code := .configInvalid, v9 := word f.table, v10 := word f.index, v11 := word f.reason } l
    | none =>
      let l := swap s l
      complete job.slot (swapReply l) l

/-! ## COMMIT_RECIPE (R85) -/

/-- A COMMIT_RECIPE taking ends, its 16 words read. -/
def completeRecipe (job : RecipeJob) (l : Line) : Line :=
  let l := { l with request := { l.request with recipeJob := none } }
  match checkRecipe job.words with
  | some reason =>
    complete job.slot { code := .configInvalid, v9 := 4, v10 := word job.index, v11 := word reason } l
  | none =>
    complete job.slot { code := .ok }
      { l with track := { l.track with recipes := change l.track.recipes job.index fun _ => recipeOf job.words } }

/-! ## Staging reads (R10, R76) -/

/-- The staging offset of the read that waits, if one does: COMMIT_FULL's next word or COMMIT_RECIPE's. The two are
never in progress together (R23). -/
def waitingOffset (l : Line) : Option Nat :=
  match l.request.commit with
  | some job => some (commitOffset job.words.length)
  | none => l.request.recipeJob.map fun job => 0x0C00 + 64 * job.index + 4 * job.words.length

/-- A staging word is handed back: the reader asks for the next, or completes (R10, R76, R85). -/
def takeStagingWord (st : Straps) (touched : Bool) (w : Word) (l : Line) : Line :=
  match l.request.commit with
  | some job =>
    let job := { job with words := job.words ++ [w] }
    if job.words.length < Config.commitWords then { l with request := { l.request with commit := some job } }
    else completeCommit st touched job l
  | none =>
    match l.request.recipeJob with
    | none => l
    | some job =>
      let job := { job with words := job.words ++ [w] }
      if job.words.length < Config.recipeWords then { l with request := { l.request with recipeJob := some job } }
      else completeRecipe job l

/-! ## REINIT (Table 5-3) -/

/-- What REINIT clears, from its taking (R57, R86, Table 5-3). -/
def clearBlocks (l : Line) : Line :=
  { l with
    status := { l.status with watchdog := .stopped }
    active := none
    chans := List.replicate Config.channelCount Channel.unused
    matchTable := []
    link := { l.link with nodes := List.replicate Config.nodeCount Node.absent }
    zones := List.replicate Config.zoneCount none
    track := { l.track with
      sections := [], motion := List.replicate Config.channelCount none, lots := [],
      recipes := List.replicate Config.recipeCount none }
    pack := { l.pack with feed := [], pallets := [] }
    transfer := { l.transfer with transit := none } }

end Sys2Proof.Machine
end

