-- ==== Sys2Proof/Machine/Views.lean ====
section
/-! DEFINITION. The part-owned words as the host reads them: status block, request slots, views and record log (R5, R176,
Tables 12-2, 12-3, 12-5). -/

namespace Sys2Proof.Machine

/-- Word k of a record's words; a word past the last one given is a gap and reads 0 (R5). -/
def recordWord (ws : List Word) (k : Nat) : Word := ws.getD k 0

/-- Two 16-bit halves of a word, each saturated at 65 535 (R176, notes/assumptions/34). -/
def halves (lo hi : Nat) : Word := fields [(0, 16, capped 65535 lo), (16, 16, capped 65535 hi)]

/-! ## Status block (Table 12-2) -/

/-- The straps as sampled (offset 0x3C). -/
def strapsWord (st : Straps) : Word :=
  fields [(0, 2, st.ca.toNat), (2, 2, st.ms.toNat), (4, 1, flag st.ubo), (5, 2, st.lr.toNat)]

/-- The words of the status block (R31, Table 12-2). -/
def statusWords (st : Straps) (l : Line) : List Word :=
  [l.status.notices.setWidth 32, l.status.enables.setWidth 32, l.status.heartbeat, word l.log.consumer,
   l.status.time, l.status.lastBad, l.log.drops, word l.status.watchdog.code, word l.log.producer,
   fields [(0, 1, flag l.log.full), (1, 1, flag l.active.isSome), (2, 1, flag l.stopHigh)],
   word l.log.reserved, word (usedCount l.log), word (logThreshold l), word (reserveFloor l), l.log.seq,
   strapsWord st, word l.pack.ringNext]

/-! ## Request slots (2.1) -/

/-- The words of a request slot; words 13 to 15 are gaps (R18). -/
def slotWords (s : Slot) : List Word :=
  [word s.state.code, s.kind, s.arg2, s.arg3, s.arg4, s.arg5, s.arg6, s.arg7, s.result, s.val9, s.val10, s.val11,
   s.val12]

/-! ## Views (Table 12-3) -/

/-- The current value of the channel view, by kind (R52). -/
def shownValue (c : Channel) : Word :=
  if c.desc.kind.isInput then signedWord (currentValue c)
  else if c.desc.kind.isOutput then signedWord c.run.hostValue
  else if c.desc.kind = .partOutput then signedWord c.run.functionValue
  else c.run.events

/-- A record of the channel view (R52). -/
def channelWords (c : Channel) : List Word :=
  if c.desc.kind = .unused then []
  else
    let input := c.desc.kind.isInput
    let drives := c.desc.kind.drives
    [fields [(0, 8, c.desc.kind.code), (8, 8, c.run.quality.code), (16, 1, flag c.run.limitRefused),
             (17, 1, flag c.run.partialWrite), (18, 1, flag c.run.simFlag), (19, 1, flag c.run.lastSample.isSome)],
     shownValue c,
     if drives then signedWord c.run.applied else if input then signedWord c.run.simValue else 0,
     if drives then word c.run.appliedRaw.toNat else if input then orZero c.run.lastSample else 0]

/-- A record of the zone view (R106). -/
def zoneWords (stopHigh : Bool) (z : Zone) : List Word :=
  let program := (z.run.program.map fun p => p.1.code).getD 0
  let step := (z.run.program.map fun p => p.2).getD 0
  [fields [(0, 8, z.desc.kind.code), (8, 8, z.run.state.code), (16, 1, flag z.run.runPending), (17, 1, flag stopHigh),
           (18, 1, flag z.run.deadline.isSome)],
   fields [(0, 8, z.run.cause.code), (8, 8, program), (16, 8, step)],
   word z.run.cause.detail, orZero z.run.deadline, z.run.entryTime, z.run.trips]

/-- The three words of a point (Table 12-3). -/
def pointWords (p : Point) : List Word :=
  [fields [(0, 8, p.index), (8, 8, p.direction.code), (16, 8, p.ptype.toNat), (24, 8, p.unitCode.toNat)],
   fields [(0, 16, p.rawMin.toNat), (16, 16, p.rawMax.toNat)], word p.safeRaw.toNat]

/-- The link-wide words 112 to 116 of every node record (R74). -/
def linkWords (l : Line) : List Word :=
  [word l.link.state.code, fields (l.link.scanList.map fun n => (n - 1, 1, 1)),
   fields [(0, 8, l.link.oneShots.length), (8, 1, flag (oneShotOnLink l))], l.link.overrun, l.link.safeCount]

/-- The words of a node's own record (R74). -/
def nodeWords (nd : Node) : List Word :=
  [fields [(0, 8, nd.state.code), (8, 8, nd.outcome.code), (16, 8, nd.points.length), (24, 4, nd.lastTaken)],
   word nd.kindCode.toNat, word nd.timeout.toNat, word nd.misses,
   fields [(0, 8, nd.status.toNat), (8, 8, nd.pendingEvents.toNat)], nd.repeats, nd.unbound, 0]
    ++ nd.points.flatMap pointWords

/-- Word k of a node record (R74). -/
def nodeWord (l : Line) (nd : Node) (k : Nat) : Word :=
  if k < 112 then recordWord (nodeWords nd) k else recordWord (linkWords l) (k - 112)

/-- The occupied cells of a section. -/
def occupied (s : Section) : List TrackCell := s.places.filterMap id

/-- A record of the section view (R125). -/
def sectionWords (l : Line) (s : Section) : List Word :=
  let stored := l.track.motion.getD s.desc.motion none
  [fields [(0, 8, s.desc.zone), (8, 8, s.desc.criterion.code), (16, 1, flag s.desc.arrivalFlag),
           (17, 1, flag stored.isSome), (18, 1, flag (stored.any (·.simulated))), (19, 1, flag s.arrival.isSome),
           (20, 1, flag s.lastCriterion.isSome)],
   fields [(0, 16, s.desc.length), (16, 16, (occupied s).length)],
   word ((occupied s).foldl (fun n c => n + c.units) 0),
   fields [(0, 16, (stored.map (·.count)).getD 0), (16, 16, s.remainder)],
   fields [(0, 16, s.lastLot), (16, 16, (s.arrival.map (·.1)).getD 0)],
   orZero (s.arrival.map (·.2)), orZero s.lastCriterion]

/-- A credit as the cell view shows it, saturated at 33 554 431 ms (R176). -/
def shownCredit (n : Nat) : Nat := capped 33554431 n

/-- The code of an outcome that may be absent. -/
def outcomeCode (o : Option CellOutcome) : Nat := (o.map (·.code)).getD 0

/-- A record of the cell view (R125, R139). -/
def cellWords : Option TrackCell → List Word
  | none => []
  | some c =>
    [fields [(0, 16, c.lot), (16, 16, c.units)], c.entryTime,
     fields [(0, 25, shownCredit c.blanchCredit), (25, 1, 1), (26, 3, outcomeCode c.blanchOutcome),
             (29, 3, outcomeCode c.overall)],
     fields [(0, 25, shownCredit c.freezeCredit), (25, 1, flag c.blanchDeviation), (26, 1, flag c.freezeDeviation),
             (27, 1, flag c.unmeasured), (28, 1, flag c.positionLost), (29, 1, flag c.mixed)]]

/-- A record of the lot view (R125, R139). -/
def lotWords (x : Lot) : List Word :=
  [fields [(0, 16, x.number), (16, 4, if x.isOpen then 1 else 2), (20, 4, x.verdict.code), (24, 5, x.recipe),
           (29, 1, flag x.trial), (30, 1, flag x.mixed), (31, 1, flag x.firstExit.isSome)],
   fields [(0, 7, x.reasons.toNat), (8, 8, x.livePallets), (16, 8, capped 255 x.exposedPallets.toNat)],
   x.admissionTime, x.admissionOrder, orZero x.verdictTime, orZero x.firstExit, word x.massDelivered,
   word x.massBagged, word x.residual,
   halves x.admitted.toNat x.mergedIn.toNat, halves x.onTrack.toNat x.unevaluated.toNat,
   halves x.mixedAway.toNat x.outcomes.pass.toNat, halves x.outcomes.short.toNat x.outcomes.overMax.toNat,
   halves x.outcomes.unmeasured.toNat x.outcomes.positionLost.toNat,
   halves x.outcomes.deviation.toNat x.bagsMade.toNat, halves x.bagsRejected.toNat 0]

/-- A record of the feed list view (Table 12-3). -/
def feedWords (e : FeedEntry) : List Word := [word e.lot, word e.mass, e.exit]

/-- A record of the pallet view (R148). -/
def palletWords (p : Pallet) : List Word :=
  [fields [(0, 16, p.number), (16, 2, p.lane.code), (18, 4, p.state.code), (22, 1, flag p.exposed),
           (24, 4, p.reason.code), (28, 4, p.lots.length)],
   word p.bags, word p.mass, orZero p.exposureStart, orZero p.deadline, orZero p.joinOrder,
   fields [(0, 1, flag p.exposureStart.isSome), (1, 1, flag p.deadline.isSome), (2, 1, flag p.joinOrder.isSome)], 0]
    ++ p.lots.map fun e => fields [(0, 16, e.lot), (16, 8, e.bags), (24, 8, e.provisional)]

/-- The transfer view (R169). -/
def transferWords (l : Line) : List Word :=
  let t := l.transfer
  [fields [(0, 8, flag t.transit.isSome), (8, 8, (transferQueue l).length)], word ((t.transit.map (·.number)).getD 0),
   t.lastDispatch, orZero (t.transit.map (·.deadline)), word (((nextChoice l).map (·.number)).getD 0), t.dispatches,
   t.confirmations, t.lates, t.timeouts, t.mismatches, word t.lastMismatch]

/-- An entry of the recent bag ring (R147). -/
def ringWords (e : RingEntry) : List Word :=
  [e.bag, fields [(0, 16, e.weight), (16, 16, e.pallet)], fields [(0, 16, e.first), (16, 16, e.second)],
   fields [(0, 8, e.lane.code), (8, 8, e.reason.code), (16, 1, flag e.provisional)]]

/-- A record of the active recipe view, in the descriptor layout of Table 12-4; an entry that is not valid reads 0
(R139). -/
def recipeWords : Option Recipe → List Word
  | none => []
  | some r =>
    [fields [(0, 16, r.product), (31, 1, 1)], signedWord r.blanchMin, signedWord r.blanchDeviation,
     word r.blanchCreditMin, word r.blanchCreditMax, signedWord r.freezeMax, signedWord r.freezeDeviation,
     word r.freezeCreditMin, word r.massPerUnit, word r.bagTarget, word r.bagMin, word r.bagMax, word r.exposureLimit]

/-- An entry of the record log; one not written since pin reset reads zero (R170, 12.5). -/
def logWords : Option LogEntry → List Word
  | none => []
  | some e => [e.seq, word e.kind.code, e.time] ++ e.payload

/-! ## The part-owned area (Table 1-2) -/

/-- Word k of an entry that may be absent. -/
def optionWord {α : Type} (f : α → List Word) (o : Option α) (k : Nat) : Word :=
  match o with
  | some a => recordWord (f a) k
  | none => 0

/-- The word at a part-owned offset, a multiple of 4 (R5, Table 1-2). -/
def partWord (st : Straps) (l : Line) (off : Nat) : Word :=
  let index (base size : Nat) : Nat := (off - base) / size
  let part (base size : Nat) : Nat := (off - base) % size / 4
  if off < 0x100 then recordWord (statusWords st l) (off / 4)
  else if off < 0x500 then recordWord (slotWords (slotAt l (index 0x100 64))) (part 0x100 64)
  else if off < 0x1000 then 0
  else if off < 0x2000 then recordWord (channelWords (chan l (index 0x1000 16))) (part 0x1000 16)
  else if off < 0x2200 then optionWord (zoneWords l.stopHigh) (zone? l (index 0x2000 64)) (part 0x2000 64)
  else if off < 0x3000 then 0
  else if off < 0x5000 then nodeWord l (nodeAt l (index 0x3000 512 + 1)) (part 0x3000 512)
  else if off < 0x5180 then optionWord (sectionWords l) (usedSection? l (index 0x5000 32)) (part 0x5000 32)
  else if off < 0x6000 then 0
  else if off < 0xA000 then
    optionWord cellWords (l.track.sections.flatMap (·.places))[index 0x6000 16]? (part 0x6000 16)
  else if off < 0xAC00 then
    optionWord lotWords (l.track.lots.find? (·.pos == index 0xA000 64)) (part 0xA000 64)
  else if off < 0xAD00 then optionWord feedWords l.pack.feed[index 0xAC00 16]? (part 0xAC00 16)
  else if off < 0xB000 then 0
  else if off < 0xC000 then
    optionWord palletWords (l.pack.pallets.find? (·.pos == index 0xB000 128)) (part 0xB000 128)
  else if off < 0xC040 then recordWord (transferWords l) (part 0xC000 64)
  else if off < 0xC400 then 0
  else if off < 0xC800 then optionWord ringWords l.pack.ring[index 0xC400 16]? (part 0xC400 16)
  else if off < 0xD000 then recordWord (recipeWords (recipeAt l (index 0xC800 64))) (part 0xC800 64)
  else if off < 0x10000 then 0
  else recordWord (logWords (l.log.entries.getD (index 0x10000 64) none)) (part 0x10000 64)

end Sys2Proof.Machine
end

