-- ==== Sys2Proof/Machine/HostPort.lean ====
section
/-! DEFINITION. The upstream port (Chapters 1 to 3, 11): the memory-port arbiter, host reads and host writes. -/

namespace Sys2Proof.Machine

/-- Change the blocks behind the path unit. -/
def State.onLine (s : State) (f : Line → Line) : State := { s with line := f s.line }

/-! ## The memory port and its arbiter (R9, R10) -/

/-- A read of one word through the memory port: the word, and the state after it (a word the memory does not hold uses
up one number of free bytes, notes/assumptions/3). -/
def portRead (w : Nat) (s : State) : Word × State :=
  (memoryWord s.path.straps s.mem s.path.freeReads w,
   if w < memorySize s.path.straps then s
   else { s with path := { s.path with freeReads := s.path.freeReads + 1 } })

/-- A write through the memory port (R4, R8, R15). -/
def portWrite (w : Nat) (be : BitVec 4) (data : Word) (s : State) : State :=
  { s with mem := writeLanes s.path.straps s.mem w be data }

/-- A staging read is granted: the count returns to 0, and the word, taken in the upstream byte order, is handed back to
its reader (R9, R10). With none waiting nothing is granted. -/
def grantStagingRead (s : State) : State :=
  match waitingOffset s.line with
  | none => s
  | some off =>
    let (w, s) := portRead (stagingBase s.path.straps + off) s
    { s with
      path := { s.path with arbiter := 0 }
      line := takeStagingWord s.path.straps s.path.touch (upstreamOrder s.path.straps.ubo w) s.line }

/-- An upstream access is granted: the count rises by 1 while a staging read waits (R9). -/
def grantUpstream (s : State) : State :=
  if (waitingOffset s.line).isSome then { s with path := { s.path with arbiter := s.path.arbiter + 1 } } else s

/-- An upstream access claims the port. At a count of 16 the staging read that waits goes first; the access is granted
when it completes, and by then the reader's next word may wait (R9, R10, Table 1-4, notes/assumptions/10). -/
def claimPort (s : State) : State :=
  if (waitingOffset s.line).isSome ∧ Config.arbiterLimit ≤ s.path.arbiter then grantUpstream (grantStagingRead s)
  else grantUpstream s

/-- A write that claims the port and reaches memory. -/
def memoryWrite (w : Nat) (be : BitVec 4) (data : Word) (s : State) : State := portWrite w be data (claimPort s)

/-! ## Request slots (R18 to R20) -/

/-- A slot whose words 1 to 7 and word 0 the host may write: FREE or DONE. -/
def slotOpen (s : Slot) : Bool := s.state == .free || s.state == .done

/-- One of the words 1 to 7 of a slot replaced. -/
def setArgument (k : Nat) (v : Word) (s : Slot) : Slot :=
  match k with
  | 1 => { s with kind := v }
  | 2 => { s with arg2 := v }
  | 3 => { s with arg3 := v }
  | 4 => { s with arg4 := v }
  | 5 => { s with arg5 := v }
  | 6 => { s with arg6 := v }
  | 7 => { s with arg7 := v }
  | _ => s

/-- The slot with its result words 0 and the state given. -/
def clearResult (st : SlotState) (s : Slot) : Slot :=
  { s with state := st, result := 0, val9 := 0, val10 := 0, val11 := 0, val12 := 0 }

/-- The submission event (R19). -/
def submitSlot (i : Nat) (l : Line) : Line :=
  let l := changeSlot i (clearResult .submitted) l
  { l with request := { l.request with queue := l.request.queue ++ [i] } }

/-- A slot freed (R20). -/
def freeSlot (i : Nat) (l : Line) : Line := changeSlot i (clearResult .free) l

/-- A full-word write of v to word k of slot i, at byte address `addr` (R18 to R20). -/
def slotWrite (addr : Word) (i k : Nat) (v : Word) (l : Line) : Line :=
  let s := slotAt l i
  if k = 0 then
    if v = 1 ∧ slotOpen s then submitSlot i l
    else if v = 0 ∧ s.state = .done then freeSlot i l
    else badWrite addr l
  else if k ≤ 7 ∧ slotOpen s then changeSlot i (setArgument k v) l
  else badWrite addr l

/-! ## Heartbeat and log release (R29, R173) -/

/-- A heartbeat (R29). -/
def heartbeatWrite (l : Line) : Line :=
  if l.status.watchdog = .stopped then { l with status := { l.status with heartbeat := now l } }
  else { l with status := { l.status with heartbeat := now l, restart := now l, watchdog := .running } }

/-- A full-word write of v to the log release word (R173). -/
def releaseWrite (addr v : Word) (l : Line) : Line :=
  if releaseValid l.log v.toNat then
    openPallets { l with log := { l.log with consumer := v.toNat, full := false } }
  else badWrite addr l

/-! ## Part-owned writes (R6) -/

/-- A full-word write of value v to the part-owned word at an offset, at byte address `addr` (R6, Table 12-2). -/
def partWrite (addr : Word) (off : Nat) (v : Word) (l : Line) : Line :=
  if off = 0x00 then clearNotices v l
  else if off = 0x04 then setEnables v l
  else if off = 0x08 then heartbeatWrite l
  else if off = 0x0C then releaseWrite addr v l
  else if 0x100 ≤ off ∧ off < 0x500 then slotWrite addr ((off - 0x100) / 64) ((off - 0x100) % 64 / 4) v l
  else badWrite addr l

/-! ## Output channels (R43, R48) -/

/-- A value inside an output's range. -/
def inRange (d : ChanDesc) (v : Int) : Bool := decide (d.engMin ≤ v) && decide (v ≤ d.engMax)

/-- An accepted value: the host value, with LIMIT_REFUSED cleared; applied at once in RUNNING, looped back in SIMULATE
(R43, R45, R48). -/
def acceptHostValue (i : Nat) (v : Int) (l : Line) : Line :=
  let l := refreshChannel i (changeRun i (fun r => { r with hostValue := v, limitRefused := false }) l)
  if ownerState l (chan l i).desc = some .simulate then loopback i v l else l

/-- A full-word host write of value v to output i: PARTIAL_WRITE is cleared, and the limit action judges the value
(R15, R43). -/
def hostValueWrite (i : Nat) (v : Int) (l : Line) : Line :=
  let d := (chan l i).desc
  let l := changeRun i (fun r => { r with partialWrite := false }) l
  if inRange d v then acceptHostValue i v l
  else
    match d.limit with
    | .clamp => acceptHostValue i (clampInt d.engMin d.engMax v) l
    | .refuse => raise .limitRefused (changeRun i (fun r => { r with limitRefused := true }) l)

/-- A partial write to an output's word: PARTIAL_WRITE is set and the capture is a discarded write (R15). -/
def partialOutputWrite (addr : Word) (i : Nat) (l : Line) : Line :=
  badWrite addr (changeRun i (fun r => { r with partialWrite := true }) l)

/-- The signed value of a channel word's data lanes (R12, R15). -/
def channelValue (ubo : Bool) (a : Arrangement) (data : Word) : Int := (arrange a (upstreamOrder ubo data)).toInt

/-- The data lanes that carry a channel's value (R12). -/
def channelLanes (ubo : Bool) (a : Arrangement) (v : Int) : Word := upstreamOrder ubo (arrange a (signedWord v))

/-- The effect of a write to a channel's word on the part, by the channel's kind (R14, R15). -/
def captureWrite (ubo : Bool) (addr : Word) (be : BitVec 4) (data : Word) (i : Nat) (l : Line) : Line :=
  let c := chan l i
  if c.desc.kind.isOutput then
    if fullWord be then hostValueWrite i (channelValue ubo c.desc.arrangement data) l
    else partialOutputWrite addr i l
  else badWrite addr l

/-- A host write to a channel's word: an input's leaves memory untouched, any other reaches memory (R14, R15). -/
def channelWrite (addr : Word) (be : BitVec 4) (data : Word) (i : Nat) (s : State) : State :=
  let captured := s.onLine (captureWrite s.path.straps.ubo addr be data i)
  if (chan s.line i).desc.kind.isInput then captured else memoryWrite (wordAddress addr) be data captured

/-! ## Staging (R8) -/

/-- A write to the staging region at word address w (R8). -/
def stagingRegionWrite (w : Nat) (be : BitVec 4) (data : Word) (s : State) : State :=
  memoryWrite w be data
    { s with path := { s.path with touch := s.path.touch || s.line.request.commit.isSome } }

/-! ## A host write (R2 to R8, R14, R15) -/

/-- One upstream write: no effect with no enable set; else by its class (R2, R3). -/
def hostWrite (addr : Word) (be : BitVec 4) (data : Word) (s : State) : State :=
  if be = 0 then s
  else
    match classify s.path.straps s.line.matchTable (wordAddress addr) with
    | .part off =>
      if fullWord be then s.onLine (partWrite addr off (upstreamOrder s.path.straps.ubo data))
      else s.onLine (badWrite addr)
    | .staging => stagingRegionWrite (wordAddress addr) be data s
    | .channel i => channelWrite addr be data i s
    | .passThrough => memoryWrite (wordAddress addr) be data s

/-! ## A host read (R2 to R5, R8, R13, R16) -/

/-- The data lines at the end of an upstream read. -/
def answer (w : Word) (s : State) : State := { s with path := { s.path with readData := w } }

/-- A read through the memory port: the memory's answer as the memory gives it (R4, R8, R9). -/
def memoryRead (w : Nat) (s : State) : State :=
  let (v, s) := portRead w (claimPort s)
  answer v s

/-- A host read of a channel's word, by its kind and readback (R13, R16). The lanes not enabled read zero (R2). -/
def channelRead (addr : Word) (be : BitVec 4) (i : Nat) (s : State) : State :=
  let c := chan s.line i
  let ubo := s.path.straps.ubo
  if c.desc.kind.isInput then answer (maskLanes be (channelLanes ubo c.desc.arrangement (inputAnswer c))) s
  else
    match c.desc.readback with
    | .applied => answer (maskLanes be (channelLanes ubo c.desc.arrangement c.run.applied)) s
    | .commanded =>
      let (v, s) := portRead (wordAddress addr) (claimPort s)
      answer (maskLanes be v) s

/-- One upstream read (R2, R3). -/
def hostRead (addr : Word) (be : BitVec 4) (s : State) : State :=
  if be = 0 then answer 0 s
  else
    match classify s.path.straps s.line.matchTable (wordAddress addr) with
    | .part off => answer (maskLanes be (upstreamOrder s.path.straps.ubo (partWord s.path.straps s.line off))) s
    | .staging => memoryRead (wordAddress addr) s
    | .channel i => channelRead addr be i s
    | .passThrough => memoryRead (wordAddress addr) s

/-- One upstream access. -/
def hostAccess (a : Access) (s : State) : State :=
  if a.write then hostWrite a.addr a.be a.data s else hostRead a.addr a.be s

/-! ## Pin reset (R1) -/

/-- The data lines after the accesses presented while RESET_N is low: a read completes with all lines at zero, a write is
lost (R1). -/
def heldReads (during : List Access) (before : Word) : Word :=
  if during.any fun a => !a.write then 0 else before

/-- RESET_N goes low and high again: every block returns to its pin reset state, the straps are sampled anew, and STOP_N
has the level given. Memory and the waiting commands are no part of the CX412's state (R1, R17, R25). -/
def pinReset (straps : Straps) (stopHigh : Bool) (during : List Access) (s : State) : State :=
  { s with
    path := { straps := straps, touch := false, arbiter := 0, readData := heldReads during s.path.readData,
              freeReads := s.path.freeReads }
    line := { Line.reset with stopHigh := stopHigh, choices := s.line.choices } }

end Sys2Proof.Machine
end

