-- ==== Sys2Proof/Machine/Requests.lean ====
section
/-! DEFINITION. The takings of requests (Chapter 2) and what each request's owner checks and does (Chapters 4 to 10). -/

namespace Sys2Proof.Machine

/-! ## Taking (R21) -/

/-- The result code of the first check that does not hold. -/
def refusal : List (Bool × ResultCode) → Option ResultCode
  | [] => none
  | (holds, code) :: rest => if holds then refusal rest else some code

/-- A slot's request is of a kind of Table 2-1. -/
def ofKind (k : RequestKind) (a : Slot) : Bool := RequestKind.ofCode a.kind.toNat == some k

/-- The previous taking has ended: only a COMMIT_RECIPE's lasts (R85). -/
def takerFree (l : Line) : Bool := l.request.recipeJob.isNone

/-- The slot at the head of the submission queue, if the request unit can take it now (R21). -/
def headSlot (l : Line) : Option Nat := if takerFree l then l.request.queue.head? else none

/-- The slot at the head leaves the queue (R21). -/
def leaveQueue (l : Line) : Line := { l with request := { l.request with queue := l.request.queue.tail } }

/-- The taking of the head slot, when it holds a request of the shape given; otherwise nothing is taken
(notes/assumptions/5). -/
def take (p : Slot → Bool) (f : Nat → Slot → Line → Line) (l : Line) : Line :=
  match headSlot l with
  | some i => if p (slotAt l i) then f i (slotAt l i) (leaveQueue l) else l
  | none => l

/-- A request is refused at taking with a code (R21). -/
def refuse (i : Nat) (code : ResultCode) (l : Line) : Line := complete i { code := code } l

/-- An immediate request: the conflict check, the owner's checks in order, then the act and its result (R21). -/
def immediate (busy : Line → Bool) (checks : Slot → Line → List (Bool × ResultCode)) (act : Slot → Line → Reply × Line)
    (i : Nat) (a : Slot) (l : Line) : Line :=
  match refusal ((!busy l, .busy) :: checks a l) with
  | some code => refuse i code l
  | none => complete i (act a l).1 (act a l).2

/-- A long request: the conflict check, the owner's checks in order, then TAKEN and the start of the work (R21). -/
def long (busy : Line → Bool) (checks : Slot → Line → List (Bool × ResultCode)) (start : Nat → Slot → Line → Line)
    (i : Nat) (a : Slot) (l : Line) : Line :=
  match refusal ((!busy l, .busy) :: checks a l) with
  | some code => refuse i code l
  | none => start i a (markTaken i l)

/-! ## Conflicts (Table 2-2) -/

/-- A COMMIT_FULL is in flight. -/
def commitInFlight (l : Line) : Bool := l.request.commit.isSome
/-- A REINIT is in flight. -/
def reinitInFlight (l : Line) : Bool := l.request.reinit.isSome
/-- A DISCOVER is in flight. -/
def discoverInFlight (l : Line) : Bool := l.link.discovery.isSome
/-- A LINK_HALT is in flight. -/
def haltInFlight (l : Line) : Bool := l.link.halt.isSome
/-- A one-shot waits in the queue or is on the link. -/
def oneShotInFlight (l : Line) : Bool := !l.link.oneShots.isEmpty || oneShotOnLink l

/-- The condition for LINK_START, the zone requests, LOT_OPEN and COMMIT_RECIPE. -/
def busyConfig (l : Line) : Bool := commitInFlight l || reinitInFlight l
/-- The condition for COMMIT_FULL. -/
def busyCommit (l : Line) : Bool := commitInFlight l || reinitInFlight l || discoverInFlight l
/-- The condition for REINIT and DISCOVER. -/
def busyReinit (l : Line) : Bool := busyCommit l || oneShotInFlight l
/-- The condition for NODE_READ and NODE_WRITE. -/
def busyNode (l : Line) : Bool :=
  discoverInFlight l || haltInFlight l || Config.oneShotCount ≤ l.link.oneShots.length
/-- No condition: the requests absent from Table 2-2. -/
def neverBusy (_l : Line) : Bool := false

/-! ## Unknown kinds (R21) -/

/-- The kind is not one of Table 2-1. -/
def unknownKind (a : Slot) : Bool := (RequestKind.ofCode a.kind.toNat).isNone

/-! ## Configuration requests (Chapter 5) -/

/-- The owner checks of COMMIT_FULL and REINIT (R75, R86). -/
def commitChecks (_a : Slot) (l : Line) : List (Bool × ResultCode) :=
  [(l.zones.all fun o => o.all fun z => z.run.state == .off, .zoneState),
   (l.link.state == .idle, .linkState),
   (l.track.lots.isEmpty && l.pack.pallets.isEmpty, .inUse)]

/-- A COMMIT_FULL begins to read staging (R75, R76). -/
def startCommit (i : Nat) (_a : Slot) (l : Line) : Line :=
  { l with request := { l.request with commit := some { slot := i, words := [] } } }

/-- The taking of a COMMIT_FULL. -/
def takeCommit (l : Line) : Line := take (ofKind .commitFull) (long busyCommit commitChecks startCommit) l

/-- A live lot names the recipe (R85). -/
def recipeInUse (l : Line) (i : Nat) : Bool := l.track.lots.any (·.recipe == i)

/-- Checks 1 to 3 of COMMIT_RECIPE (R85). -/
def recipeChecks (a : Slot) (l : Line) : List (Bool × ResultCode) :=
  [(a.arg2.toNat < Config.recipeCount, .badRequest), (l.active.isSome, .badRequest),
   (!recipeInUse l a.arg2.toNat, .inUse)]

/-- The taking of a COMMIT_RECIPE: refused, or lasting until its 16 words are read (R85, notes/assumptions/23). -/
def takeRecipe (l : Line) : Line :=
  take (ofKind .commitRecipe) (fun i a l =>
    match refusal ((!busyConfig l, .busy) :: recipeChecks a l) with
    | some code => refuse i code l
    | none =>
      { l with request := { l.request with recipeJob := some { slot := i, index := a.arg2.toNat, words := [] } } }) l

/-- A REINIT gives up the configuration and begins its clearing (R86). -/
def startReinit (i : Nat) (_a : Slot) (l : Line) : Line :=
  let l := clearBlocks l
  { l with request := { l.request with reinit := some i } }

/-- The taking of a REINIT. -/
def takeReinit (l : Line) : Line := take (ofKind .reinit) (long busyReinit commitChecks startReinit) l

/-- The last block finishes its clearing, and the REINIT completes (R86). -/
def finishReinit (l : Line) : Line :=
  match l.request.reinit with
  | some i => complete i { code := .ok } { l with request := { l.request with reinit := none } }
  | none => l

/-! ## Link requests (Chapter 4) -/

/-- The owner checks of DISCOVER (R58). -/
def discoverChecks (_a : Slot) (l : Line) : List (Bool × ResultCode) :=
  [(l.link.state == .idle, .linkState), (l.active.isNone, .inUse)]

/-- DISCOVER starts at address 1, page 0 (R58). -/
def startDiscover (i : Nat) (_a : Slot) (l : Line) : Line :=
  pump (changeLink (fun k =>
    { k with
      state := .discovering
      discovery := some { slot := i, addr := 1, page := 0, pages := [], built := [] } }) l)

/-- The taking of a DISCOVER. -/
def takeDiscover (l : Line) : Line := take (ofKind .discover) (long busyReinit discoverChecks startDiscover) l

/-- The owner checks of LINK_START (R62). -/
def linkStartChecks (_a : Slot) (l : Line) : List (Bool × ResultCode) :=
  [(l.link.state == .idle && l.active.isSome, .linkState)]

/-- The BOUND nodes in ascending address (R62). -/
def boundList (l : Line) : List Nat := (indicesWhere (·.state == .bound) l.link.nodes).map (· + 1)

/-- LINK_START builds the scan list and starts the first cycle (R62). -/
def actLinkStart (_a : Slot) (l : Line) : Reply × Line :=
  let list := boundList l
  ({ code := .ok, v9 := word list.length },
   pump (startCycle (changeLink (fun k =>
     { k with state := .scanning, scanList := list, overrun := 0, period := some (after (now l) (scanPeriod l)) }) l)))

/-- The taking of a LINK_START. -/
def takeLinkStart (l : Line) : Line := take (ofKind .linkStart) (immediate busyConfig linkStartChecks actLinkStart) l

/-- The owner checks of LINK_HALT (R71). -/
def linkHaltChecks (_a : Slot) (l : Line) : List (Bool × ResultCode) :=
  [(l.link.state == .scanning, .linkState),
   (l.zones.all fun o => o.all fun z => z.run.state == .off || z.run.state == .simulate, .zoneState)]

/-- LINK_HALT: HALTING until the cycle in progress ends; with none in progress its end has come (R71). -/
def startHalt (i : Nat) (_a : Slot) (l : Line) : Line :=
  let l := changeLink (fun k => { k with state := .halting, halt := some i }) l
  if l.link.cycle.isNone then pump (endHalt l) else l

/-- The taking of a LINK_HALT. -/
def takeLinkHalt (l : Line) : Line := take (ofKind .linkHalt) (long haltInFlight linkHaltChecks startHalt) l

/-- The owner checks of NODE_READ and NODE_WRITE (R69). -/
def nodeChecks (isSet : Bool) (a : Slot) (l : Line) : List (Bool × ResultCode) :=
  [(within 1 Config.nodeCount a.arg2.toNat, .badRequest), (a.arg3.toNat ≤ 255, .badRequest),
   (!isSet || a.arg4.toNat ≤ 65535, .badRequest), ((nodeAt l a.arg2.toNat).state != .absent, .notFound)]

/-- A one-shot joins the tail of its queue, and goes on the link when it can (R69, R70). -/
def startOneShot (isSet : Bool) (i : Nat) (a : Slot) (l : Line) : Line :=
  pump (changeLink (fun k =>
    { k with
      oneShots := k.oneShots ++
        [{ slot := i, isSet := isSet, node := a.arg2.toNat, param := a.arg3.toNat,
           value := if isSet then a.arg4.toNat else 0 }] }) l)

/-- The taking of a NODE_READ. -/
def takeNodeRead (l : Line) : Line := take (ofKind .nodeRead) (long busyNode (nodeChecks false) (startOneShot false)) l

/-- The taking of a NODE_WRITE. -/
def takeNodeWrite (l : Line) : Line := take (ofKind .nodeWrite) (long busyNode (nodeChecks true) (startOneShot true)) l

/-! ## Zone requests (Chapter 6) -/

/-- Checks 1 and 2 of R89: the zone number, and the zone present. -/
def zoneChecks (a : Slot) (l : Line) : List (Bool × ResultCode) :=
  [(a.arg2.toNat < Config.zoneCount, .badRequest),
   (l.active.isSome && (zone? l a.arg2.toNat).isSome, .badRequest)]

/-- The zone's state is one of those given (check 5 of R89, Table 6-3). -/
def stateAllows (a : Slot) (l : Line) (allowed : List ZoneState) : Bool × ResultCode :=
  ((zoneState l a.arg2.toNat).any allowed.contains, .zoneState)

/-- Check 6 of R89 for ZONE_START and ZONE_RUN taken in OFF (R91). -/
def startCheck (a : Slot) (l : Line) : Bool × ResultCode :=
  (!(zoneState l a.arg2.toNat == some .off && startBlocked l a.arg2.toNat), .tripActive)

/-- The checks of ZONE_START and ZONE_RUN (R89 to R91). -/
def startChecks (a : Slot) (l : Line) : List (Bool × ResultCode) :=
  zoneChecks a l ++
    [(l.stopHigh, .stopActive), stateAllows a l [.off, .starting, .ready, .running], startCheck a l]

/-- The result of a zone request: the state code and the run-pending flag after it (R89). -/
def zoneReply (z : Nat) (l : Line) : Reply where
  code := .ok
  v9 := word (((zoneState l z).map (·.code)).getD 0)
  v10 := word (flag ((zone? l z).any (·.run.runPending)))

/-- A zone request's act, and its result. -/
def zoneAct (f : Nat → Line → Line) (a : Slot) (l : Line) : Reply × Line :=
  (zoneReply a.arg2.toNat (f a.arg2.toNat l), f a.arg2.toNat l)

/-- ZONE_START by state (Table 6-3). -/
def zoneStart (z : Nat) (l : Line) : Line :=
  if zoneState l z = some .off then plainEvent (startZone z false) l else l

/-- ZONE_RUN by state (Table 6-3, R91, R95). -/
def zoneRun (z : Nat) (l : Line) : Line :=
  match zoneState l z with
  | some .off => plainEvent (startZone z true) l
  | some .starting => changeZone z (fun r => { r with runPending := true }) l
  | some .ready =>
    plainEvent (fun l =>
      let l := changeZone z (fun r => { r with runPending := true }) l
      if prereqsRun l z then enterRunning Config.zoneCount z l else l) l
  | _ => l

/-- ZONE_STOP by state (Table 6-3, R96, R104). -/
def zoneStop (z : Nat) (l : Line) : Line :=
  match zoneState l z with
  | some .starting | some .ready | some .running => plainEvent (stopZone z) l
  | some .simulate => leaveSimulate z l
  | _ => l

/-- A recorded trip cause is still active (R103). -/
def causeActive (l : Line) (z : Nat) : TripCause → Bool
  | .condition k => ((zoneDesc l z).conditions[k]?).any (conditionMet l)
  | .conditionLost k => ((zoneDesc l z).conditions[k]?).any fun c => !isGood l c.channel
  | .nodeFault n => (nodeAt l n).state != .running
  | .stopInput => !l.stopHigh
  | .none | .watchdog | .stepTimeout _ _ | .prereqLost _ => false

/-- The checks of ZONE_RESET (R89, R103). -/
def resetChecks (a : Slot) (l : Line) : List (Bool × ResultCode) :=
  let z := a.arg2.toNat
  zoneChecks a l ++
    [stateAllows a l [.off, .tripped],
     (!(zoneState l z == some .tripped && (zone? l z).any fun x => causeActive l z x.run.cause), .tripActive)]

/-- ZONE_RESET by state (R103). -/
def zoneReset (z : Nat) (l : Line) : Line :=
  if zoneState l z = some .tripped then
    plainEvent (fun l => enterState z .off (changeZone z (fun r => { r with cause := .none }) l)) l
  else l

/-- A present zone that names z as a prerequisite is active (R104). -/
def dependentActive (l : Line) (z : Nat) : Bool :=
  zoneNumbers.any fun w => (zoneDesc l w).prereqs.contains z && isActive l w

/-- Check 3 of R89. -/
def simulateWord (a : Slot) : Bool × ResultCode := (decide (a.arg3 = 0 ∨ a.arg3 = 1), .badRequest)

/-- The checks of ZONE_SIMULATE enter (R89, R104). -/
def enterChecks (a : Slot) (l : Line) : List (Bool × ResultCode) :=
  let z := a.arg2.toNat
  zoneChecks a l ++
    [simulateWord a, stateAllows a l [.off, .simulate],
     (!(zoneState l z == some .off && dependentActive l z), .prereq)]

/-- ZONE_SIMULATE enter by state (R104). -/
def simulateEnter (z : Nat) (l : Line) : Line :=
  if zoneState l z = some .off then plainEvent (enterState z .simulate) l else l

/-- The checks of ZONE_SIMULATE leave (R89). -/
def leaveChecks (a : Slot) (l : Line) : List (Bool × ResultCode) :=
  zoneChecks a l ++ [simulateWord a, stateAllows a l [.off, .simulate]]

/-- ZONE_SIMULATE leave by state (R104). -/
def simulateLeave (z : Nat) (l : Line) : Line :=
  if zoneState l z = some .simulate then leaveSimulate z l else l

/-- The checks of ZONE_STOP (R89, Table 6-3). -/
def stopChecks (a : Slot) (l : Line) : List (Bool × ResultCode) :=
  zoneChecks a l ++ [stateAllows a l [.off, .starting, .ready, .running, .stopping, .simulate]]

/-- The taking of a ZONE_START. -/
def takeZoneStart (l : Line) : Line := take (ofKind .zoneStart) (immediate busyConfig startChecks (zoneAct zoneStart)) l

/-- The taking of a ZONE_RUN. -/
def takeZoneRun (l : Line) : Line := take (ofKind .zoneRun) (immediate busyConfig startChecks (zoneAct zoneRun)) l

/-- The taking of a ZONE_STOP. -/
def takeZoneStop (l : Line) : Line := take (ofKind .zoneStop) (immediate busyConfig stopChecks (zoneAct zoneStop)) l

/-- The taking of a ZONE_RESET. -/
def takeZoneReset (l : Line) : Line := take (ofKind .zoneReset) (immediate busyConfig resetChecks (zoneAct zoneReset)) l

/-- A ZONE_SIMULATE that leaves: word 3 is 0. Any other word 3 is the enter row's (notes/assumptions/5). -/
def simulateLeaves (a : Slot) : Bool := ofKind .zoneSimulate a && decide (a.arg3 = 0)

/-- A ZONE_SIMULATE that enters, or is refused for its word 3. -/
def simulateEnters (a : Slot) : Bool := ofKind .zoneSimulate a && decide (a.arg3 ≠ 0)

/-- The taking of a ZONE_SIMULATE enter. -/
def takeSimulateEnter (l : Line) : Line := take simulateEnters (immediate busyConfig enterChecks (zoneAct simulateEnter)) l

/-- The taking of a ZONE_SIMULATE leave. -/
def takeSimulateLeave (l : Line) : Line := take simulateLeaves (immediate busyConfig leaveChecks (zoneAct simulateLeave)) l

/-! ## Lot requests (Chapters 7, 10) -/

/-- A 0 or 1 argument word. -/
def isFlag (w : Word) : Bool := decide (w = 0 ∨ w = 1)

/-- The recipe needs a BLANCH section and there is none (check 4 of R119). -/
def blanchMissing (l : Line) (i : Nat) : Bool :=
  ((recipeAt l i).any fun r => r.blanchCreditMin != 0) && (blanchSection l).isNone

/-- The state section 0's zone must have for a lot (check 5 of R119). -/
def lotZoneState (trial : Bool) : ZoneState := if trial then .simulate else .running

/-- The checks of LOT_OPEN (R119). -/
def lotOpenChecks (a : Slot) (l : Line) : List (Bool × ResultCode) :=
  let i := a.arg2.toNat
  [(decide (i < Config.recipeCount) && isFlag a.arg3, .badRequest), (l.active.isSome, .badRequest),
   ((recipeAt l i).isSome, .badRequest), (!blanchMissing l i, .badRequest),
   (((firstZone l).bind (zoneState l)) == some (lotZoneState (a.arg3 = 1)), .zoneState), (l.stopHigh, .stopActive),
   (l.track.lots.length < Config.lotCount, .tableFull), (canGrant l 3, .noLogSpace)]

/-- A lot record at its admission (R120). -/
def newLot (pos number : Nat) (trial : Bool) (recipe : Nat) (time order : Word) : Lot where
  pos := pos
  number := number
  isOpen := true
  trial := trial
  recipe := recipe
  admissionTime := time
  admissionOrder := order
  admitted := 0
  mergedIn := 0
  onTrack := 0
  unevaluated := 0
  mixedAway := 0
  mixed := false
  outcomes := { pass := 0, short := 0, overMax := 0, unmeasured := 0, positionLost := 0, deviation := 0 }
  verdict := .pending
  reasons := 0
  verdictTime := none
  massDelivered := 0
  massBagged := 0
  residual := 0
  bagsMade := 0
  bagsRejected := 0
  livePallets := 0
  exposedPallets := 0
  firstExit := none

/-- The OPEN lot is closed, if there is one (R120). -/
def closeOpenLot (l : Line) : Line :=
  match openLot l with
  | some x => closeLot x.number l
  | none => l

/-- A free entry takes the new lot, which takes its number and order (R118, R120). -/
def admitLot (trial : Bool) (recipe : Nat) (l : Line) : Lot × Line :=
  let (pos, l) := pickOne (freePositions Config.lotCount (l.track.lots.map (·.pos))) l
  let x := newLot pos l.track.lotCounter trial recipe (now l) (l.track.admissions + 1)
  let lots := l.track.lots ++ [x]
  (x, { l with
    track := { l.track with
      lots := lots, lotCounter := nextNumber (lots.map (·.number)) 64 x.number, admissions := x.admissionOrder } })

/-- LOT_OPEN (R120). The grant is the one checked for, so it is held from the check on (R171, notes/assumptions/35). -/
def actLotOpen (a : Slot) (l : Line) : Reply × Line :=
  let closed := ((openLot l).map (·.number)).getD 0
  let (x, l) := admitLot (a.arg3 = 1) a.arg2.toNat (closeOpenLot (grant 3 l))
  ({ code := .ok, v9 := word x.number, v10 := x.admissionOrder, v11 := word closed },
   writeReserved .lotAdmitted (lotAdmittedPayload l x) l)

/-- The taking of a LOT_OPEN. -/
def takeLotOpen (l : Line) : Line := take (ofKind .lotOpen) (immediate busyConfig lotOpenChecks actLotOpen) l

/-- The check of LOT_CLOSE (R121). -/
def lotCloseChecks (_a : Slot) (l : Line) : List (Bool × ResultCode) := [((openLot l).isSome, .noLot)]

/-- LOT_CLOSE (R121). -/
def actLotClose (_a : Slot) (l : Line) : Reply × Line :=
  ({ code := .ok, v9 := word (((openLot l).map (·.number)).getD 0) }, closeOpenLot l)

/-- The taking of a LOT_CLOSE. -/
def takeLotClose (l : Line) : Line := take (ofKind .lotClose) (immediate neverBusy lotCloseChecks actLotClose) l

/-- The checks of LOT_FLUSH (R168). -/
def flushChecks (a : Slot) (l : Line) : List (Bool × ResultCode) :=
  let n := a.arg2.toNat
  [(within 1 65535 n && isFlag a.arg3, .badRequest), ((lot? l n).isSome, .notFound),
   ((lot? l n).all (fun x => !x.isOpen && (a.arg3 == 1 || x.onTrack == 0)), .inUse)]

/-- The units of a lot in the places of the sections chosen by index (R168). -/
def unitsIn (l : Line) (n : Nat) (p : Nat → Bool) : Nat :=
  ((List.range l.track.sections.length).filter p).foldl (fun u i =>
    u + (((usedSection? l i).map (·.places)).getD []).foldl (fun v c =>
      v + match c with | some c => if c.lot = n then c.units else 0 | none => 0) 0) 0

/-- The lot's cells are made empty (R168). -/
def emptyCells (n : Nat) (l : Line) : Line :=
  { l with
    track := { l.track with
      sections := l.track.sections.map fun s => { s with places := s.places.map fun c => c.filter (·.lot != n) } } }

/-- The lot is cleared from the track; it gives the units cleared (R168). -/
def clearFromTrack (n : Nat) (l : Line) : Nat × Line :=
  let all := unitsIn l n fun _ => true
  let early := unitsIn l n fun i => !pastFinal l i
  let l := changeLot n (fun x =>
    { x with
      onTrack := x.onTrack - word all
      outcomes := x.outcomes.add .positionLost (word early)
      unevaluated := x.unevaluated - word early }) (emptyCells n l)
  (all, if 0 < early then judgeVerdict n l else l)

/-- The lot's feed entry is retired, wherever it stands; it gives the mass moved (R168). -/
def retireLotFeed (n : Nat) (l : Line) : Nat × Line :=
  match l.pack.feed.find? (·.lot == n) with
  | some e => (e.mass, retireFeed e (setFeed (l.pack.feed.filter (·.lot != n)) l))
  | none => (0, judgeRetirement n l)

/-- LOT_FLUSH (R168). -/
def actLotFlush (a : Slot) (l : Line) : Reply × Line :=
  let n := a.arg2.toNat
  let (units, l) := if a.arg3 = 1 then clearFromTrack n l else (0, l)
  let (mass, l) := retireLotFeed n l
  ({ code := .ok, v9 := word mass, v10 := word (flag (lot? l n).isNone), v11 := word units }, l)

/-- The taking of a LOT_FLUSH. -/
def takeLotFlush (l : Line) : Line := take (ofKind .lotFlush) (immediate neverBusy flushChecks actLotFlush) l

/-! ## Bag and pallet requests (Chapters 9, 10) -/

/-- The checks of INJECT_BAG (R142). -/
def injectChecks (a : Slot) (l : Line) : List (Bool × ResultCode) :=
  [(a.arg2.toNat ≤ 65535, .badRequest), (l.active.isSome, .badRequest), (kindIn l .bag .simulate, .zoneState)]

/-- INJECT_BAG (R142). -/
def actInject (a : Slot) (l : Line) : Reply × Line :=
  let (r, l) := judgeBag true a.arg2.toNat l
  ({ code := .ok, v9 := r.bag, v10 := word r.lane.code, v11 := word r.reason.code, v12 := word r.pallet }, l)

/-- The taking of an INJECT_BAG. -/
def takeInject (l : Line) : Line := take (ofKind .injectBag) (immediate neverBusy injectChecks actInject) l

/-- The lane of a PALLET_CLOSE (R153). -/
def laneOf (a : Slot) : Lane := if a.arg2 = 0 then .release else .hold

/-- The checks of PALLET_CLOSE (R153). -/
def palletCloseChecks (a : Slot) (l : Line) : List (Bool × ResultCode) :=
  [(isFlag a.arg2, .badRequest), ((openPallet l (laneOf a)).isSome, .palletState)]

/-- An OPEN pallet with no bag is discarded, its reservation returned (R153, R171). -/
def discardPallet (n : Nat) (l : Line) : Line :=
  openPallets
    (returnReservation { l with pack := { l.pack with pallets := l.pack.pallets.filter (·.number != n) } })

/-- PALLET_CLOSE (R153). -/
def actPalletClose (a : Slot) (l : Line) : Reply × Line :=
  match openPallet l (laneOf a) with
  | none => ({ code := .palletState }, l)
  | some p =>
    if p.bags = 0 then ({ code := .ok, v9 := word p.number, v10 := 1 }, discardPallet p.number l)
    else ({ code := .ok, v9 := word p.number, v10 := 0 }, closePallet p.number .host l)

/-- The taking of a PALLET_CLOSE. -/
def takePalletClose (l : Line) : Line :=
  take (ofKind .palletClose) (immediate neverBusy palletCloseChecks actPalletClose) l

/-- The checks of PALLET_CONFIRM (R163). -/
def confirmChecks (a : Slot) (l : Line) : List (Bool × ResultCode) :=
  [(within 1 65535 a.arg2.toNat, .badRequest), ((pallet? l a.arg2.toNat).isSome, .notFound),
   ((pallet? l a.arg2.toNat).all (·.state == .unconfirmed), .palletState)]

/-- PALLET_CONFIRM (R163). -/
def actConfirm (a : Slot) (l : Line) : Reply × Line :=
  let n := a.arg2.toNat
  let stored := storePallet n l
  let outcome := ((pallet? stored n).map (palletOutcome stored)).getD 0
  let l := judgeResolution n stored
  let resolved := (pallet? stored n).any (lotsFinal stored)
  ({ code := .ok, v9 := word (flag resolved), v10 := word (if resolved then outcome else 0) }, l)

/-- The taking of a PALLET_CONFIRM. -/
def takeConfirm (l : Line) : Line := take (ofKind .palletConfirm) (immediate neverBusy confirmChecks actConfirm) l

/-- The taking of a slot whose kind is not known (R21). -/
def takeUnknown (l : Line) : Line := take unknownKind (fun i _ l => refuse i .badRequest l) l

/-- The taking of the head slot, whatever its kind: exactly one of the rows acts. -/
def takeAny (l : Line) : Line :=
  match headSlot l with
  | none => l
  | some i =>
    match RequestKind.ofCode (slotAt l i).kind.toNat with
    | none => takeUnknown l
    | some .commitFull => takeCommit l
    | some .commitRecipe => takeRecipe l
    | some .reinit => takeReinit l
    | some .discover => takeDiscover l
    | some .linkStart => takeLinkStart l
    | some .linkHalt => takeLinkHalt l
    | some .nodeRead => takeNodeRead l
    | some .nodeWrite => takeNodeWrite l
    | some .zoneStart => takeZoneStart l
    | some .zoneRun => takeZoneRun l
    | some .zoneStop => takeZoneStop l
    | some .zoneReset => takeZoneReset l
    | some .zoneSimulate => if (slotAt l i).arg3 = 0 then takeSimulateLeave l else takeSimulateEnter l
    | some .lotOpen => takeLotOpen l
    | some .lotClose => takeLotClose l
    | some .lotFlush => takeLotFlush l
    | some .injectBag => takeInject l
    | some .palletClose => takePalletClose l
    | some .palletConfirm => takeConfirm l

end Sys2Proof.Machine
end

