-- ==== Sys2Proof/Machine/Timers.lean ====
section
/-! DEFINITION. Timers that run out (R30, R39, R63, R92, R93, R156, R161), the edges of STOP_N (R73), and what the block
does of its own on an empty queue. A timer row acts when its timer runs and its time has come (notes/assumptions/9). -/

namespace Sys2Proof.Machine

/-! ## Stale timers (R39) -/

/-- The channel's stale timer runs and has run out. -/
def staleDue (l : Line) (i : Nat) : Bool :=
  match (chan l i).run.timer with
  | .running deadline => reached (now l) deadline
  | _ => false

/-- An input's stale timer runs out (R39). -/
def staleExpires (i : Nat) (l : Line) : Line :=
  if staleDue l i then
    loseGood i (raise .channelStale (changeRun i (fun r => { r with quality := .stale, timer := .stopped }) l))
  else l

/-! ## Host watchdog (R30) -/

/-- The heartbeat limit of the active configuration, 0 with none. -/
def heartbeatLimit (l : Line) : Nat := (l.active.map (·.heartbeatLimit)).getD 0

/-- The watchdog runs and its limit has passed since the last restart. -/
def watchdogDue (l : Line) : Bool :=
  l.status.watchdog == .running && heartbeatLimit l ≤ elapsed (now l) l.status.restart

/-- The zones of a list as a mask, bit z for zone z (Table 12-5). -/
def zoneMask (zs : List Nat) : Word := fields (zs.map fun z => (z, 1, 1))

/-- The cause the expiry brings a zone: WATCHDOG for a guarded one (R101). -/
def watchdogCauses (l : Line) (z : Nat) : List TripCause := if (zoneDesc l z).guarded then [.watchdog] else []

/-- The watchdog expires: EXPIRED, WATCHDOG raised, SAFE asked for, the guarded zones tripped with their cascade, and the
WATCHDOG record offered before the ZONE_TRIP records (R30). -/
def watchdogExpires (l : Line) : Line :=
  if watchdogDue l then
    let l := raise .watchdog { l with status := { l.status with watchdog := .expired } }
    zoneEvent (fun tripped l => offer .watchdog [zoneMask tripped] l) (fun l => tripOwn (watchdogCauses l) l) (askSafe l)
  else l

/-! ## Scan period (R63) -/

/-- The period timer runs and has run out. -/
def periodDue (l : Line) : Bool := l.link.period.any (reached (now l))

/-- The period timer runs out (R63). -/
def periodTimerExpires (l : Line) : Line :=
  match l.link.period with
  | some deadline => if reached (now l) deadline then periodExpires deadline l else l
  | none => l

/-! ## Zone steps (R92, R93) -/

/-- A zone's step deadline has come. -/
def stepDue (l : Line) (z : Nat) : Bool := ((zone? l z).bind (·.run.deadline)).any (reached (now l))

/-- A WAIT_TIME step's deadline runs out (R92). -/
def waitTimeExpires (z : Nat) (l : Line) : Line :=
  match currentStep l z with
  | some (.waitTime _) => if stepDue l z then plainEvent (advanceProgram z) l else l
  | _ => l

/-- The STEP_TIMEOUT cause of a zone's running program (R93). -/
def timeoutCause (l : Line) (z : Nat) : TripCause :=
  match (zone? l z).bind (·.run.program) with
  | some (p, k) => .stepTimeout p k
  | none => .none

/-- A WAIT_UNTIL step times out (R93, R97). -/
def waitUntilExpires (z : Nat) (l : Line) : Line :=
  match currentStep l z with
  | some (.waitUntil _ _ _ _) => if stepDue l z then plainEvent (fun l => tripZone z (timeoutCause l z) l) l else l
  | _ => l

/-! ## Exposure and transit (R157, R161) -/

/-- A pallet's exposure timer runs and has run out. -/
def exposureDue (l : Line) (p : Pallet) : Bool := p.timer == .running && p.deadline.any (reached (now l))

/-- A pallet's exposure timer runs out (R157). -/
def exposureExpires (n : Nat) (l : Line) : Line :=
  match pallet? l n with
  | some p => if exposureDue l p then exposePallet n l else l
  | none => l

/-- The transit timer runs and has run out. -/
def transitDue (l : Line) : Bool := l.transfer.transit.any fun t => reached (now l) t.deadline

/-- The transit timer runs out (R161). -/
def transitExpires (l : Line) : Line :=
  if transitDue l then
    let l := abandonTransit l
    judgeDispatch { l with transfer := { l.transfer with timeouts := l.transfer.timeouts + 1 } }
  else l

/-! ## STOP_N (R73) -/

/-- The cause a falling edge brings every active zone (R101). -/
def stopCauses (_z : Nat) : List TripCause := [.stopInput]

/-- A falling edge of STOP_N: the level is low, STOP_INPUT raised, SAFE asked for, every active zone tripped (R73). -/
def stopFalls (l : Line) : Line :=
  plainEvent (tripOwn stopCauses) (askSafe (raise .stopInput { l with stopHigh := false }))

/-- A rising edge of STOP_N changes the level and nothing else (R73). -/
def stopRises (l : Line) : Line := { l with stopHigh := true }

/-! ## The empty queue (notes/assumptions/4) -/

/-- The first of the timers that is due runs out; the frame being sent ends, and the reply limit after it runs out, when
no other timer is due (R53, notes/assumptions/8). None when nothing is due. -/
def dueTimer (l : Line) : Option Line :=
  if watchdogDue l then some (watchdogExpires l)
  else if periodDue l then some (periodTimerExpires l)
  else
    match (List.range Config.channelCount).find? (staleDue l) with
    | some i => some (staleExpires i l)
    | none =>
      match zoneNumbers.find? (stepDue l) with
      | some z => some (waitUntilExpires z (waitTimeExpires z l))
      | none =>
        match l.pack.pallets.find? (exposureDue l) with
        | some p => some (exposureExpires p.number l)
        | none =>
          if transitDue l then some (transitExpires l)
          else if driverEnabled l then some (frameSent l)
          else if replyLimitDue l then some (failAwaited l)
          else none

/-- One millisecond of line time passes (R31). -/
def tick (l : Line) : Line := { l with status := { l.status with time := l.status.time + 1 } }

end Sys2Proof.Machine
end

