-- ==== Sys2Proof/Machine/HostRows.lean ====
section
/-! DEFINITION. The meanings of the pin rows and of the host access rows (Chapters 1 to 3, 11). -/

namespace Sys2Proof.Machine

/-- What every row answers: the next state. -/
abbrev Result := Host.Outcome State Fault Refusal

/-- A row that acts only on the blocks behind the path unit. -/
def lineRow (f : Line → Line) (s : State) : Result := .next (s.onLine f)

/-- The value a host write carries, in the upstream byte order (R12). -/
def hostValue (s : State) (data : Word) : Word := upstreamOrder s.path.straps.ubo data

/-- The byte address of a status block word (Table 12-2). -/
def statusAddress (s : State) (off : Nat) : Word := word (controlBase s.path.straps + off)

/-! ## Pins -/

/-- PIN_RESET (R1). -/
def execPinReset (straps : Straps) (stopHigh : Bool) (during : List Access) (s : State) : Result :=
  .next (pinReset straps stopHigh during s)

/-- STOP_N_FALLING_EDGE (R73). -/
def execStopNFallingEdge (s : State) : Result := lineRow stopFalls s

/-- STOP_N_RISING_EDGE (R73). -/
def execStopNRisingEdge (s : State) : Result := lineRow stopRises s

/-! ## Accesses that reach memory -/

/-- STAGING_WRITE (R8); with no enable set nothing is written (R2). -/
def execStagingWrite (offset : BitVec 16) (be : BitVec 4) (data : Word) (s : State) : Result :=
  .next (hostWrite (word (stagingBase s.path.straps + offset.toNat)) be data s)

/-- STAGING_READ (R9, R10). -/
def execStagingRead (s : State) : Result := .next (grantStagingRead s)

/-- INPUT_CHANNEL_WRITE (R14). -/
def execInputChannelWrite (addr : Word) (be : BitVec 4) (data : Word) (s : State) : Result :=
  .next (hostWrite addr be data s)

/-- PART_OUTPUT_WRITE (R14). -/
def execPartOutputWrite (addr : Word) (be : BitVec 4) (data : Word) (s : State) : Result :=
  .next (hostWrite addr be data s)

/-- OUTPUT_HOST_WRITE (R15, R43): a full-word access. -/
def execOutputHostWrite (addr data : Word) (s : State) : Result := .next (hostWrite addr 15 data s)

/-- OUTPUT_PARTIAL_WRITE (R15). -/
def execOutputPartialWrite (addr : Word) (be : BitVec 4) (data : Word) (s : State) : Result :=
  .next (hostWrite addr be data s)

/-- PASS_THROUGH_ACCESS (R4, R9), and every other host read. -/
def execPassThroughAccess (access : Access) (s : State) : Result := .next (hostAccess access s)

/-! ## The part-owned area -/

/-- NOTICE_WORD_WRITE (R26). -/
def execNoticeWordWrite (data : Word) (s : State) : Result := lineRow (clearNotices (hostValue s data)) s

/-- NOTICE_ENABLE_WRITE (R27). -/
def execNoticeEnableWrite (data : Word) (s : State) : Result := lineRow (setEnables (hostValue s data)) s

/-- HEARTBEAT (R29): whatever value is written. -/
def execHeartbeat (_data : Word) (s : State) : Result := lineRow heartbeatWrite s

/-- LOG_RELEASE (R173). -/
def execLogRelease (data : Word) (s : State) : Result :=
  lineRow (releaseWrite (statusAddress s 0x0C) (hostValue s data)) s

/-- REQUEST_ARGUMENT_WRITE (R18). -/
def execRequestArgumentWrite (slot : BitVec 4) (k : BitVec 4) (data : Word) (s : State) : Result :=
  lineRow (slotWrite (slotAddress s.path.straps slot.toNat k.toNat) slot.toNat k.toNat (hostValue s data)) s

/-- SUBMISSION (R19): a full-word write of 1 to word 0. -/
def execSubmission (slot : BitVec 4) (s : State) : Result :=
  lineRow (slotWrite (slotAddress s.path.straps slot.toNat 0) slot.toNat 0 1) s

/-- SLOT_FREE (R20): a full-word write of 0 to word 0. -/
def execSlotFree (slot : BitVec 4) (s : State) : Result :=
  lineRow (slotWrite (slotAddress s.path.straps slot.toNat 0) slot.toNat 0 0) s

/-- DISCARDED_WRITE (R6, R7). -/
def execDiscardedWrite (addr : Word) (be : BitVec 4) (data : Word) (s : State) : Result :=
  .next (hostWrite addr be data s)

end Sys2Proof.Machine
end

