-- ==== Sys2Proof/Machine/LinkRows.lean ====
section
/-! DEFINITION. The meanings of the zone link rows (Chapter 4): replies, failures of an exchange, and the end of SAFE. -/

namespace Sys2Proof.Machine

/-- SCAN_REPLY (R54, R65). -/
def execScanReply (chars : List Byte) (s : State) : Result := lineRow (replyArrives chars) s

/-- ENUM_REPLY (R54, R59). -/
def execEnumReply (chars : List Byte) (s : State) : Result := lineRow (replyArrives chars) s

/-- ONE_SHOT_REPLY (R54, R70). -/
def execOneShotReply (chars : List Byte) (s : State) : Result := lineRow (replyArrives chars) s

/-- REPLY_CHECK_FAILURE (R54). -/
def execReplyCheckFailure (chars : List Byte) (s : State) : Result := lineRow (replyArrives chars) s

/-- REPLY_LIMIT_EXPIRY (R53, R55). -/
def execReplyLimitExpiry (s : State) : Result := lineRow failAwaited s

/-- REPLY_CHARACTER_GAP (R53, R55). -/
def execReplyCharacterGap (s : State) : Result := lineRow failAwaited s

/-- SAFE_FRAME_SENT (R72). -/
def execSafeFrameSent (s : State) : Result := lineRow safeSent s

end Sys2Proof.Machine
end

