-- ==== Sys2Proof/Machine/TakingRows.lean ====
section
/-! DEFINITION. The meanings of the rows that take a request from the head of the submission queue (Chapter 2). -/

namespace Sys2Proof.Machine

/-- REQUEST_UNKNOWN_KIND (R21). -/
def execRequestUnknownKind (s : State) : Result := lineRow takeUnknown s

/-- The staging-touch flag at a taking: cleared when a COMMIT_FULL becomes TAKEN (R8, R75). -/
def touchAfter (s : State) (l : Line) : Bool :=
  if l.request.commit.isSome && s.line.request.commit.isNone then false else s.path.touch

/-- The state after a taking, with the staging-touch flag as it leaves it (R8). -/
def afterTaking (f : Line → Line) (s : State) : State :=
  { s with line := f s.line, path := { s.path with touch := touchAfter s (f s.line) } }

/-- COMMIT_FULL (R75, R76). -/
def execCommitFull (s : State) : Result := .next (afterTaking takeCommit s)

/-- COMMIT_RECIPE (R85). -/
def execCommitRecipe (s : State) : Result := lineRow takeRecipe s

/-- REINIT (R86). -/
def execReinit (s : State) : Result := lineRow takeReinit s

/-- REINIT_COMPLETION (R86). -/
def execReinitCompletion (s : State) : Result := lineRow finishReinit s

/-- DISCOVER (R58). -/
def execDiscover (s : State) : Result := lineRow takeDiscover s

/-- LINK_START (R62). -/
def execLinkStart (s : State) : Result := lineRow takeLinkStart s

/-- LINK_HALT (R71). -/
def execLinkHalt (s : State) : Result := lineRow takeLinkHalt s

/-- NODE_READ (R69). -/
def execNodeRead (s : State) : Result := lineRow takeNodeRead s

/-- NODE_WRITE (R69). -/
def execNodeWrite (s : State) : Result := lineRow takeNodeWrite s

/-- ZONE_START (R91). -/
def execZoneStart (s : State) : Result := lineRow takeZoneStart s

/-- ZONE_RUN (R95). -/
def execZoneRun (s : State) : Result := lineRow takeZoneRun s

/-- ZONE_STOP (R96). -/
def execZoneStop (s : State) : Result := lineRow takeZoneStop s

/-- ZONE_RESET (R103). -/
def execZoneReset (s : State) : Result := lineRow takeZoneReset s

/-- ZONE_SIMULATE_ENTER (R104). -/
def execZoneSimulateEnter (s : State) : Result := lineRow takeSimulateEnter s

/-- ZONE_SIMULATE_LEAVE (R104). -/
def execZoneSimulateLeave (s : State) : Result := lineRow takeSimulateLeave s

/-- LOT_OPEN (R119, R120). -/
def execLotOpen (s : State) : Result := lineRow takeLotOpen s

/-- LOT_CLOSE (R121). -/
def execLotClose (s : State) : Result := lineRow takeLotClose s

/-- LOT_FLUSH (R168). -/
def execLotFlush (s : State) : Result := lineRow takeLotFlush s

/-- INJECT_BAG (R142). -/
def execInjectBag (s : State) : Result := lineRow takeInject s

/-- PALLET_CLOSE (R153). -/
def execPalletClose (s : State) : Result := lineRow takePalletClose s

/-- PALLET_CONFIRM (R163). -/
def execPalletConfirm (s : State) : Result := lineRow takeConfirm s

end Sys2Proof.Machine
end

