-- ==== Sys2Proof/Machine/TimerRows.lean ====
section
/-! DEFINITION. The meanings of the timer rows (R30, R39, R63, R92, R93, R157, R161). -/

namespace Sys2Proof.Machine

/-- PERIOD_TIMER_EXPIRY (R63). -/
def execPeriodTimerExpiry (s : State) : Result := lineRow periodTimerExpires s

/-- STALE_TIMER_EXPIRY (R39). -/
def execStaleTimerExpiry (channel : BitVec 8) (s : State) : Result := lineRow (staleExpires channel.toNat) s

/-- WATCHDOG_EXPIRY (R30). -/
def execWatchdogExpiry (s : State) : Result := lineRow watchdogExpires s

/-- WAIT_TIME_EXPIRY (R92). -/
def execWaitTimeExpiry (zone : BitVec 3) (s : State) : Result := lineRow (waitTimeExpires zone.toNat) s

/-- WAIT_UNTIL_TIMEOUT (R93). -/
def execWaitUntilTimeout (zone : BitVec 3) (s : State) : Result := lineRow (waitUntilExpires zone.toNat) s

/-- EXPOSURE_TIMER_EXPIRY (R157). -/
def execExposureTimerExpiry (pallet : BitVec 16) (s : State) : Result := lineRow (exposureExpires pallet.toNat) s

/-- TRANSIT_TIMER_EXPIRY (R161). -/
def execTransitTimerExpiry (s : State) : Result := lineRow transitExpires s

end Sys2Proof.Machine
end

