-- ==== Sys2Proof/Machine/Dispatch.lean ====
section
/-! DEFINITION. The effect of one command on everything but the queue: one arm per command. -/

namespace Sys2Proof.Machine

/-- The effect of a command. -/
def exec (i : Instr) (s : State) : Host.Outcome State Fault Refusal :=
  match i with
  | .pinReset straps stopHigh during => Sys2Proof.Machine.execPinReset straps stopHigh during s
  | .stopNFallingEdge => Sys2Proof.Machine.execStopNFallingEdge s
  | .stopNRisingEdge => Sys2Proof.Machine.execStopNRisingEdge s
  | .stagingWrite offset be data => Sys2Proof.Machine.execStagingWrite offset be data s
  | .stagingRead => Sys2Proof.Machine.execStagingRead s
  | .inputChannelWrite addr be data => Sys2Proof.Machine.execInputChannelWrite addr be data s
  | .partOutputWrite addr be data => Sys2Proof.Machine.execPartOutputWrite addr be data s
  | .outputHostWrite addr data => Sys2Proof.Machine.execOutputHostWrite addr data s
  | .outputPartialWrite addr be data => Sys2Proof.Machine.execOutputPartialWrite addr be data s
  | .noticeWordWrite data => Sys2Proof.Machine.execNoticeWordWrite data s
  | .noticeEnableWrite data => Sys2Proof.Machine.execNoticeEnableWrite data s
  | .heartbeat data => Sys2Proof.Machine.execHeartbeat data s
  | .logRelease data => Sys2Proof.Machine.execLogRelease data s
  | .requestArgumentWrite slot k data => Sys2Proof.Machine.execRequestArgumentWrite slot k data s
  | .submission slot => Sys2Proof.Machine.execSubmission slot s
  | .slotFree slot => Sys2Proof.Machine.execSlotFree slot s
  | .discardedWrite addr be data => Sys2Proof.Machine.execDiscardedWrite addr be data s
  | .requestUnknownKind => Sys2Proof.Machine.execRequestUnknownKind s
  | .commitFull => Sys2Proof.Machine.execCommitFull s
  | .commitRecipe => Sys2Proof.Machine.execCommitRecipe s
  | .reinit => Sys2Proof.Machine.execReinit s
  | .reinitCompletion => Sys2Proof.Machine.execReinitCompletion s
  | .discover => Sys2Proof.Machine.execDiscover s
  | .linkStart => Sys2Proof.Machine.execLinkStart s
  | .linkHalt => Sys2Proof.Machine.execLinkHalt s
  | .nodeRead => Sys2Proof.Machine.execNodeRead s
  | .nodeWrite => Sys2Proof.Machine.execNodeWrite s
  | .zoneStart => Sys2Proof.Machine.execZoneStart s
  | .zoneRun => Sys2Proof.Machine.execZoneRun s
  | .zoneStop => Sys2Proof.Machine.execZoneStop s
  | .zoneReset => Sys2Proof.Machine.execZoneReset s
  | .zoneSimulateEnter => Sys2Proof.Machine.execZoneSimulateEnter s
  | .zoneSimulateLeave => Sys2Proof.Machine.execZoneSimulateLeave s
  | .lotOpen => Sys2Proof.Machine.execLotOpen s
  | .lotClose => Sys2Proof.Machine.execLotClose s
  | .lotFlush => Sys2Proof.Machine.execLotFlush s
  | .injectBag => Sys2Proof.Machine.execInjectBag s
  | .palletClose => Sys2Proof.Machine.execPalletClose s
  | .palletConfirm => Sys2Proof.Machine.execPalletConfirm s
  | .scanReply chars => Sys2Proof.Machine.execScanReply chars s
  | .enumReply chars => Sys2Proof.Machine.execEnumReply chars s
  | .oneShotReply chars => Sys2Proof.Machine.execOneShotReply chars s
  | .replyLimitExpiry => Sys2Proof.Machine.execReplyLimitExpiry s
  | .replyCharacterGap => Sys2Proof.Machine.execReplyCharacterGap s
  | .safeFrameSent => Sys2Proof.Machine.execSafeFrameSent s
  | .periodTimerExpiry => Sys2Proof.Machine.execPeriodTimerExpiry s
  | .staleTimerExpiry channel => Sys2Proof.Machine.execStaleTimerExpiry channel s
  | .watchdogExpiry => Sys2Proof.Machine.execWatchdogExpiry s
  | .waitTimeExpiry zone => Sys2Proof.Machine.execWaitTimeExpiry zone s
  | .waitUntilTimeout zone => Sys2Proof.Machine.execWaitUntilTimeout zone s
  | .exposureTimerExpiry pallet => Sys2Proof.Machine.execExposureTimerExpiry pallet s
  | .transitTimerExpiry => Sys2Proof.Machine.execTransitTimerExpiry s
  | .replyCheckFailure chars => Sys2Proof.Machine.execReplyCheckFailure chars s
  | .passThroughAccess access => Sys2Proof.Machine.execPassThroughAccess access s

end Sys2Proof.Machine
end

