-- ==== Sys2Proof/Machine/Idle.lean ====
section
/-! DEFINITION. What the block does of its own while no command waits (notes/assumptions/4). -/

namespace Sys2Proof.Machine

/-- The work that goes on while time passes: a REINIT in flight ends (R86), else a waiting staging read is granted
(R9). -/
def background (s : State) : State := if reinitInFlight s.line then s.onLine finishReinit else grantStagingRead s

/-- A step on an empty queue. The head request is taken, when there is one (R21); else a timer that is due runs out; else
one millisecond of line time passes, without regard to REINIT or commits, whose work goes on in it (R31). -/
def idle (s : State) : State :=
  if (headSlot s.line).isSome then afterTaking takeAny s
  else
    match dueTimer s.line with
    | some l => { s with line := l }
    | none => (background s).onLine tick

end Sys2Proof.Machine
end

