-- ==== Sys2Proof/Safety.lean ====
section
/-! DEFINITION. What counts as a safe run: the properties of a state that every step keeps, in the terms claims use. -/

namespace Sys2Proof.Machine

/-- Process memory keeps its canonical form. -/
def memorySound (s : State) : Prop := s.mem.wf = true

/-- The record log is well formed, and "used entries plus outstanding reservations never exceed 1024" (R171). -/
def logSound (l : Line) : Prop :=
  l.log.producer < Config.logCount ∧ l.log.consumer < Config.logCount
    ∧ (l.log.full = true → l.log.producer = l.log.consumer)
    ∧ usedCount l.log + l.log.reserved ≤ Config.logCount

/-- "A zone is in RUNNING only while every one of its prerequisite zones is in RUNNING" (R95), and a start program
runs in STARTING, a stop program in STOPPING, none in any other state (R91, R96), over a zone table of eight entries
(R88). -/
def zonesSound (l : Line) : Prop :=
  l.zones.length = Config.zoneCount
    ∧ (∀ z, z < Config.zoneCount → isRunning l z = true → prereqsRun l z = true)
    ∧ ∀ z zone p k, zone? l z = some zone → zone.run.program = some (p, k) →
        zone.run.state = match p with | .start => .starting | .stop => .stopping

/-- Every output and part-driven output has in force the value its owner zone's state gives it, and the raw value of
that (R37, R45, Table 3-6). -/
def outputsSound (l : Line) : Prop :=
  ∀ c ∈ l.chans, c.desc.kind.drives = true →
    c.run.applied = appliedValue (ownerState l c.desc) c ∧ c.run.appliedRaw = rawOfApplied c c.run.applied

/-- A safe state. -/
def State.Sound (s : State) : Prop :=
  memorySound s ∧ logSound s.line ∧ zonesSound s.line ∧ outputsSound s.line

/-! ## Frames and request outcomes, in the terms statements use -/

/-- The command left the queue, memory and the path unit as they were. -/
def BlocksOnly (s t : State) : Prop := t.pending = s.pending ∧ t.mem = s.mem ∧ t.path = s.path

/-- The blocks that own channels' values, zones, track, bags, pallets, transfers and records may have changed; requests,
configuration, match table, link, the STOP_N level and the status block but its notices have not. -/
def PlantOnly (l l' : Line) : Prop :=
  l'.request = l.request ∧ l'.active = l.active ∧ l'.matchTable = l.matchTable ∧ l'.link = l.link
    ∧ l'.stopHigh = l.stopHigh ∧ { l'.status with notices := 0 } = { l.status with notices := 0 }

/-- The log after an entry is written at the producer index (R170). -/
def appended (g : RecordLog) (t : Word) (kind : RecordKind) (payload : List Word) : RecordLog :=
  { g with
    entries := g.entries.modify g.producer fun _ =>
      some { seq := g.seq, kind := kind, time := t, payload := payload }
    producer := (g.producer + 1) % 1024
    full := (g.producer + 1) % 1024 == g.consumer
    seq := g.seq + 1 }

/-- An unreserved record has been offered at line time t to the log g: it is written while the entries neither used nor
reserved are above the reserve floor; otherwise it is dropped and counted, and LOG_DROP is set (R172). -/
def Offered (g : RecordLog) (floor : Nat) (t : Word) (kind : RecordKind) (payload : List Word) (l' : Line) : Prop :=
  (floor < 1024 - usedCount g - g.reserved → l'.log = appended g t kind payload)
    ∧ (1024 - usedCount g - g.reserved ≤ floor →
        l'.log = { g with drops := g.drops + 1 } ∧ noticeSet l' .logDrop = true)

/-- The log g once an unreserved record has been offered to it at line time t, the reserve floor being the one given
(R172). -/
def offeredOn (floor : Nat) (t : Word) (g : RecordLog) (record : RecordKind × List Word) : RecordLog :=
  if floor < 1024 - usedCount g - g.reserved then appended g t record.1 record.2 else { g with drops := g.drops + 1 }

/-- The slot at the head of the submission queue, which the request unit can take, holds a request of the kind given. -/
def HeadIs (l : Line) (i : Nat) (k : RequestKind) : Prop :=
  headSlot l = some i ∧ i < l.request.slots.length ∧ ofKind k (slotAt l i) = true

/-- Slot i has left the queue and is DONE with the reply given; REQ_DONE is set; every other slot is unchanged (R21,
R22). -/
def Completed (l l' : Line) (i : Nat) (r : Reply) : Prop :=
  slotAt l' i =
      { slotAt l i with
        state := .done, result := word r.code.code, val9 := r.v9, val10 := r.v10, val11 := r.v11, val12 := r.v12 }
    ∧ noticeSet l' .reqDone = true ∧ l'.request.queue = l.request.queue.tail
    ∧ ∀ j, j ≠ i → slotAt l' j = slotAt l j

/-- Slot i has left the queue and is TAKEN, its other words unchanged; every other slot is unchanged (R21). -/
def NowTaken (l l' : Line) (i : Nat) : Prop :=
  slotAt l' i = { slotAt l i with state := .taken } ∧ l'.request.queue = l.request.queue.tail
    ∧ ∀ j, j ≠ i → slotAt l' j = slotAt l j

/-! ## Trips and their records, in the terms statements use -/

/-- A zone as it stands when it has tripped at line time t with the cause given (R97). -/
def Zone.trippedBy (t : Word) (k : TripCause) (x : Zone) : Zone :=
  { x with
    run := { x.run with
      state := .tripped, runPending := false, cause := k, program := none, deadline := none, entryTime := t,
      trips := x.run.trips + 1 } }

/-- The zones that an event does not change of itself (`own` are those it does): each of them RUNNING behind a
prerequisite that left RUNNING has tripped with PREREQ_LOST, such a prerequisite its detail, and every other is as it was
(R98). -/
def Cascaded (own : Nat → Prop) (l l' : Line) : Prop :=
  ∀ z, z < 8 → ¬ own z → (zone? l z = none → zone? l' z = none)
    ∧ ∀ zone, zone? l z = some zone →
      let left (w : Nat) : Prop := w < 8 ∧ w ∈ zone.desc.prereqs ∧ isRunning l w = true ∧ isRunning l' w = false
      (zone.run.state = .running → (∃ w, left w) →
        ∃ w, left w ∧ zone? l' z = some (zone.trippedBy (now l) (.prereqLost w)))
      ∧ (zone.run.state ≠ .running ∨ (∀ w, ¬ left w) → zone? l' z = some zone)

/-- The zone has tripped in the event between the two lines. -/
def tripsIn (l l' : Line) (z : Nat) : Bool := zoneState l z != some .tripped && zoneState l' z == some .tripped

/-- The zone's trip cause is PREREQ_LOST. -/
def lostPrereq (l : Line) (z : Nat) : Bool :=
  (zone? l z).any fun x => match x.run.cause with
    | .prereqLost _ => true
    | _ => false

/-- An event's zone trips have been offered to the log, after its own record, if any (`lead`): first the zones with
another cause than PREREQ_LOST, then those with it, each in ascending index; the record of a zone names it, its cause,
detail and the state left. Of an event that also makes the verdict of the OPEN lot final, by closing it, nothing is said:
the order of the closing's own records beside these is free (R97, R172; notes/assumptions/11). -/
def TripsRecorded (lead : List (RecordKind × List Word)) (l l' : Line) : Prop :=
  let order := (List.range 8).filter (fun z => tripsIn l l' z && !lostPrereq l' z)
    ++ (List.range 8).filter fun z => tripsIn l l' z && lostPrereq l' z
  (∀ x, openLot l = some x →
    x.verdict = .pending ∧ x.unevaluated ≠ 0 ∧ (∀ y ∈ l.track.lots, y.number = x.number → y = x)
      ∨ ∀ f, l.track.sections[0]? = some f → zoneState l' f.desc.zone = zoneState l f.desc.zone) →
  l'.log = (lead ++ order.map fun z => (RecordKind.zoneTrip, zoneTripPayload l l' z)).foldl
      (offeredOn (reserveFloor l) (now l)) l.log
    ∧ (l'.log.drops ≠ l.log.drops → noticeSet l' .logDrop = true)

/-! ## Exchanges, programs and paths, in the terms statements use -/

/-- After an exchange (`scan`: a SCAN exchange) a HALTING link still has something to send in its cycle: a node, or a
one-shot that may go there, as one may after every SCAN exchange (R63, R70). Of a link in another state nothing is
asked. -/
def CycleGoesOn (scan : Bool) (l : Line) : Prop :=
  l.link.state = .halting → ∃ c, l.link.cycle = some c
    ∧ (c.rest ≠ [] ∨ (scan = true ∨ c.turn = true) ∧ l.link.oneShots ≠ [])

/-- The exchange that ends (`scan`: a SCAN exchange) is the last of its cycle (R63, R70). -/
def CycleEnds (scan : Bool) (l : Line) : Prop :=
  ∃ c, l.link.cycle = some c ∧ c.rest = [] ∧ (l.link.oneShots = [] ∨ scan = false ∧ c.turn = false)

/-- A new frame of the kind and payload given is on the link, and its reply is awaited: the sequence bit of its node is
inverted and carried beside the node's last-taken sequence, the driver is enabled, the reply limit in force is taken, and
none runs yet (R53 to R55). -/
def NewFrame (l l' : Line) (kind : FrameKind) (n : Nat) (payload : List Byte) (job : ExchangeJob) : Prop :=
  let control := controlByte (nodeAt l' n).lastTaken (!seqBit l n)
  l'.link.busy =
      .waiting { kind := kind, addr := n, control := control, payload := payload, retry := false, job := job }
    ∧ l'.link.sent = frameBytes kind n control payload ∧ driverEnabled l' = true ∧ l'.link.replyDue = none
    ∧ l'.link.limit = replyLimit l' ∧ l'.link.seqBits = l.link.seqBits.modify (n - 1) fun _ => !seqBit l n

/-- What goes on the link when what was on it has ended (`scan`: a SCAN exchange) and the link, IDLE, SCANNING or
HALTING, goes on. An owed cycle starts as its cycle ends. A SAFE that waits goes before all else. Else the oldest one-shot
goes, outside a cycle at once, in one as its turn comes after each SCAN exchange. Else the next node's SCAN frame of the
cycle goes, formed as it starts. With none of these the link falls quiet and releases the driver (R53, R63, R64, R70,
R72). -/
def LinkGoesOn (scan : Bool) (l l' : Line) : Prop :=
  let k := l.link
  let k' := l'.link
  let ended := CycleEnds scan l
  let safe := k.safeWaits = true ∧ linkScans l = true
  (ended → k'.owed = false) ∧ (¬ ended → k'.owed = k.owed)
    ∧ k'.state = k.state ∧ k'.scanList = k.scanList ∧ k'.period = k.period ∧ k'.overrun = k.overrun ∧ k'.halt = k.halt
    ∧ k'.discovery = k.discovery
    ∧ ∀ cycle : Option Cycle,
      (¬ ended ∧ cycle = k.cycle.map (fun c => { c with turn := scan || c.turn })
        ∨ ended ∧ k.owed = true ∧ k.scanList ≠ [] ∧ cycle = some { rest := k.scanList, turn := false }
        ∨ ended ∧ (k.owed = false ∨ k.scanList = []) ∧ cycle = none) →
      (safe →
        k'.busy = .safe none ∧ k'.sent = frameBytes .safe 0 0 [] ∧ driverEnabled l' = true ∧ k'.replyDue = none
          ∧ k'.safeWaits = false ∧ k'.cycle = cycle ∧ k'.oneShots = k.oneShots ∧ k'.seqBits = k.seqBits)
      ∧ (¬ safe → k'.safeWaits = k.safeWaits
        ∧ (∀ o os, k.oneShots = o :: os → (∀ c, cycle = some c → c.turn = true) →
            NewFrame l l' (if o.isSet then .pset else .pget) o.node (oneShotPayload o) (.oneShot o)
              ∧ k'.oneShots = os ∧ k'.cycle = cycle.map fun c => { c with turn := false })
        ∧ (∀ n rest turn, cycle = some { rest := n :: rest, turn := turn } → turn = false ∨ k.oneShots = [] →
            NewFrame l l' .scan n (scanPayload l' n) .scan
              ∧ k'.oneShots = k.oneShots ∧ k'.cycle = some { rest := rest, turn := false })
        ∧ (cycle = none → k.oneShots = [] →
            k'.busy = .quiet ∧ driverEnabled l' = false ∧ k'.replyDue = none ∧ k'.oneShots = [] ∧ k'.cycle = none
              ∧ k'.seqBits = k.seqBits))

/-- A program does not wait at the step: a SET, or a WAIT_UNTIL whose channel is GOOD and meets its threshold (R92,
R93). -/
def Passes (l : Line) : Step → Prop
  | .set _ _ => True
  | .waitTime _ => False
  | .waitUntil c cmp threshold _ =>
    (chan l c).run.quality = .good ∧ meets cmp (currentValue (chan l c)) threshold = true

/-- The zone given, whose program p has come to step k with the steps `rest` left, the first of which does not pass,
waits there with its deadline set, or has ended its program: a stop program in OFF, a start program in READY, or in
RUNNING when run pending is set and every prerequisite is RUNNING (R92 to R96). -/
def Lands (l l' : Line) (z : Nat) (zone : Zone) (p : Program) (k : Nat) (rest : List Step) : Prop :=
  let waits (ms : Nat) : Zone :=
    { zone with run := { zone.run with program := some (p, k), deadline := some (now l + word ms) } }
  let ends (st : ZoneState) : Zone :=
    { zone with run := { zone.run with state := st, program := none, deadline := none, entryTime := now l } }
  let goes := zone.run.runPending = true ∧ prereqsRun l z = true
  (∀ ms more, rest = .waitTime ms :: more → zone? l' z = some (waits ms))
    ∧ (∀ c cmp threshold ms more, rest = .waitUntil c cmp threshold ms :: more → zone? l' z = some (waits ms))
    ∧ (rest = [] → p = .stop → zone? l' z = some (ends .off))
    ∧ (rest = [] → p = .start → ¬ goes → zone? l' z = some (ends .ready))
    ∧ (rest = [] → p = .start → goes →
        zone? l' z = some { ends .running with run := { (ends .running).run with runPending := false } })

/-- The program values of the outputs after the steps `done`, `start` being those before them: the value of the last SET
of the output among the steps, clamped into its range (R44, R92). -/
def SetsApplied (l l' : Line) (start : Nat → Int) (done : List Step) : Prop :=
  ∀ j, (chan l j).desc.kind.isOutput = true → (chan l' j).run.programValue =
    done.foldl (fun v step => match step with
      | .set i w => if i = j then clampInt (chan l j).desc.engMin (chan l j).desc.engMax w else v
      | _ => v) (start j)

/-- The pallet table and the transfer unit are those given, every TRANSFER_START output's function value is 0, and
nothing else has changed (R160 to R162). -/
def PathFreed (l l' : Line) (pallets : List Pallet) (transfer : Transfer) : Prop :=
  { l' with chans := l.chans } = { l with pack := { l.pack with pallets := pallets }, transfer := transfer }
    ∧ ∀ j, (chan l' j).desc = (chan l j).desc
      ∧ ((chan l j).desc.kind = .partOutput → (chan l j).desc.func = .transferStart → (chan l' j).run.functionValue = 0)
      ∧ ((chan l j).desc.kind ≠ .partOutput ∨ (chan l j).desc.func ≠ .transferStart → chan l' j = chan l j)

/-- The OPEN lot has been closed: with units unevaluated it stays PENDING and no other lot changes, with none its
verdict is final (R121, R122, R136). -/
def OpenLotClosed (l l' : Line) : Prop :=
  ∀ x, openLot l = some x → x.verdict = .pending → (∀ y ∈ l.track.lots, y.number = x.number → y = x) →
    (x.unevaluated ≠ 0 →
      l'.track.lots = l.track.lots.map fun y => if y.number = x.number then { y with isOpen := false } else y)
    ∧ (x.unevaluated = 0 → ∀ y, lot? l' x.number = some y → y.isOpen = false ∧ y.verdict = (verdictOf x).1)

/-- The lot closed at line time t with its verdict final: EMPTY with no reason when it admitted no unit, else TRIAL for a
trial lot, else RELEASED for an empty reason mask, else HELD, with the mask (R121, R137, R138). -/
def Lot.finalAt (t : Word) (x : Lot) : Lot :=
  { x with
    isOpen := false
    verdict :=
      if x.admitted = 0 then .empty else if x.trial then .trial else if lotReasons x = 0 then .released else .held
    reasons := if x.admitted = 0 then 0 else lotReasons x
    verdictTime := some t }

/-- The OPEN lot x, which no STORED pallet names, has been closed, which leaves the lot table and the log, g before, as
given. With units unevaluated it stays PENDING. With none its verdict is final and its reserved LOT_VERDICT is written;
then it stays live or, when no unit is on the track and neither the feed list nor a pallet refers to it, its reserved
LOT_SUMMARY is written and its entry freed (R121, R136 to R138, R167, R170, R171). -/
def LotClosing (l : Line) (x : Lot) (g : RecordLog) (lots : List Lot) (g' : RecordLog) : Prop :=
  let y := x.finalAt (now l)
  let judged := { appended g (now l) .lotVerdict (lotVerdictPayload l y) with reserved := g.reserved - 1 }
  let retires := x.onTrack = 0 ∧ (∀ e ∈ l.pack.feed, e.lot ≠ x.number) ∧ x.livePallets = 0
  (x.unevaluated ≠ 0 →
    lots = l.track.lots.map (fun z => if z.number = x.number then { z with isOpen := false } else z) ∧ g' = g)
  ∧ (x.unevaluated = 0 → ¬ retires →
      lots = l.track.lots.map (fun z => if z.number = x.number then y else z) ∧ g' = judged)
  ∧ (x.unevaluated = 0 → retires →
      lots = l.track.lots.filter (·.number != x.number)
      ∧ g' = { appended judged (now l) .lotSummary (lotSummaryPayload l y) with reserved := judged.reserved - 1 })

/-- The pallet in transit has been left UNCONFIRMED, the path IDLE with its timer stopped and TRANSFER_START at 0
(R162). -/
def TransitAbandoned (l l' : Line) : Prop :=
  ∀ tr p, l.transfer.transit = some tr → pallet? l tr.number = some p → p.state = .inTransit →
    l'.transfer = { l.transfer with transit := none } ∧ pallet? l' tr.number = some { p with state := .unconfirmed }
    ∧ ∀ j, (chan l' j).desc.kind = .partOutput → (chan l' j).desc.func = .transferStart →
        (chan l' j).run.functionValue = 0

/-- A bag of weight w, its lots those listed and its exposure start the one given, has joined pallet p. Lots missing
from the pallet's list have been appended, each with one live pallet more; the first lot's entry, the bag count and the
mass have risen. The exposure start is the earlier of the pallet's and the bag's, the deadline the earlier of the
pallet's and the bag's start plus the least exposure limit of its lots' recipes, and the timer runs. At the capacity the
pallet has closed with CAPACITY. A deadline just set that lies in the past has run the timer out in the same event: the
pallet is EXPOSED, closed for that if it was not yet, PALLET_EXPOSED is raised and its lots count it. A pallet closed has
the queue-join order given; it waits in the queue, or is IN_TRANSIT when the path was IDLE (R150 to R152, R156 to
R159). -/
def PalletJoined (l l' : Line) (p : Pallet) (listed : List Nat) (w : Nat) (provisional : Bool) (start order : Word) :
    Prop :=
  let missing := listed.filter fun n => !p.lots.any (·.lot == n)
  let lots := (p.lots ++ missing.map fun n => ({ lot := n, bags := 0, provisional := 0 } : PalletLot)).map fun e =>
    if listed.head? = some e.lot then
      { e with bags := e.bags + 1, provisional := if provisional then e.provisional + 1 else e.provisional }
    else e
  ∀ (g : General) (limit : Nat), l.active = some g →
    (∃ n ∈ listed, ∃ e, lotRecipe l n = some e ∧ e.exposureLimit = limit) →
    (∀ n ∈ listed, ∀ e, lotRecipe l n = some e → limit ≤ e.exposureLimit) →
    let due := start + word (limit * 1000)
    let first := match p.exposureStart with
      | none => start
      | some t => if earlier start t then start else t
    let deadline := match p.deadline with
      | none => due
      | some t => if earlier due t then due else t
    let joined : Pallet :=
      { p with
        lots := lots, bags := p.bags + 1, mass := addMass p.mass w, exposureStart := some first
        deadline := some deadline, timer := .running }
    let full := g.palletCapacity ≤ p.bags + 1
    let past := p.deadline ≠ some deadline ∧ reached (now l) deadline = true
    (¬ full → ¬ past → pallet? l' p.number = some joined)
    ∧ (full ∨ past → ∃ st, (st = .closed ∨ st = .inTransit)
        ∧ (l.transfer.transit.isSome = true ∨ kindIn l .transfer .running = false → st = .closed)
        ∧ ∃ q : Pallet, pallet? l' p.number = some q ∧ (full → q.reason = .capacity) ∧ (¬ full → q.reason = .exposed)
          ∧ (past → q.exposed = true ∧ q.timer = .expired) ∧ (¬ past → q.exposed = p.exposed ∧ q.timer = .running)
          ∧ q = { joined with
                  state := st, reason := q.reason, joinOrder := some order, exposed := q.exposed, timer := q.timer })
    ∧ (past → noticeSet l' .palletExposed = true)
    ∧ ∀ n ∈ listed, ∀ x, listed.Nodup → (p.lots.map (·.lot)).Nodup → lot? l n = some x → x.onTrack ≠ 0 →
        ∃ y, lot? l' n = some y
          ∧ (n ∈ missing → y.livePallets = x.livePallets + 1) ∧ (n ∉ missing → y.livePallets = x.livePallets)
          ∧ (past → y.exposedPallets = x.exposedPallets + 1) ∧ (¬ past → y.exposedPallets = x.exposedPallets)

/-- A bag of weight w that reached a lot has been judged, with the result r. It drew its weight on the feed list, took
the counter's number, gave LANE_SELECT its final lane and was written into the ring. A third lot rejects it OVERSPAN;
else it goes to REJECT for a trial lot, REJECT for its weight, HOLD for two recipes, HOLD for a HELD lot, else to
RELEASE, provisional with a PENDING lot, and joins the OPEN pallet of its lane as PalletJoined says. Where there is
none it is rejected NO_PALLET. Where that pallet's lot list has no room, the pallet closes for LOTS, and the bag joins
the pallet opened in its place or is rejected NO_PALLET. Each lot reached is charged its share and counts the bag. A bag
rejected by a lane test leaves the pallets and the path as they were; no bag changes a pallet in transit, UNCONFIRMED
or STORED (R142, R144 to R147, R149 to R152). -/
def BagJudged (l l' : Line) (w : Nat) (r : BagResult) : Prop :=
  let a := drawMass l.pack.feed w
  let listed := (a.shares.map (·.lot)).take 2
  let lots := listed.filterMap (lot? l)
  let trial := ∃ x ∈ lots, x.trial = true
  let misweighed := ∃ n e, listed.head? = some n ∧ lotRecipe l n = some e ∧ (w < e.bagMin ∨ e.bagMax < w)
  let recipes := ∃ x ∈ lots, ∃ y ∈ lots, x.recipe ≠ y.recipe
  let held := ∃ x ∈ lots, x.verdict = .held
  let keeps := l'.pack.pallets = l.pack.pallets ∧ l'.transfer = l.transfer
  ∃ provisional : Bool,
    r.bag = l.pack.bagCounter ∧ l'.pack.feed = a.feed
    ∧ l'.pack.bagCounter = (if l.pack.bagCounter + 1 = 0 then 1 else l.pack.bagCounter + 1)
    ∧ l'.pack.laneSelect = r.lane
    ∧ (∀ j, (chan l' j).desc.kind = .partOutput → (chan l' j).desc.func = .laneSelect →
        (chan l' j).run.functionValue = r.lane.code)
    ∧ l'.pack.ring = l.pack.ring.modify l.pack.ringNext (fun _ =>
        { bag := l.pack.bagCounter, weight := w, pallet := r.pallet, first := listed.getD 0 0, second := listed.getD 1 0,
          lane := r.lane, reason := r.reason, provisional := provisional })
    ∧ l'.pack.ringNext = (l.pack.ringNext + 1) % 64
    ∧ (3 ≤ a.shares.length → r.lane = .reject ∧ r.reason = .overspan ∧ keeps)
    ∧ (a.shares.length ≤ 2 → trial → r.lane = .reject ∧ r.reason = .trial ∧ keeps)
    ∧ (a.shares.length ≤ 2 → ¬ trial → misweighed → r.lane = .reject ∧ r.reason = .weight ∧ keeps)
    ∧ (∀ want why, a.shares.length ≤ 2 → ¬ trial → ¬ misweighed →
        (recipes ∧ want = Lane.hold ∧ why = BagReason.recipes ∨ ¬ recipes ∧ held ∧ want = .hold ∧ why = .lotHeld
          ∨ ¬ recipes ∧ ¬ held ∧ want = .release ∧ why = .none) →
        let marked := provisional = true ↔ want = .release ∧ ∃ x ∈ lots, x.verdict = .pending
        (openPallet l want = none → r.lane = .reject ∧ r.reason = .noPallet ∧ keeps)
        ∧ ∀ p, openPallet l want = some p →
          let missing := listed.filter fun n => !p.lots.any (·.lot == n)
          (p.lots.length + missing.length ≤ 8 → r.lane = want ∧ r.reason = why ∧ r.pallet = p.number ∧ marked
            ∧ (pallet? l p.number = some p → ∀ share, a.shares.head? = some share →
                PalletJoined l l' p listed w provisional share.exit l.transfer.joinCounter))
          ∧ (8 < p.lots.length + missing.length →
              (∀ q ∈ l.pack.pallets, q.lane = want → q.state = .opened → q.number = p.number) →
              (bagRunning l = false ∨ 32 ≤ l.pack.pallets.length ∨ freeUnreserved l.log = 0 →
                r.lane = .reject ∧ r.reason = .noPallet)
              ∧ (bagRunning l = true → l.pack.pallets.length < 32 → 1 ≤ freeUnreserved l.log →
                  (openPallet l (if want = .release then .hold else .release)).isSome = true →
                  (l.pack.pallets.map (·.number)).Nodup → (∀ q ∈ l.pack.pallets, q.number ≠ l.pack.palletCounter) →
                  r.lane = want ∧ r.reason = why ∧ r.pallet = l.pack.palletCounter ∧ marked
                  ∧ (∃ pos, ∀ share, a.shares.head? = some share →
                      PalletJoined l l' (newPallet pos l.pack.palletCounter want) listed w provisional share.exit
                        (l.transfer.joinCounter + 1))
                  ∧ ∃ st, (st = .closed ∨ st = .inTransit) ∧ pallet? l' p.number = some
                      { p with state := st, reason := .lots, joinOrder := some l.transfer.joinCounter })))
    ∧ (r.lane = .reject → r.pallet = 0 ∧ provisional = false)
    ∧ (∀ share ∈ a.shares, ∀ x, (a.shares.map (·.lot)).Nodup → lot? l share.lot = some x → x.onTrack ≠ 0 →
        ∃ y, lot? l' share.lot = some y ∧ y.massBagged = addMass x.massBagged share.mass
          ∧ y.bagsMade = x.bagsMade + 1
          ∧ (r.lane = .reject → y.bagsRejected = x.bagsRejected + 1 ∧ y.livePallets = x.livePallets)
          ∧ (r.lane ≠ .reject → y.bagsRejected = x.bagsRejected))
    ∧ ((l.pack.pallets.map (·.number)).Nodup → (∀ q ∈ l.pack.pallets, q.number ≠ l.pack.palletCounter) →
        ∀ q ∈ l.pack.pallets, q.state = .inTransit ∨ q.state = .unconfirmed ∨ q.state = .stored →
          pallet? l' q.number = some q)
    ∧ l'.zones = l.zones ∧ PlantOnly l l'

end Sys2Proof.Machine
end

