-- ==== Sys2Proof/Certificates/Slice0/Obligations.lean ====
section
/-! DEFINITION. The statements for the provers. -/

open Sys2Proof Sys2Proof.Machine

/-! ## The machine -/

/-- A step runs the command at the front of the queue on the state with the queue's rest. -/
def Obligations.StepRunsTheFrontCommand : Prop :=
  ∀ (c : Instr) (rest : List Instr) (s : State), s.pending = c :: rest → step s = exec c { s with pending := rest }

/-- On an empty queue the block takes the request at the head of the submission queue, as the row of its kind does. With
no request to take and no timer due, one millisecond of line time passes: nothing else changes where no REINIT is in
flight and no staging read waits, and line time counts on through a REINIT, which ends, and through a commit, whose
waiting staging read is granted (R21, R31; that an idle step does these, and in this order, is the model's choice,
notes/assumptions/4). -/
def Obligations.IdleStepTakesARequestOrLetsTimePass : Prop :=
  (∀ s : State, s.pending = [] →
    (∀ i, headSlot s.line = some i → step s = .next (afterTaking takeAny s))
    ∧ (headSlot s.line = none → s.line.request.reinit = none → dueTimer s.line = none → waitingOffset s.line = none →
        step s = .next { s with line := { s.line with status := { s.line.status with time := s.line.status.time + 1 } } })
    ∧ (headSlot s.line = none → dueTimer s.line = none →
        ∃ t, exec (if s.line.request.reinit.isSome then .reinitCompletion else .stagingRead) s = .next t
          ∧ t.line.status.time = s.line.status.time
          ∧ step s = .next
              { t with line := { t.line with status := { t.line.status with time := t.line.status.time + 1 } } }))
  ∧ ∀ (s : State) (i : Nat), headSlot s.line = some i →
    let a := slotAt s.line i
    (RequestKind.ofCode a.kind.toNat = none → exec .requestUnknownKind s = .next (afterTaking takeAny s))
    ∧ ∀ (k : RequestKind) (c : Instr), ofKind k a = true →
      (k, c) ∈ [(.commitFull, .commitFull), (.commitRecipe, .commitRecipe), (.reinit, .reinit), (.discover, .discover),
        (.linkStart, .linkStart), (.linkHalt, .linkHalt), (.nodeRead, .nodeRead), (.nodeWrite, .nodeWrite),
        (.zoneStart, .zoneStart), (.zoneRun, .zoneRun), (.zoneStop, .zoneStop), (.zoneReset, .zoneReset),
        (.zoneSimulate, if a.arg3 = 0 then .zoneSimulateLeave else .zoneSimulateEnter), (.lotOpen, .lotOpen),
        (.lotClose, .lotClose), (.lotFlush, .lotFlush), (.injectBag, .injectBag), (.palletClose, .palletClose),
        (.palletConfirm, .palletConfirm)] →
      exec c s = .next (afterTaking takeAny s)

/-- Every command answers a next state and leaves the queue of waiting commands alone. That every command answers a next
state is the model's choice (notes/assumptions/26, DEDUCED): the manual names no event at which the part stops. -/
def Obligations.EveryCommandKeepsTheQueue : Prop :=
  ∀ (c : Instr) (s : State), ∃ t, exec c s = .next t ∧ t.pending = s.pending

/-- State.reset holds the values the manual gives for pin reset (R7, R17, R25, R28, R29, R31, R34, R53, R57, R88, R107,
R118, R126, R140, R142, R147, R148, R158, R169, R175). That memory lists nothing is no value of the manual, which gives
memory no contents and no reset value, but the model's choice (notes/assumptions/2, DESIGN CHOICE). -/
def Obligations.ResetHoldsThePinResetValues : Prop :=
  let s := State.reset
  let l := s.line
  s.pending = [] ∧ s.mem = [] ∧ s.path.touch = false ∧ s.path.arbiter = 0 ∧ l.matchTable = [] ∧ waitingOffset l = none
    ∧ (∀ i, slotAt l i = Slot.empty) ∧ l.request.queue = []
    ∧ l.status.notices = 0 ∧ l.status.enables = 0 ∧ attnAsserted l = false ∧ l.status.heartbeat = 0
    ∧ l.status.watchdog = .stopped ∧ l.status.lastBad = 0 ∧ l.status.time = 0 ∧ l.active = none
    ∧ (∀ i, (chan l i).desc.kind = .unused)
    ∧ l.link.state = .idle ∧ (∀ n, nodeAt l n = Node.absent) ∧ (∀ n, seqBit l n = false) ∧ l.link.scanList = []
    ∧ l.link.oneShots = [] ∧ l.link.safeWaits = false ∧ l.link.overrun = 0 ∧ l.link.safeCount = 0
    ∧ driverEnabled l = false ∧ replyLimit l = 5000
    ∧ (∀ z, zone? l z = none) ∧ l.track.sections = [] ∧ l.track.lots = [] ∧ l.track.lotCounter = 1
    ∧ l.track.admissions = 0 ∧ (∀ i, recipeAt l i = none) ∧ l.pack.feed = [] ∧ l.pack.pallets = []
    ∧ l.pack.palletCounter = 1 ∧ l.pack.bagCounter = 1 ∧ l.pack.ringNext = 0
    ∧ (∀ k, k < 64 → l.pack.ring[k]? = some RingEntry.zero) ∧ l.transfer.transit = none ∧ l.transfer.joinCounter = 0
    ∧ l.transfer.lastDispatch = 0 ∧ l.transfer.lastMismatch = 0 ∧ l.transfer.dispatches = 0
    ∧ l.transfer.confirmations = 0 ∧ l.transfer.lates = 0 ∧ l.transfer.timeouts = 0 ∧ l.transfer.mismatches = 0
    ∧ (∀ k, k < 1024 → l.log.entries[k]? = some none) ∧ l.log.producer = 0 ∧ l.log.consumer = 0 ∧ l.log.full = false
    ∧ l.log.reserved = 0 ∧ l.log.seq = 0 ∧ l.log.drops = 0 ∧ logThreshold l = 1024 ∧ reserveFloor l = 0

/-- The state after reset is sound. -/
def Obligations.ResetIsSound : Prop := State.reset.Sound

/-! ## What every step keeps -/

/-- Every step keeps the canonical form of process memory. -/
def Obligations.StepKeepsMemoryCanonical : Prop :=
  ∀ s t : State, memorySound s → step s = .next t → memorySound t

/-- Every step keeps the record log's used entries plus outstanding reservations within 1024 (R171). -/
def Obligations.StepKeepsTheLogWithinItsBound : Prop :=
  ∀ s t : State, logSound s.line → step s = .next t → logSound t.line

/-- Every step keeps this: a zone is RUNNING only while every prerequisite of it is RUNNING, and a program runs only
in the state it belongs to (R91, R95, R96, R98). -/
def Obligations.StepKeepsRunningZonesBehindRunningPrerequisites : Prop :=
  ∀ s t : State, zonesSound s.line → step s = .next t → zonesSound t.line

/-- Every step keeps this: every output has in force the value its owner zone's state gives it, and the raw value of
that (R37, R45, Table 3-6). -/
def Obligations.StepKeepsEveryOutputAtItsZonesValue : Prop :=
  ∀ s t : State, outputsSound s.line → step s = .next t → outputsSound t.line

/-! ## Pins -/

/-- A pin reset returns every block to its pin reset state with the straps sampled anew; memory and the waiting commands
stay; a read presented meanwhile completes with zero (R1, R17). The manual's own values in Line.reset are those of
ResetHoldsThePinResetValues. The others are the model's: the numbers freeReads and choices are kept
(notes/assumptions/3 and 11, DESIGN CHOICE), the lane decision is 0 (notes/assumptions/20, DESIGN CHOICE), and the
watchdog's restart time and the last frame sent are 0 and none, while the data lines keep their word where no read was
presented (notes/assumptions/25, DESIGN CHOICE). -/
def Obligations.PinResetRestoresEveryBlock : Prop :=
  ∀ (straps : Straps) (high : Bool) (during : List Access) (s : State),
    exec (.pinReset straps high during) s = .next
      { s with
        path := { straps := straps, touch := false, arbiter := 0,
                  readData := if during.any (fun a => !a.write) then 0 else s.path.readData,
                  freeReads := s.path.freeReads }
        line := { Line.reset with stopHigh := high, choices := s.line.choices } }

/-- A rising edge of STOP_N changes the level and nothing else. A falling edge trips every zone in an active state with
cause STOP_INPUT, each recorded by an offered ZONE_TRIP record, leaves every other zone as it was, raises STOP_INPUT,
and asks for SAFE: sent at once on a quiet link in SCANNING or HALTING, waiting on a busy one, dropped in the other
link states. When section 0's zone was RUNNING the OPEN lot, a real one, closes; when the TRANSFER zone was, the pallet
in transit is left UNCONFIRMED (R72, R73, R97, R101, R122, R162, R172; bits 0 to 3 of the control byte of SAFE, sent as
0, are the model's choice, notes/assumptions/40). -/
def Obligations.StopEdgesMoveTheLevelAndTripOnTheFall : Prop :=
  (∀ s : State, exec .stopNRisingEdge s = .next { s with line := { s.line with stopHigh := true } })
  ∧ ∀ s : State, s.line.zones.length = Config.zoneCount →
    ∃ t, exec .stopNFallingEdge s = .next t ∧ BlocksOnly s t
      ∧ t.line.stopHigh = false ∧ noticeSet t.line .stopInput = true
      ∧ (∀ z zone, zone? s.line z = some zone → zone.run.state.isActive = true →
          zone? t.line z = some (zone.trippedBy (now s.line) .stopInput)
          ∧ noticeSet t.line .zoneTrip = true ∧ noticeSet t.line .zoneChange = true)
      ∧ (∀ z, isActive s.line z = false → zone? t.line z = zone? s.line z)
      ∧ TripsRecorded [] s.line t.line
      ∧ (linkScans s.line = false → t.line.link = s.line.link)
      ∧ (linkScans s.line = true → s.line.link.busy = .quiet →
          t.line.link =
            { s.line.link with
              busy := .safe none, safeWaits := false, sent := frameBytes .safe 0 0 [], driving := true, replyDue := none })
      ∧ (linkScans s.line = true → s.line.link.busy ≠ .quiet → t.line.link = { s.line.link with safeWaits := true })
      ∧ (∀ f x, s.line.track.sections[0]? = some f → isRunning s.line f.desc.zone = true →
          openLot s.line = some x → x.trial = false → OpenLotClosed s.line t.line)
      ∧ (∀ z, zoneOfKind s.line .transfer = some z → isRunning s.line z = true → TransitAbandoned s.line t.line)
      ∧ t.line.request = s.line.request ∧ t.line.active = s.line.active ∧ t.line.matchTable = s.line.matchTable

/-! ## Process memory and the arbiter -/

/-- A write to the staging region passes to memory; it sets the staging-touch flag exactly when a COMMIT_FULL is in
flight; while a staging read waits its grant raises the arbiter's count by 1, below 16 (R8, R9). -/
def Obligations.StagingWriteReachesMemoryAndSetsTouch : Prop :=
  ∀ (offset : BitVec 16) (be : BitVec 4) (data : Word) (s : State), be ≠ 0 → s.path.arbiter < 16 →
    exec (.stagingWrite offset be data) s = .next
      { s with
        mem := writeLanes s.path.straps s.mem
          (stagingBase s.path.straps + (offset.toNat - offset.toNat % 4)) be data
        path := { s.path with
          touch := s.path.touch || s.line.request.commit.isSome
          arbiter := if (waitingOffset s.line).isSome then s.path.arbiter + 1 else s.path.arbiter } }

/-- An access classified as pass-through: a write changes the bytes of its enabled lanes and no other byte of memory,
a read answers the memory's word; neither changes any other state, but for the arbiter's count, which an access
granted while a staging read waits raises by 1, below 16. An address at or above the memory size is passed on too:
what is read there, and where a write to it lands, is the memory's own (a free value, notes/assumptions/3), and
nothing else changes but the model's own number of free reads. With the count at 16 the waiting staging read is
granted first; the access is granted when it completes, and its own grant raises the count to 1 where the reader's
next word waits by then (R2, R4, R9, R10, Table 1-4; that data lane k belongs to the byte at word address + k is
notes/assumptions/6, DESIGN CHOICE, and that the access granted after the sixteenth finds the next word waiting is
notes/assumptions/10, DEDUCED). -/
def Obligations.PassThroughAccessReachesOnlyMemory : Prop :=
  (∀ (a : Access) (s : State), a.be ≠ 0 →
    classify s.path.straps s.line.matchTable (wordAddress a.addr) = .passThrough →
    wordAddress a.addr < memorySize s.path.straps → s.path.arbiter < 16 →
    ∃ m, exec (.passThroughAccess a) s = .next
        { s with
          mem := m
          path := { s.path with
            arbiter := if (waitingOffset s.line).isSome then s.path.arbiter + 1 else s.path.arbiter
            readData :=
              if a.write then s.path.readData
              else memoryWord s.path.straps s.mem s.path.freeReads (wordAddress a.addr) } }
      ∧ (a.write = false → m = s.mem)
      ∧ (a.write = true → m = writeLanes s.path.straps s.mem (wordAddress a.addr) a.be a.data
          ∧ (s.mem.wf = true → ∀ n x : Nat, x < memorySize s.path.straps →
              memoryByte s.path.straps m n x =
                if wordAddress a.addr ≤ x ∧ x < wordAddress a.addr + 4
                    ∧ enabled a.be (x - wordAddress a.addr) = true
                then lane a.data (x - wordAddress a.addr) else memoryByte s.path.straps s.mem n x)))
  ∧ (∀ (a : Access) (s : State), a.be ≠ 0 →
    classify s.path.straps s.line.matchTable (wordAddress a.addr) = .passThrough →
    memorySize s.path.straps ≤ wordAddress a.addr → s.path.arbiter < 16 →
    ∃ m, exec (.passThroughAccess a) s = .next
        { s with
          mem := m
          path := { s.path with
            arbiter := if (waitingOffset s.line).isSome then s.path.arbiter + 1 else s.path.arbiter
            readData :=
              if a.write then s.path.readData
              else memoryWord s.path.straps s.mem s.path.freeReads (wordAddress a.addr)
            freeReads := if a.write then s.path.freeReads else s.path.freeReads + 1 } }
      ∧ (a.write = false → m = s.mem)
      ∧ (a.write = true → s.mem.wf = true → ∀ n x : Nat, x < memorySize s.path.straps →
          (∀ k, k < 4 → enabled a.be k = true → memoryPlace s.path.straps (wordAddress a.addr + k) ≠ some x) →
          memoryByte s.path.straps m n x = memoryByte s.path.straps s.mem n x))
  ∧ ∀ (a : Access) (s : State), a.be ≠ 0 → s.path.arbiter = 16 → (waitingOffset s.line).isSome = true →
    classify s.path.straps s.line.matchTable (wordAddress a.addr) = .passThrough →
    wordAddress a.addr < memorySize s.path.straps →
    ∃ r, exec .stagingRead s = .next r ∧ r.path.arbiter = 0 ∧ r.mem = s.mem
      ∧ (∀ job, s.line.request.commit = some job → job.words.length + 1 < Config.commitWords →
          (waitingOffset r.line).isSome = true)
      ∧ exec (.passThroughAccess a) s = .next
          { r with
            mem := if a.write then writeLanes s.path.straps s.mem (wordAddress a.addr) a.be a.data else s.mem
            path := { r.path with
              arbiter := if (waitingOffset r.line).isSome then 1 else 0
              readData :=
                if a.write then s.path.readData
                else memoryWord s.path.straps s.mem r.path.freeReads (wordAddress a.addr) } }

/-- A host read answered by the part changes nothing but the data lines: a part-owned word is answered with the word;
an input channel's word with the simulated value while the simulated flag is set, else the engineering value in GOOD
and the fallback value otherwise, arranged; an output's word under APPLIED readback with the applied value, arranged.
Every answer is placed in the upstream byte order, its disabled lanes zero. Under COMMANDED readback an output's word
is answered with the memory's word, its disabled lanes zero, and a word of the staging region with the memory's word
as the memory gives it; both claim the memory port, and change nothing else. The part-owned words show the state of
the block that owns them: every word of the status block, of a slot, of a section's record, of the recent bag ring and
of the active recipe view, and of each other view the words named here, with zero for an absent zone, section or
recipe (R2, R5, R8, R9, R12, R13, R16, R18, R31, R52, R74, R106, R125, R139, R147, R148, R169, R170; that a COMMANDED
read is masked is notes/assumptions/6, DESIGN CHOICE). -/
def Obligations.PartAnsweredReadChangesOnlyTheDataLines : Prop :=
  (∀ (addr : Word) (be : BitVec 4) (data : Word) (s : State), be ≠ 0 →
    let read := exec (.passThroughAccess { write := false, addr := addr, be := be, data := data }) s
    let answers (w : Word) : Prop :=
      read = .next { s with path := { s.path with readData := maskLanes be (upstreamOrder s.path.straps.ubo w) } }
    let fetched (w : Word) : Prop :=
      read = .next
        { s with
          path := { s.path with
            arbiter := if (waitingOffset s.line).isSome then s.path.arbiter + 1 else s.path.arbiter, readData := w } }
    let held := memoryWord s.path.straps s.mem s.path.freeReads (wordAddress addr)
    (∀ off, classify s.path.straps s.line.matchTable (wordAddress addr) = .part off →
      answers (partWord s.path.straps s.line off))
    ∧ (∀ i, classify s.path.straps s.line.matchTable (wordAddress addr) = .channel i →
        (chan s.line i).desc.kind.isInput = true →
        answers (arrange (chan s.line i).desc.arrangement
          (signedWord
            (if (chan s.line i).run.simFlag then (chan s.line i).run.simValue
             else if (chan s.line i).run.quality = .good then (chan s.line i).run.eng
             else (chan s.line i).desc.fallback))))
    ∧ (∀ i, classify s.path.straps s.line.matchTable (wordAddress addr) = .channel i →
        (chan s.line i).desc.kind.isInput = false → (chan s.line i).desc.readback = .applied →
        answers (arrange (chan s.line i).desc.arrangement (signedWord (chan s.line i).run.applied)))
    ∧ (∀ i, classify s.path.straps s.line.matchTable (wordAddress addr) = .channel i →
        (chan s.line i).desc.kind.isInput = false → (chan s.line i).desc.readback = .commanded →
        wordAddress addr < memorySize s.path.straps → s.path.arbiter < 16 → fetched (maskLanes be held))
    ∧ (classify s.path.straps s.line.matchTable (wordAddress addr) = .staging →
        wordAddress addr < memorySize s.path.straps → s.path.arbiter < 16 → fetched held))
  ∧ ∀ (st : Straps) (l : Line),
    (∀ i k, i < 16 → k < 16 → partWord st l (0x100 + 64 * i + 4 * k) = recordWord (slotWords (slotAt l i)) k)
    ∧ (∀ i, i < 256 → (chan l i).desc.kind.isInput = true →
        partWord st l (0x1004 + 16 * i) =
          signedWord (if (chan l i).run.simFlag then (chan l i).run.simValue else (chan l i).run.eng))
    ∧ (∀ i, i < 256 → (chan l i).desc.kind.isOutput = true →
        partWord st l (0x1004 + 16 * i) = signedWord (chan l i).run.hostValue
        ∧ partWord st l (0x1008 + 16 * i) = signedWord (chan l i).run.applied
        ∧ partWord st l (0x100C + 16 * i) = word (chan l i).run.appliedRaw.toNat)
    ∧ (∀ i, i < 256 → (chan l i).desc.kind = .event → partWord st l (0x1004 + 16 * i) = (chan l i).run.events)
    ∧ (∀ z zone, z < 8 → zone? l z = some zone →
        partWord st l (0x2008 + 64 * z) = word zone.run.cause.detail
        ∧ partWord st l (0x200C + 64 * z) = zone.run.deadline.getD 0
        ∧ partWord st l (0x2010 + 64 * z) = zone.run.entryTime ∧ partWord st l (0x2014 + 64 * z) = zone.run.trips)
    ∧ (∀ z k, z < 8 → k < 16 → zone? l z = none → partWord st l (0x2000 + 64 * z + 4 * k) = 0)
    ∧ (∀ n, 1 ≤ n → n ≤ 16 →
        partWord st l (0x300C + 512 * (n - 1)) = word (nodeAt l n).misses
        ∧ partWord st l (0x3014 + 512 * (n - 1)) = (nodeAt l n).repeats
        ∧ partWord st l (0x3018 + 512 * (n - 1)) = (nodeAt l n).unbound
        ∧ partWord st l (0x31CC + 512 * (n - 1)) = l.link.overrun
        ∧ partWord st l (0x31D0 + 512 * (n - 1)) = l.link.safeCount)
    ∧ (∀ j c, j < 1024 → (l.track.sections.flatMap (·.places))[j]? = some (some c) →
        partWord st l (0x6004 + 16 * j) = c.entryTime)
    ∧ (∀ p x, p < 48 → l.track.lots.find? (·.pos == p) = some x →
        partWord st l (0xA008 + 64 * p) = x.admissionTime ∧ partWord st l (0xA00C + 64 * p) = x.admissionOrder
        ∧ partWord st l (0xA018 + 64 * p) = word x.massDelivered ∧ partWord st l (0xA01C + 64 * p) = word x.massBagged
        ∧ partWord st l (0xA020 + 64 * p) = word x.residual)
    ∧ (∀ k e, k < 16 → l.pack.feed[k]? = some e →
        partWord st l (0xAC00 + 16 * k) = word e.lot ∧ partWord st l (0xAC04 + 16 * k) = word e.mass
        ∧ partWord st l (0xAC08 + 16 * k) = e.exit)
    ∧ (∀ p x, p < 32 → l.pack.pallets.find? (·.pos == p) = some x →
        partWord st l (0xB004 + 128 * p) = word x.bags ∧ partWord st l (0xB008 + 128 * p) = word x.mass
        ∧ partWord st l (0xB010 + 128 * p) = x.deadline.getD 0)
    ∧ (partWord st l 0xC004 = word ((l.transfer.transit.map (·.number)).getD 0)
        ∧ partWord st l 0xC008 = l.transfer.lastDispatch ∧ partWord st l 0xC014 = l.transfer.dispatches
        ∧ partWord st l 0xC018 = l.transfer.confirmations ∧ partWord st l 0xC01C = l.transfer.lates
        ∧ partWord st l 0xC020 = l.transfer.timeouts ∧ partWord st l 0xC024 = l.transfer.mismatches)
    ∧ (∀ k e, k < 1024 → l.log.entries[k]? = some (some e) →
        partWord st l (0x10000 + 64 * k) = e.seq ∧ partWord st l (0x10004 + 64 * k) = word e.kind.code
        ∧ partWord st l (0x10008 + 64 * k) = e.time)
    ∧ (partWord st l 0x08 = l.status.heartbeat ∧ partWord st l 0x0C = word l.log.consumer
        ∧ partWord st l 0x10 = l.status.time ∧ partWord st l 0x14 = l.status.lastBad ∧ partWord st l 0x18 = l.log.drops
        ∧ partWord st l 0x1C = (match l.status.watchdog with | .stopped => 0 | .running => 1 | .expired => 2)
        ∧ partWord st l 0x20 = word l.log.producer
        ∧ (∀ k, k < 32 → (partWord st l 0x24).getLsbD k =
            (k == 0 && l.log.full || k == 1 && l.active.isSome || k == 2 && l.stopHigh))
        ∧ partWord st l 0x28 = word l.log.reserved ∧ partWord st l 0x2C = word (usedCount l.log)
        ∧ partWord st l 0x30 = word (logThreshold l) ∧ partWord st l 0x34 = word (reserveFloor l)
        ∧ partWord st l 0x38 = l.log.seq
        ∧ bits (partWord st l 0x3C) 0 2 = st.ca.toNat ∧ bits (partWord st l 0x3C) 2 2 = st.ms.toNat
        ∧ bits (partWord st l 0x3C) 4 1 = flag st.ubo ∧ bits (partWord st l 0x3C) 5 27 = st.lr.toNat
        ∧ partWord st l 0x40 = word l.pack.ringNext
        ∧ ∀ k, 16 < k → k < 64 → partWord st l (4 * k) = 0)
    ∧ (∀ j f, j < 12 → l.track.sections[j]? = some f →
        let stored := l.track.motion.getD f.desc.motion none
        let cells := f.places.filterMap id
        let at_ (k : Nat) : Word := partWord st l (0x5000 + 32 * j + 4 * k)
        bits (at_ 0) 0 8 = f.desc.zone % 256 ∧ bits (at_ 0) 8 8 = f.desc.criterion.code
        ∧ bits (at_ 0) 16 1 = flag f.desc.arrivalFlag ∧ bits (at_ 0) 17 1 = flag stored.isSome
        ∧ bits (at_ 0) 18 1 = flag (stored.any (·.simulated)) ∧ bits (at_ 0) 19 1 = flag f.arrival.isSome
        ∧ bits (at_ 0) 20 12 = flag f.lastCriterion.isSome
        ∧ bits (at_ 1) 0 16 = f.desc.length % 65536 ∧ bits (at_ 1) 16 16 = cells.length % 65536
        ∧ at_ 2 = word (cells.map (·.units)).sum
        ∧ bits (at_ 3) 0 16 = ((stored.map (·.count)).getD 0) % 65536 ∧ bits (at_ 3) 16 16 = f.remainder % 65536
        ∧ bits (at_ 4) 0 16 = f.lastLot % 65536 ∧ bits (at_ 4) 16 16 = ((f.arrival.map (·.1)).getD 0) % 65536
        ∧ at_ 5 = (f.arrival.map (·.2)).getD 0 ∧ at_ 6 = f.lastCriterion.getD 0)
    ∧ (∀ j k, j < 12 → k < 8 → l.track.sections.length ≤ j → partWord st l (0x5000 + 32 * j + 4 * k) = 0)
    ∧ (∀ k e, k < 64 → l.pack.ring[k]? = some e →
        let at_ (j : Nat) : Word := partWord st l (0xC400 + 16 * k + 4 * j)
        at_ 0 = e.bag ∧ bits (at_ 1) 0 16 = e.weight % 65536 ∧ bits (at_ 1) 16 16 = e.pallet % 65536
        ∧ bits (at_ 2) 0 16 = e.first % 65536 ∧ bits (at_ 2) 16 16 = e.second % 65536
        ∧ bits (at_ 3) 0 8 = e.lane.code ∧ bits (at_ 3) 8 8 = e.reason.code
        ∧ bits (at_ 3) 16 16 = flag e.provisional)
    ∧ (∀ i r, i < 32 → recipeAt l i = some r →
        let at_ (k : Nat) : Word := partWord st l (0xC800 + 64 * i + 4 * k)
        bits (at_ 0) 0 16 = r.product % 65536 ∧ bits (at_ 0) 16 15 = 0 ∧ bits (at_ 0) 31 1 = 1
        ∧ ∀ k, k < 15 → at_ (k + 1) = recordWord
            [signedWord r.blanchMin, signedWord r.blanchDeviation, word r.blanchCreditMin, word r.blanchCreditMax,
             signedWord r.freezeMax, signedWord r.freezeDeviation, word r.freezeCreditMin, word r.massPerUnit,
             word r.bagTarget, word r.bagMin, word r.bagMax, word r.exposureLimit] k)
    ∧ ∀ i k, i < 32 → k < 16 → recipeAt l i = none → partWord st l (0xC800 + 64 * i + 4 * k) = 0

/-- A value placed on the data lanes under an arrangement and a byte order is the value taken from them (R12). -/
def Obligations.ChannelWordRoundTrip : Prop :=
  ∀ (ubo : Bool) (a : Arrangement) (v : Int), -(2 ^ 31 : Int) ≤ v → v < 2 ^ 31 →
    channelValue ubo a (channelLanes ubo a v) = v

/-! ## Channel words -/

/-- A host write to an input channel's word or to a part-driven output's word, full or partial, records its byte
address, raises BAD_WRITE and leaves the channel unchanged; the first leaves memory untouched, the second passes to
memory (R7, R14). -/
def Obligations.InputAndPartOutputWritesAreRefused : Prop :=
  ∀ (addr : Word) (be : BitVec 4) (data : Word) (s : State) (i : Nat), be ≠ 0 →
    classify s.path.straps s.line.matchTable (wordAddress addr) = .channel i →
    let line := { s.line with
      status := { s.line.status with
        lastBad := addr, notices := s.line.status.notices ||| Notice.badWrite.mask } }
    ((chan s.line i).desc.kind.isInput = true →
      exec (.inputChannelWrite addr be data) s = .next { s with line := line })
    ∧ ((chan s.line i).desc.kind = .partOutput → s.path.arbiter < 16 →
      exec (.partOutputWrite addr be data) s = .next
        { s with
          mem := writeLanes s.path.straps s.mem (wordAddress addr) be data
          path := { s.path with
            arbiter := if (waitingOffset s.line).isSome then s.path.arbiter + 1 else s.path.arbiter }
          line := line })

/-- A partial write to an output's word reaches memory, sets PARTIAL_WRITE, records its byte address and raises
BAD_WRITE; no other channel and no other field of this one changes (R15). -/
def Obligations.OutputPartialWriteSetsPartialWrite : Prop :=
  ∀ (addr : Word) (be : BitVec 4) (data : Word) (s : State) (i : Nat), be ≠ 0 → be ≠ 15 →
    classify s.path.straps s.line.matchTable (wordAddress addr) = .channel i →
    (chan s.line i).desc.kind.isOutput = true → s.path.arbiter < 16 →
    exec (.outputPartialWrite addr be data) s = .next
      { s with
        mem := writeLanes s.path.straps s.mem (wordAddress addr) be data
        path := { s.path with
          arbiter := if (waitingOffset s.line).isSome then s.path.arbiter + 1 else s.path.arbiter }
        line := { s.line with
          chans := s.line.chans.modify i fun c => { c with run := { c.run with partialWrite := true } }
          status := { s.line.status with
            lastBad := addr, notices := s.line.status.notices ||| Notice.badWrite.mask } } }

/-- A full-word write to an output whose owner zone is not in SIMULATE reaches memory and is judged by the limit
action: a value in range is accepted, CLAMP accepts the nearer bound, REFUSE leaves the host value, sets LIMIT_REFUSED
and its notice. An accepted value clears LIMIT_REFUSED, PARTIAL_WRITE is cleared either way, and the applied value is
the one the owner zone's state gives. No other channel changes (R15, R43, R45). -/
def Obligations.OutputHostWriteIsJudgedByTheLimitAction : Prop :=
  ∀ (addr data : Word) (s : State) (i : Nat) (v : Int),
    classify s.path.straps s.line.matchTable (wordAddress addr) = .channel i →
    (chan s.line i).desc.kind.isOutput = true → i < s.line.chans.length → s.path.arbiter < 16 →
    ownerState s.line (chan s.line i).desc ≠ some .simulate →
    v = channelValue s.path.straps.ubo (chan s.line i).desc.arrangement data →
    let d := (chan s.line i).desc
    let refused := (v < d.engMin ∨ d.engMax < v) ∧ d.limit = .refuse
    ∃ t, exec (.outputHostWrite addr data) s = .next t
      ∧ t.pending = s.pending
      ∧ t.path = { s.path with
          arbiter := if (waitingOffset s.line).isSome then s.path.arbiter + 1 else s.path.arbiter }
      ∧ t.mem = writeLanes s.path.straps s.mem (wordAddress addr) 15 data
      ∧ (chan t.line i).desc = d
      ∧ (chan t.line i).run.partialWrite = false
      ∧ (refused → (chan t.line i).run.hostValue = (chan s.line i).run.hostValue
          ∧ (chan t.line i).run.limitRefused = true ∧ noticeSet t.line .limitRefused = true)
      ∧ (¬ refused → (chan t.line i).run.hostValue = clampInt d.engMin d.engMax v
          ∧ (chan t.line i).run.limitRefused = false ∧ t.line.status = s.line.status
          ∧ (chan t.line i).run.applied = appliedValue (ownerState s.line d) (chan t.line i))
      ∧ (∀ j, j ≠ i → chan t.line j = chan s.line j)
      ∧ t.line.zones = s.line.zones ∧ t.line.track = s.line.track ∧ t.line.log = s.line.log
      ∧ t.line.link = s.line.link ∧ t.line.request = s.line.request

/-- An accepted write to an output in SIMULATE with a loopback partner, which may be the writing output itself, holds
the accepted value as its host value: the value written, or under CLAMP the nearer bound. In the same event it gives
the partner the value carried into its units as simulated value, with the simulated flag set, the writing output as
source, quality GOOD and the stale timer suspended. An INPUT_ANALOG partner takes the value times 10 for each decimal
more, or divided by 10 for each decimal fewer and rounded once, a tie away from zero, then clamped into its range; an
INPUT_COUNTER takes it modulo 65 536; an INPUT_DISCRETE takes 0 for 0, else 1 (R43, R48). -/
def Obligations.LoopbackGivesThePartnerASimulatedValue : Prop :=
  ∀ (addr data : Word) (s : State) (i p : Nat) (v h : Int),
    classify s.path.straps s.line.matchTable (wordAddress addr) = .channel i →
    (chan s.line i).desc.kind.isOutput = true → p < s.line.chans.length →
    s.path.arbiter < 16 →
    ownerState s.line (chan s.line i).desc = some .simulate → (chan s.line i).desc.partner = some p →
    v = channelValue s.path.straps.ubo (chan s.line i).desc.arrangement data →
    let d := (chan s.line i).desc
    let e := (chan s.line p).desc
    (d.engMin ≤ v ∧ v ≤ d.engMax) ∨ d.limit = .clamp →
    h = (if v < d.engMin then d.engMin else if d.engMax < v then d.engMax else v) →
    ∃ t, exec (.outputHostWrite addr data) s = .next t
      ∧ (chan t.line i).run.hostValue = h
      ∧ (chan t.line p).run.simFlag = true ∧ (chan t.line p).run.simSource = some i
      ∧ (chan t.line p).run.simValue = loopbackValue d e h
      ∧ (e.kind = .inputAnalog → d.decimals ≤ e.decimals →
          (chan t.line p).run.simValue = clampInt e.engMin e.engMax (h * 10 ^ (e.decimals - d.decimals)))
      ∧ (e.kind = .inputAnalog → e.decimals < d.decimals →
          let ten : Int := 10 ^ (d.decimals - e.decimals)
          ∃ q : Int, 2 * (q * ten - h).natAbs ≤ ten.natAbs
            ∧ (2 * (q * ten - h).natAbs = ten.natAbs → h.natAbs ≤ (q * ten).natAbs)
            ∧ (chan t.line p).run.simValue = clampInt e.engMin e.engMax q)
      ∧ (e.kind = .inputCounter → (chan t.line p).run.simValue = h % 65536)
      ∧ (e.kind = .inputDiscrete → (chan t.line p).run.simValue = if h = 0 then 0 else 1)
      ∧ (chan t.line p).run.quality = .good ∧ (chan t.line p).run.timer = .suspended
      ∧ (chan t.line p).run.eng = (chan s.line p).run.eng

/-- A field sample of a bound analog input stores the raw value and, in the same event, its engineering value: eng min
when raw max equals raw min; else the exact result of the straight line rounded once to the nearest integer, a tie
away from zero, then clamped into [eng min, eng max] (R35). -/
def Obligations.AnalogSampleIsRoundedOnceAndClamped : Prop :=
  ∀ (l : Line) (i : Nat) (b : RawRange) (raw : Half), i < l.chans.length →
    (chan l i).desc.kind = .inputAnalog → (chan l i).run.bound = some b →
    let d := (chan l i).desc
    let v := (chan (fieldSample i raw l) i).run.eng
    let span : Int := (b.rawMax.toNat : Int) - (b.rawMin.toNat : Int)
    let exact : Int := d.engMin * span + ((raw.toNat : Int) - (b.rawMin.toNat : Int)) * (d.engMax - d.engMin)
    (chan (fieldSample i raw l) i).run.raw = raw
    ∧ (span = 0 → v = d.engMin)
    ∧ (span ≠ 0 → ∃ q : Int,
        2 * (q * span - exact).natAbs ≤ span.natAbs
        ∧ (2 * (q * span - exact).natAbs = span.natAbs → exact.natAbs ≤ (q * span).natAbs)
        ∧ v = if q < d.engMin then d.engMin else if d.engMax < q then d.engMax else q)

/-! ## The status block and the record log's release -/

/-- A raising sets its notice and no other bit. A full-word write to the notice word clears each notice whose bit is 1
in the written value, leaves the others, ignores the bits above the eighteen and changes nothing else; a partial write
is discarded. A raising after the clear stands, one before it is cleared (R26). -/
def Obligations.NoticeWordWriteClearsTheWrittenBits : Prop :=
  (∀ (n m : Notice) (l : Line), noticeSet (raise n l) m = (noticeSet l m || decide (m = n))
      ∧ { raise n l with status := l.status } = l
      ∧ { (raise n l).status with notices := l.status.notices } = l.status)
  ∧ (∀ (data : Word) (s : State), ∃ w : BitVec 18,
      exec (.noticeWordWrite data) s = .next
        { s with line := { s.line with status := { s.line.status with notices := w } } }
      ∧ ∀ k, k < 18 →
          w.getLsbD k = (s.line.status.notices.getLsbD k && !(upstreamOrder s.path.straps.ubo data).getLsbD k))
  ∧ (∀ (data : Word) (s : State) (n : Notice), (upstreamOrder s.path.straps.ubo data).getLsbD n.bit = true →
      (∃ t, exec (.noticeWordWrite data) s = .next t ∧ noticeSet (raise n t.line) n = true)
      ∧ (∃ t, exec (.noticeWordWrite data) (s.onLine (raise n)) = .next t ∧ noticeSet t.line n = false))
  ∧ (∀ (addr : Word) (be : BitVec 4) (data : Word) (s : State), be ≠ 0 → be ≠ 15 →
      classify s.path.straps s.line.matchTable (wordAddress addr) = .part 0x00 →
      exec (.discardedWrite addr be data) s = .next
        { s with
          line := { s.line with
            status := { s.line.status with
              lastBad := addr, notices := s.line.status.notices ||| Notice.badWrite.mask } } })

/-- ATTN is asserted exactly while a set notice is enabled. A full-word write to the enable word replaces all eighteen
enables, whatever stands above them, and changes nothing else, so it moves ATTN at once and leaves every notice set; a
partial write is discarded. The enable word reads 0 above the eighteen, and the notice word shows every set notice
(R27). -/
def Obligations.NoticeEnableWriteReplacesTheEnables : Prop :=
  (∀ l : Line, attnAsserted l = true ↔
      ∃ n : Nat, n < 18 ∧ l.status.notices.getLsbD n = true ∧ l.status.enables.getLsbD n = true)
  ∧ (∀ (data : Word) (s : State), ∃ e : BitVec 18,
      exec (.noticeEnableWrite data) s = .next
        { s with line := { s.line with status := { s.line.status with enables := e } } }
      ∧ ∀ k, k < 18 → e.getLsbD k = (upstreamOrder s.path.straps.ubo data).getLsbD k)
  ∧ (∀ (addr : Word) (be : BitVec 4) (data : Word) (s : State), be ≠ 0 → be ≠ 15 →
      classify s.path.straps s.line.matchTable (wordAddress addr) = .part 0x04 →
      exec (.discardedWrite addr be data) s = .next
        { s with
          line := { s.line with
            status := { s.line.status with
              lastBad := addr, notices := s.line.status.notices ||| Notice.badWrite.mask } } })
  ∧ (∀ (st : Straps) (l : Line) (k : Nat), k < 32 →
      (partWord st l 0x04).getLsbD k = (decide (k < 18) && l.status.enables.getLsbD k)
      ∧ (partWord st l 0x00).getLsbD k = (decide (k < 18) && l.status.notices.getLsbD k))

/-- A heartbeat records the line time whatever value is written; in RUNNING or EXPIRED it restarts the timer and the
watchdog is RUNNING; in STOPPED it changes nothing further (R29). -/
def Obligations.HeartbeatRestartsTheWatchdog : Prop :=
  ∀ (data : Word) (s : State),
    (s.line.status.watchdog = .stopped →
      exec (.heartbeat data) s = .next
        { s with line := { s.line with status := { s.line.status with heartbeat := s.line.status.time } } })
    ∧ (s.line.status.watchdog ≠ .stopped →
      exec (.heartbeat data) s = .next
        { s with
          line := { s.line with
            status := { s.line.status with
              heartbeat := s.line.status.time, restart := s.line.status.time, watchdog := .running } } })

/-- A valid release makes the consumer index the written value, clears the full flag and frees as many entries as its
distance, then tries to open pallets; any other write is discarded (R173). Pallets are opened while the BAG zone is
RUNNING, for the lanes without an OPEN pallet, the release lane first, each with a free record and one reservation, as
many as there are of both; the first takes the pallet counter's number. BAGGER_HOLD then stands at 1 exactly while the
zone is RUNNING and a lane still lacks a pallet, and its rise raises the notice (R149, R154, R171). -/
def Obligations.LogReleaseMovesTheConsumerIndex : Prop :=
  (∀ (data : Word) (s : State) (v d : Nat), logSound s.line → v = (upstreamOrder s.path.straps.ubo data).toNat →
    d = (if (v + 1024 - s.line.log.consumer) % 1024 = 0 ∧ s.line.log.full = true then 1024
         else (v + 1024 - s.line.log.consumer) % 1024) →
    ((v < 1024 ∧ 1 ≤ d ∧ d ≤ usedCount s.line.log) →
      exec (.logRelease data) s = .next
        { s with line := openPallets { s.line with log := { s.line.log with consumer := v, full := false } } }
      ∧ usedCount { s.line.log with consumer := v, full := false } = usedCount s.line.log - d)
    ∧ (¬ (v < 1024 ∧ 1 ≤ d ∧ d ≤ usedCount s.line.log) →
      exec (.logRelease data) s = .next
        { s with
          line := { s.line with
            status := { s.line.status with
              lastBad := word (controlBase s.path.straps + 0x0C),
              notices := s.line.status.notices ||| Notice.badWrite.mask } } }))
  ∧ ∀ l : Line,
    let l' := openPallets l
    let wanting := [Lane.release, .hold].filter fun x => (openPallet l x).isNone
    let n := if bagRunning l = true then
        min wanting.length (min (32 - l.pack.pallets.length) (freeUnreserved l.log)) else 0
    let hold := bagRunning l = true ∧ n < wanting.length
    (∃ news, l'.pack.pallets = l.pack.pallets ++ news ∧ news.map (·.lane) = wanting.take n
      ∧ (∀ k q, news[k]? = some q → q = newPallet q.pos q.number q.lane ∧ q.pos < 32
          ∧ ∀ r ∈ l.pack.pallets ++ news.take k, r.pos ≠ q.pos)
      ∧ (∀ q, news[0]? = some q → q.number = l.pack.palletCounter)
      ∧ ∀ q, news[1]? = some q → l.pack.palletCounter < 65535 →
          (∀ r ∈ l.pack.pallets, r.number ≠ l.pack.palletCounter + 1) → q.number = l.pack.palletCounter + 1)
    ∧ l'.log = { l.log with reserved := l.log.reserved + n }
    ∧ (l'.pack.baggerHold = true ↔ hold)
    ∧ (∀ j, (chan l' j).desc.kind = .partOutput → (chan l' j).desc.func = .baggerHold →
        (hold → (chan l' j).run.functionValue = 1) ∧ (¬ hold → (chan l' j).run.functionValue = 0))
    ∧ (∀ j, (chan l j).desc.kind ≠ .partOutput ∨ (chan l j).desc.func ≠ .baggerHold → chan l' j = chan l j)
    ∧ (hold → l.pack.baggerHold = false → noticeSet l' .baggerHold = true)
    ∧ (∀ m : Notice, m ≠ .baggerHold → m ≠ .logThreshold → noticeSet l' m = noticeSet l m)
    ∧ { l'.pack with
        pallets := l.pack.pallets, palletCounter := l.pack.palletCounter, baggerHold := l.pack.baggerHold } = l.pack
    ∧ { l' with pack := l.pack, log := l.log, chans := l.chans, choices := l.choices, status := l.status } = l
    ∧ { l'.status with notices := l.status.notices } = l.status

/-! ## Request slots -/

/-- A full-word write to word 1 to 7 of a FREE or DONE slot stores the value and leaves the slot's state and result
words alone; in SUBMITTED or TAKEN it is discarded (R18). -/
def Obligations.ArgumentWriteIsAcceptedByState : Prop :=
  ∀ (slot k : BitVec 4) (data : Word) (s : State), 1 ≤ k.toNat → k.toNat ≤ 7 → s.line.request.slots.length = 16 →
    let i := slot.toNat
    let old := slotAt s.line i
    let open_ := old.state = .free ∨ old.state = .done
    ∃ t, exec (.requestArgumentWrite slot k data) s = .next t ∧ BlocksOnly s t
      ∧ (open_ → ({ t.line with request := s.line.request } = s.line)
          ∧ t.line.request.queue = s.line.request.queue ∧ t.line.request.commit = s.line.request.commit
          ∧ (∀ j, j ≠ i → slotAt t.line j = slotAt s.line j)
          ∧ ∀ m, recordWord (slotWords (slotAt t.line i)) m =
              if m = k.toNat then upstreamOrder s.path.straps.ubo data else recordWord (slotWords old) m)
      ∧ (¬ open_ → t.line =
          { s.line with
            status := { s.line.status with
              lastBad := slotAddress s.path.straps i k.toNat,
              notices := s.line.status.notices ||| Notice.badWrite.mask } })

/-- The submission of a FREE or DONE slot makes it SUBMITTED with its result words 0 and puts it at the tail of the
queue; in SUBMITTED or TAKEN the write is discarded (R19). -/
def Obligations.SubmissionQueuesTheSlot : Prop :=
  ∀ (slot : BitVec 4) (s : State), s.line.request.slots.length = 16 →
    let i := slot.toNat
    let old := slotAt s.line i
    (old.state = .free ∨ old.state = .done →
      exec (.submission slot) s = .next
        { s with
          line := { s.line with
            request := { s.line.request with
              slots := s.line.request.slots.set i
                { old with state := .submitted, result := 0, val9 := 0, val10 := 0, val11 := 0, val12 := 0 }
              queue := s.line.request.queue ++ [i] } } })
    ∧ (old.state = .submitted ∨ old.state = .taken →
      exec (.submission slot) s = .next
        { s with
          line := { s.line with
            status := { s.line.status with
              lastBad := slotAddress s.path.straps i 0,
              notices := s.line.status.notices ||| Notice.badWrite.mask } } })

/-- A write of 0 to word 0 of a DONE slot makes it FREE with words 8 to 12 at 0 and words 1 to 7 kept; in FREE,
SUBMITTED or TAKEN it is discarded, and so is a full-word write of any value other than 0 and 1 in any state. A
submission straight from DONE clears the old result in the same event (R20). -/
def Obligations.SlotFreeClearsADoneSlot : Prop :=
  (∀ (slot : BitVec 4) (s : State), s.line.request.slots.length = 16 →
    let i := slot.toNat
    let old := slotAt s.line i
    (old.state = .done →
      exec (.slotFree slot) s = .next
        { s with
          line := { s.line with
            request := { s.line.request with
              slots := s.line.request.slots.set i
                { old with state := .free, result := 0, val9 := 0, val10 := 0, val11 := 0, val12 := 0 } } } })
    ∧ (old.state ≠ .done →
      exec (.slotFree slot) s = .next
        { s with
          line := { s.line with
            status := { s.line.status with
              lastBad := slotAddress s.path.straps i 0,
              notices := s.line.status.notices ||| Notice.badWrite.mask } } })
    ∧ (old.state = .done →
      ∃ t, exec (.submission slot) s = .next t
        ∧ slotAt t.line i =
            { old with state := .submitted, result := 0, val9 := 0, val10 := 0, val11 := 0, val12 := 0 }))
  ∧ ∀ (addr data : Word) (s : State) (i : Nat), i < 16 →
    classify s.path.straps s.line.matchTable (wordAddress addr) = .part (0x100 + 64 * i) →
    upstreamOrder s.path.straps.ubo data ≠ 0 → upstreamOrder s.path.straps.ubo data ≠ 1 →
    exec (.discardedWrite addr 15 data) s = .next
      { s with
        line := { s.line with
          status := { s.line.status with
            lastBad := addr, notices := s.line.status.notices ||| Notice.badWrite.mask } } }

/-- A write to a part-owned word that is partial, or that goes to a word outside the status block's four writable words
and the words 0 to 7 of the request slots, changes no state but the last bad write address and BAD_WRITE (R6, R7,
R18). -/
def Obligations.DiscardedWriteRecordsItsAddress : Prop :=
  ∀ (addr : Word) (be : BitVec 4) (data : Word) (s : State) (off : Nat), be ≠ 0 →
    classify s.path.straps s.line.matchTable (wordAddress addr) = .part off →
    (be ≠ 15 ∨ (0x0C < off ∧ off < 0x100) ∨ (0x100 ≤ off ∧ off < 0x500 ∧ 32 ≤ (off - 0x100) % 64) ∨ 0x500 ≤ off) →
    exec (.discardedWrite addr be data) s = .next
      { s with
        line := { s.line with
          status := { s.line.status with
            lastBad := addr, notices := s.line.status.notices ||| Notice.badWrite.mask } } }

/-! ## Takings -/

/-- The taking of a slot whose kind is not of Table 2-1 completes it with BAD_REQUEST; each request of Table 2-2 is
refused BUSY while a condition of its row holds: a COMMIT_FULL, a REINIT, a DISCOVER or a LINK_HALT in flight, a
one-shot waiting or on the link, a one-shot queue that holds 4. None of these changes any owner (R21, R23). -/
def Obligations.UnknownAndConflictingRequestsAreRefused : Prop :=
  (∀ (s : State) (i : Nat), headSlot s.line = some i → i < s.line.request.slots.length →
    RequestKind.ofCode (slotAt s.line i).kind.toNat = none →
    ∃ t, exec .requestUnknownKind s = .next t ∧ BlocksOnly s t ∧ Completed s.line t.line i { code := .badRequest }
      ∧ { t.line with request := s.line.request } = raise .reqDone s.line)
  ∧ ∀ (s : State) (i : Nat) (k : RequestKind) (c : Instr), HeadIs s.line i k →
    ((s.line.request.commit.isSome = true ∨ s.line.request.reinit.isSome = true)
        ∧ (k, c) ∈ [(.commitFull, .commitFull), (.reinit, .reinit), (.discover, .discover), (.linkStart, .linkStart),
            (.zoneStart, .zoneStart), (.zoneRun, .zoneRun), (.zoneStop, .zoneStop), (.zoneReset, .zoneReset),
            (.zoneSimulate, if (slotAt s.line i).arg3 = 0 then .zoneSimulateLeave else .zoneSimulateEnter),
            (.lotOpen, .lotOpen), (.commitRecipe, .commitRecipe)]
      ∨ s.line.link.discovery.isSome = true
        ∧ (k, c) ∈ [(.commitFull, .commitFull), (.reinit, .reinit), (.discover, .discover), (.nodeRead, .nodeRead),
            (.nodeWrite, .nodeWrite)]
      ∨ (s.line.link.oneShots ≠ []
          ∨ ∃ x o, (s.line.link.busy = .waiting x ∨ s.line.link.busy = .safe (some x)) ∧ x.job = .oneShot o)
        ∧ (k, c) ∈ [(.reinit, .reinit), (.discover, .discover)]
      ∨ s.line.link.halt.isSome = true
        ∧ (k, c) ∈ [(.linkHalt, .linkHalt), (.nodeRead, .nodeRead), (.nodeWrite, .nodeWrite)]
      ∨ 4 ≤ s.line.link.oneShots.length ∧ (k, c) ∈ [(.nodeRead, .nodeRead), (.nodeWrite, .nodeWrite)]) →
    ∃ t, exec c s = .next t ∧ BlocksOnly s t ∧ Completed s.line t.line i { code := .busy }
      ∧ { t.line with request := s.line.request } = raise .reqDone s.line

/-- A COMMIT_FULL with every zone OFF, the link IDLE and no lot or pallet becomes TAKEN, clears the staging-touch flag
and begins to read. Each granted staging read hands one word back, taken in the upstream byte order, and sets the
arbiter's count to 0; nothing else changes until the last word (R8, R9, R10, R75, R76). -/
def Obligations.CommitFullReadsStagingWordByWord : Prop :=
  (∀ (s : State) (i : Nat), HeadIs s.line i .commitFull →
    s.line.request.commit = none → s.line.request.reinit = none → s.line.link.discovery = none →
    (∀ z ∈ s.line.zones, ∀ zone ∈ z, zone.run.state = .off) → s.line.link.state = .idle →
    s.line.track.lots = [] → s.line.pack.pallets = [] →
    ∃ t, exec .commitFull s = .next t ∧ t.pending = s.pending ∧ t.mem = s.mem
      ∧ t.path = { s.path with touch := false } ∧ NowTaken s.line t.line i
      ∧ t.line.request.commit = some { slot := i, words := [] }
      ∧ { t.line with request := s.line.request } = s.line)
  ∧ ∀ (s : State) (job : CommitJob), s.line.request.commit = some job → job.words.length + 1 < Config.commitWords →
    exec .stagingRead s = .next
      { s with
        path := { s.path with arbiter := 0 }
        line := { s.line with
          request := { s.line.request with
            commit := some
              { job with
                words := job.words ++
                  [upstreamOrder s.path.straps.ubo
                    (memoryWord s.path.straps s.mem s.path.freeReads
                      (stagingBase s.path.straps + commitOffset job.words.length))] } } } }

/-- When the last staging word has been handed back, a COMMIT_FULL with the staging-touch flag set completes
STAGING_CHANGED, one with a failing check CONFIG_INVALID with table, index and reason, and neither changes anything but
its request, REQ_DONE and the arbiter's count (R82). -/
def Obligations.FailedCommitChangesNothing : Prop :=
  ∀ (s : State) (job : CommitJob) (ws : List Word),
    s.line.request.commit = some job → job.words.length + 1 = Config.commitWords →
    ws = job.words ++
      [upstreamOrder s.path.straps.ubo
        (memoryWord s.path.straps s.mem s.path.freeReads
          (stagingBase s.path.straps + commitOffset job.words.length))] →
    (∀ r : Reply,
      (s.path.touch = true ∧ r = { code := .stagingChanged }
        ∨ s.path.touch = false ∧ ∃ f,
            validate { straps := s.path.straps, nodes := s.line.link.nodes } (Shadow.ofWords ws) = some f
            ∧ r = { code := .configInvalid, v9 := word f.table, v10 := word f.index, v11 := word f.reason }) →
      exec .stagingRead s = .next
        { s with
          path := { s.path with arbiter := 0 }
          line := { s.line with
            request := { s.line.request with
              commit := none
              slots := s.line.request.slots.modify job.slot fun x =>
                { x with
                  state := .done, result := word r.code.code, val9 := r.v9, val10 := r.v10, val11 := r.v11,
                  val12 := r.v12 } }
            status := { s.line.status with notices := s.line.status.notices ||| Notice.reqDone.mask } } })

/-- A COMMIT_FULL whose checks all pass puts the shadow configuration into use in its completion: the channel table
set afresh, the match table rebuilt from it, the zone and section tables those of the shadow configuration, every
present zone OFF, every place of the track empty, no stored count, the new recipe table, the path IDLE, and of the
DISCOVERED and BOUND nodes those BOUND that an active channel names, with their counts 0. A CONFIG_COMMITTED record is
offered under the new reserve floor. The request completes OK with the numbers of active channels, bound channels and
BOUND nodes (R11, R61, R83, R172). -/
def Obligations.GoodCommitSwapsTheConfiguration : Prop :=
  ∀ (s : State) (job : CommitJob) (ws : List Word),
    s.line.request.commit = some job → job.words.length + 1 = Config.commitWords →
    job.slot < s.line.request.slots.length → s.path.touch = false →
    ws = job.words ++
      [upstreamOrder s.path.straps.ubo
        (memoryWord s.path.straps s.mem s.path.freeReads
          (stagingBase s.path.straps + commitOffset job.words.length))] →
    validate { straps := s.path.straps, nodes := s.line.link.nodes } (Shadow.ofWords ws) = none →
    let w := Shadow.ofWords ws
    ∃ t, exec .stagingRead s = .next t ∧ t.pending = s.pending ∧ t.mem = s.mem
      ∧ t.line.active = some (generalOf w.general)
      ∧ t.line.chans = (w.channels.map channelDesc).map (freshChannel s.line.link.nodes)
      ∧ t.line.matchTable = matchTableOf t.line.chans
      ∧ (∀ z zone, zone? t.line z = some zone → zone.run.state = .off ∧ zone.run.runPending = false
          ∧ zone.run.cause = .none ∧ zone.run.program = none)
      ∧ (∀ x ∈ t.line.track.sections, ∀ c ∈ x.places, c = none)
      ∧ (∀ i, t.line.track.motion.getD i none = none)
      ∧ t.line.track.recipes = w.recipes.map recipeOf ∧ t.line.track.lots = s.line.track.lots
      ∧ t.line.transfer.transit = none
      ∧ t.line.status.watchdog = (if (generalOf w.general).heartbeatLimit = 0 then .stopped else .running)
      ∧ t.line.zones = w.zones.map (zoneOf (now s.line))
      ∧ t.line.track.sections = (w.sections.filter scUsed).map sectionOf
      ∧ (∀ n, 1 ≤ n → n ≤ s.line.link.nodes.length →
          let nd := nodeAt s.line n
          nodeAt t.line n =
            { nd with
              state :=
                if nd.state = .discovered ∨ nd.state = .bound then
                  if ∃ c ∈ t.line.chans, c.desc.kind ≠ .unused ∧ c.desc.node = n then .bound else .discovered
                else nd.state
              misses := 0, repeats := 0, unbound := 0 })
      ∧ (let channels := word (t.line.chans.filter (·.desc.kind != .unused)).length
         let bound := word (t.line.chans.filter (·.run.bound.isSome)).length
         let nodes := word (t.line.link.nodes.filter (·.state == .bound)).length
         (slotAt t.line job.slot).val9 = channels ∧ (slotAt t.line job.slot).val10 = bound
           ∧ (slotAt t.line job.slot).val11 = nodes
           ∧ Offered s.line.log (generalOf w.general).reserveFloor (now s.line) .configCommitted
               [channels, bound, nodes] t.line)
      ∧ (slotAt t.line job.slot).state = .done ∧ (slotAt t.line job.slot).result = word ResultCode.ok.code
      ∧ noticeSet t.line .reqDone = true

/-- A COMMIT_RECIPE that passes its first three checks asks for its descriptor's words without completing; when the last
of them is handed back and the descriptor passes, the entry is replaced and the request completes OK (R85; that the slot
stays SUBMITTED meanwhile is the model's choice, notes/assumptions/23). -/
def Obligations.CommitRecipeReplacesTheEntry : Prop :=
  (∀ (s : State) (i : Nat), HeadIs s.line i .commitRecipe → s.line.request.commit = none →
      s.line.request.reinit = none → (slotAt s.line i).arg2.toNat < 32 → s.line.active.isSome = true →
      (∀ x ∈ s.line.track.lots, x.recipe ≠ (slotAt s.line i).arg2.toNat) →
      exec .commitRecipe s = .next
        { s with
          line := { s.line with
            request := { s.line.request with
              queue := s.line.request.queue.tail
              recipeJob := some { slot := i, index := (slotAt s.line i).arg2.toNat, words := [] } } } })
  ∧ (∀ (s : State) (job : RecipeJob) (ws : List Word), s.line.request.commit = none →
      s.line.request.recipeJob = some job → job.words.length + 1 = 16 → job.index < 32 →
      job.slot < s.line.request.slots.length →
      ws = job.words ++
        [upstreamOrder s.path.straps.ubo
          (memoryWord s.path.straps s.mem s.path.freeReads
            (stagingBase s.path.straps + (0x0C00 + 64 * job.index + 4 * job.words.length)))] →
      checkRecipe ws = none →
      ∃ t, exec .stagingRead s = .next t ∧ t.line.request.recipeJob = none
        ∧ t.line.track = { s.line.track with recipes := s.line.track.recipes.modify job.index fun _ => recipeOf ws }
        ∧ (slotAt t.line job.slot).state = .done ∧ (slotAt t.line job.slot).result = word ResultCode.ok.code
        ∧ noticeSet t.line .reqDone = true ∧ t.line.chans = s.line.chans ∧ t.line.zones = s.line.zones
        ∧ t.line.log = s.line.log)

/-- A REINIT that passes its checks becomes TAKEN and gives up the configuration: no channel, match, zone, section,
recipe, node, feed or pallet entry remains, the path is IDLE and the watchdog STOPPED; the sequence bits, the link's
counts, the record log, the rest of the status block, the sequence counters and memory are kept. Its completion posts
OK (R86, Table 5-3). -/
def Obligations.ReinitGivesUpTheConfiguration : Prop :=
  (∀ (s : State) (i : Nat), HeadIs s.line i .reinit → busyReinit s.line = false →
      (∀ z ∈ s.line.zones, ∀ zone ∈ z, zone.run.state = .off) → s.line.link.state = .idle →
      s.line.track.lots = [] → s.line.pack.pallets = [] →
      ∃ t, exec .reinit s = .next t ∧ BlocksOnly s t ∧ NowTaken s.line t.line i ∧ t.line.request.reinit = some i
        ∧ t.line.active = none ∧ t.line.matchTable = [] ∧ (∀ j, (chan t.line j).desc.kind = .unused)
        ∧ (∀ z, zone? t.line z = none) ∧ t.line.track.sections = [] ∧ (∀ j, recipeAt t.line j = none)
        ∧ (∀ n, nodeAt t.line n = Node.absent) ∧ t.line.link.state = .idle
        ∧ t.line.link.seqBits = s.line.link.seqBits ∧ t.line.link.overrun = s.line.link.overrun
        ∧ t.line.link.safeCount = s.line.link.safeCount ∧ t.line.pack.feed = [] ∧ t.line.pack.pallets = []
        ∧ t.line.transfer.transit = none
        ∧ t.line.log = s.line.log ∧ t.line.status = { s.line.status with watchdog := .stopped }
        ∧ t.line.track.lotCounter = s.line.track.lotCounter ∧ t.line.pack.palletCounter = s.line.pack.palletCounter
        ∧ t.line.pack.bagCounter = s.line.pack.bagCounter ∧ logThreshold t.line = 1024 ∧ reserveFloor t.line = 0)
  ∧ (∀ (s : State) (i : Nat), s.line.request.reinit = some i → i < s.line.request.slots.length →
      ∃ t, exec .reinitCompletion s = .next t ∧ BlocksOnly s t ∧ t.line.request.reinit = none
        ∧ slotAt t.line i =
            { slotAt s.line i with
              state := .done, result := word ResultCode.ok.code, val9 := 0, val10 := 0, val11 := 0, val12 := 0 }
        ∧ noticeSet t.line .reqDone = true
        ∧ { t.line with request := s.line.request } = raise .reqDone s.line)

/-! ## The zone link -/

/-- DISCOVER on an IDLE, quiet link with no configuration becomes TAKEN, puts the link into DISCOVERING and sends ENUM
for page 0 of address 1 with a new sequence bit, the driver enabled; the node table stays until completion (R53, R55,
R58). -/
def Obligations.DiscoverStartsAtAddressOne : Prop :=
  ∀ (s : State) (i : Nat), HeadIs s.line i .discover → busyReinit s.line = false → s.line.link.state = .idle →
    s.line.active = none → s.line.link.busy = .quiet →
    ∃ t, exec .discover s = .next t ∧ BlocksOnly s t ∧ NowTaken s.line t.line i
      ∧ t.line.link.state = .discovering ∧ t.line.link.nodes = s.line.link.nodes
      ∧ t.line.link.discovery = some { slot := i, addr := 1, page := 0, pages := [], built := [] }
      ∧ t.line.link.sent =
          frameBytes .enum 1 (controlByte (nodeAt s.line 1).lastTaken (!seqBit s.line 1)) [0#8]
      ∧ driverEnabled t.line = true
      ∧ { t.line with request := s.line.request, link := s.line.link } = s.line

/-- LINK_START on an IDLE link with an active configuration builds the scan list of the BOUND nodes, sets the overrun
count to 0, starts the period timer, goes to SCANNING and completes OK with the number of nodes (R62). -/
def Obligations.LinkStartBuildsTheScanList : Prop :=
  ∀ (s : State) (i : Nat) (g : General), HeadIs s.line i .linkStart → busyConfig s.line = false →
    s.line.link.state = .idle → s.line.active = some g →
    ∃ t, exec .linkStart s = .next t ∧ BlocksOnly s t
      ∧ Completed s.line t.line i { code := .ok, v9 := word t.line.link.scanList.length }
      ∧ t.line.link.state = .scanning ∧ t.line.link.overrun = 0
      ∧ t.line.link.period = some (now s.line + word g.scanPeriod)
      ∧ (∀ n, n ∈ t.line.link.scanList ↔
          1 ≤ n ∧ n ≤ s.line.link.nodes.length ∧ (nodeAt s.line n).state = .bound)
      ∧ t.line.link.nodes = s.line.link.nodes
      ∧ { t.line with request := s.line.request, link := s.line.link } = raise .reqDone s.line

/-- LINK_HALT of a SCANNING link with every zone OFF or SIMULATE: with a cycle in progress the request is TAKEN and
the link HALTING; with none the link goes to IDLE at once with the scan list empty, every RUNNING or FAULTED node
BOUND, the request OK and LINK_HALTED raised. The last exchange of a HALTING link's cycle, answered or lost, ends the
halt in its own event: the TAKEN request completes OK, LINK_HALTED and REQ_DONE are raised, the link goes to IDLE with
no cycle, owed cycle or period, the scan list empty, every RUNNING or FAULTED node BOUND and the scanned nodes' miss
counts 0; the oldest one-shot still queued goes on the link at once (R63, R66, R70, R71; that a SAFE which still waits
is dropped is notes/assumptions/15, DESIGN CHOICE; that a cycle due behind a one-shot counts as in progress from its
expiry is notes/assumptions/42, DESIGN CHOICE). -/
def Obligations.LinkHaltWaitsForTheCycle : Prop :=
  (∀ (s : State) (i : Nat), HeadIs s.line i .linkHalt → s.line.link.halt = none → s.line.link.state = .scanning →
    (∀ z ∈ s.line.zones, ∀ zone ∈ z, zone.run.state = .off ∨ zone.run.state = .simulate) →
    (s.line.link.cycle ≠ none →
      ∃ t, exec .linkHalt s = .next t ∧ BlocksOnly s t ∧ NowTaken s.line t.line i
        ∧ t.line.link = { s.line.link with state := .halting, halt := some i }
        ∧ { t.line with request := s.line.request, link := s.line.link } = s.line)
    ∧ (s.line.link.cycle = none →
      ∃ t, exec .linkHalt s = .next t ∧ BlocksOnly s t ∧ Completed s.line t.line i { code := .ok }
        ∧ t.line.link.state = .idle ∧ t.line.link.scanList = [] ∧ t.line.link.period = none
        ∧ t.line.link.owed = false ∧ noticeSet t.line .linkHalted = true
        ∧ (∀ n, (nodeAt t.line n).state =
            if (nodeAt s.line n).state = .running ∨ (nodeAt s.line n).state = .faulted then .bound
            else (nodeAt s.line n).state)))
  ∧ ∀ (s : State) (x : Exchange) (h : Nat) (c : Instr), s.line.link.state = .halting → s.line.link.busy = .waiting x →
    s.line.link.halt = some h → h < s.line.request.slots.length → CycleEnds (x.job == .scan) s.line → 1 ≤ x.addr →
    (x.job = .scan ∨ ∃ o, x.job = .oneShot o ∧ o.slot ≠ h) →
    ((∃ chars, (c = .scanReply chars ∨ c = .oneShotReply chars) ∧ replyGood s.line x chars = true)
      ∨ x.retry = true ∧ (c = .replyLimitExpiry ∨ c = .replyCharacterGap
          ∨ ∃ chars, c = .replyCheckFailure chars ∧ replyGood s.line x chars = false)) →
    ∃ t, exec c s = .next t ∧ BlocksOnly s t
      ∧ slotAt t.line h =
          { slotAt s.line h with
            state := .done, result := word ResultCode.ok.code, val9 := 0, val10 := 0, val11 := 0, val12 := 0 }
      ∧ noticeSet t.line .linkHalted = true ∧ noticeSet t.line .reqDone = true
      ∧ t.line.link.state = .idle ∧ t.line.link.halt = none ∧ t.line.link.cycle = none ∧ t.line.link.scanList = []
      ∧ t.line.link.period = none ∧ t.line.link.owed = false ∧ t.line.link.safeWaits = false
      ∧ (s.line.link.oneShots = [] → t.line.link.busy = .quiet ∧ driverEnabled t.line = false)
      ∧ (∀ o os, s.line.link.oneShots = o :: os →
          NewFrame s.line t.line (if o.isSet then .pset else .pget) o.node (oneShotPayload o) (.oneShot o)
            ∧ t.line.link.oneShots = os)
      ∧ (∀ n, 1 ≤ n → n ≠ x.addr → (nodeAt t.line n).state =
          if (nodeAt s.line n).state = .running ∨ (nodeAt s.line n).state = .faulted then .bound
          else (nodeAt s.line n).state)
      ∧ ((nodeAt s.line x.addr).state = .bound ∨ (nodeAt s.line x.addr).state = .running
          ∨ (nodeAt s.line x.addr).state = .faulted → (nodeAt t.line x.addr).state = .bound)
      ∧ ∀ n ∈ s.line.link.scanList, 1 ≤ n → (nodeAt t.line n).misses = 0

/-- NODE_READ and NODE_WRITE with arguments in range, to a node that is not ABSENT, become TAKEN and join the tail of
the one-shot queue; on a quiet link with an empty queue, IDLE or SCANNING with no cycle in progress, the one-shot goes
on the link at once as a PGET or PSET with a new sequence bit, the driver enabled (R53, R55, R69, R70). -/
def Obligations.OneShotsJoinTheQueue : Prop :=
  ∀ (s : State) (i : Nat) (isSet : Bool), HeadIs s.line i (if isSet then .nodeWrite else .nodeRead) →
    busyNode s.line = false →
    let a := slotAt s.line i
    let o : OneShot :=
      { slot := i, isSet := isSet, node := a.arg2.toNat, param := a.arg3.toNat,
        value := if isSet then a.arg4.toNat else 0 }
    1 ≤ a.arg2.toNat → a.arg2.toNat ≤ 16 → a.arg3.toNat ≤ 255 → (isSet = true → a.arg4.toNat ≤ 65535) →
    (nodeAt s.line a.arg2.toNat).state ≠ .absent →
    ∃ t, exec (if isSet then .nodeWrite else .nodeRead) s = .next t ∧ BlocksOnly s t ∧ NowTaken s.line t.line i
      ∧ (s.line.link.busy ≠ .quiet →
          t.line.link = { s.line.link with oneShots := s.line.link.oneShots ++ [o] })
      ∧ (s.line.link.busy = .quiet →
          (s.line.link.state = .idle ∨ s.line.link.state = .scanning ∧ s.line.link.safeWaits = false) →
          s.line.link.oneShots = [] → s.line.link.cycle = none →
          t.line.link.oneShots = [] ∧ t.line.link.cycle = none ∧ t.line.link.nodes = s.line.link.nodes
          ∧ NewFrame s.line t.line (if isSet then .pset else .pget) o.node (oneShotPayload o) (.oneShot o))
      ∧ (s.line.link.state ≠ .halting → { t.line with request := s.line.request, link := s.line.link } = s.line)

/-- A good SCAN reply of a BOUND or RUNNING node with no event record: its miss count becomes 0, its status byte and
event-pending count are stored, and it is RUNNING; no other node changes. A good reply of a BOUND, RUNNING or FAULTED node stores these and, of a FAULTED one, offers NODE_RECOVERED;
then each of its IN points in ascending index that is bound to an input gives that input the field sample at its place
in the payload; then the event records, none, one or two, are judged in their order; beside these the reply changes
the link alone, which goes on as LinkGoesOn says: a waiting SAFE goes, else the one-shot whose turn comes after this
exchange, else the next node's SCAN frame, an owed cycle starting as this one ends, and after the last exchange with
none of these the link falls quiet. (The last exchange of a HALTING link's cycle is LinkHaltWaitsForTheCycle's.) An
event record whose sequence is the next becomes the last taken
and goes on by its point, which counts it on the EVENT channel bound there and passes its first data word to the bag
judgment or to the store confirmation; with no EVENT channel there it counts as unbound; any other record counts as a
repeat (R38, R51, R53, R55, R63 to R65, R67, R68, R70, R72, R142, R160, R172; what a field sample does is
QualityFollowsTheSamplesAndTheStaleTimer's, what a store confirmation does PalletConfirmStoresThePallet's, what a bag
does InjectedBagDrawsOnTheFeedList's; the order of a reply's parts is notes/assumptions/17, DEDUCED; the upper bits of
a sequence byte are ignored, notes/assumptions/19, DESIGN CHOICE). -/
def Obligations.ScanReplyClearsTheMissCount : Prop :=
  (∀ (s : State) (x : Exchange) (chars : List Byte), s.line.link.busy = .waiting x → x.job = .scan →
    1 ≤ x.addr → x.addr ≤ s.line.link.nodes.length → replyGood s.line x chars = true →
    ((nodeAt s.line x.addr).state = .bound ∨ (nodeAt s.line x.addr).state = .running) →
    let base := 2 * (pointsOf (nodeAt s.line x.addr) .input).length
    (replyPayload chars).length = base + 2 → s.line.link.state = .scanning →
    ∃ t, exec (.scanReply chars) s = .next t ∧ BlocksOnly s t
      ∧ (nodeAt t.line x.addr).state = .running ∧ (nodeAt t.line x.addr).misses = 0
      ∧ (nodeAt t.line x.addr).status = (replyPayload chars).getD base 0
      ∧ (nodeAt t.line x.addr).pendingEvents = (replyPayload chars).getD (base + 1) 0
      ∧ (∀ n, n ≠ x.addr → 1 ≤ n → nodeAt t.line n = nodeAt s.line n)
      ∧ LinkGoesOn true s.line t.line ∧ t.line.request = s.line.request ∧ t.line.active = s.line.active)
  ∧ (∀ (s : State) (x : Exchange) (chars : List Byte), s.line.link.busy = .waiting x → x.job = .scan →
    1 ≤ x.addr → x.addr ≤ s.line.link.nodes.length → replyGood s.line x chars = true → CycleGoesOn true s.line →
    let nd := nodeAt s.line x.addr
    let ins := pointsOf nd .input
    let payload := replyPayload chars
    let base := 2 * ins.length
    let tail := payload.drop (base + 2)
    (nd.state = .bound ∨ nd.state = .running ∨ nd.state = .faulted) →
    let found := { s.line with
      link := { s.line.link with
        nodes := s.line.link.nodes.modify (x.addr - 1) fun _ =>
          { nd with
            state := .running, misses := 0, status := payload.getD base 0
            pendingEvents := payload.getD (base + 1) 0 } } }
    let sampled (l : Line) : Line := ins.zipIdx.foldl (fun l q =>
      match channelOn l ChanKind.isInput x.addr q.1.index with
      | some i => fieldSample i (halfAt payload (2 * q.2)) l
      | none => l) l
    ∃ t r m, exec (.scanReply chars) s = .next t ∧ BlocksOnly s t
      ∧ (nd.state ≠ .faulted → r = found)
      ∧ (nd.state = .faulted →
          Offered s.line.log (reserveFloor s.line) (now s.line) .nodeRecovered
            [word x.addr, word nd.kindCode.toNat] r
          ∧ { r with log := s.line.log, status := { r.status with notices := s.line.status.notices } } = found
          ∧ ∀ n : Notice, n ≠ .logDrop → n ≠ .logThreshold → noticeSet r n = noticeSet s.line n)
      ∧ (payload.length = base + 2 → m = sampled r)
      ∧ (payload.length = base + 8 → m = takeEvent x.addr tail (sampled r))
      ∧ (payload.length = base + 14 → m = takeEvent x.addr (tail.drop 6) (takeEvent x.addr (tail.take 6) (sampled r)))
      ∧ t.line.link.nodes = m.link.nodes ∧ { t.line with link := m.link } = m
      ∧ (s.line.link.state ≠ .discovering →
          LinkGoesOn true s.line t.line ∧ t.line.link.safeCount = s.line.link.safeCount))
  ∧ ∀ (l : Line) (n : Nat) (record : List Byte), 1 ≤ n → n ≤ l.link.nodes.length →
    let nd := nodeAt l n
    let seq := (record.getD 1 0).toNat % 16
    let taken := 1 ≤ seq ∧ (nd.lastTaken = 0 ∨ seq = if nd.lastTaken = 15 then 1 else nd.lastTaken + 1)
    let event := channelOn l (· == .event) n (record.getD 0 0).toNat
    let data := (halfAt record 2).toNat
    let record' (r : Node) : Line := { l with link := { l.link with nodes := l.link.nodes.modify (n - 1) fun _ => r } }
    (¬ taken → takeEvent n record l = record' { nd with repeats := nd.repeats + 1 })
    ∧ (taken → event = none → takeEvent n record l = record' { nd with lastTaken := seq, unbound := nd.unbound + 1 })
    ∧ (∀ i, taken → event = some i →
        let counted := { record' { nd with lastTaken := seq } with
          chans := l.chans.modify i fun c => { c with run := { c.run with events := c.run.events + 1 } } }
        ((chan l i).desc.func = .bagDone → takeEvent n record l = (judgeBag false data counted).2)
        ∧ ((chan l i).desc.func = .storeDone → takeEvent n record l = storeConfirmation data counted)
        ∧ ((chan l i).desc.func ≠ .bagDone → (chan l i).desc.func ≠ .storeDone → takeEvent n record l = counted))

/-- A good ENUM page with further pages to come is kept and the next page is asked for; a node's only or last good
page finishes its address, and the next address is asked for. When address 16 is finished DISCOVER completes in that
event: the new node table replaces the old, the link returns to IDLE, and the request is OK with the number of
DISCOVERED nodes in word 9 (R58 to R60; that every announced page is asked for, and that the pages are judged together
after the last even where an earlier one is inconsistent, is notes/assumptions/18, DEDUCED). -/
def Obligations.EnumReplyAsksForTheNextPageOrAddress : Prop :=
  ∀ (s : State) (x : Exchange) (d : Discovery) (chars : List Byte), s.line.link.busy = .waiting x →
    x.job = .enum d.page → s.line.link.discovery = some d → s.line.link.state = .discovering →
    s.line.link.safeWaits = false → replyGood s.line x chars = true → d.addr ≤ 16 →
    let pages := d.pages ++ [replyPayload chars]
    let total := pageCount (pages.getD 0 [])
    let more := total ≤ 32 ∧ d.page + 1 < pagesFor total
    let built := d.built ++ [(judgePages pages).getD { Node.absent with outcome := .badPoints }]
    let next : Discovery :=
      if more then { d with page := d.page + 1, pages := pages }
      else { d with addr := d.addr + 1, page := 0, pages := [], built := built }
    (more ∨ d.addr < 16 →
      ∃ t, exec (.enumReply chars) s = .next t ∧ BlocksOnly s t
        ∧ t.line.link.discovery = some next ∧ t.line.link.nodes = s.line.link.nodes
        ∧ t.line.link.sent =
            frameBytes .enum next.addr (controlByte (nodeAt s.line next.addr).lastTaken (!seqBit s.line next.addr))
              [BitVec.ofNat 8 next.page]
        ∧ { t.line with link := s.line.link } = s.line)
    ∧ (¬ more → d.addr = 16 → d.slot < s.line.request.slots.length →
      ∃ t, exec (.enumReply chars) s = .next t ∧ BlocksOnly s t
        ∧ t.line.link.discovery = none ∧ t.line.link.nodes = built ∧ t.line.link.state = .idle
        ∧ slotAt t.line d.slot =
            { slotAt s.line d.slot with
              state := .done, result := word ResultCode.ok.code
              val9 := word (built.filter (·.state == .discovered)).length, val10 := 0, val11 := 0, val12 := 0 }
        ∧ t.line.link.overrun = s.line.link.overrun ∧ t.line.link.safeCount = s.line.link.safeCount
        ∧ { t.line with link := s.line.link, request := s.line.request } = raise .reqDone s.line)

/-- A good one-shot reply completes its request, in every state of the link: OK with the value in word 9 for status 0,
NODE_ERROR for status 1; the node's record stays as it was, and beside the request, REQ_DONE and the link nothing
changes. The link goes on: a waiting SAFE first; within a cycle the next SCAN exchange even when more one-shots wait;
else the next one-shot; with none of these it falls quiet (R53, R55, R63, R64, R69, R70, R72; that the exchange is the
last of a HALTING link's cycle is LinkHaltWaitsForTheCycle's case). -/
def Obligations.OneShotReplyCompletesTheRequest : Prop :=
  ∀ (s : State) (x : Exchange) (o : OneShot) (chars : List Byte), s.line.link.busy = .waiting x →
    x.job = .oneShot o → replyGood s.line x chars = true → o.slot < s.line.request.slots.length →
    CycleGoesOn false s.line →
    let payload := replyPayload chars
    let r : Reply :=
      if payload.getD 0 0 = 0 then { code := .ok, v9 := word (halfAt payload 1).toNat } else { code := .nodeError }
    ∃ t, exec (.oneShotReply chars) s = .next t ∧ BlocksOnly s t
      ∧ slotAt t.line o.slot =
          { slotAt s.line o.slot with
            state := .done, result := word r.code.code, val9 := r.v9, val10 := r.v10, val11 := r.v11, val12 := r.v12 }
      ∧ { t.line.request with slots := s.line.request.slots } = s.line.request
      ∧ (∀ j, j ≠ o.slot → slotAt t.line j = slotAt s.line j)
      ∧ noticeSet t.line .reqDone = true ∧ t.line.link.nodes = s.line.link.nodes
      ∧ { t.line with link := s.line.link, request := s.line.request } = raise .reqDone s.line
      ∧ (s.line.link.state ≠ .discovering →
          LinkGoesOn false s.line t.line ∧ t.line.link.safeCount = s.line.link.safeCount)

/-- A first attempt that fails, by the reply limit, by a gap between characters or by a reply that fails a check, is
retried once at once with the same frame while no SAFE waits, and nothing else changes; a waiting SAFE goes first, the
retry waiting behind it. A retry that fails too ends the exchange, and outside DISCOVERING the link goes on as
LinkGoesOn says (a waiting SAFE, else a one-shot, else the next SCAN exchange, else quiet): in every state of the link
a one-shot completes TIMEOUT, and a SCAN exchange counts one miss of its node; an unanswered page finishes its address
NO_REPLY or INCOMPLETE, and DISCOVER with it at address 16. At its third miss a BOUND or RUNNING node becomes FAULTED:
NODE_FAULT is raised, its bound inputs that are not simulated go to FAULT, each active zone with node-fault-trips that
uses it trips, and the NODE_FAULT record is offered before the ZONE_TRIP records; where no zone is active nothing else
is recorded. The frame sent, the driver is released and the reply limit that the attempt started under starts to run:
the active configuration's, 5000 microseconds with none (R40, R53 to R55, R58, R59, R63, R64, R66, R70, R72, R83, R100,
R172; that the model's idle step counts the limit in whole milliseconds is notes/assumptions/8, that a zone with both
causes records either is notes/assumptions/14, and that an address whose earlier page was inconsistent is INCOMPLETE
when a later one stays unanswered is notes/assumptions/41, each DESIGN CHOICE; that the retry takes the limit in force
as it starts is notes/assumptions/39, DEDUCED; the last exchange of a HALTING link's cycle is
LinkHaltWaitsForTheCycle's case). -/
def Obligations.FailedExchangeIsRetriedOnceThenLost : Prop :=
  ∀ (s : State) (x : Exchange) (c : Instr), s.line.link.busy = .waiting x →
    (c = .replyLimitExpiry ∨ c = .replyCharacterGap
      ∨ ∃ chars, c = .replyCheckFailure chars ∧ replyGood s.line x chars = false) →
    (x.retry = false → s.line.link.safeWaits = false →
      exec c s = .next
        { s with
          line := { s.line with
            link := { s.line.link with
              busy := .waiting { x with retry := true }
              sent := frameBytes x.kind x.addr x.control x.payload, driving := true, limit := replyLimit s.line
              replyDue := none } } })
    ∧ (x.retry = false → s.line.link.safeWaits = true → linkScans s.line = true →
      exec c s = .next
        { s with
          line := { s.line with
            link := { s.line.link with
              busy := .safe (some { x with retry := true }), safeWaits := false, sent := frameBytes .safe 0 0 []
              driving := true, replyDue := none } } })
    ∧ (∀ o, x.retry = true → x.job = .oneShot o → o.slot < s.line.request.slots.length →
        CycleGoesOn false s.line →
      ∃ t, exec c s = .next t ∧ BlocksOnly s t
        ∧ slotAt t.line o.slot =
            { slotAt s.line o.slot with
              state := .done, result := word ResultCode.timeout.code, val9 := 0, val10 := 0, val11 := 0, val12 := 0 }
        ∧ { t.line.request with slots := s.line.request.slots } = s.line.request
        ∧ (∀ j, j ≠ o.slot → slotAt t.line j = slotAt s.line j)
        ∧ noticeSet t.line .reqDone = true ∧ t.line.link.nodes = s.line.link.nodes
        ∧ { t.line with link := s.line.link, request := s.line.request } = raise .reqDone s.line
        ∧ (s.line.link.state ≠ .discovering →
            LinkGoesOn false s.line t.line ∧ t.line.link.safeCount = s.line.link.safeCount))
    ∧ (x.retry = true → x.job = .scan → 1 ≤ x.addr → x.addr ≤ s.line.link.nodes.length →
        (nodeAt s.line x.addr).state ≠ .faulted → (nodeAt s.line x.addr).misses < 2 → CycleGoesOn true s.line →
      ∃ t, exec c s = .next t ∧ BlocksOnly s t
        ∧ nodeAt t.line x.addr =
            { nodeAt s.line x.addr with misses := (nodeAt s.line x.addr).misses + 1 }
        ∧ (∀ n, n ≠ x.addr → 1 ≤ n → nodeAt t.line n = nodeAt s.line n)
        ∧ { t.line with link := s.line.link } = s.line
        ∧ (s.line.link.state ≠ .discovering →
            LinkGoesOn true s.line t.line ∧ t.line.link.safeCount = s.line.link.safeCount))
    ∧ (x.retry = true → x.job = .scan → 1 ≤ x.addr → x.addr ≤ s.line.link.nodes.length →
        ((nodeAt s.line x.addr).state = .bound ∨ (nodeAt s.line x.addr).state = .running) →
        (nodeAt s.line x.addr).misses = 2 → CycleGoesOn true s.line → s.line.zones.length = Config.zoneCount →
      ∃ t, exec c s = .next t ∧ BlocksOnly s t
        ∧ nodeAt t.line x.addr = { nodeAt s.line x.addr with misses := 3, state := .faulted }
        ∧ noticeSet t.line .nodeFault = true
        ∧ (∀ j, let y := chan s.line j
            y.desc.kind.isInput = true → y.desc.node = x.addr → y.run.bound.isSome = true → y.run.simFlag = false →
            (chan t.line j).run.quality = .fault ∧ (chan t.line j).run.timer = .stopped)
        ∧ (∀ z zone, zone? s.line z = some zone → zone.run.state.isActive = true → zone.desc.nodeFaultTrips = true →
            zoneUsesNode s.line z x.addr = true →
            ∃ w, zone? t.line z = some w ∧ w.run.state = .tripped
              ∧ (w.run.cause = .nodeFault x.addr ∨ ∃ k, w.run.cause = .conditionLost k))
        ∧ ((∀ z, isActive s.line z = false) →
            t.line.zones = s.line.zones
            ∧ Offered s.line.log (reserveFloor s.line) (now s.line) .nodeFault
                [word x.addr, word (nodeAt s.line x.addr).kindCode.toNat] t.line)
        ∧ TripsRecorded [(.nodeFault, [word x.addr, word (nodeAt s.line x.addr).kindCode.toNat])] s.line t.line
        ∧ t.line.request = s.line.request ∧ t.line.active = s.line.active
        ∧ (∀ n, n ≠ x.addr → 1 ≤ n → nodeAt t.line n = nodeAt s.line n)
        ∧ (s.line.link.state ≠ .discovering →
            LinkGoesOn true s.line t.line ∧ t.line.link.safeCount = s.line.link.safeCount))
    ∧ (∀ p d, x.retry = true → x.job = .enum p → s.line.link.discovery = some d → s.line.link.state = .discovering →
        s.line.link.safeWaits = false → d.addr ≤ 16 →
      let built := d.built ++ [{ Node.absent with outcome := if d.page = 0 then .noReply else .incomplete }]
      (d.addr < 16 →
        ∃ t, exec c s = .next t ∧ BlocksOnly s t
          ∧ t.line.link.discovery = some { d with addr := d.addr + 1, page := 0, pages := [], built := built }
          ∧ t.line.link.sent =
              frameBytes .enum (d.addr + 1)
                (controlByte (nodeAt s.line (d.addr + 1)).lastTaken (!seqBit s.line (d.addr + 1))) [0#8]
          ∧ t.line.link.nodes = s.line.link.nodes ∧ { t.line with link := s.line.link } = s.line)
      ∧ (d.addr = 16 → d.slot < s.line.request.slots.length →
        ∃ t, exec c s = .next t ∧ BlocksOnly s t
          ∧ t.line.link.discovery = none ∧ t.line.link.nodes = built ∧ t.line.link.state = .idle
          ∧ slotAt t.line d.slot =
              { slotAt s.line d.slot with
                state := .done, result := word ResultCode.ok.code
                val9 := word (built.filter (·.state == .discovered)).length, val10 := 0, val11 := 0, val12 := 0 }
          ∧ { t.line with link := s.line.link, request := s.line.request } = raise .reqDone s.line))
    ∧ replyLimit s.line = (match s.line.active with | some g => g.replyLimit | none => 5000)
    ∧ frameSent s.line =
        { s.line with
          link := { s.line.link with
            driving := false
            replyDue := some (now s.line + word ((s.line.link.limit + 999) / 1000)) } }

/-- The end of SAFE raises the SAFE count by 1. The retry that waited behind it goes on the link unchanged, or waits on
behind the next SAFE when one has come to wait. With no retry waiting the link goes on as after any exchange: the next
SAFE, a one-shot, the next node's SCAN frame formed as it starts, or quiet with the driver released (R53, R55, R63,
R64, R70, R72; that a SCAN retry keeps its old payload after a SAFE is the model's choice, notes/assumptions/36, and
that it takes the reply limit in force as it starts is notes/assumptions/39, DEDUCED). -/
def Obligations.SafeSentCountsAndGoesOn : Prop :=
  ∀ (s : State) (resume : Option Exchange), s.line.link.busy = .safe resume →
    (∀ x, resume = some x → s.line.link.safeWaits = false →
      exec .safeFrameSent s = .next
        { s with
          line := { s.line with
            link := { s.line.link with
              busy := .waiting x, safeCount := s.line.link.safeCount + 1
              sent := frameBytes x.kind x.addr x.control x.payload, driving := true, limit := replyLimit s.line
              replyDue := none } } })
    ∧ (∀ x, resume = some x → s.line.link.safeWaits = true → linkScans s.line = true →
      exec .safeFrameSent s = .next
        { s with
          line := { s.line with
            link := { s.line.link with
              busy := .safe (some x), safeWaits := false, safeCount := s.line.link.safeCount + 1
              sent := frameBytes .safe 0 0 [], driving := true, replyDue := none } } })
    ∧ (resume = none → s.line.link.state ≠ .discovering → CycleGoesOn false s.line →
      ∃ t, exec .safeFrameSent s = .next t ∧ BlocksOnly s t
        ∧ t.line.link.safeCount = s.line.link.safeCount + 1 ∧ t.line.link.nodes = s.line.link.nodes
        ∧ { t.line with link := s.line.link } = s.line ∧ LinkGoesOn false s.line t.line)

/-- The period timer's expiry restarts it from its previous expiry; with a cycle in progress the overrun count rises
by 1 and a cycle is owed. With none in progress a new cycle starts: on a quiet link the SCAN frame of the first node
goes at once, with a new sequence bit and the applied raw values as they stand; on a busy one, a one-shot or a SAFE
being on the link, the cycle is in progress from the expiry on and its first frame goes when the link is free (R53,
R55, R63, R64, R70; that such a cycle counts as in progress before its first frame is notes/assumptions/42, DESIGN
CHOICE). -/
def Obligations.PeriodExpiryStartsOrOwesACycle : Prop :=
  ∀ (s : State) (deadline : Word) (g : General), s.line.link.period = some deadline →
    reached (now s.line) deadline = true → s.line.active = some g →
    (s.line.link.cycle ≠ none →
      exec .periodTimerExpiry s = .next
        { s with
          line := { s.line with
            link := { s.line.link with
              period := some (deadline + word g.scanPeriod), overrun := s.line.link.overrun + 1, owed := true } } })
    ∧ (s.line.link.cycle = none → s.line.link.busy ≠ .quiet → s.line.link.scanList ≠ [] →
      exec .periodTimerExpiry s = .next
        { s with
          line := { s.line with
            link := { s.line.link with
              period := some (deadline + word g.scanPeriod)
              cycle := some { rest := s.line.link.scanList, turn := false } } } })
    ∧ (∀ n rest, s.line.link.cycle = none → s.line.link.busy = .quiet → s.line.link.scanList = n :: rest →
        s.line.link.state = .scanning → s.line.link.safeWaits = false →
      let control := controlByte (nodeAt s.line n).lastTaken (!seqBit s.line n)
      exec .periodTimerExpiry s = .next
        { s with
          line := { s.line with
            link := { s.line.link with
              period := some (deadline + word g.scanPeriod)
              cycle := some { rest := rest, turn := false }
              seqBits := s.line.link.seqBits.modify (n - 1) fun _ => !seqBit s.line n
              busy := .waiting
                { kind := .scan, addr := n, control := control, payload := scanPayload s.line n, retry := false,
                  job := .scan }
              sent := frameBytes .scan n control (scanPayload s.line n), driving := true, limit := replyLimit s.line
              replyDue := none } } })

/-! ## Zones -/

/-- ZONE_START and ZONE_RUN of an OFF zone whose conditions are clear, with STOP_N high, move it out of OFF and
complete OK with its state and run-pending flag. The start program runs from step 1 with the zone's program values at
safe: each SET gives its output the value clamped into its range, a WAIT_UNTIL met at its entry passes in the event,
and the zone comes to stand at the first step that waits or, with none, in READY or RUNNING. When the program begins
with a WAIT_TIME the zone stands in STARTING at step 1 with the deadline now plus its time, and no other zone, record
or lot changes. ZONE_RUN of a READY zone with every prerequisite RUNNING enters RUNNING with run pending clear;
otherwise run pending is set and nothing else changes in any zone (R44, R89 to R95). -/
def Obligations.ZoneStartAndRunBringAZoneUp : Prop :=
  (∀ (s : State) (i z : Nat) (zone : Zone) (run : Bool), HeadIs s.line i (if run then .zoneRun else .zoneStart) →
    busyConfig s.line = false → z = (slotAt s.line i).arg2.toNat → z < s.line.zones.length → z < 8 →
    s.line.active.isSome = true → zone? s.line z = some zone → zone.run.state = .off → s.line.stopHigh = true →
    startBlocked s.line z = false →
    ∃ t, exec (if run then .zoneRun else .zoneStart) s = .next t ∧ BlocksOnly s t
      ∧ Completed s.line t.line i (zoneReply z t.line)
      ∧ (zoneState t.line z = some .starting ∨ zoneState t.line z = some .ready ∨ zoneState t.line z = some .running)
      ∧ noticeSet t.line .zoneChange = true
      ∧ (∀ ms rest, zone.desc.startProgram = .waitTime ms :: rest →
          t.line.zones = s.line.zones.set z
            (some { zone with
              run := { zone.run with
                state := .starting, runPending := zone.run.runPending || run, program := some (.start, 1),
                deadline := some (now s.line + word ms), entryTime := now s.line } })
          ∧ t.line.log = s.line.log ∧ t.line.track = s.line.track ∧ t.line.link = s.line.link)
      ∧ ∀ done rest, zone.desc.startProgram = done ++ rest → (∀ step ∈ done, Passes s.line step) →
          (∀ step ∈ rest.head?, ¬ Passes s.line step) →
          Lands s.line t.line z
            { zone with
              run := { zone.run with
                state := .starting, runPending := zone.run.runPending || run, entryTime := now s.line } }
            .start (done.length + 1) rest
          ∧ SetsApplied s.line t.line
              (fun j => if (chan s.line j).desc.owner = some z then (chan s.line j).desc.safe
                else (chan s.line j).run.programValue) done)
  ∧ ∀ (s : State) (i z : Nat) (zone : Zone), HeadIs s.line i .zoneRun → busyConfig s.line = false →
    z = (slotAt s.line i).arg2.toNat → z < s.line.zones.length → z < 8 → s.line.active.isSome = true →
    zone? s.line z = some zone → zone.run.state = .ready → s.line.stopHigh = true →
    ∃ t, exec .zoneRun s = .next t ∧ BlocksOnly s t ∧ Completed s.line t.line i (zoneReply z t.line)
      ∧ (prereqsRun s.line z = true → zoneState t.line z = some .running
          ∧ (∀ w, zone? t.line z = some w → w.run.runPending = false ∧ w.run.entryTime = now s.line))
      ∧ (prereqsRun s.line z = false →
          t.line.zones = s.line.zones.set z (some { zone with run := { zone.run with runPending := true } }))

/-- ZONE_STOP of a STARTING, READY or RUNNING zone clears run pending and moves it to STOPPING, and runs its stop
program with the zone's program values at safe: the zone comes to stand at the first step that waits, or goes through
STOPPING to OFF when none does. When it leaves RUNNING, every other RUNNING zone that names it as a prerequisite trips
with PREREQ_LOST, the stopped zone its detail, whatever other prerequisites it names, and with it in turn the RUNNING
zones behind it, each trip recorded; no other zone changes; the OPEN lot, a real one, closes when the zone is section
0's, and the pallet in transit is left UNCONFIRMED when it is the TRANSFER zone (R44, R92, R93, R96 to R98, R122, R162,
R172; ZONE_STOP in SIMULATE is ZoneSimulateEntersAndLeaves's). -/
def Obligations.ZoneStopRunsTheStopProgram : Prop :=
  ∀ (s : State) (i z : Nat) (zone : Zone), HeadIs s.line i .zoneStop → busyConfig s.line = false →
    z = (slotAt s.line i).arg2.toNat → z < s.line.zones.length → z < 8 → s.line.active.isSome = true →
    zone? s.line z = some zone →
    (zone.run.state = .starting ∨ zone.run.state = .ready ∨ zone.run.state = .running) →
    ∃ t, exec .zoneStop s = .next t ∧ BlocksOnly s t ∧ Completed s.line t.line i (zoneReply z t.line)
      ∧ noticeSet t.line .zoneChange = true
      ∧ (zone.desc.stopProgram = [] → zone? t.line z = some
          { zone with
            run := { zone.run with
              state := .off, runPending := false, program := none, deadline := none, entryTime := now s.line } })
      ∧ (∀ ms rest, zone.desc.stopProgram = .waitTime ms :: rest → zone? t.line z = some
          { zone with
            run := { zone.run with
              state := .stopping, runPending := false, program := some (.stop, 1),
              deadline := some (now s.line + word ms), entryTime := now s.line } })
      ∧ (∀ done rest, zone.desc.stopProgram = done ++ rest → (∀ step ∈ done, Passes s.line step) →
          (∀ step ∈ rest.head?, ¬ Passes s.line step) →
          Lands s.line t.line z
            { zone with run := { zone.run with state := .stopping, runPending := false, entryTime := now s.line } }
            .stop (done.length + 1) rest
          ∧ SetsApplied s.line t.line
              (fun j => if (chan s.line j).desc.owner = some z then (chan s.line j).desc.safe
                else (chan s.line j).run.programValue) done)
      ∧ (∀ f x, zone.run.state = .running → s.line.track.sections[0]? = some f → f.desc.zone = z →
          openLot s.line = some x → x.trial = false → OpenLotClosed s.line t.line)
      ∧ (zone.run.state = .running → zoneOfKind s.line .transfer = some z → TransitAbandoned s.line t.line)
      ∧ (zone.run.state = .running → ∀ (w : Nat) (x : Zone), w < 8 → w ≠ z → zone? s.line w = some x →
          x.run.state = .running → z ∈ x.desc.prereqs →
          zone? t.line w = some (x.trippedBy (now s.line) (.prereqLost z)))
      ∧ Cascaded (· = z) s.line t.line ∧ TripsRecorded [] s.line t.line

/-- ZONE_RESET of a TRIPPED zone: refused TRIP_ACTIVE while its cause is active, with no other block changed;
otherwise the zone moves to OFF with no trip cause, and no other zone changes. CONDITION is active while the
condition's channel is GOOD and its current value meets the condition, CONDITION_LOST while that channel is not GOOD,
NODE_FAULT while the node is not RUNNING, STOP_INPUT while STOP_N is low; the other causes never are (R103). -/
def Obligations.ZoneResetJudgesTheCause : Prop :=
  (∀ (l : Line) (z : Nat) (zone : Zone), zone? l z = some zone →
    (∀ k, causeActive l z (.condition k) = true ↔
        ∃ d, zone.desc.conditions[k]? = some d ∧ (chan l d.channel).run.quality = .good
          ∧ (d.cmp = .ge → d.limit ≤ currentValue (chan l d.channel))
          ∧ (d.cmp = .le → currentValue (chan l d.channel) ≤ d.limit))
    ∧ (∀ k, causeActive l z (.conditionLost k) = true ↔
        ∃ d, zone.desc.conditions[k]? = some d ∧ (chan l d.channel).run.quality ≠ .good)
    ∧ (∀ n, causeActive l z (.nodeFault n) = true ↔ (nodeAt l n).state ≠ .running)
    ∧ (causeActive l z .stopInput = true ↔ l.stopHigh = false)
    ∧ causeActive l z .watchdog = false ∧ (∀ p k, causeActive l z (.stepTimeout p k) = false)
    ∧ (∀ w, causeActive l z (.prereqLost w) = false))
  ∧ ∀ (s : State) (i z : Nat) (zone : Zone), HeadIs s.line i .zoneReset → busyConfig s.line = false →
    z = (slotAt s.line i).arg2.toNat → z < s.line.zones.length → z < 8 → s.line.active.isSome = true →
    zone? s.line z = some zone → zone.run.state = .tripped →
    (causeActive s.line z zone.run.cause = true →
      ∃ t, exec .zoneReset s = .next t ∧ BlocksOnly s t ∧ Completed s.line t.line i { code := .tripActive }
        ∧ { t.line with request := s.line.request } = raise .reqDone s.line)
    ∧ (causeActive s.line z zone.run.cause = false →
      ∃ t, exec .zoneReset s = .next t ∧ BlocksOnly s t ∧ Completed s.line t.line i (zoneReply z t.line)
        ∧ t.line.zones = s.line.zones.set z
            (some { zone with run := { zone.run with state := .off, cause := .none, entryTime := now s.line } })
        ∧ noticeSet t.line .zoneChange = true ∧ t.line.log = s.line.log ∧ t.line.link = s.line.link)

/-- ZONE_SIMULATE enter of an OFF zone with no active dependent moves it to SIMULATE. ZONE_SIMULATE leave and
ZONE_STOP of a SIMULATE zone move it to OFF with the host and program values of its outputs at safe; when it is
section 0's zone, the OPEN lot, a trial one, closes. Every input that an output of the zone simulates has its
simulated flag and source cleared, and takes its quality and stale timer from the field: UNBOUND, FAULT on a FAULTED
node, GOOD with the timer running from the last sample while that is within the stale limit, else STALE with
CHANNEL_STALE raised (R50, R104, R122; that a sample exactly the stale limit old is within it is notes/assumptions/28,
DEDUCED). -/
def Obligations.ZoneSimulateEntersAndLeaves : Prop :=
  ∀ (s : State) (i z : Nat) (zone : Zone), busyConfig s.line = false →
    z = (slotAt s.line i).arg2.toNat → z < s.line.zones.length → z < 8 → s.line.active.isSome = true →
    zone? s.line z = some zone →
    (HeadIs s.line i .zoneSimulate → (slotAt s.line i).arg3 = 1 → zone.run.state = .off → dependentActive s.line z = false →
      ∃ t, exec .zoneSimulateEnter s = .next t ∧ BlocksOnly s t ∧ Completed s.line t.line i (zoneReply z t.line)
        ∧ t.line.zones = s.line.zones.set z
            (some { zone with run := { zone.run with state := .simulate, entryTime := now s.line } })
        ∧ noticeSet t.line .zoneChange = true ∧ t.line.log = s.line.log ∧ t.line.link = s.line.link)
    ∧ ∀ c, (HeadIs s.line i .zoneSimulate ∧ (slotAt s.line i).arg3 = 0 ∧ c = .zoneSimulateLeave
        ∨ HeadIs s.line i .zoneStop ∧ c = .zoneStop) → zone.run.state = .simulate →
      ∃ t, exec c s = .next t ∧ BlocksOnly s t ∧ Completed s.line t.line i (zoneReply z t.line)
        ∧ zone? t.line z = some { zone with run := { zone.run with state := .off, entryTime := now s.line } }
        ∧ (∀ j, (chan t.line j).desc.owner = some z → (chan t.line j).desc.kind.isOutput = true →
            (chan t.line j).run.hostValue = (chan t.line j).desc.safe
            ∧ (chan t.line j).run.programValue = (chan t.line j).desc.safe)
        ∧ (∀ j o, (chan s.line j).run.simFlag = true → (chan s.line j).run.simSource = some o →
            (chan s.line o).desc.owner = some z →
            let c := chan s.line j
            let d := chan t.line j
            d.run.simFlag = false ∧ d.run.simSource = none
              ∧ (c.run.bound = none → d.run.quality = .unbound ∧ d.run.timer = .stopped)
              ∧ (c.run.bound ≠ none → (nodeAt s.line c.desc.node).state = .faulted →
                  d.run.quality = .fault ∧ d.run.timer = .stopped)
              ∧ (c.run.bound ≠ none → (nodeAt s.line c.desc.node).state ≠ .faulted →
                  (∀ at_, c.run.lastSample = some at_ → (now s.line - at_).toNat ≤ c.desc.staleLimit →
                    d.run.quality = .good ∧ d.run.timer = .running (at_ + word c.desc.staleLimit))
                  ∧ ((∀ at_, c.run.lastSample = some at_ → c.desc.staleLimit < (now s.line - at_).toNat) →
                    d.run.quality = .stale ∧ d.run.timer = .stopped ∧ noticeSet t.line .channelStale = true)))
        ∧ (∀ f x, s.line.track.sections[0]? = some f → f.desc.zone = z → openLot s.line = some x → x.trial = true →
            OpenLotClosed s.line t.line)
        ∧ noticeSet t.line .zoneChange = true

/-! ## Lots, bags and pallets -/

/-- LOT_OPEN that passes every check closes the OPEN lot, if there is one, as LOT_CLOSE does, and then admits the lot in
the same event: its number the lot sequence counter's value, its order one more than the last, every count 0, PENDING and
OPEN, in an entry then free. Three reservations are granted, of which LOT_ADMITTED uses one; it stands behind the closed
lot's own records. The reply names the new lot and the closed one, or 0. The counter goes on to the next number, 65 535
followed by 1, that no live lot holds. That the three are held from the check on is the model's choice
(notes/assumptions/35) (R118 to R121, R136 to R138, R167, R171). -/
def Obligations.LotOpenAdmitsALot : Prop :=
  ∀ (s : State) (i : Nat), HeadIs s.line i .lotOpen → busyConfig s.line = false →
    refusal (lotOpenChecks (slotAt s.line i) s.line) = none →
    (∀ x, openLot s.line = some x → x.verdict = .pending ∧ (∀ y ∈ s.line.track.lots, y.number = x.number → y = x)
      ∧ (x.unevaluated = 0 → ∀ p ∈ s.line.pack.pallets, p.state = .stored → ∀ e ∈ p.lots, e.lot ≠ x.number)) →
    let a := slotAt s.line i
    let granted := { s.line.log with reserved := s.line.log.reserved + 3 }
    let number := s.line.track.lotCounter
    ∃ t live g x, exec .lotOpen s = .next t ∧ BlocksOnly s t
      ∧ Completed s.line t.line i
          { code := .ok, v9 := word number, v10 := s.line.track.admissions + 1
            v11 := word (((openLot s.line).map (·.number)).getD 0) }
      ∧ (openLot s.line = none → live = s.line.track.lots ∧ g = granted)
      ∧ (∀ y, openLot s.line = some y → LotClosing s.line y granted live g
          ∧ (y.unevaluated = 0 → noticeSet t.line .lotVerdict = true))
      ∧ x = newLot x.pos number (a.arg3 = 1) a.arg2.toNat (now s.line) (s.line.track.admissions + 1)
      ∧ (∀ y ∈ live, y.pos ≠ x.pos) ∧ x.pos < Config.lotCount
      ∧ t.line.log = { appended g (now s.line) .lotAdmitted (lotAdmittedPayload s.line x) with reserved := g.reserved - 1 }
      ∧ t.line.track =
          { s.line.track with
            lots := live ++ [x], lotCounter := t.line.track.lotCounter, admissions := s.line.track.admissions + 1 }
      ∧ (number ≤ 65535 → ∃ k, t.line.track.lotCounter = (number + k) % 65535 + 1
          ∧ (∀ y ∈ live ++ [x], y.number ≠ t.line.track.lotCounter)
          ∧ ∀ j < k, ∃ y ∈ live ++ [x], y.number = (number + j) % 65535 + 1)
      ∧ t.line.zones = s.line.zones ∧ t.line.chans = s.line.chans ∧ t.line.pack = s.line.pack
      ∧ t.line.transfer = s.line.transfer ∧ t.line.link = s.line.link

/-- LOT_CLOSE closes the OPEN lot and completes OK with its number. With units still unevaluated the lot stays PENDING
and nothing else changes. With none unevaluated and no STORED pallet naming the lot, its verdict becomes final: EMPTY
with no reason when it admitted no unit, else TRIAL for a trial lot, else RELEASED for an empty reason mask, else
HELD, with the mask; a reserved LOT_VERDICT is written and its notice raised; the lot stays live, or, when no unit is
on the track and neither the feed list nor a pallet refers to it, LOT_SUMMARY is written and its entry freed; nothing
else changes. With no OPEN lot LOT_CLOSE is refused NO_LOT (R121, R136 to R138, R167, R170, R171). -/
def Obligations.LotCloseClosesTheOpenLot : Prop :=
  (∀ (s : State) (i : Nat), HeadIs s.line i .lotClose →
    (∀ x, openLot s.line = some x → (∀ y ∈ s.line.track.lots, y.number = x.number → y = x) → x.verdict = .pending →
      (x.unevaluated = 0 → (∀ p ∈ s.line.pack.pallets, p.state = .stored → ∀ e ∈ p.lots, e.lot ≠ x.number)
        ∧ 1 < s.line.log.reserved) →
      ∃ t, exec .lotClose s = .next t ∧ BlocksOnly s t
        ∧ Completed s.line t.line i { code := .ok, v9 := word x.number }
        ∧ LotClosing s.line x s.line.log t.line.track.lots t.line.log
        ∧ { t.line with
            request := s.line.request, log := s.line.log
            track := { t.line.track with lots := s.line.track.lots } } =
          raise .reqDone (if x.unevaluated = 0 then raise .lotVerdict s.line else s.line))
    ∧ (openLot s.line = none →
      ∃ t, exec .lotClose s = .next t ∧ BlocksOnly s t ∧ Completed s.line t.line i { code := .noLot }
        ∧ { t.line with request := s.line.request } = raise .reqDone s.line))
  ∧ ∀ x : Lot, ((lotReasons x).getLsbD 0 = true ↔ x.outcomes.short ≠ 0)
    ∧ ((lotReasons x).getLsbD 1 = true ↔ x.outcomes.overMax ≠ 0)
    ∧ ((lotReasons x).getLsbD 2 = true ↔ x.outcomes.unmeasured ≠ 0)
    ∧ ((lotReasons x).getLsbD 3 = true ↔ x.outcomes.positionLost ≠ 0)
    ∧ ((lotReasons x).getLsbD 4 = true ↔ x.outcomes.deviation ≠ 0)
    ∧ ((lotReasons x).getLsbD 5 = true ↔ x.mixed = true) ∧ ((lotReasons x).getLsbD 6 = true ↔ x.mixedAway ≠ 0)

/-- LOT_FLUSH without track clearing, of a CLOSED lot with no unit on the track but pallets still live, moves its feed
entry's mass to its residual and leaves the lot live; with its verdict final and no pallet live it retires the lot,
whose LOT_SUMMARY is written from its last reservation. With track clearing every cell of the lot is made empty, its
units on track fall by their units, and the units of those that have not passed the final point, the exit of the last
FREEZE section, are counted POSITION_LOST and leave the unevaluated units, which makes the verdict final at 0 (R136,
R167, R168). -/
def Obligations.LotFlushMovesTheFeedEntry : Prop :=
  (∀ (s : State) (i : Nat) (x : Lot) (e : FeedEntry), HeadIs s.line i .lotFlush →
    (slotAt s.line i).arg2.toNat = x.number → (slotAt s.line i).arg3 = 0 → 1 ≤ x.number → x.number ≤ 65535 →
    lot? s.line x.number = some x → x.isOpen = false → x.onTrack = 0 → x.livePallets ≠ 0 →
    s.line.pack.feed.find? (·.lot == x.number) = some e →
    ∃ t, exec .lotFlush s = .next t ∧ BlocksOnly s t
      ∧ Completed s.line t.line i { code := .ok, v9 := word e.mass, v10 := 0, v11 := 0 }
      ∧ t.line.pack = { s.line.pack with feed := s.line.pack.feed.filter (·.lot != x.number) }
      ∧ lot? t.line x.number = some { x with residual := addMass x.residual e.mass }
      ∧ t.line.log = s.line.log ∧ t.line.zones = s.line.zones ∧ t.line.chans = s.line.chans)
  ∧ (∀ (s : State) (i : Nat) (x y : Lot) (mass : Nat), HeadIs s.line i .lotFlush →
    (slotAt s.line i).arg2.toNat = x.number → (slotAt s.line i).arg3 = 0 → 1 ≤ x.number → x.number ≤ 65535 →
    lot? s.line x.number = some x → x.isOpen = false → x.verdict ≠ .pending → x.onTrack = 0 → x.livePallets = 0 →
    0 < s.line.log.reserved →
    (s.line.pack.feed.find? (·.lot == x.number) = none ∧ mass = 0 ∧ y = x
      ∨ ∃ e, s.line.pack.feed.find? (·.lot == x.number) = some e ∧ mass = e.mass
          ∧ y = { x with residual := addMass x.residual e.mass }) →
    ∃ t, exec .lotFlush s = .next t ∧ BlocksOnly s t
      ∧ Completed s.line t.line i { code := .ok, v9 := word mass, v10 := 1, v11 := 0 }
      ∧ { t.line with request := s.line.request } = raise .reqDone
          { s.line with
            track := { s.line.track with lots := s.line.track.lots.filter (·.number != x.number) }
            pack := { s.line.pack with feed := s.line.pack.feed.filter (·.lot != x.number) }
            log := { appended s.line.log (now s.line) .lotSummary (lotSummaryPayload s.line y) with
              reserved := s.line.log.reserved - 1 } })
  ∧ ∀ (s : State) (i k : Nat) (x : Lot), HeadIs s.line i .lotFlush →
    (slotAt s.line i).arg2.toNat = x.number → (slotAt s.line i).arg3 = 1 → 1 ≤ x.number → x.number ≤ 65535 →
    lot? s.line x.number = some x → x.isOpen = false → x.livePallets ≠ 0 →
    (∀ p ∈ s.line.pack.pallets, p.state = .stored → ∀ e ∈ p.lots, e.lot ≠ x.number) →
    (∃ f, s.line.track.sections[k]? = some f ∧ f.desc.criterion = .freeze) →
    (∀ j f, k < j → s.line.track.sections[j]? = some f → f.desc.criterion ≠ .freeze) →
    let unitsOf (fs : List Section) : Nat :=
      (fs.map fun f => (f.places.map fun c => ((c.filter (·.lot == x.number)).map (·.units)).getD 0).sum).sum
    let all := unitsOf s.line.track.sections
    let early := unitsOf (s.line.track.sections.take (k + 1))
    ∃ t y mass, exec .lotFlush s = .next t ∧ BlocksOnly s t
      ∧ Completed s.line t.line i { code := .ok, v9 := word mass, v10 := 0, v11 := word all }
      ∧ t.line.track.sections = s.line.track.sections.map (fun f =>
          { f with places := f.places.map fun c => c.filter (·.lot != x.number) })
      ∧ lot? t.line x.number = some y ∧ y.onTrack = x.onTrack - word all
      ∧ y.outcomes = { x.outcomes with positionLost := x.outcomes.positionLost + word early }
      ∧ y.unevaluated = x.unevaluated - word early
      ∧ (early ≠ 0 → x.verdict = .pending → (y.verdict = .pending ↔ x.unevaluated ≠ word early))
      ∧ (x.verdict ≠ .pending → y.verdict = x.verdict)
      ∧ t.line.pack = { s.line.pack with feed := s.line.pack.feed.filter (·.lot != x.number) }
      ∧ t.line.zones = s.line.zones ∧ t.line.chans = s.line.chans ∧ t.line.link = s.line.link

/-- INJECT_BAG with the BAG zone in SIMULATE is a bag, and so is a BAG_DONE event: it takes the counter's number,
draws its weight on the feed list, gives LANE_SELECT its final lane and is written into the ring. An injected bag, or
one of BAG_DONE with the BAG zone RUNNING, is rejected NO_LOT on an empty list, and nothing else changes; else it is
judged as BagJudged says, and a bag that joins a pallet leaves its lot list, count, mass, exposure start, deadline and
timer, its lots' live pallets, and a closing for CAPACITY, LOTS or a deadline already past, as PalletJoined says. A bag
of BAG_DONE with the zone not RUNNING is rejected ZONE, its shares charged and counted all the same. The draw starts at
the list's head: each entry passed gives all its mass, the entries after the last one reached are kept, the shares'
masses sum to the weight, and only entries drawn to 0 retire (R142 to R147, R149 to R152, R156 to R159; that the
provisional mark is clear after NO_PALLET is notes/assumptions/38, DESIGN CHOICE; that a bag of weight 0 takes its lot,
with a share of 0, from the head is notes/assumptions/31, DEDUCED; that a deadline already reached as a join sets it runs
out in the same event is notes/assumptions/29, DEDUCED). -/
def Obligations.InjectedBagDrawsOnTheFeedList : Prop :=
  (∀ (s : State) (i : Nat), HeadIs s.line i .injectBag → (slotAt s.line i).arg2.toNat ≤ 65535 →
    s.line.active.isSome = true → kindIn s.line .bag .simulate = true →
    let number := s.line.pack.bagCounter
    let w := (slotAt s.line i).arg2.toNat
    (s.line.pack.feed = [] →
      ∃ t, exec .injectBag s = .next t ∧ BlocksOnly s t
        ∧ Completed s.line t.line i { code := .ok, v9 := number, v10 := 2, v11 := 2, v12 := 0 }
        ∧ t.line.pack =
            { s.line.pack with
              bagCounter := if number + 1 = 0 then 1 else number + 1
              laneSelect := .reject
              ring := s.line.pack.ring.modify s.line.pack.ringNext fun _ =>
                { bag := number, weight := w, pallet := 0, first := 0, second := 0, lane := .reject, reason := .noLot,
                  provisional := false }
              ringNext := (s.line.pack.ringNext + 1) % 64 }
        ∧ (∀ j, (chan t.line j).desc.kind = .partOutput → (chan t.line j).desc.func = .laneSelect →
            (chan t.line j).run.functionValue = 2)
        ∧ (∀ j, (chan s.line j).desc.kind ≠ .partOutput ∨ (chan s.line j).desc.func ≠ .laneSelect →
            chan t.line j = chan s.line j)
        ∧ { t.line with request := s.line.request, pack := s.line.pack, chans := s.line.chans } = raise .reqDone s.line)
    ∧ (s.line.pack.feed ≠ [] →
      ∃ t r, exec .injectBag s = .next t ∧ BlocksOnly s t
        ∧ Completed s.line t.line i
            { code := .ok, v9 := r.bag, v10 := word r.lane.code, v11 := word r.reason.code, v12 := word r.pallet }
        ∧ BagJudged s.line { t.line with request := s.line.request } w r))
  ∧ (∀ (l : Line) (w : Nat),
    let number := l.pack.bagCounter
    let a := drawMass l.pack.feed w
    let r := (judgeBag false w l).1
    let l' := (judgeBag false w l).2
    (bagRunning l = true → l.pack.feed ≠ [] → BagJudged l l' w r)
    ∧ (bagRunning l = false ∨ l.pack.feed = [] →
      let reason := if bagRunning l = true then BagReason.noLot else .zone
      r = { bag := number, lane := .reject, reason := reason, pallet := 0 }
      ∧ l'.pack =
          { l.pack with
            feed := a.feed
            bagCounter := if number + 1 = 0 then 1 else number + 1
            laneSelect := .reject
            ring := l.pack.ring.modify l.pack.ringNext fun _ =>
              { bag := number, weight := w, pallet := 0, first := (a.shares.map (·.lot)).getD 0 0,
                second := (a.shares.map (·.lot)).getD 1 0, lane := .reject, reason := reason, provisional := false }
            ringNext := (l.pack.ringNext + 1) % 64 }
      ∧ (∀ j, (chan l' j).desc.kind = .partOutput → (chan l' j).desc.func = .laneSelect →
          (chan l' j).run.functionValue = 2)
      ∧ (∀ j, (chan l j).desc.kind ≠ .partOutput ∨ (chan l j).desc.func ≠ .laneSelect → chan l' j = chan l j)
      ∧ (∀ share ∈ a.shares, ∀ x, (a.shares.map (·.lot)).Nodup → lot? l share.lot = some x → x.onTrack ≠ 0 →
          ∃ y, lot? l' share.lot = some y ∧ y.massBagged = addMass x.massBagged share.mass
            ∧ y.bagsMade = x.bagsMade + 1 ∧ y.bagsRejected = x.bagsRejected + 1)
      ∧ (l.pack.feed = [] → { l' with pack := l.pack, chans := l.chans } = l)
      ∧ l'.transfer = l.transfer ∧ l'.zones = l.zones ∧ PlantOnly l l'))
  ∧ ∀ (feed : List FeedEntry) (w : Nat), feed ≠ [] →
    let a := drawMass feed w
    (a.shares.map (·.mass)).sum = w ∧ a.shares ≠ [] ∧ a.feed ≠ []
    ∧ (∀ k share, a.shares[k]? = some share → ∃ e, feed[k]? = some e ∧ share.lot = e.lot ∧ share.exit = e.exit
        ∧ (k + 1 < a.shares.length → share.mass = e.mass ∧ ((a.shares.take (k + 1)).map (·.mass)).sum < w))
    ∧ feed.drop a.shares.length <:+ a.feed ∧ (∀ e ∈ a.retired, e.mass = 0)
    ∧ (a.feed.map (·.mass)).sum = (feed.map (·.mass)).sum - w

/-- PALLET_CLOSE of an OPEN pallet, the BAG zone not RUNNING: with no bag the pallet is discarded, its record freed and
its reservation returned unwritten; with bags it becomes CLOSED with reason HOST and joins the transfer queue, where it
stays while the path is BUSY (R152, R153, R158, R171). -/
def Obligations.PalletCloseDiscardsOrQueuesThePallet : Prop :=
  ∀ (s : State) (i : Nat) (p : Pallet), HeadIs s.line i .palletClose →
    ((slotAt s.line i).arg2 = 0 ∨ (slotAt s.line i).arg2 = 1) →
    openPallet s.line (if (slotAt s.line i).arg2 = 0 then .release else .hold) = some p →
    bagRunning s.line = false →
    (p.bags = 0 →
      ∃ t, exec .palletClose s = .next t ∧ BlocksOnly s t
        ∧ Completed s.line t.line i { code := .ok, v9 := word p.number, v10 := 1 }
        ∧ t.line.pack.pallets = s.line.pack.pallets.filter (·.number != p.number)
        ∧ t.line.log = { s.line.log with reserved := s.line.log.reserved - 1 }
        ∧ t.line.track = s.line.track ∧ t.line.zones = s.line.zones ∧ t.line.transfer = s.line.transfer)
    ∧ (p.bags ≠ 0 → pallet? s.line p.number = some p → s.line.transfer.transit.isSome = true →
      ∃ t, exec .palletClose s = .next t ∧ BlocksOnly s t
        ∧ Completed s.line t.line i { code := .ok, v9 := word p.number, v10 := 0 }
        ∧ pallet? t.line p.number = some
            { p with state := .closed, reason := .host, joinOrder := some s.line.transfer.joinCounter }
        ∧ t.line.transfer = { s.line.transfer with joinCounter := s.line.transfer.joinCounter + 1 }
        ∧ t.line.log = s.line.log ∧ t.line.track = s.line.track ∧ t.line.zones = s.line.zones)

/-- PALLET_CONFIRM of an UNCONFIRMED pallet with a lot still PENDING makes it STORED, cancels its exposure timer and
completes OK with 0 in words 9 and 10; the transfer path is untouched. With every lot of its list final it is resolved
in the taking: RELEASED when its lane is not HOLD, it is not EXPOSED and its lots are all RELEASED, else QUARANTINE,
which word 10 holds beside 1 in word 9; its PALLET record is written from its reservation, PALLET_RESOLVED raised, its
record freed, and each of its lots has one live pallet less (a feed entry of each lot keeps it from retiring).
Whatever resolves a pallet does this, then judges the retirement of each of its lots and opens pallets; a lot retires
when it is CLOSED and final with no unit, feed entry or live pallet.

A store confirmation is of three kinds. Naming the in-transit pallet it stores it, frees the path, counts a
confirmation, resolves the pallet where its lots are final, and judges the next dispatch. Naming an UNCONFIRMED pallet
it stores it and counts a late one, the path untouched, and resolves it likewise. Any other raises STORE_MISMATCH,
offers the record with the pallet named and the one in transit, and counts and keeps the number; a pallet in transit
becomes UNCONFIRMED, the path is freed and the next dispatch judged (R156, R159, R160, R163 to R167, R171, R172; which
queued pallet goes next is TransitExpiryLeavesThePalletUnconfirmed's, how pallets open
LogReleaseMovesTheConsumerIndex's). -/
def Obligations.PalletConfirmStoresThePallet : Prop :=
  (∀ (s : State) (i : Nat) (p : Pallet) (x : Lot), HeadIs s.line i .palletConfirm →
    (slotAt s.line i).arg2.toNat = p.number → 1 ≤ p.number → p.number ≤ 65535 →
    pallet? s.line p.number = some p → p.state = .unconfirmed →
    (∃ e ∈ p.lots, lot? s.line e.lot = some x) → x.verdict = .pending →
    ∃ t, exec .palletConfirm s = .next t ∧ BlocksOnly s t
      ∧ Completed s.line t.line i { code := .ok, v9 := 0, v10 := 0 }
      ∧ pallet? t.line p.number = some { p with state := .stored, timer := .idle }
      ∧ t.line.transfer = s.line.transfer ∧ t.line.log = s.line.log ∧ t.line.track = s.line.track)
  ∧ (∀ (s : State) (i : Nat) (p : Pallet), HeadIs s.line i .palletConfirm →
    (slotAt s.line i).arg2.toNat = p.number → 1 ≤ p.number → p.number ≤ 65535 →
    pallet? s.line p.number = some p → p.state = .unconfirmed → bagRunning s.line = false → 0 < s.line.log.reserved →
    (p.lots.map (·.lot)).Nodup →
    (∀ e ∈ p.lots, (∃ f ∈ s.line.pack.feed, f.lot = e.lot)
      ∧ ∃ x, lot? s.line e.lot = some x ∧ x.verdict ≠ .pending) →
    let released := p.lane ≠ .hold ∧ p.exposed = false
      ∧ ∀ e ∈ p.lots, ∀ x, lot? s.line e.lot = some x → x.verdict = .released
    ∃ t outcome, exec .palletConfirm s = .next t ∧ BlocksOnly s t
      ∧ Completed s.line t.line i { code := .ok, v9 := 1, v10 := outcome }
      ∧ (released → outcome = 0) ∧ (¬ released → outcome = 1)
      ∧ t.line.pack =
          { s.line.pack with
            pallets := s.line.pack.pallets.filter (·.number != p.number), baggerHold := false }
      ∧ noticeSet t.line .palletResolved = true
      ∧ t.line.log =
          { appended s.line.log (now s.line) .pallet (palletPayload s.line p) with
            reserved := s.line.log.reserved - 1 }
      ∧ (∀ e ∈ p.lots, ∀ x, lot? s.line e.lot = some x →
          lot? t.line e.lot = some { x with livePallets := x.livePallets - 1 })
      ∧ (∀ n, (∀ e ∈ p.lots, e.lot ≠ n) → lot? t.line n = lot? s.line n)
      ∧ t.line.transfer = s.line.transfer ∧ t.line.zones = s.line.zones
      ∧ PlantOnly s.line { t.line with request := s.line.request })
  ∧ (∀ (l : Line) (p : Pallet), 0 < l.log.reserved → (p.lots.map (·.lot)).Nodup →
    ∃ k, resolvePallet p l = openPallets (p.lots.foldl (fun l e => judgeRetirement e.lot l) k)
      ∧ k.log = { appended l.log (now l) .pallet (palletPayload l p) with reserved := l.log.reserved - 1 }
      ∧ k.pack = { l.pack with pallets := l.pack.pallets.filter (·.number != p.number) }
      ∧ (∀ e ∈ p.lots, ∀ x, lot? l e.lot = some x →
          lot? k e.lot = some { x with livePallets := x.livePallets - 1 })
      ∧ (∀ n, (∀ e ∈ p.lots, e.lot ≠ n) → lot? k n = lot? l n)
      ∧ { k with log := l.log, pack := l.pack, track := { k.track with lots := l.track.lots } } =
          raise .palletResolved l)
  ∧ (∀ (l : Line) (n : Nat) (x : Lot), lot? l n = some x → 0 < l.log.reserved →
    let retires := x.isOpen = false ∧ x.verdict ≠ .pending ∧ x.onTrack = 0 ∧ (∀ e ∈ l.pack.feed, e.lot ≠ n)
      ∧ x.livePallets = 0
    (retires → judgeRetirement n l =
        { l with
          log := { appended l.log (now l) .lotSummary (lotSummaryPayload l x) with reserved := l.log.reserved - 1 }
          track := { l.track with lots := l.track.lots.filter (·.number != n) } })
    ∧ (¬ retires → judgeRetirement n l = l))
  ∧ (∀ l : Line,
    let l' := judgeDispatch l
    let closed (q : Pallet) : Prop := q ∈ l.pack.pallets ∧ q.state = .closed
    (l.transfer.transit.isSome = true ∨ kindIn l .transfer .running = false ∨ (∀ q, ¬ closed q) → l' = l)
    ∧ ∀ g, l.active = some g → l.transfer.transit = none → kindIn l .transfer .running = true → (∃ q, closed q) →
      ∃ q, closed q
        ∧ l'.transfer = { l.transfer with
            transit := some { number := q.number, deadline := now l + word (g.transitLimit * 1000) }
            lastDispatch := now l, dispatches := l.transfer.dispatches + 1 }
        ∧ l'.pack = { l.pack with
            pallets := l.pack.pallets.map fun r => if r.number = q.number then { r with state := .inTransit } else r }
        ∧ { l' with transfer := l.transfer, pack := l.pack, chans := l.chans } = l)
  ∧ ∀ (l : Line) (n : Nat),
    let l' := storeConfirmation n l
    let marked (k : Nat) (f : Pallet → Pallet) : List Pallet :=
      l.pack.pallets.map fun q => if q.number = k then f q else q
    let pending (p : Pallet) : Prop := ∃ e ∈ p.lots, ∃ x, lot? l e.lot = some x ∧ x.verdict = .pending
    (∀ tr p, l.transfer.transit = some tr → tr.number = n → pallet? l n = some p →
      let stored : Pallet := { p with state := .stored, timer := .idle }
      ∃ m, PathFreed l m (marked n fun q => { q with state := .stored, timer := .idle })
          { l.transfer with transit := none, confirmations := l.transfer.confirmations + 1 }
        ∧ pallet? m n = some stored
        ∧ (pending p → l' = judgeDispatch m)
        ∧ (¬ pending p → l' = judgeDispatch (resolvePallet stored m)))
    ∧ (∀ p, (∀ tr, l.transfer.transit = some tr → tr.number ≠ n) → pallet? l n = some p → p.state = .unconfirmed →
      let stored : Pallet := { p with state := .stored, timer := .idle }
      let m := { l with
        pack := { l.pack with pallets := marked n fun q => { q with state := .stored, timer := .idle } }
        transfer := { l.transfer with lates := l.transfer.lates + 1 } }
      pallet? m n = some stored
      ∧ (pending p → l' = m)
      ∧ (¬ pending p → l' = resolvePallet stored m))
    ∧ ((∀ tr, l.transfer.transit = some tr → tr.number ≠ n) → (∀ p, pallet? l n = some p → p.state ≠ .unconfirmed) →
      ∃ m, Offered l.log (reserveFloor l) (now l) .storeMismatch
          [word n, word ((l.transfer.transit.map (·.number)).getD 0)] m
        ∧ noticeSet m .storeMismatch = true
        ∧ (∀ x : Notice, x ≠ .storeMismatch → x ≠ .logDrop → x ≠ .logThreshold → noticeSet m x = noticeSet l x)
        ∧ { m with log := l.log, status := { m.status with notices := l.status.notices } } =
            { l with transfer := { l.transfer with mismatches := l.transfer.mismatches + 1, lastMismatch := n } }
        ∧ (l.transfer.transit = none → l' = m)
        ∧ ∀ tr, l.transfer.transit = some tr →
          ∃ k, PathFreed m k (marked tr.number fun q => { q with state := .unconfirmed })
              { m.transfer with transit := none }
            ∧ l' = judgeDispatch k)

/-! ## Timers -/

/-- A field sample stores its time; unless the input is simulated it makes the channel GOOD, restarts its stale timer
and is a fresh sample, while a simulated one keeps its quality, timer and simulated value. A fresh sample, of the
field or of a loopback, that meets a trip condition trips each active zone with cause CONDITION, the lowest index of
those met its detail. A stale timer that has run out makes its input STALE, stops, and raises CHANNEL_STALE; the
engineering value stays; each active zone with a trip-on-loss condition on the channel trips with cause CONDITION_LOST
and its index. Each such event trips in turn the RUNNING zones behind those it took out of RUNNING, leaves every other
zone as it was, where no step waits on the sample, and offers a ZONE_TRIP record for each trip (R38, R39, R41, R49, R97
to R99, R172; that of two such conditions of one zone the lowest index is recorded is the model's choice,
notes/assumptions/37, and that a sample's trips come before the waits it meets in other zones is
notes/assumptions/43). -/
def Obligations.QualityFollowsTheSamplesAndTheStaleTimer : Prop :=
  (∀ (l : Line) (i : Nat) (raw : Half), i < l.chans.length →
    let c := chan l i
    let c' := chan (fieldSample i raw l) i
    c'.run.raw = raw ∧ c'.run.eng = engineering c (rangeOf c) raw ∧ c'.run.lastSample = some (now l)
      ∧ (c.run.simFlag = false → c'.run.quality = .good
          ∧ c'.run.timer = .running (now l + word c.desc.staleLimit))
      ∧ (c.run.simFlag = true → c'.run.quality = c.run.quality ∧ c'.run.timer = c.run.timer
          ∧ c'.run.simValue = c.run.simValue
          ∧ { fieldSample i raw l with chans := l.chans } = l)
      ∧ (c.run.simFlag = false →
          fieldSample i raw l = freshSample i (engineering c (rangeOf c) raw)
            { l with
              chans := l.chans.modify i fun x =>
                { x with
                  run := { x.run with
                    raw := raw, eng := engineering c (rangeOf c) raw, lastSample := some (now l), quality := .good
                    timer := .running (now l + word c.desc.staleLimit) } } }))
  ∧ (∀ (l : Line) (i : Nat) (v : Int),
    let l' := freshSample i v l
    (∀ (z k : Nat) (zone : Zone) (d : Condition), z < 8 → zone? l z = some zone → zone.run.state.isActive = true →
      zone.desc.conditions[k]? = some d → d.channel = i → meets d.cmp v d.limit = true →
      (∀ j e, j < k → zone.desc.conditions[j]? = some e → e.channel = i → meets e.cmp v e.limit = false) →
      zone? l' z = some (zone.trippedBy (now l) (.condition k))
      ∧ noticeSet l' .zoneTrip = true ∧ noticeSet l' .zoneChange = true)
    ∧ ((∀ f ∈ l.track.sections, f.desc.motion ≠ i ∧ (f.desc.criterion = .none ∨ f.desc.criterionChan ≠ i)) →
      (∀ y, y < 8 → ∀ c cmp th ms, currentStep l y = some (.waitUntil c cmp th ms) → c ≠ i) →
      Cascaded (fun z => ∃ zone d, zone? l z = some zone ∧ zone.run.state.isActive = true ∧ d ∈ zone.desc.conditions
        ∧ d.channel = i ∧ meets d.cmp v d.limit = true) l l'
      ∧ TripsRecorded [] l l'))
  ∧ ∀ (s : State) (channel : BitVec 8) (deadline : Word), channel.toNat < s.line.chans.length →
    (chan s.line channel.toNat).run.timer = .running deadline → reached (now s.line) deadline = true →
    ∃ t, exec (.staleTimerExpiry channel) s = .next t ∧ BlocksOnly s t ∧ PlantOnly s.line t.line
      ∧ (chan t.line channel.toNat).run.quality = .stale ∧ (chan t.line channel.toNat).run.timer = .stopped
      ∧ (chan t.line channel.toNat).run.eng = (chan s.line channel.toNat).run.eng
      ∧ noticeSet t.line .channelStale = true
      ∧ (∀ (z k : Nat) (zone : Zone) (d : Condition), z < 8 → zone? s.line z = some zone →
          zone.run.state.isActive = true → zone.desc.conditions[k]? = some d → d.channel = channel.toNat →
          d.tripOnLoss = true →
          (∀ j e, j < k → zone.desc.conditions[j]? = some e → e.channel = channel.toNat → e.tripOnLoss = false) →
          zone? t.line z = some (zone.trippedBy (now s.line) (.conditionLost k)) ∧ noticeSet t.line .zoneTrip = true)
      ∧ Cascaded (fun z => ∃ zone d, zone? s.line z = some zone ∧ zone.run.state.isActive = true
          ∧ d ∈ zone.desc.conditions ∧ d.channel = channel.toNat ∧ d.tripOnLoss = true) s.line t.line
      ∧ TripsRecorded [] s.line t.line

/-- The watchdog's expiry makes it EXPIRED, raises WATCHDOG and trips every guarded zone in an active state with cause
WATCHDOG. Behind them every RUNNING zone that names one which left RUNNING trips with PREREQ_LOST, guarded or not, and so
on through the graph; every other zone is as it was. It asks for SAFE: sent at once on a quiet link in SCANNING or
HALTING, waiting on a busy one, dropped in the other link states. The WATCHDOG record, whose mask names every zone
tripped in the event, is offered before the ZONE_TRIP records. The OPEN lot, a real one, closes when section 0's zone
left RUNNING, and the pallet in transit is left UNCONFIRMED when the TRANSFER zone did (R30, R72, R97, R98, R101, R122,
R162, R172; bits 0 to 3 of the control byte of SAFE, sent as 0, are the model's choice, notes/assumptions/40). -/
def Obligations.WatchdogExpiryTripsTheGuardedZones : Prop :=
  ∀ (s : State) (g : General), s.line.status.watchdog = .running → s.line.active = some g →
    s.line.zones.length = Config.zoneCount →
    g.heartbeatLimit ≤ (now s.line - s.line.status.restart).toNat →
    let own (z : Nat) : Prop := ∃ zone, zone? s.line z = some zone ∧ zone.desc.guarded = true
      ∧ zone.run.state.isActive = true
    ∃ (t : State) (mask : Word), exec .watchdogExpiry s = .next t ∧ BlocksOnly s t
      ∧ t.line.status.watchdog = .expired ∧ noticeSet t.line .watchdog = true
      ∧ (∀ z zone, zone? s.line z = some zone → zone.desc.guarded = true → zone.run.state.isActive = true →
          zone? t.line z = some (zone.trippedBy (now s.line) .watchdog)
          ∧ noticeSet t.line .zoneTrip = true ∧ noticeSet t.line .zoneChange = true)
      ∧ Cascaded own s.line t.line
      ∧ (∀ z, mask.getLsbD z = true ↔ z < 8 ∧ tripsIn s.line t.line z = true)
      ∧ TripsRecorded [(.watchdog, [mask])] s.line t.line
      ∧ (linkScans s.line = false → t.line.link = s.line.link)
      ∧ (linkScans s.line = true → s.line.link.busy = .quiet →
          t.line.link =
            { s.line.link with
              busy := .safe none, safeWaits := false, sent := frameBytes .safe 0 0 [], driving := true, replyDue := none })
      ∧ (linkScans s.line = true → s.line.link.busy ≠ .quiet → t.line.link = { s.line.link with safeWaits := true })
      ∧ (∀ f x, s.line.track.sections[0]? = some f → isRunning s.line f.desc.zone = true →
          isRunning t.line f.desc.zone = false → openLot s.line = some x → x.trial = false →
          OpenLotClosed s.line t.line)
      ∧ (∀ z, zoneOfKind s.line .transfer = some z → isRunning s.line z = true → isRunning t.line z = false →
          TransitAbandoned s.line t.line)
      ∧ t.line.request = s.line.request ∧ t.line.active = s.line.active ∧ t.line.matchTable = s.line.matchTable
      ∧ { t.line.status with watchdog := .running, notices := 0 } = { s.line.status with notices := 0 }

/-- A WAIT_TIME step that has run out, and a WAIT_UNTIL step that a fresh sample of its channel meets, let the program
go on from the next step: each SET gives its output the value clamped into its range, a WAIT_UNTIL met at its entry
passes in the event, and the zone comes to stand at the next step that waits. With none, a stop program ends in OFF, a
start program in READY, and on in RUNNING when run pending is set and every prerequisite is RUNNING. A WAIT_UNTIL step
that has run out trips its zone with cause STEP_TIMEOUT, the program and the step as detail, offers its ZONE_TRIP record
and changes no zone but those of a cascade (R44, R92 to R98, R172; that a sample which trips a zone does so before it
meets another zone's wait is notes/assumptions/43, DESIGN CHOICE). -/
def Obligations.StepDeadlinesAdvanceOrTripTheZone : Prop :=
  let stepsOf (zone : Zone) (p : Program) : List Step :=
    match p with | .start => zone.desc.startProgram | .stop => zone.desc.stopProgram
  let stateOf (p : Program) : ZoneState := match p with | .start => .starting | .stop => .stopping
  (∀ (s : State) (z : BitVec 3) (zone : Zone) (p : Program) (k ms : Nat) (deadline : Word) (done rest : List Step),
    zone? s.line z.toNat = some zone → zone.run.program = some (p, k) → 1 ≤ k → zone.run.state = stateOf p →
    (stepsOf zone p)[k - 1]? = some (.waitTime ms) → (stepsOf zone p).drop k = done ++ rest →
    (∀ step ∈ done, Passes s.line step) → (∀ step ∈ rest.head?, ¬ Passes s.line step) →
    zone.run.deadline = some deadline → reached (now s.line) deadline = true →
    ∃ t, exec (.waitTimeExpiry z) s = .next t ∧ BlocksOnly s t ∧ PlantOnly s.line t.line
      ∧ Lands s.line t.line z.toNat zone p (k + done.length + 1) rest
      ∧ SetsApplied s.line t.line (fun j => (chan s.line j).run.programValue) done
      ∧ (rest = [] → noticeSet t.line .zoneChange = true))
  ∧ (∀ (l : Line) (z i : Nat) (v : Int) (zone : Zone) (p : Program) (k ms : Nat) (cmp : Comparison) (threshold : Int)
      (done rest : List Step), z < 8 → zone? l z = some zone → zone.run.program = some (p, k) → 1 ≤ k →
    zone.run.state = stateOf p → (stepsOf zone p)[k - 1]? = some (.waitUntil i cmp threshold ms) →
    meets cmp v threshold = true → (stepsOf zone p).drop k = done ++ rest → (∀ step ∈ done, Passes l step) →
    (∀ step ∈ rest.head?, ¬ Passes l step) →
    (∀ y x, zone? l y = some x → ∀ d ∈ x.desc.conditions, d.channel ≠ i) →
    (∀ y, y < 8 → y ≠ z → ∀ c cmp' th' ms', currentStep l y = some (.waitUntil c cmp' th' ms') → c ≠ i) →
    let l' := freshSample i v l
    Lands l l' z zone p (k + done.length + 1) rest
    ∧ SetsApplied l l' (fun j => (chan l j).run.programValue) done)
  ∧ ∀ (s : State) (z : BitVec 3) (zone : Zone) (p : Program) (k : Nat) (deadline : Word),
    z.toNat < s.line.zones.length → zone? s.line z.toNat = some zone → zone.run.program = some (p, k) →
    (∃ c cmp th ms, currentStep s.line z.toNat = some (.waitUntil c cmp th ms)) →
    zone.run.deadline = some deadline → reached (now s.line) deadline = true →
    ∃ t, exec (.waitUntilTimeout z) s = .next t ∧ BlocksOnly s t ∧ PlantOnly s.line t.line
      ∧ zone? t.line z.toNat = some (zone.trippedBy (now s.line) (.stepTimeout p k))
      ∧ noticeSet t.line .zoneTrip = true ∧ Cascaded (· = z.toNat) s.line t.line ∧ TripsRecorded [] s.line t.line

/-- An exposure timer that has run out marks its pallet EXPOSED and raises PALLET_EXPOSED; each lot of its list counts
one more exposed pallet, and an EXPOSURE record with the pallet's state before the expiry is offered to the log. A
pallet that is not OPEN keeps its state. An OPEN one becomes CLOSED with reason EXPOSED and joins the transfer queue,
from where it goes at once when the path is IDLE, the TRANSFER zone RUNNING and no other pallet queued; with the BAG
zone RUNNING the lane gets a new pallet where a record and a reservation are free (R149, R152, R156 to R159, R171,
R172). -/
def Obligations.ExposureExpiryMarksThePallet : Prop :=
  (∀ (s : State) (n : BitVec 16) (p : Pallet) (deadline : Word), pallet? s.line n.toNat = some p →
    p.timer = .running → p.deadline = some deadline → reached (now s.line) deadline = true → p.state ≠ .opened →
    ∃ t, exec (.exposureTimerExpiry n) s = .next t ∧ BlocksOnly s t ∧ PlantOnly s.line t.line
      ∧ pallet? t.line n.toNat = some { p with exposed := true, timer := .expired }
      ∧ noticeSet t.line .palletExposed = true ∧ t.line.zones = s.line.zones ∧ t.line.chans = s.line.chans
      ∧ (∀ e x, e ∈ p.lots → (p.lots.map (·.lot)).Nodup → lot? s.line e.lot = some x →
          lot? t.line e.lot = some { x with exposedPallets := x.exposedPallets + 1 })
      ∧ t.line.transfer = s.line.transfer
      ∧ Offered s.line.log (reserveFloor s.line) (now s.line) .exposure (exposurePayload s.line p) t.line)
  ∧ ∀ (s : State) (n : BitVec 16) (p : Pallet) (deadline : Word), pallet? s.line n.toNat = some p →
    p.timer = .running → p.deadline = some deadline → reached (now s.line) deadline = true → p.state = .opened →
    let queue := { s.line.transfer with joinCounter := s.line.transfer.joinCounter + 1 }
    let shut : Pallet :=
      { p with
        state := .closed, reason := .exposed, joinOrder := some s.line.transfer.joinCounter, exposed := true
        timer := .expired }
    let goes := s.line.transfer.transit = none ∧ kindIn s.line .transfer .running = true
    let other : Lane := if p.lane = .release then .hold else .release
    (¬ goes ∨ ∀ q ∈ s.line.pack.pallets, q.state ≠ .closed) →
    ∃ t, exec (.exposureTimerExpiry n) s = .next t ∧ BlocksOnly s t ∧ PlantOnly s.line t.line
      ∧ noticeSet t.line .palletExposed = true ∧ t.line.zones = s.line.zones
      ∧ (∀ e x, e ∈ p.lots → (p.lots.map (·.lot)).Nodup → lot? s.line e.lot = some x →
          lot? t.line e.lot = some { x with exposedPallets := x.exposedPallets + 1 })
      ∧ (∀ m, m ≠ n.toNat → (pallet? s.line m).isSome = true → pallet? t.line m = pallet? s.line m)
      ∧ (¬ goes → pallet? t.line n.toNat = some shut ∧ t.line.transfer = queue)
      ∧ (∀ g, goes → s.line.active = some g →
          pallet? t.line n.toNat = some { shut with state := .inTransit }
          ∧ t.line.transfer = { queue with
              transit := some { number := p.number, deadline := now s.line + word (g.transitLimit * 1000) }
              lastDispatch := now s.line, dispatches := s.line.transfer.dispatches + 1 })
      ∧ (bagRunning s.line = false →
          t.line.pack.pallets.length = s.line.pack.pallets.length
          ∧ Offered s.line.log (reserveFloor s.line) (now s.line) .exposure (exposurePayload s.line p) t.line)
      ∧ (bagRunning s.line = true → s.line.pack.pallets.length < 32 →
          reserveFloor s.line + 2 ≤ freeUnreserved s.line.log → p.lane ≠ .reject →
          (openPallet s.line other).isSome = true →
          (∀ q ∈ s.line.pack.pallets, q.lane = p.lane → q.state = .opened → q.number = p.number) →
          (s.line.pack.pallets.map (·.number)).Nodup →
          ∃ q, openPallet t.line p.lane = some q ∧ q = newPallet q.pos s.line.pack.palletCounter p.lane
            ∧ t.line.log =
                { appended s.line.log (now s.line) .exposure (exposurePayload s.line p) with
                  reserved := s.line.log.reserved + 1 })

/-- A transit timer that has run out makes the in-transit pallet UNCONFIRMED, raises the timeout count, and judges the
next dispatch: with nothing queued the path is IDLE; with pallets queued and the TRANSFER zone RUNNING the queued
pallet with the earliest exposure deadline goes, the earliest queue-join order deciding between equal deadlines: it is
IN_TRANSIT, the transit timer runs the transit limit, the dispatch is counted and TRANSFER_START holds its number
(R159, R161; deadlines and orders are compared modulo 2^32, so the clause asks that those queued lie within 2^31 of
some base). -/
def Obligations.TransitExpiryLeavesThePalletUnconfirmed : Prop :=
  ∀ (s : State) (tr : Transit) (p : Pallet), s.line.transfer.transit = some tr →
    reached (now s.line) tr.deadline = true → pallet? s.line tr.number = some p → p.state = .inTransit →
    ∃ t, exec .transitTimerExpiry s = .next t ∧ BlocksOnly s t ∧ PlantOnly s.line t.line
      ∧ t.line.transfer.timeouts = s.line.transfer.timeouts + 1
      ∧ pallet? t.line tr.number = some { p with state := .unconfirmed }
      ∧ (transferQueue s.line = [] → t.line.transfer.transit = none
          ∧ ∀ j, (chan t.line j).desc.kind = .partOutput → (chan t.line j).desc.func = .transferStart →
              (chan t.line j).run.functionValue = 0)
      ∧ t.line.log = s.line.log ∧ t.line.track = s.line.track ∧ t.line.zones = s.line.zones
      ∧ ∀ (g : General) (base first : Word), s.line.active = some g → kindIn s.line .transfer .running = true →
          (∃ q ∈ s.line.pack.pallets, q.state = .closed) →
          let queued (q : Pallet) : Prop := q ∈ s.line.pack.pallets ∧ q.state = .closed
          (∀ q, queued q → q.number ≠ tr.number ∧ (orZero q.deadline - base).toNat < 2 ^ 31
            ∧ (orZero q.joinOrder - first).toNat < 2 ^ 31) →
          ∃ q, queued q
            ∧ (∀ r, queued r → (orZero q.deadline - base).toNat < (orZero r.deadline - base).toNat
                ∨ orZero q.deadline = orZero r.deadline
                    ∧ (orZero q.joinOrder - first).toNat ≤ (orZero r.joinOrder - first).toNat)
            ∧ t.line.transfer = { s.line.transfer with
                transit := some { number := q.number, deadline := now s.line + word (g.transitLimit * 1000) }
                lastDispatch := now s.line
                dispatches := s.line.transfer.dispatches + 1
                timeouts := s.line.transfer.timeouts + 1 }
            ∧ (pallet? s.line q.number = some q → pallet? t.line q.number = some { q with state := .inTransit })
            ∧ ∀ j, (chan t.line j).desc.kind = .partOutput → (chan t.line j).desc.func = .transferStart →
                (chan t.line j).run.functionValue = q.number

/-! ## The track's cells -/

/-- What samples and losses do on the track, clause by clause. A field sample of an input that no zone's condition or
wait looks at changes the channel and goes to the track unit; the expiry of the stale timer of such an input marks the
cells its motion or criterion drives (R38, R39, R41, R117, R132). A sample of a motion channel rebases an absent count
or one of the other source, and otherwise moves each section it drives by its whole cells, in rounds, each from the
most downstream section up, the rest of the counts kept as remainder (R109, R110). A shift carries the exit cell on,
moves every cell one place and leaves the entry empty, which section 0 fills with a new cell of the OPEN lot (R111). A
cell leaving the blanch and the final point is judged against its lot's recipe and counted in its lot; it goes on to
the next section, or off the track and into the feed (R107, R112, R116, R134, R135, R141). A placed cell takes an
empty entry or merges with the resident, the lots' counts following, and a new lot arrives (R113 to R115, R124, R133).
A sample of a criterion channel gives each cell of its sections credit or a deviation flag (R127 to R130). -/
def Obligations.TrackMovesMergesAndMeasuresItsCells : Prop :=
  (∀ (l : Line) (i : Nat), i < l.chans.length →
    (∀ z zone, zone? l z = some zone → (∀ c ∈ zone.desc.conditions, c.channel ≠ i)
      ∧ ∀ c cmp threshold ms, currentStep l z = some (.waitUntil c cmp threshold ms) → c ≠ i) →
    (∀ raw, (chan l i).run.simFlag = false →
      let v := engineering (chan l i) (rangeOf (chan l i)) raw
      fieldSample i raw l = trackSample i v
        { l with
          chans := l.chans.modify i fun c =>
            { c with
              run := { c.run with
                raw := raw, eng := v, lastSample := some (now l), quality := .good,
                timer := .running (now l + word c.desc.staleLimit) } } })
    ∧ ∀ (s : State) (channel : BitVec 8) (deadline : Word), s.line = l → channel.toNat = i →
        (chan l i).run.timer = .running deadline → reached (now l) deadline = true →
        exec (.staleTimerExpiry channel) s = .next
          { s with
            line := raise .channelStale
              { l with
                chans := l.chans.modify i fun c => { c with run := { c.run with quality := .stale, timer := .stopped } }
                track := { l.track with
                  motion :=
                    if l.track.sections.any (·.desc.motion == i) then l.track.motion.modify i fun _ => none
                    else l.track.motion
                  sections := l.track.sections.map fun f =>
                    { f with
                      places := f.places.map fun p => p.map fun c =>
                        { c with
                          positionLost := c.positionLost || f.desc.motion == i
                          unmeasured :=
                            c.unmeasured || (f.desc.criterion != .none && f.desc.criterionChan == i) } } } } })
  ∧ (∀ (l : Line) (i c : Nat), c ≤ 65535 → i < l.track.motion.length → (∃ f ∈ l.track.sections, f.desc.motion = i) →
      (∀ f ∈ l.track.sections, f.desc.criterion = .none ∨ f.desc.criterionChan ≠ i) →
      let source := (chan l i).run.simFlag
      let stored := l.track.motion.set i (some { count := c, simulated := source })
      (l.track.motion[i]? = some none ∨ (∃ n, l.track.motion[i]? = some (some { count := n, simulated := !source })) →
        trackSample i c l =
          { l with
            track := { l.track with
              motion := stored
              sections := l.track.sections.map fun f => if f.desc.motion = i then { f with remainder := 0 } else f } })
      ∧ ∀ n m, l.track.motion[i]? = some (some { count := n, simulated := source }) → n ≤ 65535 →
          let d := if n ≤ c then c - n else c + 65536 - n
          (∀ f ∈ l.track.sections, f.desc.motion = i →
            0 < f.desc.countsPerCell ∧ (d + f.remainder) / f.desc.countsPerCell ≤ m) →
          trackSample i c l = (List.range m).foldl
            (fun l' round =>
              ((List.range l.track.sections.length).filter fun j => l.track.sections[j]?.any fun f =>
                f.desc.motion == i && decide (round < (d + f.remainder) / f.desc.countsPerCell)).foldr shiftSection l')
            { l with
              track := { l.track with
                motion := stored
                sections := l.track.sections.map fun f =>
                  if f.desc.motion = i then { f with remainder := (d + f.remainder) % f.desc.countsPerCell } else f } })
  ∧ (∀ (l : Line) (j : Nat) (f : Section), l.track.sections[j]? = some f → f.places ≠ [] →
      let shifted := { l with
        track := { l.track with sections := l.track.sections.set j { f with places := none :: f.places.dropLast } } }
      let carried := (f.places.getLast?.join).elim shifted fun c => carryCell j c shifted
      (j ≠ 0 ∨ openLot carried = none → shiftSection j l = carried)
      ∧ ∀ x, j = 0 → openLot carried = some x →
          shiftSection j l = placeCell 0
            { lot := x.number, units := 1, entryTime := now l, blanchCredit := 0, freezeCredit := 0,
              blanchOutcome := none, overall := none, blanchDeviation := false, freezeDeviation := false,
              unmeasured := false, positionLost := false, mixed := false }
            { carried with
              track := { carried.track with
                lots := carried.track.lots.map fun y =>
                  if y.number = x.number then
                    { y with
                      admitted := y.admitted + 1, onTrack := y.onTrack + 1, unevaluated := y.unevaluated + 1 }
                  else y } })
  ∧ (∀ (l : Line) (k : Nat), (blanchSection l = some k ↔
        (∃ f, l.track.sections[k]? = some f ∧ f.desc.criterion = .blanch)
          ∧ ∀ j f, k < j → l.track.sections[j]? = some f → f.desc.criterion ≠ .blanch)
      ∧ (finalSection l = some k ↔
        (∃ f, l.track.sections[k]? = some f ∧ f.desc.criterion = .freeze)
          ∧ ∀ j f, k < j → l.track.sections[j]? = some f → f.desc.criterion ≠ .freeze)
      ∧ (pastFinal l k = true ↔ ∃ j, finalSection l = some j ∧ j < k))
  ∧ (∀ (l : Line) (j : Nat) (c : TrackCell) (r : Recipe), lotRecipe l c.lot = some r →
      let c₁ := if blanchSection l = some j then { c with blanchOutcome := some (blanchOutcome r c) } else c
      let c₂ := if finalSection l = some j then { c₁ with overall := some (overallOutcome r c₁) } else c₁
      let l₂ := if finalSection l = some j then countFinal c₂ l else l
      carryCell j c l = if j + 1 < l₂.track.sections.length then placeCell (j + 1) c₂ l₂ else exitTrack c₂ l₂)
  ∧ (∀ (r : Recipe) (c : TrackCell),
      let freeze := if c.freezeDeviation then CellOutcome.deviation
        else if c.freezeCredit < r.freezeCreditMin then .short else .pass
      blanchOutcome r c = (if c.blanchDeviation then .deviation
        else if c.blanchCredit < r.blanchCreditMin then .short
        else if r.blanchCreditMax ≠ 0 ∧ r.blanchCreditMax < c.blanchCredit then .overMax else .pass)
      ∧ (overallOutcome r c).severity =
          max (max (max (max (c.blanchOutcome.getD .pass).severity freeze.severity) (if c.unmeasured then 3 else 0))
            (if c.positionLost then 4 else 0)) (if c.blanchDeviation then 5 else 0)
      ∧ [CellOutcome.pass, .short, .overMax, .unmeasured, .positionLost, .deviation].map (·.severity) =
          [0, 1, 2, 3, 4, 5])
  ∧ (∀ (l : Line) (c : TrackCell) (x : Lot) (k : CellOutcome), lot? l c.lot = some x → c.overall = some k →
      (x.isOpen = true ∨ x.unevaluated ≠ word c.units) →
      countFinal c l =
        { l with
          track := { l.track with
            lots := l.track.lots.map fun y =>
              if y.number = c.lot then
                { y with
                  unevaluated := y.unevaluated - word c.units
                  outcomes :=
                    { pass := if k = .pass then y.outcomes.pass + word c.units else y.outcomes.pass
                      short := if k = .short then y.outcomes.short + word c.units else y.outcomes.short
                      overMax := if k = .overMax then y.outcomes.overMax + word c.units else y.outcomes.overMax
                      unmeasured :=
                        if k = .unmeasured then y.outcomes.unmeasured + word c.units else y.outcomes.unmeasured
                      positionLost :=
                        if k = .positionLost then y.outcomes.positionLost + word c.units else y.outcomes.positionLost
                      deviation :=
                        if k = .deviation then y.outcomes.deviation + word c.units else y.outcomes.deviation } }
              else y } })
  ∧ (∀ (l : Line) (c : TrackCell) (r : Recipe) (feed : List FeedEntry), lotRecipe l c.lot = some r →
      let mass := min 4294967295 (c.units * r.massPerUnit)
      (l.pack.feed = [] ∧ feed = [{ lot := c.lot, mass := mass, exit := now l }]
        ∨ ∃ before tail, l.pack.feed = before ++ [tail] ∧ tail.lot = c.lot
            ∧ feed = before ++ [{ tail with mass := min 4294967295 (tail.mass + mass) }]) →
      exitTrack c l =
        { l with
          pack := { l.pack with feed := feed }
          track := { l.track with
            lots := l.track.lots.map fun y =>
              if y.number = c.lot then
                { y with
                  onTrack := y.onTrack - word c.units
                  firstExit := some (y.firstExit.getD (now l))
                  massDelivered := min 4294967295 (y.massDelivered + mass) }
              else y } })
  ∧ (∀ (l : Line) (j : Nat) (f : Section) (c : TrackCell) (rest : List (Option TrackCell)),
      l.track.sections[j]? = some f →
      let arrives := f.desc.arrivalFlag && f.lastLot != c.lot
      let received (cell : TrackCell) (lots : List Lot) : Line :=
        let l' := { l with
          track := { l.track with
            lots := lots
            sections := l.track.sections.set j
              { f with
                places := some cell :: rest, lastLot := c.lot
                arrival := if arrives then some (c.lot, now l) else f.arrival } } }
        if arrives then raise .lotArrival l' else l'
      (f.places = none :: rest →
        placeCell j c l = received
          { c with
            entryTime := now l
            positionLost := c.positionLost || (chan l f.desc.motion).run.quality != .good
            unmeasured := c.unmeasured
              || (f.desc.criterion != .none && (chan l f.desc.criterionChan).run.quality != .good) }
          l.track.lots)
      ∧ ∀ r, f.places = some r :: rest →
          let worst (a b : Option CellOutcome) : Option CellOutcome :=
            if a.elim 0 (·.severity + 1) < b.elim 0 (·.severity + 1) then b else a
          let merged : TrackCell :=
            { lot := c.lot, units := min 65535 (c.units + r.units), entryTime := r.entryTime
              blanchCredit := min c.blanchCredit r.blanchCredit, freezeCredit := min c.freezeCredit r.freezeCredit
              blanchOutcome := worst c.blanchOutcome r.blanchOutcome, overall := worst c.overall r.overall
              blanchDeviation := c.blanchDeviation || r.blanchDeviation
              freezeDeviation := c.freezeDeviation || r.freezeDeviation
              unmeasured := c.unmeasured || r.unmeasured, positionLost := c.positionLost || r.positionLost
              mixed := c.mixed || r.mixed || c.lot != r.lot }
          let excess := c.units + r.units - 65535
          let past := pastFinal l j
          (c.lot = r.lot →
            placeCell j c l = received merged (l.track.lots.map fun y =>
              if y.number = c.lot then
                { y with
                  onTrack := y.onTrack - word excess
                  mixedAway := y.mixedAway + word excess
                  unevaluated := if past then y.unevaluated else y.unevaluated - word excess }
              else y))
          ∧ ∀ x, c.lot ≠ r.lot → lot? l r.lot = some x → x.verdict = .pending →
              (x.isOpen = true ∨ x.unevaluated ≠ if past then 0 else word r.units) →
              placeCell j c l = received merged (l.track.lots.map fun y =>
                if y.number = r.lot then
                  { y with
                    onTrack := y.onTrack - word r.units
                    mixedAway := y.mixedAway + word r.units
                    unevaluated := if past then y.unevaluated else y.unevaluated - word r.units
                    mixed := true }
                else if y.number = c.lot then
                  { y with
                    onTrack := y.onTrack + word (r.units - excess)
                    mergedIn := y.mergedIn + word (r.units - excess)
                    unevaluated := if past then y.unevaluated else y.unevaluated + word (r.units - excess)
                    mixed := true }
                else y))
  ∧ ∀ (l : Line) (i : Nat) (v : Int), (∀ f ∈ l.track.sections, f.desc.motion ≠ i) → (chan l i).desc.decimals ≤ 3 →
      let carried := if (chan l i).desc.decimals = 0 then v * 10
        else if (chan l i).desc.decimals = 1 then v
        else roundQuotient v (if (chan l i).desc.decimals = 2 then 10 else 100)
      trackSample i v l =
        { l with
          track := { l.track with
            sections := l.track.sections.map fun f =>
              if f.desc.criterion ≠ .none ∧ f.desc.criterionChan = i then
                let interval := f.lastCriterion.elim 0 fun t => min (now l - t).toNat f.desc.maxGap
                { f with
                  lastCriterion := some (now l)
                  places := f.places.map fun p => p.map fun c => (lotRecipe l c.lot).elim c fun r =>
                    let gain := min interval (now l - c.entryTime).toNat
                    if f.desc.criterion = .blanch then
                      { c with
                        blanchCredit :=
                          if r.blanchMin ≤ carried then min 2147483647 (c.blanchCredit + gain) else c.blanchCredit
                        blanchDeviation := c.blanchDeviation || decide (carried < r.blanchDeviation) }
                    else
                      { c with
                        freezeCredit :=
                          if carried ≤ r.freezeMax then min 2147483647 (c.freezeCredit + gain) else c.freezeCredit
                        freezeDeviation := c.freezeDeviation || decide (r.freezeDeviation < carried) } }
              else f } }
end

