-- ==== Sys2Proof/Laws/State.lean ====
section
/-! SUPPORT. One lemma per field per update of the blocks' state: what a named update leaves as it was. -/

namespace Sys2Proof.Machine

@[simp] theorem onLine_pending (s : State) (f : Line → Line) : (s.onLine f).pending = s.pending := rfl
@[simp] theorem onLine_mem (s : State) (f : Line → Line) : (s.onLine f).mem = s.mem := rfl
@[simp] theorem onLine_path (s : State) (f : Line → Line) : (s.onLine f).path = s.path := rfl
@[simp] theorem onLine_line (s : State) (f : Line → Line) : (s.onLine f).line = f s.line := rfl

@[simp] theorem raise_request (n : Notice) (l : Line) : (raise n l).request = l.request := rfl
@[simp] theorem raise_active (n : Notice) (l : Line) : (raise n l).active = l.active := rfl
@[simp] theorem raise_chans (n : Notice) (l : Line) : (raise n l).chans = l.chans := rfl
@[simp] theorem raise_matchTable (n : Notice) (l : Line) : (raise n l).matchTable = l.matchTable := rfl
@[simp] theorem raise_link (n : Notice) (l : Line) : (raise n l).link = l.link := rfl
@[simp] theorem raise_zones (n : Notice) (l : Line) : (raise n l).zones = l.zones := rfl
@[simp] theorem raise_stopHigh (n : Notice) (l : Line) : (raise n l).stopHigh = l.stopHigh := rfl
@[simp] theorem raise_track (n : Notice) (l : Line) : (raise n l).track = l.track := rfl
@[simp] theorem raise_pack (n : Notice) (l : Line) : (raise n l).pack = l.pack := rfl
@[simp] theorem raise_transfer (n : Notice) (l : Line) : (raise n l).transfer = l.transfer := rfl
@[simp] theorem raise_log (n : Notice) (l : Line) : (raise n l).log = l.log := rfl
@[simp] theorem raise_choices (n : Notice) (l : Line) : (raise n l).choices = l.choices := rfl

@[simp] theorem clearNotices_request (v : Word) (l : Line) : (clearNotices v l).request = l.request := rfl
@[simp] theorem clearNotices_active (v : Word) (l : Line) : (clearNotices v l).active = l.active := rfl
@[simp] theorem clearNotices_chans (v : Word) (l : Line) : (clearNotices v l).chans = l.chans := rfl
@[simp] theorem clearNotices_matchTable (v : Word) (l : Line) : (clearNotices v l).matchTable = l.matchTable := rfl
@[simp] theorem clearNotices_link (v : Word) (l : Line) : (clearNotices v l).link = l.link := rfl
@[simp] theorem clearNotices_zones (v : Word) (l : Line) : (clearNotices v l).zones = l.zones := rfl
@[simp] theorem clearNotices_stopHigh (v : Word) (l : Line) : (clearNotices v l).stopHigh = l.stopHigh := rfl
@[simp] theorem clearNotices_track (v : Word) (l : Line) : (clearNotices v l).track = l.track := rfl
@[simp] theorem clearNotices_pack (v : Word) (l : Line) : (clearNotices v l).pack = l.pack := rfl
@[simp] theorem clearNotices_transfer (v : Word) (l : Line) : (clearNotices v l).transfer = l.transfer := rfl
@[simp] theorem clearNotices_log (v : Word) (l : Line) : (clearNotices v l).log = l.log := rfl
@[simp] theorem clearNotices_choices (v : Word) (l : Line) : (clearNotices v l).choices = l.choices := rfl

@[simp] theorem setEnables_request (v : Word) (l : Line) : (setEnables v l).request = l.request := rfl
@[simp] theorem setEnables_active (v : Word) (l : Line) : (setEnables v l).active = l.active := rfl
@[simp] theorem setEnables_chans (v : Word) (l : Line) : (setEnables v l).chans = l.chans := rfl
@[simp] theorem setEnables_matchTable (v : Word) (l : Line) : (setEnables v l).matchTable = l.matchTable := rfl
@[simp] theorem setEnables_link (v : Word) (l : Line) : (setEnables v l).link = l.link := rfl
@[simp] theorem setEnables_zones (v : Word) (l : Line) : (setEnables v l).zones = l.zones := rfl
@[simp] theorem setEnables_stopHigh (v : Word) (l : Line) : (setEnables v l).stopHigh = l.stopHigh := rfl
@[simp] theorem setEnables_track (v : Word) (l : Line) : (setEnables v l).track = l.track := rfl
@[simp] theorem setEnables_pack (v : Word) (l : Line) : (setEnables v l).pack = l.pack := rfl
@[simp] theorem setEnables_transfer (v : Word) (l : Line) : (setEnables v l).transfer = l.transfer := rfl
@[simp] theorem setEnables_log (v : Word) (l : Line) : (setEnables v l).log = l.log := rfl
@[simp] theorem setEnables_choices (v : Word) (l : Line) : (setEnables v l).choices = l.choices := rfl

@[simp] theorem badWrite_request (a : Word) (l : Line) : (badWrite a l).request = l.request := rfl
@[simp] theorem badWrite_active (a : Word) (l : Line) : (badWrite a l).active = l.active := rfl
@[simp] theorem badWrite_chans (a : Word) (l : Line) : (badWrite a l).chans = l.chans := rfl
@[simp] theorem badWrite_matchTable (a : Word) (l : Line) : (badWrite a l).matchTable = l.matchTable := rfl
@[simp] theorem badWrite_link (a : Word) (l : Line) : (badWrite a l).link = l.link := rfl
@[simp] theorem badWrite_zones (a : Word) (l : Line) : (badWrite a l).zones = l.zones := rfl
@[simp] theorem badWrite_stopHigh (a : Word) (l : Line) : (badWrite a l).stopHigh = l.stopHigh := rfl
@[simp] theorem badWrite_track (a : Word) (l : Line) : (badWrite a l).track = l.track := rfl
@[simp] theorem badWrite_pack (a : Word) (l : Line) : (badWrite a l).pack = l.pack := rfl
@[simp] theorem badWrite_transfer (a : Word) (l : Line) : (badWrite a l).transfer = l.transfer := rfl
@[simp] theorem badWrite_log (a : Word) (l : Line) : (badWrite a l).log = l.log := rfl
@[simp] theorem badWrite_choices (a : Word) (l : Line) : (badWrite a l).choices = l.choices := rfl

@[simp] theorem tick_request (l : Line) : (tick l).request = l.request := rfl
@[simp] theorem tick_active (l : Line) : (tick l).active = l.active := rfl
@[simp] theorem tick_chans (l : Line) : (tick l).chans = l.chans := rfl
@[simp] theorem tick_matchTable (l : Line) : (tick l).matchTable = l.matchTable := rfl
@[simp] theorem tick_link (l : Line) : (tick l).link = l.link := rfl
@[simp] theorem tick_zones (l : Line) : (tick l).zones = l.zones := rfl
@[simp] theorem tick_stopHigh (l : Line) : (tick l).stopHigh = l.stopHigh := rfl
@[simp] theorem tick_track (l : Line) : (tick l).track = l.track := rfl
@[simp] theorem tick_pack (l : Line) : (tick l).pack = l.pack := rfl
@[simp] theorem tick_transfer (l : Line) : (tick l).transfer = l.transfer := rfl
@[simp] theorem tick_log (l : Line) : (tick l).log = l.log := rfl
@[simp] theorem tick_choices (l : Line) : (tick l).choices = l.choices := rfl

@[simp] theorem changeSlot_status (i : Nat) (f : Slot → Slot) (l : Line) : (changeSlot i f l).status = l.status := rfl
@[simp] theorem changeSlot_active (i : Nat) (f : Slot → Slot) (l : Line) : (changeSlot i f l).active = l.active := rfl
@[simp] theorem changeSlot_chans (i : Nat) (f : Slot → Slot) (l : Line) : (changeSlot i f l).chans = l.chans := rfl
@[simp] theorem changeSlot_matchTable (i : Nat) (f : Slot → Slot) (l : Line) : (changeSlot i f l).matchTable = l.matchTable := rfl
@[simp] theorem changeSlot_link (i : Nat) (f : Slot → Slot) (l : Line) : (changeSlot i f l).link = l.link := rfl
@[simp] theorem changeSlot_zones (i : Nat) (f : Slot → Slot) (l : Line) : (changeSlot i f l).zones = l.zones := rfl
@[simp] theorem changeSlot_stopHigh (i : Nat) (f : Slot → Slot) (l : Line) : (changeSlot i f l).stopHigh = l.stopHigh := rfl
@[simp] theorem changeSlot_track (i : Nat) (f : Slot → Slot) (l : Line) : (changeSlot i f l).track = l.track := rfl
@[simp] theorem changeSlot_pack (i : Nat) (f : Slot → Slot) (l : Line) : (changeSlot i f l).pack = l.pack := rfl
@[simp] theorem changeSlot_transfer (i : Nat) (f : Slot → Slot) (l : Line) : (changeSlot i f l).transfer = l.transfer := rfl
@[simp] theorem changeSlot_log (i : Nat) (f : Slot → Slot) (l : Line) : (changeSlot i f l).log = l.log := rfl
@[simp] theorem changeSlot_choices (i : Nat) (f : Slot → Slot) (l : Line) : (changeSlot i f l).choices = l.choices := rfl

@[simp] theorem markTaken_status (i : Nat) (l : Line) : (markTaken i l).status = l.status := rfl
@[simp] theorem markTaken_active (i : Nat) (l : Line) : (markTaken i l).active = l.active := rfl
@[simp] theorem markTaken_chans (i : Nat) (l : Line) : (markTaken i l).chans = l.chans := rfl
@[simp] theorem markTaken_matchTable (i : Nat) (l : Line) : (markTaken i l).matchTable = l.matchTable := rfl
@[simp] theorem markTaken_link (i : Nat) (l : Line) : (markTaken i l).link = l.link := rfl
@[simp] theorem markTaken_zones (i : Nat) (l : Line) : (markTaken i l).zones = l.zones := rfl
@[simp] theorem markTaken_stopHigh (i : Nat) (l : Line) : (markTaken i l).stopHigh = l.stopHigh := rfl
@[simp] theorem markTaken_track (i : Nat) (l : Line) : (markTaken i l).track = l.track := rfl
@[simp] theorem markTaken_pack (i : Nat) (l : Line) : (markTaken i l).pack = l.pack := rfl
@[simp] theorem markTaken_transfer (i : Nat) (l : Line) : (markTaken i l).transfer = l.transfer := rfl
@[simp] theorem markTaken_log (i : Nat) (l : Line) : (markTaken i l).log = l.log := rfl
@[simp] theorem markTaken_choices (i : Nat) (l : Line) : (markTaken i l).choices = l.choices := rfl

@[simp] theorem leaveQueue_status (l : Line) : (leaveQueue l).status = l.status := rfl
@[simp] theorem leaveQueue_active (l : Line) : (leaveQueue l).active = l.active := rfl
@[simp] theorem leaveQueue_chans (l : Line) : (leaveQueue l).chans = l.chans := rfl
@[simp] theorem leaveQueue_matchTable (l : Line) : (leaveQueue l).matchTable = l.matchTable := rfl
@[simp] theorem leaveQueue_link (l : Line) : (leaveQueue l).link = l.link := rfl
@[simp] theorem leaveQueue_zones (l : Line) : (leaveQueue l).zones = l.zones := rfl
@[simp] theorem leaveQueue_stopHigh (l : Line) : (leaveQueue l).stopHigh = l.stopHigh := rfl
@[simp] theorem leaveQueue_track (l : Line) : (leaveQueue l).track = l.track := rfl
@[simp] theorem leaveQueue_pack (l : Line) : (leaveQueue l).pack = l.pack := rfl
@[simp] theorem leaveQueue_transfer (l : Line) : (leaveQueue l).transfer = l.transfer := rfl
@[simp] theorem leaveQueue_log (l : Line) : (leaveQueue l).log = l.log := rfl
@[simp] theorem leaveQueue_choices (l : Line) : (leaveQueue l).choices = l.choices := rfl

@[simp] theorem submitSlot_status (i : Nat) (l : Line) : (submitSlot i l).status = l.status := rfl
@[simp] theorem submitSlot_active (i : Nat) (l : Line) : (submitSlot i l).active = l.active := rfl
@[simp] theorem submitSlot_chans (i : Nat) (l : Line) : (submitSlot i l).chans = l.chans := rfl
@[simp] theorem submitSlot_matchTable (i : Nat) (l : Line) : (submitSlot i l).matchTable = l.matchTable := rfl
@[simp] theorem submitSlot_link (i : Nat) (l : Line) : (submitSlot i l).link = l.link := rfl
@[simp] theorem submitSlot_zones (i : Nat) (l : Line) : (submitSlot i l).zones = l.zones := rfl
@[simp] theorem submitSlot_stopHigh (i : Nat) (l : Line) : (submitSlot i l).stopHigh = l.stopHigh := rfl
@[simp] theorem submitSlot_track (i : Nat) (l : Line) : (submitSlot i l).track = l.track := rfl
@[simp] theorem submitSlot_pack (i : Nat) (l : Line) : (submitSlot i l).pack = l.pack := rfl
@[simp] theorem submitSlot_transfer (i : Nat) (l : Line) : (submitSlot i l).transfer = l.transfer := rfl
@[simp] theorem submitSlot_log (i : Nat) (l : Line) : (submitSlot i l).log = l.log := rfl
@[simp] theorem submitSlot_choices (i : Nat) (l : Line) : (submitSlot i l).choices = l.choices := rfl

@[simp] theorem freeSlot_status (i : Nat) (l : Line) : (freeSlot i l).status = l.status := rfl
@[simp] theorem freeSlot_active (i : Nat) (l : Line) : (freeSlot i l).active = l.active := rfl
@[simp] theorem freeSlot_chans (i : Nat) (l : Line) : (freeSlot i l).chans = l.chans := rfl
@[simp] theorem freeSlot_matchTable (i : Nat) (l : Line) : (freeSlot i l).matchTable = l.matchTable := rfl
@[simp] theorem freeSlot_link (i : Nat) (l : Line) : (freeSlot i l).link = l.link := rfl
@[simp] theorem freeSlot_zones (i : Nat) (l : Line) : (freeSlot i l).zones = l.zones := rfl
@[simp] theorem freeSlot_stopHigh (i : Nat) (l : Line) : (freeSlot i l).stopHigh = l.stopHigh := rfl
@[simp] theorem freeSlot_track (i : Nat) (l : Line) : (freeSlot i l).track = l.track := rfl
@[simp] theorem freeSlot_pack (i : Nat) (l : Line) : (freeSlot i l).pack = l.pack := rfl
@[simp] theorem freeSlot_transfer (i : Nat) (l : Line) : (freeSlot i l).transfer = l.transfer := rfl
@[simp] theorem freeSlot_log (i : Nat) (l : Line) : (freeSlot i l).log = l.log := rfl
@[simp] theorem freeSlot_choices (i : Nat) (l : Line) : (freeSlot i l).choices = l.choices := rfl

@[simp] theorem complete_active (i : Nat) (r : Reply) (l : Line) : (complete i r l).active = l.active := rfl
@[simp] theorem complete_chans (i : Nat) (r : Reply) (l : Line) : (complete i r l).chans = l.chans := rfl
@[simp] theorem complete_matchTable (i : Nat) (r : Reply) (l : Line) : (complete i r l).matchTable = l.matchTable := rfl
@[simp] theorem complete_link (i : Nat) (r : Reply) (l : Line) : (complete i r l).link = l.link := rfl
@[simp] theorem complete_zones (i : Nat) (r : Reply) (l : Line) : (complete i r l).zones = l.zones := rfl
@[simp] theorem complete_stopHigh (i : Nat) (r : Reply) (l : Line) : (complete i r l).stopHigh = l.stopHigh := rfl
@[simp] theorem complete_track (i : Nat) (r : Reply) (l : Line) : (complete i r l).track = l.track := rfl
@[simp] theorem complete_pack (i : Nat) (r : Reply) (l : Line) : (complete i r l).pack = l.pack := rfl
@[simp] theorem complete_transfer (i : Nat) (r : Reply) (l : Line) : (complete i r l).transfer = l.transfer := rfl
@[simp] theorem complete_log (i : Nat) (r : Reply) (l : Line) : (complete i r l).log = l.log := rfl
@[simp] theorem complete_choices (i : Nat) (r : Reply) (l : Line) : (complete i r l).choices = l.choices := rfl

@[simp] theorem refuse_active (i : Nat) (r : ResultCode) (l : Line) : (refuse i r l).active = l.active := rfl
@[simp] theorem refuse_chans (i : Nat) (r : ResultCode) (l : Line) : (refuse i r l).chans = l.chans := rfl
@[simp] theorem refuse_matchTable (i : Nat) (r : ResultCode) (l : Line) : (refuse i r l).matchTable = l.matchTable := rfl
@[simp] theorem refuse_link (i : Nat) (r : ResultCode) (l : Line) : (refuse i r l).link = l.link := rfl
@[simp] theorem refuse_zones (i : Nat) (r : ResultCode) (l : Line) : (refuse i r l).zones = l.zones := rfl
@[simp] theorem refuse_stopHigh (i : Nat) (r : ResultCode) (l : Line) : (refuse i r l).stopHigh = l.stopHigh := rfl
@[simp] theorem refuse_track (i : Nat) (r : ResultCode) (l : Line) : (refuse i r l).track = l.track := rfl
@[simp] theorem refuse_pack (i : Nat) (r : ResultCode) (l : Line) : (refuse i r l).pack = l.pack := rfl
@[simp] theorem refuse_transfer (i : Nat) (r : ResultCode) (l : Line) : (refuse i r l).transfer = l.transfer := rfl
@[simp] theorem refuse_log (i : Nat) (r : ResultCode) (l : Line) : (refuse i r l).log = l.log := rfl
@[simp] theorem refuse_choices (i : Nat) (r : ResultCode) (l : Line) : (refuse i r l).choices = l.choices := rfl

@[simp] theorem changeRun_status (i : Nat) (f : ChanRun → ChanRun) (l : Line) : (changeRun i f l).status = l.status := rfl
@[simp] theorem changeRun_request (i : Nat) (f : ChanRun → ChanRun) (l : Line) : (changeRun i f l).request = l.request := rfl
@[simp] theorem changeRun_active (i : Nat) (f : ChanRun → ChanRun) (l : Line) : (changeRun i f l).active = l.active := rfl
@[simp] theorem changeRun_matchTable (i : Nat) (f : ChanRun → ChanRun) (l : Line) : (changeRun i f l).matchTable = l.matchTable := rfl
@[simp] theorem changeRun_link (i : Nat) (f : ChanRun → ChanRun) (l : Line) : (changeRun i f l).link = l.link := rfl
@[simp] theorem changeRun_zones (i : Nat) (f : ChanRun → ChanRun) (l : Line) : (changeRun i f l).zones = l.zones := rfl
@[simp] theorem changeRun_stopHigh (i : Nat) (f : ChanRun → ChanRun) (l : Line) : (changeRun i f l).stopHigh = l.stopHigh := rfl
@[simp] theorem changeRun_track (i : Nat) (f : ChanRun → ChanRun) (l : Line) : (changeRun i f l).track = l.track := rfl
@[simp] theorem changeRun_pack (i : Nat) (f : ChanRun → ChanRun) (l : Line) : (changeRun i f l).pack = l.pack := rfl
@[simp] theorem changeRun_transfer (i : Nat) (f : ChanRun → ChanRun) (l : Line) : (changeRun i f l).transfer = l.transfer := rfl
@[simp] theorem changeRun_log (i : Nat) (f : ChanRun → ChanRun) (l : Line) : (changeRun i f l).log = l.log := rfl
@[simp] theorem changeRun_choices (i : Nat) (f : ChanRun → ChanRun) (l : Line) : (changeRun i f l).choices = l.choices := rfl

@[simp] theorem refreshChannel_status (i : Nat) (l : Line) : (refreshChannel i l).status = l.status := rfl
@[simp] theorem refreshChannel_request (i : Nat) (l : Line) : (refreshChannel i l).request = l.request := rfl
@[simp] theorem refreshChannel_active (i : Nat) (l : Line) : (refreshChannel i l).active = l.active := rfl
@[simp] theorem refreshChannel_matchTable (i : Nat) (l : Line) : (refreshChannel i l).matchTable = l.matchTable := rfl
@[simp] theorem refreshChannel_link (i : Nat) (l : Line) : (refreshChannel i l).link = l.link := rfl
@[simp] theorem refreshChannel_zones (i : Nat) (l : Line) : (refreshChannel i l).zones = l.zones := rfl
@[simp] theorem refreshChannel_stopHigh (i : Nat) (l : Line) : (refreshChannel i l).stopHigh = l.stopHigh := rfl
@[simp] theorem refreshChannel_track (i : Nat) (l : Line) : (refreshChannel i l).track = l.track := rfl
@[simp] theorem refreshChannel_pack (i : Nat) (l : Line) : (refreshChannel i l).pack = l.pack := rfl
@[simp] theorem refreshChannel_transfer (i : Nat) (l : Line) : (refreshChannel i l).transfer = l.transfer := rfl
@[simp] theorem refreshChannel_log (i : Nat) (l : Line) : (refreshChannel i l).log = l.log := rfl
@[simp] theorem refreshChannel_choices (i : Nat) (l : Line) : (refreshChannel i l).choices = l.choices := rfl

@[simp] theorem refreshZone_status (z : Nat) (l : Line) : (refreshZone z l).status = l.status := rfl
@[simp] theorem refreshZone_request (z : Nat) (l : Line) : (refreshZone z l).request = l.request := rfl
@[simp] theorem refreshZone_active (z : Nat) (l : Line) : (refreshZone z l).active = l.active := rfl
@[simp] theorem refreshZone_matchTable (z : Nat) (l : Line) : (refreshZone z l).matchTable = l.matchTable := rfl
@[simp] theorem refreshZone_link (z : Nat) (l : Line) : (refreshZone z l).link = l.link := rfl
@[simp] theorem refreshZone_zones (z : Nat) (l : Line) : (refreshZone z l).zones = l.zones := rfl
@[simp] theorem refreshZone_stopHigh (z : Nat) (l : Line) : (refreshZone z l).stopHigh = l.stopHigh := rfl
@[simp] theorem refreshZone_track (z : Nat) (l : Line) : (refreshZone z l).track = l.track := rfl
@[simp] theorem refreshZone_pack (z : Nat) (l : Line) : (refreshZone z l).pack = l.pack := rfl
@[simp] theorem refreshZone_transfer (z : Nat) (l : Line) : (refreshZone z l).transfer = l.transfer := rfl
@[simp] theorem refreshZone_log (z : Nat) (l : Line) : (refreshZone z l).log = l.log := rfl
@[simp] theorem refreshZone_choices (z : Nat) (l : Line) : (refreshZone z l).choices = l.choices := rfl

@[simp] theorem safePrograms_status (z : Nat) (l : Line) : (safePrograms z l).status = l.status := rfl
@[simp] theorem safePrograms_request (z : Nat) (l : Line) : (safePrograms z l).request = l.request := rfl
@[simp] theorem safePrograms_active (z : Nat) (l : Line) : (safePrograms z l).active = l.active := rfl
@[simp] theorem safePrograms_matchTable (z : Nat) (l : Line) : (safePrograms z l).matchTable = l.matchTable := rfl
@[simp] theorem safePrograms_link (z : Nat) (l : Line) : (safePrograms z l).link = l.link := rfl
@[simp] theorem safePrograms_zones (z : Nat) (l : Line) : (safePrograms z l).zones = l.zones := rfl
@[simp] theorem safePrograms_stopHigh (z : Nat) (l : Line) : (safePrograms z l).stopHigh = l.stopHigh := rfl
@[simp] theorem safePrograms_track (z : Nat) (l : Line) : (safePrograms z l).track = l.track := rfl
@[simp] theorem safePrograms_pack (z : Nat) (l : Line) : (safePrograms z l).pack = l.pack := rfl
@[simp] theorem safePrograms_transfer (z : Nat) (l : Line) : (safePrograms z l).transfer = l.transfer := rfl
@[simp] theorem safePrograms_log (z : Nat) (l : Line) : (safePrograms z l).log = l.log := rfl
@[simp] theorem safePrograms_choices (z : Nat) (l : Line) : (safePrograms z l).choices = l.choices := rfl

@[simp] theorem safeOutputs_status (z : Nat) (l : Line) : (safeOutputs z l).status = l.status := rfl
@[simp] theorem safeOutputs_request (z : Nat) (l : Line) : (safeOutputs z l).request = l.request := rfl
@[simp] theorem safeOutputs_active (z : Nat) (l : Line) : (safeOutputs z l).active = l.active := rfl
@[simp] theorem safeOutputs_matchTable (z : Nat) (l : Line) : (safeOutputs z l).matchTable = l.matchTable := rfl
@[simp] theorem safeOutputs_link (z : Nat) (l : Line) : (safeOutputs z l).link = l.link := rfl
@[simp] theorem safeOutputs_zones (z : Nat) (l : Line) : (safeOutputs z l).zones = l.zones := rfl
@[simp] theorem safeOutputs_stopHigh (z : Nat) (l : Line) : (safeOutputs z l).stopHigh = l.stopHigh := rfl
@[simp] theorem safeOutputs_track (z : Nat) (l : Line) : (safeOutputs z l).track = l.track := rfl
@[simp] theorem safeOutputs_pack (z : Nat) (l : Line) : (safeOutputs z l).pack = l.pack := rfl
@[simp] theorem safeOutputs_transfer (z : Nat) (l : Line) : (safeOutputs z l).transfer = l.transfer := rfl
@[simp] theorem safeOutputs_log (z : Nat) (l : Line) : (safeOutputs z l).log = l.log := rfl
@[simp] theorem safeOutputs_choices (z : Nat) (l : Line) : (safeOutputs z l).choices = l.choices := rfl

@[simp] theorem faultChannels_status (n : Nat) (l : Line) : (faultChannels n l).status = l.status := rfl
@[simp] theorem faultChannels_request (n : Nat) (l : Line) : (faultChannels n l).request = l.request := rfl
@[simp] theorem faultChannels_active (n : Nat) (l : Line) : (faultChannels n l).active = l.active := rfl
@[simp] theorem faultChannels_matchTable (n : Nat) (l : Line) : (faultChannels n l).matchTable = l.matchTable := rfl
@[simp] theorem faultChannels_link (n : Nat) (l : Line) : (faultChannels n l).link = l.link := rfl
@[simp] theorem faultChannels_zones (n : Nat) (l : Line) : (faultChannels n l).zones = l.zones := rfl
@[simp] theorem faultChannels_stopHigh (n : Nat) (l : Line) : (faultChannels n l).stopHigh = l.stopHigh := rfl
@[simp] theorem faultChannels_track (n : Nat) (l : Line) : (faultChannels n l).track = l.track := rfl
@[simp] theorem faultChannels_pack (n : Nat) (l : Line) : (faultChannels n l).pack = l.pack := rfl
@[simp] theorem faultChannels_transfer (n : Nat) (l : Line) : (faultChannels n l).transfer = l.transfer := rfl
@[simp] theorem faultChannels_log (n : Nat) (l : Line) : (faultChannels n l).log = l.log := rfl
@[simp] theorem faultChannels_choices (n : Nat) (l : Line) : (faultChannels n l).choices = l.choices := rfl

@[simp] theorem setFunction_status (f : ChanFunction) (v : Int) (l : Line) : (setFunction f v l).status = l.status := rfl
@[simp] theorem setFunction_request (f : ChanFunction) (v : Int) (l : Line) : (setFunction f v l).request = l.request := rfl
@[simp] theorem setFunction_active (f : ChanFunction) (v : Int) (l : Line) : (setFunction f v l).active = l.active := rfl
@[simp] theorem setFunction_matchTable (f : ChanFunction) (v : Int) (l : Line) : (setFunction f v l).matchTable = l.matchTable := rfl
@[simp] theorem setFunction_link (f : ChanFunction) (v : Int) (l : Line) : (setFunction f v l).link = l.link := rfl
@[simp] theorem setFunction_zones (f : ChanFunction) (v : Int) (l : Line) : (setFunction f v l).zones = l.zones := rfl
@[simp] theorem setFunction_stopHigh (f : ChanFunction) (v : Int) (l : Line) : (setFunction f v l).stopHigh = l.stopHigh := rfl
@[simp] theorem setFunction_track (f : ChanFunction) (v : Int) (l : Line) : (setFunction f v l).track = l.track := rfl
@[simp] theorem setFunction_pack (f : ChanFunction) (v : Int) (l : Line) : (setFunction f v l).pack = l.pack := rfl
@[simp] theorem setFunction_transfer (f : ChanFunction) (v : Int) (l : Line) : (setFunction f v l).transfer = l.transfer := rfl
@[simp] theorem setFunction_log (f : ChanFunction) (v : Int) (l : Line) : (setFunction f v l).log = l.log := rfl
@[simp] theorem setFunction_choices (f : ChanFunction) (v : Int) (l : Line) : (setFunction f v l).choices = l.choices := rfl

@[simp] theorem changeNode_status (n : Nat) (f : Node → Node) (l : Line) : (changeNode n f l).status = l.status := rfl
@[simp] theorem changeNode_request (n : Nat) (f : Node → Node) (l : Line) : (changeNode n f l).request = l.request := rfl
@[simp] theorem changeNode_active (n : Nat) (f : Node → Node) (l : Line) : (changeNode n f l).active = l.active := rfl
@[simp] theorem changeNode_chans (n : Nat) (f : Node → Node) (l : Line) : (changeNode n f l).chans = l.chans := rfl
@[simp] theorem changeNode_matchTable (n : Nat) (f : Node → Node) (l : Line) : (changeNode n f l).matchTable = l.matchTable := rfl
@[simp] theorem changeNode_zones (n : Nat) (f : Node → Node) (l : Line) : (changeNode n f l).zones = l.zones := rfl
@[simp] theorem changeNode_stopHigh (n : Nat) (f : Node → Node) (l : Line) : (changeNode n f l).stopHigh = l.stopHigh := rfl
@[simp] theorem changeNode_track (n : Nat) (f : Node → Node) (l : Line) : (changeNode n f l).track = l.track := rfl
@[simp] theorem changeNode_pack (n : Nat) (f : Node → Node) (l : Line) : (changeNode n f l).pack = l.pack := rfl
@[simp] theorem changeNode_transfer (n : Nat) (f : Node → Node) (l : Line) : (changeNode n f l).transfer = l.transfer := rfl
@[simp] theorem changeNode_log (n : Nat) (f : Node → Node) (l : Line) : (changeNode n f l).log = l.log := rfl
@[simp] theorem changeNode_choices (n : Nat) (f : Node → Node) (l : Line) : (changeNode n f l).choices = l.choices := rfl

@[simp] theorem changeLink_status (f : Link → Link) (l : Line) : (changeLink f l).status = l.status := rfl
@[simp] theorem changeLink_request (f : Link → Link) (l : Line) : (changeLink f l).request = l.request := rfl
@[simp] theorem changeLink_active (f : Link → Link) (l : Line) : (changeLink f l).active = l.active := rfl
@[simp] theorem changeLink_chans (f : Link → Link) (l : Line) : (changeLink f l).chans = l.chans := rfl
@[simp] theorem changeLink_matchTable (f : Link → Link) (l : Line) : (changeLink f l).matchTable = l.matchTable := rfl
@[simp] theorem changeLink_zones (f : Link → Link) (l : Line) : (changeLink f l).zones = l.zones := rfl
@[simp] theorem changeLink_stopHigh (f : Link → Link) (l : Line) : (changeLink f l).stopHigh = l.stopHigh := rfl
@[simp] theorem changeLink_track (f : Link → Link) (l : Line) : (changeLink f l).track = l.track := rfl
@[simp] theorem changeLink_pack (f : Link → Link) (l : Line) : (changeLink f l).pack = l.pack := rfl
@[simp] theorem changeLink_transfer (f : Link → Link) (l : Line) : (changeLink f l).transfer = l.transfer := rfl
@[simp] theorem changeLink_log (f : Link → Link) (l : Line) : (changeLink f l).log = l.log := rfl
@[simp] theorem changeLink_choices (f : Link → Link) (l : Line) : (changeLink f l).choices = l.choices := rfl

@[simp] theorem changeZone_status (z : Nat) (f : ZoneRun → ZoneRun) (l : Line) : (changeZone z f l).status = l.status := rfl
@[simp] theorem changeZone_request (z : Nat) (f : ZoneRun → ZoneRun) (l : Line) : (changeZone z f l).request = l.request := rfl
@[simp] theorem changeZone_active (z : Nat) (f : ZoneRun → ZoneRun) (l : Line) : (changeZone z f l).active = l.active := rfl
@[simp] theorem changeZone_chans (z : Nat) (f : ZoneRun → ZoneRun) (l : Line) : (changeZone z f l).chans = l.chans := rfl
@[simp] theorem changeZone_matchTable (z : Nat) (f : ZoneRun → ZoneRun) (l : Line) : (changeZone z f l).matchTable = l.matchTable := rfl
@[simp] theorem changeZone_link (z : Nat) (f : ZoneRun → ZoneRun) (l : Line) : (changeZone z f l).link = l.link := rfl
@[simp] theorem changeZone_stopHigh (z : Nat) (f : ZoneRun → ZoneRun) (l : Line) : (changeZone z f l).stopHigh = l.stopHigh := rfl
@[simp] theorem changeZone_track (z : Nat) (f : ZoneRun → ZoneRun) (l : Line) : (changeZone z f l).track = l.track := rfl
@[simp] theorem changeZone_pack (z : Nat) (f : ZoneRun → ZoneRun) (l : Line) : (changeZone z f l).pack = l.pack := rfl
@[simp] theorem changeZone_transfer (z : Nat) (f : ZoneRun → ZoneRun) (l : Line) : (changeZone z f l).transfer = l.transfer := rfl
@[simp] theorem changeZone_log (z : Nat) (f : ZoneRun → ZoneRun) (l : Line) : (changeZone z f l).log = l.log := rfl
@[simp] theorem changeZone_choices (z : Nat) (f : ZoneRun → ZoneRun) (l : Line) : (changeZone z f l).choices = l.choices := rfl

@[simp] theorem changeLot_status (n : Nat) (f : Lot → Lot) (l : Line) : (changeLot n f l).status = l.status := rfl
@[simp] theorem changeLot_request (n : Nat) (f : Lot → Lot) (l : Line) : (changeLot n f l).request = l.request := rfl
@[simp] theorem changeLot_active (n : Nat) (f : Lot → Lot) (l : Line) : (changeLot n f l).active = l.active := rfl
@[simp] theorem changeLot_chans (n : Nat) (f : Lot → Lot) (l : Line) : (changeLot n f l).chans = l.chans := rfl
@[simp] theorem changeLot_matchTable (n : Nat) (f : Lot → Lot) (l : Line) : (changeLot n f l).matchTable = l.matchTable := rfl
@[simp] theorem changeLot_link (n : Nat) (f : Lot → Lot) (l : Line) : (changeLot n f l).link = l.link := rfl
@[simp] theorem changeLot_zones (n : Nat) (f : Lot → Lot) (l : Line) : (changeLot n f l).zones = l.zones := rfl
@[simp] theorem changeLot_stopHigh (n : Nat) (f : Lot → Lot) (l : Line) : (changeLot n f l).stopHigh = l.stopHigh := rfl
@[simp] theorem changeLot_pack (n : Nat) (f : Lot → Lot) (l : Line) : (changeLot n f l).pack = l.pack := rfl
@[simp] theorem changeLot_transfer (n : Nat) (f : Lot → Lot) (l : Line) : (changeLot n f l).transfer = l.transfer := rfl
@[simp] theorem changeLot_log (n : Nat) (f : Lot → Lot) (l : Line) : (changeLot n f l).log = l.log := rfl
@[simp] theorem changeLot_choices (n : Nat) (f : Lot → Lot) (l : Line) : (changeLot n f l).choices = l.choices := rfl

@[simp] theorem changeSection_status (i : Nat) (f : Section → Section) (l : Line) : (changeSection i f l).status = l.status := rfl
@[simp] theorem changeSection_request (i : Nat) (f : Section → Section) (l : Line) : (changeSection i f l).request = l.request := rfl
@[simp] theorem changeSection_active (i : Nat) (f : Section → Section) (l : Line) : (changeSection i f l).active = l.active := rfl
@[simp] theorem changeSection_chans (i : Nat) (f : Section → Section) (l : Line) : (changeSection i f l).chans = l.chans := rfl
@[simp] theorem changeSection_matchTable (i : Nat) (f : Section → Section) (l : Line) : (changeSection i f l).matchTable = l.matchTable := rfl
@[simp] theorem changeSection_link (i : Nat) (f : Section → Section) (l : Line) : (changeSection i f l).link = l.link := rfl
@[simp] theorem changeSection_zones (i : Nat) (f : Section → Section) (l : Line) : (changeSection i f l).zones = l.zones := rfl
@[simp] theorem changeSection_stopHigh (i : Nat) (f : Section → Section) (l : Line) : (changeSection i f l).stopHigh = l.stopHigh := rfl
@[simp] theorem changeSection_pack (i : Nat) (f : Section → Section) (l : Line) : (changeSection i f l).pack = l.pack := rfl
@[simp] theorem changeSection_transfer (i : Nat) (f : Section → Section) (l : Line) : (changeSection i f l).transfer = l.transfer := rfl
@[simp] theorem changeSection_log (i : Nat) (f : Section → Section) (l : Line) : (changeSection i f l).log = l.log := rfl
@[simp] theorem changeSection_choices (i : Nat) (f : Section → Section) (l : Line) : (changeSection i f l).choices = l.choices := rfl

@[simp] theorem changeCells_status (p : SectionDesc → Bool) (f : TrackCell → TrackCell) (l : Line) : (changeCells p f l).status = l.status := rfl
@[simp] theorem changeCells_request (p : SectionDesc → Bool) (f : TrackCell → TrackCell) (l : Line) : (changeCells p f l).request = l.request := rfl
@[simp] theorem changeCells_active (p : SectionDesc → Bool) (f : TrackCell → TrackCell) (l : Line) : (changeCells p f l).active = l.active := rfl
@[simp] theorem changeCells_chans (p : SectionDesc → Bool) (f : TrackCell → TrackCell) (l : Line) : (changeCells p f l).chans = l.chans := rfl
@[simp] theorem changeCells_matchTable (p : SectionDesc → Bool) (f : TrackCell → TrackCell) (l : Line) : (changeCells p f l).matchTable = l.matchTable := rfl
@[simp] theorem changeCells_link (p : SectionDesc → Bool) (f : TrackCell → TrackCell) (l : Line) : (changeCells p f l).link = l.link := rfl
@[simp] theorem changeCells_zones (p : SectionDesc → Bool) (f : TrackCell → TrackCell) (l : Line) : (changeCells p f l).zones = l.zones := rfl
@[simp] theorem changeCells_stopHigh (p : SectionDesc → Bool) (f : TrackCell → TrackCell) (l : Line) : (changeCells p f l).stopHigh = l.stopHigh := rfl
@[simp] theorem changeCells_pack (p : SectionDesc → Bool) (f : TrackCell → TrackCell) (l : Line) : (changeCells p f l).pack = l.pack := rfl
@[simp] theorem changeCells_transfer (p : SectionDesc → Bool) (f : TrackCell → TrackCell) (l : Line) : (changeCells p f l).transfer = l.transfer := rfl
@[simp] theorem changeCells_log (p : SectionDesc → Bool) (f : TrackCell → TrackCell) (l : Line) : (changeCells p f l).log = l.log := rfl
@[simp] theorem changeCells_choices (p : SectionDesc → Bool) (f : TrackCell → TrackCell) (l : Line) : (changeCells p f l).choices = l.choices := rfl

@[simp] theorem storeCount_status (i c : Nat) (b : Bool) (l : Line) : (storeCount i c b l).status = l.status := rfl
@[simp] theorem storeCount_request (i c : Nat) (b : Bool) (l : Line) : (storeCount i c b l).request = l.request := rfl
@[simp] theorem storeCount_active (i c : Nat) (b : Bool) (l : Line) : (storeCount i c b l).active = l.active := rfl
@[simp] theorem storeCount_chans (i c : Nat) (b : Bool) (l : Line) : (storeCount i c b l).chans = l.chans := rfl
@[simp] theorem storeCount_matchTable (i c : Nat) (b : Bool) (l : Line) : (storeCount i c b l).matchTable = l.matchTable := rfl
@[simp] theorem storeCount_link (i c : Nat) (b : Bool) (l : Line) : (storeCount i c b l).link = l.link := rfl
@[simp] theorem storeCount_zones (i c : Nat) (b : Bool) (l : Line) : (storeCount i c b l).zones = l.zones := rfl
@[simp] theorem storeCount_stopHigh (i c : Nat) (b : Bool) (l : Line) : (storeCount i c b l).stopHigh = l.stopHigh := rfl
@[simp] theorem storeCount_pack (i c : Nat) (b : Bool) (l : Line) : (storeCount i c b l).pack = l.pack := rfl
@[simp] theorem storeCount_transfer (i c : Nat) (b : Bool) (l : Line) : (storeCount i c b l).transfer = l.transfer := rfl
@[simp] theorem storeCount_log (i c : Nat) (b : Bool) (l : Line) : (storeCount i c b l).log = l.log := rfl
@[simp] theorem storeCount_choices (i c : Nat) (b : Bool) (l : Line) : (storeCount i c b l).choices = l.choices := rfl

@[simp] theorem emptyCells_status (n : Nat) (l : Line) : (emptyCells n l).status = l.status := rfl
@[simp] theorem emptyCells_request (n : Nat) (l : Line) : (emptyCells n l).request = l.request := rfl
@[simp] theorem emptyCells_active (n : Nat) (l : Line) : (emptyCells n l).active = l.active := rfl
@[simp] theorem emptyCells_chans (n : Nat) (l : Line) : (emptyCells n l).chans = l.chans := rfl
@[simp] theorem emptyCells_matchTable (n : Nat) (l : Line) : (emptyCells n l).matchTable = l.matchTable := rfl
@[simp] theorem emptyCells_link (n : Nat) (l : Line) : (emptyCells n l).link = l.link := rfl
@[simp] theorem emptyCells_zones (n : Nat) (l : Line) : (emptyCells n l).zones = l.zones := rfl
@[simp] theorem emptyCells_stopHigh (n : Nat) (l : Line) : (emptyCells n l).stopHigh = l.stopHigh := rfl
@[simp] theorem emptyCells_pack (n : Nat) (l : Line) : (emptyCells n l).pack = l.pack := rfl
@[simp] theorem emptyCells_transfer (n : Nat) (l : Line) : (emptyCells n l).transfer = l.transfer := rfl
@[simp] theorem emptyCells_log (n : Nat) (l : Line) : (emptyCells n l).log = l.log := rfl
@[simp] theorem emptyCells_choices (n : Nat) (l : Line) : (emptyCells n l).choices = l.choices := rfl

@[simp] theorem changePallet_status (n : Nat) (f : Pallet → Pallet) (l : Line) : (changePallet n f l).status = l.status := rfl
@[simp] theorem changePallet_request (n : Nat) (f : Pallet → Pallet) (l : Line) : (changePallet n f l).request = l.request := rfl
@[simp] theorem changePallet_active (n : Nat) (f : Pallet → Pallet) (l : Line) : (changePallet n f l).active = l.active := rfl
@[simp] theorem changePallet_chans (n : Nat) (f : Pallet → Pallet) (l : Line) : (changePallet n f l).chans = l.chans := rfl
@[simp] theorem changePallet_matchTable (n : Nat) (f : Pallet → Pallet) (l : Line) : (changePallet n f l).matchTable = l.matchTable := rfl
@[simp] theorem changePallet_link (n : Nat) (f : Pallet → Pallet) (l : Line) : (changePallet n f l).link = l.link := rfl
@[simp] theorem changePallet_zones (n : Nat) (f : Pallet → Pallet) (l : Line) : (changePallet n f l).zones = l.zones := rfl
@[simp] theorem changePallet_stopHigh (n : Nat) (f : Pallet → Pallet) (l : Line) : (changePallet n f l).stopHigh = l.stopHigh := rfl
@[simp] theorem changePallet_track (n : Nat) (f : Pallet → Pallet) (l : Line) : (changePallet n f l).track = l.track := rfl
@[simp] theorem changePallet_transfer (n : Nat) (f : Pallet → Pallet) (l : Line) : (changePallet n f l).transfer = l.transfer := rfl
@[simp] theorem changePallet_log (n : Nat) (f : Pallet → Pallet) (l : Line) : (changePallet n f l).log = l.log := rfl
@[simp] theorem changePallet_choices (n : Nat) (f : Pallet → Pallet) (l : Line) : (changePallet n f l).choices = l.choices := rfl

@[simp] theorem storePallet_status (n : Nat) (l : Line) : (storePallet n l).status = l.status := rfl
@[simp] theorem storePallet_request (n : Nat) (l : Line) : (storePallet n l).request = l.request := rfl
@[simp] theorem storePallet_active (n : Nat) (l : Line) : (storePallet n l).active = l.active := rfl
@[simp] theorem storePallet_chans (n : Nat) (l : Line) : (storePallet n l).chans = l.chans := rfl
@[simp] theorem storePallet_matchTable (n : Nat) (l : Line) : (storePallet n l).matchTable = l.matchTable := rfl
@[simp] theorem storePallet_link (n : Nat) (l : Line) : (storePallet n l).link = l.link := rfl
@[simp] theorem storePallet_zones (n : Nat) (l : Line) : (storePallet n l).zones = l.zones := rfl
@[simp] theorem storePallet_stopHigh (n : Nat) (l : Line) : (storePallet n l).stopHigh = l.stopHigh := rfl
@[simp] theorem storePallet_track (n : Nat) (l : Line) : (storePallet n l).track = l.track := rfl
@[simp] theorem storePallet_transfer (n : Nat) (l : Line) : (storePallet n l).transfer = l.transfer := rfl
@[simp] theorem storePallet_log (n : Nat) (l : Line) : (storePallet n l).log = l.log := rfl
@[simp] theorem storePallet_choices (n : Nat) (l : Line) : (storePallet n l).choices = l.choices := rfl

@[simp] theorem setFeed_status (e : List FeedEntry) (l : Line) : (setFeed e l).status = l.status := rfl
@[simp] theorem setFeed_request (e : List FeedEntry) (l : Line) : (setFeed e l).request = l.request := rfl
@[simp] theorem setFeed_active (e : List FeedEntry) (l : Line) : (setFeed e l).active = l.active := rfl
@[simp] theorem setFeed_chans (e : List FeedEntry) (l : Line) : (setFeed e l).chans = l.chans := rfl
@[simp] theorem setFeed_matchTable (e : List FeedEntry) (l : Line) : (setFeed e l).matchTable = l.matchTable := rfl
@[simp] theorem setFeed_link (e : List FeedEntry) (l : Line) : (setFeed e l).link = l.link := rfl
@[simp] theorem setFeed_zones (e : List FeedEntry) (l : Line) : (setFeed e l).zones = l.zones := rfl
@[simp] theorem setFeed_stopHigh (e : List FeedEntry) (l : Line) : (setFeed e l).stopHigh = l.stopHigh := rfl
@[simp] theorem setFeed_track (e : List FeedEntry) (l : Line) : (setFeed e l).track = l.track := rfl
@[simp] theorem setFeed_transfer (e : List FeedEntry) (l : Line) : (setFeed e l).transfer = l.transfer := rfl
@[simp] theorem setFeed_log (e : List FeedEntry) (l : Line) : (setFeed e l).log = l.log := rfl
@[simp] theorem setFeed_choices (e : List FeedEntry) (l : Line) : (setFeed e l).choices = l.choices := rfl

@[simp] theorem writeRing_status (e : RingEntry) (l : Line) : (writeRing e l).status = l.status := rfl
@[simp] theorem writeRing_request (e : RingEntry) (l : Line) : (writeRing e l).request = l.request := rfl
@[simp] theorem writeRing_active (e : RingEntry) (l : Line) : (writeRing e l).active = l.active := rfl
@[simp] theorem writeRing_chans (e : RingEntry) (l : Line) : (writeRing e l).chans = l.chans := rfl
@[simp] theorem writeRing_matchTable (e : RingEntry) (l : Line) : (writeRing e l).matchTable = l.matchTable := rfl
@[simp] theorem writeRing_link (e : RingEntry) (l : Line) : (writeRing e l).link = l.link := rfl
@[simp] theorem writeRing_zones (e : RingEntry) (l : Line) : (writeRing e l).zones = l.zones := rfl
@[simp] theorem writeRing_stopHigh (e : RingEntry) (l : Line) : (writeRing e l).stopHigh = l.stopHigh := rfl
@[simp] theorem writeRing_track (e : RingEntry) (l : Line) : (writeRing e l).track = l.track := rfl
@[simp] theorem writeRing_transfer (e : RingEntry) (l : Line) : (writeRing e l).transfer = l.transfer := rfl
@[simp] theorem writeRing_log (e : RingEntry) (l : Line) : (writeRing e l).log = l.log := rfl
@[simp] theorem writeRing_choices (e : RingEntry) (l : Line) : (writeRing e l).choices = l.choices := rfl

@[simp] theorem setLane_status (x : Lane) (l : Line) : (setLane x l).status = l.status := rfl
@[simp] theorem setLane_request (x : Lane) (l : Line) : (setLane x l).request = l.request := rfl
@[simp] theorem setLane_active (x : Lane) (l : Line) : (setLane x l).active = l.active := rfl
@[simp] theorem setLane_matchTable (x : Lane) (l : Line) : (setLane x l).matchTable = l.matchTable := rfl
@[simp] theorem setLane_link (x : Lane) (l : Line) : (setLane x l).link = l.link := rfl
@[simp] theorem setLane_zones (x : Lane) (l : Line) : (setLane x l).zones = l.zones := rfl
@[simp] theorem setLane_stopHigh (x : Lane) (l : Line) : (setLane x l).stopHigh = l.stopHigh := rfl
@[simp] theorem setLane_track (x : Lane) (l : Line) : (setLane x l).track = l.track := rfl
@[simp] theorem setLane_transfer (x : Lane) (l : Line) : (setLane x l).transfer = l.transfer := rfl
@[simp] theorem setLane_log (x : Lane) (l : Line) : (setLane x l).log = l.log := rfl
@[simp] theorem setLane_choices (x : Lane) (l : Line) : (setLane x l).choices = l.choices := rfl

@[simp] theorem freePath_status (l : Line) : (freePath l).status = l.status := rfl
@[simp] theorem freePath_request (l : Line) : (freePath l).request = l.request := rfl
@[simp] theorem freePath_active (l : Line) : (freePath l).active = l.active := rfl
@[simp] theorem freePath_matchTable (l : Line) : (freePath l).matchTable = l.matchTable := rfl
@[simp] theorem freePath_link (l : Line) : (freePath l).link = l.link := rfl
@[simp] theorem freePath_zones (l : Line) : (freePath l).zones = l.zones := rfl
@[simp] theorem freePath_stopHigh (l : Line) : (freePath l).stopHigh = l.stopHigh := rfl
@[simp] theorem freePath_track (l : Line) : (freePath l).track = l.track := rfl
@[simp] theorem freePath_pack (l : Line) : (freePath l).pack = l.pack := rfl
@[simp] theorem freePath_log (l : Line) : (freePath l).log = l.log := rfl
@[simp] theorem freePath_choices (l : Line) : (freePath l).choices = l.choices := rfl

@[simp] theorem returnReservation_status (l : Line) : (returnReservation l).status = l.status := rfl
@[simp] theorem returnReservation_request (l : Line) : (returnReservation l).request = l.request := rfl
@[simp] theorem returnReservation_active (l : Line) : (returnReservation l).active = l.active := rfl
@[simp] theorem returnReservation_chans (l : Line) : (returnReservation l).chans = l.chans := rfl
@[simp] theorem returnReservation_matchTable (l : Line) : (returnReservation l).matchTable = l.matchTable := rfl
@[simp] theorem returnReservation_link (l : Line) : (returnReservation l).link = l.link := rfl
@[simp] theorem returnReservation_zones (l : Line) : (returnReservation l).zones = l.zones := rfl
@[simp] theorem returnReservation_stopHigh (l : Line) : (returnReservation l).stopHigh = l.stopHigh := rfl
@[simp] theorem returnReservation_track (l : Line) : (returnReservation l).track = l.track := rfl
@[simp] theorem returnReservation_pack (l : Line) : (returnReservation l).pack = l.pack := rfl
@[simp] theorem returnReservation_transfer (l : Line) : (returnReservation l).transfer = l.transfer := rfl
@[simp] theorem returnReservation_choices (l : Line) : (returnReservation l).choices = l.choices := rfl

@[simp] theorem stopRises_status (l : Line) : (stopRises l).status = l.status := rfl
@[simp] theorem stopRises_request (l : Line) : (stopRises l).request = l.request := rfl
@[simp] theorem stopRises_active (l : Line) : (stopRises l).active = l.active := rfl
@[simp] theorem stopRises_chans (l : Line) : (stopRises l).chans = l.chans := rfl
@[simp] theorem stopRises_matchTable (l : Line) : (stopRises l).matchTable = l.matchTable := rfl
@[simp] theorem stopRises_link (l : Line) : (stopRises l).link = l.link := rfl
@[simp] theorem stopRises_zones (l : Line) : (stopRises l).zones = l.zones := rfl
@[simp] theorem stopRises_track (l : Line) : (stopRises l).track = l.track := rfl
@[simp] theorem stopRises_pack (l : Line) : (stopRises l).pack = l.pack := rfl
@[simp] theorem stopRises_transfer (l : Line) : (stopRises l).transfer = l.transfer := rfl
@[simp] theorem stopRises_log (l : Line) : (stopRises l).log = l.log := rfl
@[simp] theorem stopRises_choices (l : Line) : (stopRises l).choices = l.choices := rfl

end Sys2Proof.Machine
end

