-- ==== Sys2Proof/Laws/Log.lean ====
section
/-! SUPPORT. The record log's operations: what each does to the indices, the used count and the reservations, and that each
keeps the log sound. -/

namespace Sys2Proof.Machine

/-- The part of `logSound` that speaks of the log alone. -/
def RecordLog.Sound (g : RecordLog) : Prop :=
  g.producer < Config.logCount ∧ g.consumer < Config.logCount ∧ (g.full = true → g.producer = g.consumer)
    ∧ usedCount g + g.reserved ≤ Config.logCount

theorem logSound_iff (l : Line) : logSound l ↔ l.log.Sound := Iff.rfl

theorem logSound_congr {l l' : Line} (e : l'.log = l.log) (h : logSound l) : logSound l' := by
  unfold logSound at *; rw [e]; exact h

theorem usedCount_le (g : RecordLog) : usedCount g ≤ Config.logCount := by
  unfold usedCount
  split
  · exact Nat.le_refl _
  · exact Nat.le_of_lt (Nat.mod_lt _ (by decide))

/-- A record written into a log with room takes one entry. -/
theorem appendRecord_used (g : RecordLog) (k : RecordKind) (t : Word) (p : List Word) (h : g.Sound)
    (room : usedCount g < Config.logCount) : usedCount (appendRecord g k t p) = usedCount g + 1 := by
  obtain ⟨hp, hc, hf, _⟩ := h
  have nf : g.full = false := by
    cases e : g.full
    · rfl
    · simp [usedCount, e] at room
  simp only [usedCount, nf, Bool.false_eq_true, if_false, Config.logCount] at *
  simp only [appendRecord, Config.logCount, beq_iff_eq]
  split <;> omega

theorem appendRecord_sound (g : RecordLog) (k : RecordKind) (t : Word) (p : List Word) (h : g.Sound)
    (room : usedCount g + g.reserved < Config.logCount) :
    (appendRecord g k t p).Sound ∧ (appendRecord g k t p).reserved = g.reserved := by
  have used := appendRecord_used g k t p h (by omega)
  refine ⟨⟨Nat.mod_lt _ (by decide), h.2.1, fun e => ?_, ?_⟩, rfl⟩
  · simpa [appendRecord] using e
  · rw [used]
    show usedCount g + 1 + g.reserved ≤ _
    omega

theorem judgeThreshold_log (l : Line) : (judgeThreshold l).log = l.log := by
  unfold judgeThreshold; split <;> rfl

/-- A grant the log can give keeps it sound (R171). -/
theorem grant_sound (n : Nat) (l : Line) (h : logSound l) (can : canGrant l n = true) : logSound (grant n l) := by
  refine logSound_congr (l := { l with log := { l.log with reserved := l.log.reserved + n } }) (judgeThreshold_log _) ?_
  obtain ⟨a, b, c, d⟩ := h
  refine ⟨a, b, c, ?_⟩
  have can : n ≤ Config.logCount - usedCount l.log - l.log.reserved := of_decide_eq_true can
  show usedCount l.log + (l.log.reserved + n) ≤ _
  omega

theorem grant_log (n : Nat) (l : Line) : (grant n l).log = { l.log with reserved := l.log.reserved + n } :=
  judgeThreshold_log _

theorem returnReservation_sound (l : Line) (h : logSound l) : logSound (returnReservation l) := by
  obtain ⟨a, b, c, d⟩ := h
  refine ⟨a, b, c, ?_⟩
  show usedCount l.log + (l.log.reserved - 1) ≤ _
  omega

/-- A reserved record turns one reservation into one used entry (R171). -/
theorem writeReserved_log (k : RecordKind) (p : List Word) (l : Line) (h : logSound l) (some_ : 0 < l.log.reserved) :
    usedCount (writeReserved k p l).log = usedCount l.log + 1
      ∧ (writeReserved k p l).log.reserved = l.log.reserved - 1
      ∧ (writeReserved k p l).log.seq = l.log.seq + 1
      ∧ (writeReserved k p l).log.consumer = l.log.consumer
      ∧ (writeReserved k p l).log.entries = change l.log.entries l.log.producer fun _ =>
          some { seq := l.log.seq, kind := k, time := now l, payload := p } := by
  have room : usedCount l.log < Config.logCount := by have := h.2.2.2; omega
  unfold writeReserved
  rw [if_pos some_]
  exact ⟨appendRecord_used l.log k (now l) p h room, rfl, rfl, rfl, rfl⟩

theorem writeReserved_sound (k : RecordKind) (p : List Word) (l : Line) (h : logSound l) :
    logSound (writeReserved k p l) := by
  by_cases some_ : 0 < l.log.reserved
  · obtain ⟨u, r, _, c, _⟩ := writeReserved_log k p l h some_
    have e : (writeReserved k p l).log = { appendRecord l.log k (now l) p with reserved := l.log.reserved - 1 } := by
      unfold writeReserved; rw [if_pos some_]; rfl
    refine ⟨?_, by rw [c]; exact h.2.1, fun f => ?_, ?_⟩
    · rw [e]; exact Nat.mod_lt _ (by decide)
    · rw [e] at f ⊢
      simpa [appendRecord] using f
    · rw [u, r]; have := h.2.2.2; omega
  · unfold writeReserved; rw [if_neg some_]; exact h

/-- An unreserved record is written or dropped, and keeps the log sound (R172). -/
theorem offer_sound (k : RecordKind) (p : List Word) (l : Line) (h : logSound l) : logSound (offer k p l) := by
  unfold offer
  split
  · next room =>
    refine logSound_congr (l := { l with log := appendRecord l.log k (now l) p }) (judgeThreshold_log _) ?_
    refine (appendRecord_sound l.log k (now l) p h ?_).1
    unfold freeUnreserved at room; omega
  · exact logSound_congr (l := l) rfl h |> fun ⟨a, b, c, d⟩ => ⟨a, b, c, d⟩

theorem releaseValid_iff (g : RecordLog) (v : Nat) :
    releaseValid g v = true ↔ v < Config.logCount ∧ 1 ≤ releaseDistance g v ∧ releaseDistance g v ≤ usedCount g := by
  unfold releaseValid
  rw [Bool.and_eq_true, Bool.and_eq_true]
  exact ⟨fun h => ⟨of_decide_eq_true h.1.1, of_decide_eq_true h.1.2, of_decide_eq_true h.2⟩,
    fun h => ⟨⟨decide_eq_true h.1, decide_eq_true h.2.1⟩, decide_eq_true h.2.2⟩⟩

/-- A valid release frees as many entries as its distance (R173). -/
theorem release_used (g : RecordLog) (v : Nat) (h : g.Sound) (ok : releaseValid g v = true) :
    usedCount { g with consumer := v, full := false } = usedCount g - releaseDistance g v := by
  obtain ⟨hp, hc, hf, _⟩ := h
  obtain ⟨o1, o2, o3⟩ := (releaseValid_iff g v).mp ok
  unfold releaseDistance usedCount Config.logCount at *
  simp only [Bool.false_eq_true, if_false]
  cases e : g.full
  · simp only [e, Bool.false_eq_true, if_false, and_false] at *
    omega
  · have := hf e
    simp only [e, if_true, and_true] at *
    split at o2 <;> simp_all <;> omega

theorem release_sound (l : Line) (v : Nat) (h : logSound l) (ok : releaseValid l.log v = true) :
    logSound { l with log := { l.log with consumer := v, full := false } } := by
  have u := release_used l.log v h ok
  obtain ⟨a, b, c, d⟩ := h
  refine ⟨a, ?_, fun e => ?_, ?_⟩
  · exact ((releaseValid_iff _ _).mp ok).1
  · cases e
  · show usedCount { l.log with consumer := v, full := false } + l.log.reserved ≤ _
    rw [u]; omega

end Sys2Proof.Machine
end

