-- ==== Sys2Proof/Laws/Frames.lean ====
section
/-! SUPPORT. What the plant blocks (channels' output values, zones, track, pack, transfer, log) may change of each other
within one event: one lemma per shared operation. -/

namespace Sys2Proof.Machine

/-! ## The frame -/

/-- A channel without the values its zone and its unit give it. -/
def Channel.frame (c : Channel) : Channel :=
  { c with run := { c.run with programValue := 0, functionValue := 0, applied := 0, appliedRaw := 0 } }

/-- The state the plant blocks leave alone: requests, configuration, link, straps of the line, the status block but its
notices, and the channels but their program, function and applied values. -/
def Line.frame (l : Line) : Line :=
  { l with
    status := { l.status with notices := 0 }
    chans := l.chans.map Channel.frame
    zones := []
    track := Line.reset.track
    pack := Line.reset.pack
    transfer := Line.reset.transfer
    log := Line.reset.log
    choices := 0 }

/-- `l'` differs from `l` only in what the plant blocks may change; no notice has been cleared, every output still has
in force the value its zone's state gives it, and the record log is still within its bound. -/
structure Within (l l' : Line) : Prop where
  frame   : l'.frame = l.frame
  notices : ∀ n, noticeSet l n = true → noticeSet l' n = true
  outputs : outputsSound l → outputsSound l'
  log     : logSound l → logSound l'

/-- The program values of the channels. -/
def programValues (l : Line) : List Int := l.chans.map (·.run.programValue)

/-- The same, and no zone and no program value has changed. -/
structure Still (l l' : Line) : Prop where
  within : Within l l'
  same   : (l'.zones, programValues l') = (l.zones, programValues l)

theorem Still.zones {l l' : Line} (h : Still l l') : l'.zones = l.zones := congrArg Prod.fst h.same
theorem Still.programs {l l' : Line} (h : Still l l') : programValues l' = programValues l := congrArg Prod.snd h.same

theorem programValue_congr {l l' : Line} (h : programValues l' = programValues l) (i : Nat) :
    (chan l' i).run.programValue = (chan l i).run.programValue := by
  have e : ∀ xs : List Channel, (xs.getD i Channel.unused).run.programValue
      = (xs.map (·.run.programValue)).getD i Channel.unused.run.programValue := fun xs => by
    simp only [List.getD_eq_getElem?_getD, List.getElem?_map]
    cases xs[i]? <;> rfl
  simp only [chan]
  rw [e, e]
  exact congrArg (·.getD i Channel.unused.run.programValue) h

theorem Within.refl (l : Line) : Within l l := ⟨rfl, fun _ h => h, id, id⟩
theorem Within.trans {a b c : Line} (x : Within a b) (y : Within b c) : Within a c :=
  ⟨y.frame.trans x.frame, fun n h => y.notices n (x.notices n h), fun h => y.outputs (x.outputs h),
    fun h => y.log (x.log h)⟩
theorem Still.refl (l : Line) : Still l l := ⟨.refl l, rfl⟩
theorem Still.trans {a b c : Line} (x : Still a b) (y : Still b c) : Still a c :=
  ⟨x.within.trans y.within, y.same.trans x.same⟩

theorem Within.request {l l' : Line} (h : Within l l') : l'.request = l.request := by
  have e := congrArg (fun x : Line => x.request) h.frame
  exact e
theorem Within.active {l l' : Line} (h : Within l l') : l'.active = l.active := by
  have e := congrArg (fun x : Line => x.active) h.frame
  exact e
theorem Within.matchTable {l l' : Line} (h : Within l l') : l'.matchTable = l.matchTable := by
  have e := congrArg (fun x : Line => x.matchTable) h.frame
  exact e
theorem Within.link {l l' : Line} (h : Within l l') : l'.link = l.link := by
  have e := congrArg (fun x : Line => x.link) h.frame
  exact e
theorem Within.stopHigh {l l' : Line} (h : Within l l') : l'.stopHigh = l.stopHigh := by
  have e := congrArg (fun x : Line => x.stopHigh) h.frame
  exact e
theorem Within.now {l l' : Line} (h : Within l l') : Machine.now l' = Machine.now l := by
  have e := congrArg (fun x : Line => x.status.time) h.frame
  exact e
theorem Within.chans {l l' : Line} (h : Within l l') : l'.chans.map Channel.frame = l.chans.map Channel.frame := by
  have e := congrArg (fun x : Line => x.chans) h.frame
  exact e

theorem Within.chan {l l' : Line} (h : Within l l') (i : Nat) :
    (Machine.chan l' i).frame = (Machine.chan l i).frame := by
  have e : ∀ xs : List Channel,
      (xs.getD i Channel.unused).frame = (xs.map Channel.frame).getD i Channel.unused.frame := fun xs => by
    simp only [List.getD_eq_getElem?_getD, List.getElem?_map]
    cases xs[i]? <;> rfl
  simp only [Machine.chan]
  rw [e, e, h.chans]

theorem Within.foldl {α : Type} {f : Line → α → Line} (h : ∀ l a, Within l (f l a)) :
    ∀ (xs : List α) (l : Line), Within l (xs.foldl f l)
  | [], l => .refl l
  | x :: xs, l => (h l x).trans (Within.foldl h xs (f l x))

theorem Still.foldl {α : Type} {f : Line → α → Line} (h : ∀ l a, Still l (f l a)) :
    ∀ (xs : List α) (l : Line), Still l (xs.foldl f l)
  | [], l => .refl l
  | x :: xs, l => (h l x).trans (Still.foldl h xs (f l x))

theorem Still.foldr {α : Type} {f : α → Line → Line} (h : ∀ l a, Still l (f a l)) :
    ∀ (xs : List α) (l : Line), Still l (xs.foldr f l)
  | [], l => .refl l
  | x :: xs, l => (Still.foldr h xs l).trans (h _ x)

/-! ## Notices -/

theorem or_mask_ne (w m k : BitVec 18) (h : w &&& k ≠ 0) : (w ||| m) &&& k ≠ 0 := by
  intro c
  apply h
  have d : (w ||| m) &&& k = (w &&& k) ||| (m &&& k) := by ext i hi; simp [Bool.and_or_distrib_right]
  rw [d] at c
  ext i hi
  have := congrArg (fun x => x.getLsbD i) c
  simp at this
  simp
  intro hw
  have := this.1
  simp_all

theorem raise_noticeSet (n m : Notice) (l : Line) (h : noticeSet l m = true) : noticeSet (raise n l) m = true := by
  simp only [noticeSet, raise, bne_iff_ne] at h ⊢
  exact or_mask_ne _ _ _ h

/-- Raising a notice leaves every other as it was. -/
theorem noticeSet_raise_ne {m n : Notice} (l : Line) (h : n ≠ m) : noticeSet (raise m l) n = noticeSet l n := by
  unfold noticeSet raise
  have : m.mask &&& n.mask = 0 := by cases m <;> cases n <;> first | exact absurd rfl h | decide
  dsimp only
  rw [show (l.status.notices ||| m.mask) &&& n.mask = l.status.notices &&& n.mask by
    rw [BitVec.and_comm, BitVec.and_or_distrib_left, BitVec.and_comm n.mask m.mask, this]
    simp [BitVec.and_comm]]

theorem raise_noticeSet_self (n : Notice) (l : Line) : noticeSet (raise n l) n = true := by
  simp only [noticeSet, raise, bne_iff_ne]
  have : ∀ w : BitVec 18, (w ||| n.mask) &&& n.mask = n.mask := fun w => by
    ext i hi; simp only [BitVec.getElem_and, BitVec.getElem_or]; cases w[i] <;> simp
  rw [this]
  cases n <;> decide

theorem raise_still (n : Notice) (l : Line) : Still l (raise n l) :=
  ⟨⟨rfl, fun m h => raise_noticeSet n m l h, id, id⟩, rfl⟩

theorem raise_within (n : Notice) (l : Line) : Within l (raise n l) := (raise_still n l).within

/-! ## Channels -/

theorem refresh_frame (st : Option ZoneState) (c : Channel) : (refresh st c).frame = c.frame := by
  unfold refresh; split <;> rfl

theorem map_frame {f : Channel → Channel} (h : ∀ c, (f c).frame = c.frame) (xs : List Channel) :
    (xs.map f).map Channel.frame = xs.map Channel.frame := by
  rw [List.map_map]; exact List.map_congr_left fun c _ => h c

theorem modify_frame {f : Channel → Channel} (h : ∀ c, (f c).frame = c.frame) (xs : List Channel) (i : Nat) :
    (xs.modify i f).map Channel.frame = xs.map Channel.frame := by
  apply List.ext_getElem?
  intro k
  simp only [List.getElem?_map, List.getElem?_modify]
  cases xs[k]? with
  | none => rfl
  | some c => by_cases e : i = k <;> simp [e, h]

/-- The applied value and applied raw of a channel are those of its owner zone's state. -/
def Channel.Settled (st : Option ZoneState) (c : Channel) : Prop :=
  c.desc.kind.drives = true → c.run.applied = appliedValue st c ∧ c.run.appliedRaw = rawOfApplied c c.run.applied

theorem refresh_settled (st : Option ZoneState) (c : Channel) : (refresh st c).Settled st := by
  intro _
  unfold refresh
  split
  · exact ⟨rfl, rfl⟩
  · next h => rw [refresh, if_neg h] at *; contradiction

theorem refresh_desc (st : Option ZoneState) (c : Channel) : (refresh st c).desc = c.desc := by
  unfold refresh; split <;> rfl

theorem outputsSound_iff (l : Line) : outputsSound l ↔ ∀ c ∈ l.chans, c.Settled (ownerState l c.desc) := Iff.rfl

/-- A change of the channel table alone that leaves every channel's frame and settles every channel. -/
theorem chans_within {l : Line} {cs : List Channel} (h : cs.map Channel.frame = l.chans.map Channel.frame)
    (s : outputsSound l → ∀ c ∈ cs, c.Settled (ownerState l c.desc)) : Within l { l with chans := cs } :=
  ⟨by simp only [Line.frame, h], fun _ h => h, s, id⟩

/-- A change that leaves the program values too. -/
theorem chans_still {l : Line} {cs : List Channel} (h : cs.map Channel.frame = l.chans.map Channel.frame)
    (p : cs.map (·.run.programValue) = l.chans.map (·.run.programValue))
    (s : outputsSound l → ∀ c ∈ cs, c.Settled (ownerState l c.desc)) : Still l { l with chans := cs } :=
  ⟨chans_within h s, congrArg (Prod.mk l.zones) p⟩

theorem refresh_program (st : Option ZoneState) (c : Channel) : (refresh st c).run.programValue = c.run.programValue := by
  unfold refresh; split <;> rfl

theorem map_programs {f : Channel → Channel} (h : ∀ c, (f c).run.programValue = c.run.programValue) (xs : List Channel) :
    (xs.map f).map (·.run.programValue) = xs.map (·.run.programValue) := by
  rw [List.map_map]; exact List.map_congr_left fun c _ => h c

theorem modify_programs {f : Channel → Channel} (h : ∀ c, (f c).run.programValue = c.run.programValue)
    (xs : List Channel) (i : Nat) : (xs.modify i f).map (·.run.programValue) = xs.map (·.run.programValue) := by
  apply List.ext_getElem?
  intro k
  simp only [List.getElem?_map, List.getElem?_modify]
  cases xs[k]? with
  | none => rfl
  | some c => by_cases e : i = k <;> simp [e, h]

theorem modify_settled {l : Line} (i : Nat) (f : Channel → Channel)
    (hf : ∀ c, (f c).Settled (ownerState l (f c).desc)) (h : outputsSound l) :
    ∀ c ∈ l.chans.modify i f, c.Settled (ownerState l c.desc) := by
  intro c hc
  obtain ⟨k, hk⟩ := List.mem_iff_getElem?.mp hc
  rw [List.getElem?_modify] at hk
  cases hx : l.chans[k]? with
  | none => rw [hx] at hk; simp at hk
  | some x =>
    rw [hx] at hk
    by_cases e : i = k
    · simp [e] at hk; rw [← hk]; exact hf x
    · simp [e] at hk; rw [← hk]; exact h x (List.mem_iff_getElem?.mpr ⟨k, hx⟩)

theorem map_settled {l : Line} (f : Channel → Channel)
    (hf : ∀ c, c.Settled (ownerState l c.desc) → (f c).Settled (ownerState l (f c).desc)) (h : outputsSound l) :
    ∀ c ∈ l.chans.map f, c.Settled (ownerState l c.desc) := by
  intro c hc
  obtain ⟨x, hx, e⟩ := List.mem_map.mp hc
  rw [← e]
  exact hf x (h x hx)

theorem refreshChannel_still (i : Nat) (l : Line) : Still l (refreshChannel i l) :=
  chans_still (modify_frame (fun c => refresh_frame _ c) _ i) (modify_programs (fun c => refresh_program _ c) _ i)
    (modify_settled i _ fun c => by rw [refresh_desc]; exact refresh_settled _ c)

theorem refreshZone_still (z : Nat) (l : Line) : Still l (refreshZone z l) :=
  chans_still (map_frame (fun c => by
    split
    · exact refresh_frame _ c
    · rfl) _)
    (map_programs (fun c => by
      split
      · exact refresh_program _ c
      · rfl) _)
    (map_settled _ fun c hc => by
      split
      · next e =>
        have : ownerState l (refresh (zoneState l z) c).desc = zoneState l z := by
          rw [refresh_desc]; simp only [ownerState, e, Option.bind_some]
        rw [this]
        exact refresh_settled _ c
      · exact hc)

theorem setFunction_still (f : ChanFunction) (v : Int) (l : Line) : Still l (setFunction f v l) :=
  chans_still (map_frame (fun c => by
    split
    · exact refresh_frame _ _
    · rfl) _)
    (map_programs (fun c => by
      split
      · exact refresh_program _ _
      · rfl) _)
    (map_settled _ fun c hc => by
      split
      · rw [refresh_desc]; exact refresh_settled _ _
      · exact hc)

theorem setProgram_zones (i : Nat) (v : Int) (l : Line) : (setProgram i v l).zones = l.zones := by
  unfold setProgram; split <;> rfl

theorem setProgram_within (i : Nat) (v : Int) (l : Line) : Within l (setProgram i v l) := by
  unfold setProgram
  split
  · generalize clampInt (chan l i).desc.engMin (chan l i).desc.engMax v = w
    let f (c : Channel) : Channel :=
      refresh (ownerState l c.desc) { c with run := { c.run with programValue := w } }
    have e : refreshChannel i (changeRun i (fun r => { r with programValue := w }) l)
        = { l with chans := l.chans.modify i f } := by
      have o : ∀ d, ownerState (changeRun i (fun r => { r with programValue := w }) l) d = ownerState l d := fun d => rfl
      simp only [refreshChannel, o]
      simp only [changeRun, change]
      congr 1
      apply List.ext_getElem?
      intro k
      simp only [List.getElem?_modify]
      by_cases e : i = k
      · simp only [e, if_true]; cases l.chans[k]? <;> rfl
      · simp [e]
    rw [e]
    refine chans_within (modify_frame (fun c => ?_) _ i) (modify_settled i f fun c => ?_)
    · show (refresh _ _).frame = _
      rw [refresh_frame]; rfl
    · show (refresh _ _).Settled (ownerState l (refresh _ _).desc)
      rw [refresh_desc]; exact refresh_settled _ _
  · exact .refl l

/-! ## The record log -/

theorem judgeThreshold_still (l : Line) : Still l (judgeThreshold l) := by
  unfold judgeThreshold
  split
  · exact raise_still _ l
  · exact .refl l

theorem grant_still (n : Nat) (l : Line) (can : canGrant l n = true) : Still l (grant n l) := by
  have j := judgeThreshold_still { l with log := { l.log with reserved := l.log.reserved + n } }
  exact ⟨⟨j.within.frame, j.within.notices, j.within.outputs, fun h => grant_sound n l h can⟩, j.same⟩

theorem returnReservation_still (l : Line) : Still l (returnReservation l) :=
  ⟨⟨rfl, fun _ h => h, id, returnReservation_sound l⟩, rfl⟩

theorem writeReserved_still (k : RecordKind) (p : List Word) (l : Line) : Still l (writeReserved k p l) := by
  refine ⟨⟨?_, ?_, ?_, writeReserved_sound k p l⟩, ?_⟩ <;> unfold writeReserved <;> split <;>
    first | rfl | exact fun _ h => h | exact id

theorem offer_still (k : RecordKind) (p : List Word) (l : Line) : Still l (offer k p l) := by
  have e : (offer k p l).frame = l.frame ∧ (∀ n, noticeSet l n = true → noticeSet (offer k p l) n = true)
      ∧ (outputsSound l → outputsSound (offer k p l))
      ∧ ((offer k p l).zones, programValues (offer k p l)) = (l.zones, programValues l) := by
    unfold offer
    split
    · have j := judgeThreshold_still { l with log := appendRecord l.log k (now l) p }
      exact ⟨j.within.frame, j.within.notices, j.within.outputs, j.same⟩
    · have j := raise_still .logDrop { l with log := { l.log with drops := l.log.drops + 1 } }
      exact ⟨j.within.frame, j.within.notices, j.within.outputs, j.same⟩
  exact ⟨⟨e.1, e.2.1, e.2.2.1, offer_sound k p l⟩, e.2.2.2⟩

/-! ## Free choices -/

theorem pickOne_still (c : List Nat) (l : Line) : Still l (pickOne c l).2 := by
  unfold pickOne; split <;> exact ⟨⟨rfl, fun _ h => h, id, id⟩, rfl⟩

/-- Parts that change no zone, taken in a free order, change no zone. -/
theorem freely_still : ∀ (n : Nat) (parts : List (Line → Line)), (∀ f ∈ parts, ∀ l, Still l (f l)) → ∀ l : Line,
    Still l (freely n parts l)
  | 0, _, _, l => .refl l
  | n + 1, parts, h, l => by
    unfold freely
    have p := pickOne_still (List.range parts.length) l
    generalize pickOne (List.range parts.length) l = k at p
    refine (p.trans ?_).trans (freely_still n _ (fun f hf => h f (List.mem_of_mem_eraseIdx hf)) _)
    rw [List.getD_eq_getElem?_getD]
    cases e : parts[k.1]? with
    | none => exact .refl _
    | some f => exact h f (List.mem_of_getElem? e) _

theorem inFreeOrder_still {parts : List (Bool × (Line → Line))} (h : ∀ p ∈ parts, ∀ l, Still l (p.2 l)) (l : Line) :
    Still l (inFreeOrder parts l) := by
  unfold inFreeOrder
  refine Still.trans (b := (parts.filter fun p => !p.1).foldl (fun l p => p.2 l) l) ?_ (freely_still _ _ ?_ _)
  · generalize hq : (parts.filter fun p => !p.1) = qs
    have hm : ∀ p ∈ qs, ∀ l, Still l (p.2 l) := fun p hp => h p (by rw [← hq] at hp; exact (List.mem_filter.mp hp).1)
    clear hq
    induction qs generalizing l with
    | nil => exact .refl l
    | cons q qs ih =>
      exact (hm q List.mem_cons_self l).trans (ih _ fun p hp => hm p (List.mem_cons_of_mem _ hp))
  · intro f hf
    obtain ⟨p, hp, rfl⟩ := List.mem_map.mp hf
    exact h p (List.mem_filter.mp hp).1

theorem unordered_within {f g : Line → Line} (hf : ∀ l, Within l (f l)) (hg : ∀ l, Within l (g l)) (b : Bool) (l : Line) :
    Within l (unordered b f g l) := by
  have c : Within l { l with choices := l.choices + 1 } := ⟨rfl, fun _ h => h, id, id⟩
  unfold unordered
  split
  · split
    · exact c.trans ((hg _).trans (hf _))
    · exact c.trans ((hf _).trans (hg _))
  · exact (hf _).trans (hg _)

/-! ## Lots and pallets -/

theorem changeLot_still (n : Nat) (f : Lot → Lot) (l : Line) : Still l (changeLot n f l) := ⟨⟨rfl, fun _ h => h, id, id⟩, rfl⟩
theorem changePallet_still (n : Nat) (f : Pallet → Pallet) (l : Line) : Still l (changePallet n f l) :=
  ⟨⟨rfl, fun _ h => h, id, id⟩, rfl⟩
theorem storePallet_still (n : Nat) (l : Line) : Still l (storePallet n l) := ⟨⟨rfl, fun _ h => h, id, id⟩, rfl⟩
theorem setFeed_still (e : List FeedEntry) (l : Line) : Still l (setFeed e l) := ⟨⟨rfl, fun _ h => h, id, id⟩, rfl⟩
theorem track_still (l : Line) (t : Track) : Still l { l with track := t } := ⟨⟨rfl, fun _ h => h, id, id⟩, rfl⟩
theorem pack_still (l : Line) (p : Pack) : Still l { l with pack := p } := ⟨⟨rfl, fun _ h => h, id, id⟩, rfl⟩
theorem transfer_still (l : Line) (t : Transfer) : Still l { l with transfer := t } := ⟨⟨rfl, fun _ h => h, id, id⟩, rfl⟩

theorem judgeRetirement_still (n : Nat) (l : Line) : Still l (judgeRetirement n l) := by
  unfold judgeRetirement
  split
  · exact .refl l
  · split
    · exact (writeReserved_still _ _ l).trans (track_still _ _)
    · exact .refl l

theorem tryOpen_still (x : Lane) (l : Line) : Still l (tryOpen x l) := by
  unfold tryOpen
  split
  · next c =>
    have can : canGrant l 1 = true := by simp only [Bool.and_eq_true] at c; exact c.2
    exact ((grant_still 1 l can).trans (pickOne_still _ _)).trans (pack_still _ _)
  · exact .refl l

theorem judgeHold_still (l : Line) : Still l (judgeHold l) := by
  unfold judgeHold
  have h := (pack_still l { l.pack with baggerHold := holdWanted l }).trans
    (setFunction_still .baggerHold (flag (holdWanted l)) _)
  simp only
  split
  · exact h.trans (raise_still _ _)
  · exact h

theorem openPallets_still (l : Line) : Still l (openPallets l) :=
  ((tryOpen_still .release l).trans (tryOpen_still .hold _)).trans (judgeHold_still _)

theorem judgeDispatch_still (l : Line) : Still l (judgeDispatch l) := by
  unfold judgeDispatch
  split
  · split
    · exact .refl l
    · exact ((changePallet_still _ _ l).trans (transfer_still _ _)).trans (setFunction_still _ _ _)
  · exact .refl l

theorem freePath_still (l : Line) : Still l (freePath l) := (transfer_still l _).trans (setFunction_still _ _ _)

theorem abandonTransit_still (l : Line) : Still l (abandonTransit l) := by
  unfold abandonTransit
  split
  · exact .refl l
  · exact (changePallet_still _ _ l).trans (freePath_still _)

theorem closePallet_still (n : Nat) (r : CloseReason) (l : Line) : Still l (closePallet n r l) :=
  (((changePallet_still _ _ l).trans (transfer_still _ _)).trans (judgeDispatch_still _)).trans (openPallets_still _)

theorem exposePallet_still (n : Nat) (l : Line) : Still l (exposePallet n l) := by
  unfold exposePallet
  split
  · exact .refl l
  · next p _ =>
    refine ((changePallet_still _ _ l).trans ((Still.foldl (fun l e => changeLot_still _ _ l) p.lots _).trans
      (raise_still _ _))).trans (inFreeOrder_still (fun q hq x => ?_) _)
    simp only [List.mem_cons, List.not_mem_nil, or_false] at hq
    rcases hq with rfl | rfl
    · dsimp only
      split
      · exact closePallet_still _ _ x
      · exact .refl x
    · exact offer_still _ _ x

theorem resolvePallet_still (p : Pallet) (l : Line) : Still l (resolvePallet p l) := by
  unfold resolvePallet
  exact (((((writeReserved_still _ _ l).trans (raise_still _ _)).trans (pack_still _ _)).trans
    (Still.foldl (fun l e => changeLot_still _ _ l) p.lots _)).trans
    (Still.foldl (fun l e => judgeRetirement_still _ l) p.lots _)).trans (openPallets_still _)

theorem judgeResolution_still (n : Nat) (l : Line) : Still l (judgeResolution n l) := by
  unfold judgeResolution
  split
  · exact .refl l
  · split
    · exact resolvePallet_still _ l
    · exact .refl l

theorem judgeVerdict_still (n : Nat) (l : Line) : Still l (judgeVerdict n l) := by
  unfold judgeVerdict
  split
  · exact .refl l
  · split
    · exact ((((changeLot_still _ _ l).trans (writeReserved_still _ _ _)).trans (raise_still _ _)).trans
        (Still.foldl (fun l p => judgeResolution_still _ l) _ _)).trans (judgeRetirement_still _ _)
    · exact .refl l

theorem closeLot_still (n : Nat) (l : Line) : Still l (closeLot n l) :=
  ((changeLot_still _ _ l).trans (judgeVerdict_still _ _)).trans (judgeRetirement_still _ _)

theorem storeConfirmation_still (n : Nat) (l : Line) : Still l (storeConfirmation n l) := by
  unfold storeConfirmation
  simp only
  split
  · exact ((((storePallet_still _ l).trans (freePath_still _)).trans (transfer_still _ _)).trans
      (judgeResolution_still _ _)).trans (judgeDispatch_still _)
  · split
    · exact ((storePallet_still _ l).trans (transfer_still _ _)).trans (judgeResolution_still _ _)
    · have h := (raise_still .storeMismatch l).trans (offer_still .storeMismatch
        [word n, word ((l.transfer.transit.map (·.number)).getD 0)] _)
      split
      · exact ((h.trans (transfer_still _ _)).trans (abandonTransit_still _)).trans (judgeDispatch_still _)
      · exact h.trans (transfer_still _ _)

/-! ## Bags -/

theorem retireFeed_still (e : FeedEntry) (l : Line) : Still l (retireFeed e l) :=
  (changeLot_still _ _ l).trans (judgeRetirement_still _ _)

theorem feedCell_still (n u : Nat) (l : Line) : Still l (feedCell n u l) := by
  unfold feedCell
  simp only
  have h := changeLot_still n (fun x => { x with massDelivered := addMass x.massDelivered (unitsMass l n u) }) l
  split
  · exact h.trans (setFeed_still _ _)
  · exact (h.trans (setFeed_still _ _)).trans (retireFeed_still _ _)

theorem ite_still {c : Prop} [Decidable c] {l a b : Line} (ha : Still l a) (hb : Still l b) : Still l (if c then a else b) := by
  split <;> assumption

theorem joinPallet_still (p : Pallet) (w : Nat) (ls : List Nat) (t : Word) (b : Bool) (l : Line) :
    Still l (joinPallet p w ls t b l) := by
  unfold joinPallet
  simp only
  have joined (f : Pallet → Pallet) (ns : List Nat) :
      Still l (ns.foldl (fun l n => changeLot n (fun x => { x with livePallets := x.livePallets + 1 }) l)
        (changePallet p.number f l)) :=
    (changePallet_still _ _ l).trans (Still.foldl (fun l n => changeLot_still n _ l) ns _)
  refine ite_still (Still.trans (ite_still (Still.trans (joined _ _) (closePallet_still _ _ _)) (joined _ _))
    (exposePallet_still _ _)) (ite_still (Still.trans (joined _ _) (closePallet_still _ _ _)) (joined _ _))

theorem palletFor_still (x : Lane) (ls : List Nat) (l : Line) : Still l (palletFor x ls l) := by
  unfold palletFor
  split
  · exact .refl l
  · split
    · exact closePallet_still _ _ l
    · exact .refl l

theorem setLane_still (x : Lane) (l : Line) : Still l (setLane x l) := (pack_still l _).trans (setFunction_still _ _ _)

theorem writeRing_still (e : RingEntry) (l : Line) : Still l (writeRing e l) := pack_still l _

theorem judgeBag_still (i : Bool) (w : Nat) (l : Line) : Still l (judgeBag i w l).2 := by
  unfold judgeBag
  simp only
  refine Still.trans ?_ (Still.foldl (fun l e => retireFeed_still e l) _ _)
  refine Still.trans ?_ (writeRing_still _ _)
  refine Still.trans ?_ (setLane_still _ _)
  refine Still.trans ?_ (Still.foldl (fun l s => changeLot_still _ _ l) _ _)
  have fed := (pack_still l { l.pack with bagCounter := nextBag l.pack.bagCounter }).trans
    (setFeed_still (drawMass l.pack.feed w).feed _)
  split
  · exact Still.trans (ite_still fed (fed.trans (palletFor_still _ _ _))) (joinPallet_still _ _ _ _ _ _)
  · exact ite_still fed (fed.trans (palletFor_still _ _ _))

/-! ## The track -/

theorem judgeArrival_still (i n : Nat) (l : Line) : Still l (judgeArrival i n l) := by
  unfold judgeArrival
  split
  · exact .refl l
  · exact ite_still ((track_still l _).trans (raise_still _ _)) (track_still l _)

theorem mergeLots_still (past : Bool) (a b : TrackCell) (l : Line) : Still l (mergeLots past a b l) := by
  unfold mergeLots
  split
  · exact changeLot_still _ _ l
  · exact (((changeLot_still _ _ l).trans (changeLot_still _ _ _)).trans (judgeVerdict_still _ _)).trans
      (judgeRetirement_still _ _)

theorem placeCell_still (i : Nat) (c : TrackCell) (l : Line) : Still l (placeCell i c l) := by
  unfold placeCell
  split
  · exact .refl l
  · split
    · exact (track_still l _).trans (judgeArrival_still _ _ _)
    · exact ((track_still l _).trans (mergeLots_still _ _ _ _)).trans (judgeArrival_still _ _ _)

theorem exitTrack_still (c : TrackCell) (l : Line) : Still l (exitTrack c l) :=
  ((changeLot_still _ _ l).trans (feedCell_still _ _ _)).trans (judgeRetirement_still _ _)

theorem carryCell_still (i : Nat) (c : TrackCell) (l : Line) : Still l (carryCell i c l) := by
  unfold carryCell
  simp only
  have h (c : TrackCell) : Still l (if finalSection l = some i then countFinal c l else l) :=
    ite_still ((changeLot_still _ _ l).trans (judgeVerdict_still _ _)) (.refl l)
  exact ite_still ((h _).trans (placeCell_still _ _ _)) ((h _).trans (exitTrack_still _ _))

theorem admitCell_still (l : Line) : Still l (admitCell l) := by
  unfold admitCell
  split
  · exact .refl l
  · exact (changeLot_still _ _ l).trans (placeCell_still _ _ _)

theorem shiftSection_still (i : Nat) (l : Line) : Still l (shiftSection i l) := by
  unfold shiftSection
  split
  · exact .refl l
  · next s _ =>
    have a : Still l (changeSection i shiftPlaces l) := track_still l _
    have b : Still l (match s.places.getLast?.join with
        | none => changeSection i shiftPlaces l
        | some c => carryCell i c (changeSection i shiftPlaces l)) := by
      split
      · exact a
      · exact a.trans (carryCell_still _ _ _)
    exact ite_still (b.trans (admitCell_still _)) b

theorem shiftRounds_still (ks : List Nat) : ∀ (n j : Nat) (l : Line), Still l (shiftRounds ks n j l)
  | 0, _, l => .refl l
  | n + 1, j, l =>
    (Still.foldr (fun l i => ite_still (shiftSection_still i l) (.refl l)) _ l).trans (shiftRounds_still ks n (j + 1) _)

theorem motionSample_still (i : Nat) (v : Int) (l : Line) : Still l (motionSample i v l) := by
  unfold motionSample
  have r (c : Nat) (b : Bool) : Still l (rebase i c b l) := track_still l _
  refine ite_still ?_ (.refl l)
  simp only
  split
  · refine ite_still ?_ (r _ _)
    exact ((track_still l _).trans (track_still _ _)).trans (shiftRounds_still _ _ _ _)
  · exact r _ _

theorem trackSample_still (i : Nat) (v : Int) (l : Line) : Still l (trackSample i v l) :=
  (motionSample_still i v l).trans (track_still _ _)

theorem trackLosses_still (xs : List Nat) (l : Line) : Still l (trackLosses xs l) := by
  refine Still.foldl (fun l i => ?_) xs l
  have m : Still l (motionLoss i l) := by
    unfold motionLoss
    exact ite_still ((track_still l _).trans (track_still _ _)) (.refl l)
  exact m.trans (track_still _ _)

/-! ## Zones -/

theorem ownerState_changeZone (z : Nat) (f : ZoneRun → ZoneRun) (l : Line) (hf : ∀ r, (f r).state = r.state)
    (d : ChanDesc) : ownerState (changeZone z f l) d = ownerState l d := by
  have e : zoneState (changeZone z f l) = zoneState l := by
    funext w
    simp only [zoneState, zone?, changeZone, change, List.getD_eq_getElem?_getD, List.getElem?_modify]
    cases l.zones[w]? with
    | none => simp
    | some o => by_cases h : z = w <;> cases o <;> simp [h, hf]
  simp only [ownerState, e]

/-- A change of a zone's runtime state other than of its state itself. -/
theorem changeZone_within (z : Nat) (f : ZoneRun → ZoneRun) (l : Line)
    (hf : ∀ r, (f r).state = r.state := by intro r; rfl) : Within l (changeZone z f l) :=
  ⟨rfl, fun _ h => h, fun h c hc => by
    rw [ownerState_changeZone z f l hf]; exact h c hc, id⟩

theorem ite_within {c : Prop} [Decidable c] {l a b : Line} (ha : Within l a) (hb : Within l b) :
    Within l (if c then a else b) := by
  split <;> assumption

theorem safePrograms_frame (z : Nat) (l : Line) : (safePrograms z l).frame = l.frame := by
  simp only [Line.frame, safePrograms]
  rw [map_frame (fun c => by split <;> rfl)]

theorem refreshZone_frame (z : Nat) (l : Line) : (refreshZone z l).frame = l.frame := (refreshZone_still z l).within.frame

theorem enterState_within (z : Nat) (st : ZoneState) (l : Line) : Within l (enterState z st l) := by
  let l1 := raise .zoneChange (changeZone z (fun r => { r with state := st, entryTime := now l }) l)
  let l2 := if st = .starting ∨ st = .stopping then safePrograms z l1 else l1
  have e : enterState z st l = refreshZone z l2 := rfl
  have zs : l2.zones = l1.zones := by
    have key : ∀ s : Prop, ∀ [Decidable s], (if s then safePrograms z l1 else l1).zones = l1.zones := by
      intro s _; split <;> rfl
    exact key _
  have f2 : l2.frame = l.frame := by
    have key : ∀ s : Prop, ∀ [Decidable s], (if s then safePrograms z l1 else l1).frame = l.frame := by
      intro s _
      split
      · exact (safePrograms_frame z l1).trans rfl
      · rfl
    exact key _
  rw [e]
  refine ⟨(refreshZone_frame z l2).trans f2, fun n h => ?_, fun h c hc => ?_, fun h => ?_⟩
  · have : noticeSet l1 n = true := raise_noticeSet _ _ _ h
    have key : ∀ s : Prop, ∀ [Decidable s], noticeSet (if s then safePrograms z l1 else l1) n = true := by
      intro s _; split <;> exact this
    have : noticeSet l2 n = true := key _
    exact (refreshZone_still z l2).within.notices n this
  · obtain ⟨x, hx, ex⟩ := List.mem_map.mp (show c ∈ (l2.chans.map _) from hc)
    show c.Settled (ownerState l2 c.desc)
    rw [← ex]
    split
    · next o =>
      have : ownerState l2 (refresh (zoneState l2 z) x).desc = zoneState l2 z := by
        rw [refresh_desc]; simp only [ownerState, o, Option.bind_some]
      rw [this]; exact refresh_settled _ _
    · next o =>
      have hl : x ∈ l.chans := by
        have : x ∈ l2.chans := hx
        have key : ∀ s : Prop, ∀ [Decidable s], x ∈ (if s then safePrograms z l1 else l1).chans → x ∈ l.chans := by
          intro s _ m
          split at m
          · obtain ⟨y, hy, ey⟩ := List.mem_map.mp (show x ∈ (l1.chans.map _) from m)
            split at ey
            · next oo => exfalso; apply o; rw [← ey]; exact oo.1
            · rw [← ey]; exact hy
          · exact m
        exact key _ this
      have ow : ownerState l2 x.desc = ownerState l x.desc := by
        simp only [ownerState]
        cases ho : x.desc.owner with
        | none => rfl
        | some w =>
          have ne : z ≠ w := fun c => o (by rw [ho, c])
          simp only [Option.bind_some, zoneState, zone?, zs]
          have e1 : l1.zones.getD w none = l.zones.getD w none := by
            show (List.modify _ _ _).getD w none = _
            simp only [List.getD_eq_getElem?_getD, List.getElem?_modify, if_neg ne]
            cases l.zones[w]? <;> rfl
          rw [e1]
      rw [ow]; exact h x hl
  · have key : ∀ s : Prop, ∀ [Decidable s], (if s then safePrograms z l1 else l1).log = l.log := by
      intro s _; split <;> rfl
    have : l2.log = l.log := key _
    exact logSound_congr (l := l) this h

theorem enterRunning_within : ∀ (n z : Nat) (l : Line), Within l (enterRunning n z l)
  | 0, _, l => .refl l
  | n + 1, _, l =>
    ((changeZone_within _ _ l).trans (enterState_within _ _ _)).trans
      (Within.foldl (fun l w => ite_within (enterRunning_within n w l) (.refl l)) _ _)

theorem endProgram_within (z : Nat) (p : Program) (l : Line) : Within l (endProgram z p l) := by
  unfold endProgram
  have h := changeZone_within z (fun r => { r with program := none, deadline := none }) l
  cases p
  · exact ite_within ((h.trans (enterState_within _ _ _)).trans (enterRunning_within _ _ _)) (h.trans (enterState_within _ _ _))
  · exact h.trans (enterState_within _ _ _)

theorem runSteps_within (z : Nat) (p : Program) : ∀ (steps : List Step) (k : Nat) (l : Line), Within l (runSteps z p k steps l)
  | [], _, l => endProgram_within z p l
  | .set i v :: rest, k, l => (setProgram_within i v l).trans (runSteps_within z p rest (k + 1) _)
  | .waitTime _ :: _, _, l => by
    unfold runSteps
    exact changeZone_within _ _ l
  | .waitUntil i cmp th t :: rest, k, l => by
    unfold runSteps
    exact ite_within (runSteps_within z p rest (k + 1) l) (changeZone_within _ _ l)

theorem advanceProgram_within (z : Nat) (l : Line) : Within l (advanceProgram z l) := by
  unfold advanceProgram
  split
  · exact .refl l
  · exact runSteps_within _ _ _ _ l

theorem startZone_within (z : Nat) (b : Bool) (l : Line) : Within l (startZone z b l) :=
  (((changeZone_within _ _ l).trans (enterState_within _ _ _)).trans (changeZone_within _ _ _)).trans
    (runSteps_within _ _ _ _ _)

theorem stopZone_within (z : Nat) (l : Line) : Within l (stopZone z l) :=
  (((changeZone_within _ _ l).trans (enterState_within _ _ _)).trans (changeZone_within _ _ _)).trans
    (runSteps_within _ _ _ _ _)

theorem tripZone_within (z : Nat) (k : TripCause) (l : Line) : Within l (tripZone z k l) :=
  ((changeZone_within _ _ l).trans (enterState_within _ _ _)).trans (raise_within _ _)

theorem tripOwn_within (causes : Nat → List TripCause) (l : Line) : Within l (tripOwn causes l) :=
  Within.foldl (fun l _ => ite_within ((pickOne_still _ l).within.trans (tripZone_within _ _ _)) (.refl l)) _ l

theorem cascadeRound_within (before : Line) (left : List Nat) (l : Line) : Within l (cascadeRound before left l) := by
  unfold cascadeRound
  exact Within.foldl (fun l _ => ite_within ((pickOne_still _ l).within.trans (tripZone_within _ _ _)) (.refl l)) _ l

theorem cascadeRounds_within (before : Line) : ∀ (n : Nat) (left : List Nat) (l : Line),
    Within l (cascadeRounds before n left l)
  | 0, _, l => .refl l
  | n + 1, left, l => (cascadeRound_within before left l).trans (cascadeRounds_within before n _ _)

theorem cascade_within (before l : Line) : Within l (cascade before l) := cascadeRounds_within before _ _ l

theorem trackReport_still (before l : Line) : Still l (trackReport before l) := by
  unfold trackReport
  split
  · exact closeLot_still _ l
  · exact .refl l

theorem packReport_still (before l : Line) : Still l (packReport before l) := by
  unfold packReport
  split
  · exact .refl l
  · exact ite_still (.refl l) (ite_still (openPallets_still l) (judgeHold_still l))

theorem transferReport_still (before l : Line) : Still l (transferReport before l) := by
  unfold transferReport
  split
  · exact .refl l
  · exact ite_still (judgeDispatch_still l) (ite_still (abandonTransit_still l) (.refl l))

theorem offerTrips_still (before after l : Line) : Still l (offerTrips before after l) :=
  Still.foldl (fun l _ => offer_still _ _ l) _ l

/-- After the zone changes of an event, its records and reports change no zone. -/
theorem zoneEvent_after {lead : List Nat → Line → Line} (hl : ∀ zs l, Still l (lead zs l)) (f : Line → Line) (l : Line) :
    Still (cascade l (f l)) (zoneEvent lead f l) := by
  unfold zoneEvent
  generalize cascade l (f l) = changed
  refine inFreeOrder_still (fun p hp x => ?_) _
  simp only [List.mem_cons, List.not_mem_nil, or_false] at hp
  rcases hp with rfl | rfl | rfl | rfl
  · exact (hl _ x).trans (offerTrips_still _ _ _)
  · exact trackReport_still l x
  · exact packReport_still l x
  · exact transferReport_still l x

theorem zoneEvent_within {lead : List Nat → Line → Line} (hl : ∀ zs l, Still l (lead zs l)) {f : Line → Line}
    (hf : ∀ l, Within l (f l)) (l : Line) : Within l (zoneEvent lead f l) :=
  ((hf l).trans (cascade_within l _)).trans (zoneEvent_after hl f l).within

theorem plainEvent_after (f : Line → Line) (l : Line) : Still (cascade l (f l)) (plainEvent f l) :=
  zoneEvent_after (fun _ l => .refl l) f l

theorem plainEvent_within {f : Line → Line} (hf : ∀ l, Within l (f l)) (l : Line) : Within l (plainEvent f l) :=
  zoneEvent_within (fun _ l => .refl l) hf l

theorem sampleZones_within (i : Nat) (v : Int) (l : Line) : Within l (sampleZones i v l) :=
  ((tripOwn_within _ l).trans (cascade_within _ _)).trans
    (Within.foldl (fun l z => ite_within (advanceProgram_within z l) (.refl l)) _ _)

theorem zoneSample_within (i : Nat) (v : Int) (l : Line) : Within l (zoneSample i v l) :=
  plainEvent_within (sampleZones_within i v) l

/-- A fresh sample changes only what the plant blocks may change. -/
theorem freshSample_within (i : Nat) (v : Int) (l : Line) : Within l (freshSample i v l) := by
  unfold freshSample
  generalize (zoneTakes i v l && trackTakes l i) = b
  exact unordered_within (f := zoneSample i v) (g := trackSample i v) (zoneSample_within i v)
    (fun l => (trackSample_still i v l).within) b l

/-- A loss of GOOD changes only what the plant blocks may change. -/
theorem loseGood_within (i : Nat) (l : Line) : Within l (loseGood i l) :=
  (trackLosses_still [i] l).within.trans
    (plainEvent_within (f := fun l => tripOwn (lossCauses l [i]) l) (fun l => tripOwn_within _ l) _)

end Sys2Proof.Machine
end

