-- ==== Sys2Proof/Laws/Tables.lean ====
section
/-! SUPPORT. A table read after a table write: channels, zones, nodes, request slots, lots and pallets, and how a request
that is taken leaves its slot. -/

namespace Sys2Proof.Machine

/-! ## Lists -/

theorem getD_modify {α : Type} (xs : List α) (i j : Nat) (f : α → α) (d : α) :
    (xs.modify i f).getD j d = if i = j ∧ j < xs.length then f (xs.getD j d) else xs.getD j d := by
  simp only [List.getD_eq_getElem?_getD, List.getElem?_modify]
  by_cases h : j < xs.length
  · by_cases e : i = j <;> simp [e, h]
  · simp [h]

theorem getD_set {α : Type} (xs : List α) (i j : Nat) (v d : α) :
    (xs.set i v).getD j d = if i = j ∧ j < xs.length then v else xs.getD j d := by
  simp only [List.getD_eq_getElem?_getD, List.getElem?_set]
  by_cases h : j < xs.length
  · by_cases e : i = j <;> simp [e, h]
  · by_cases e : i = j
    · subst e; simp [h]
    · simp [e, h]

theorem getD_of_le {α : Type} (xs : List α) (j : Nat) (d : α) (h : xs.length ≤ j) : xs.getD j d = d := by
  simp only [List.getD_eq_getElem?_getD, List.getElem?_eq_none h, Option.getD_none]

theorem modify_eq_set {α : Type} (xs : List α) (i : Nat) (f : α → α) (d : α) :
    xs.modify i f = xs.set i (f (xs.getD i d)) := by
  apply List.ext_getElem?
  intro k
  simp only [List.getElem?_modify, List.getElem?_set, List.getD_eq_getElem?_getD]
  by_cases e : i = k
  · subst e
    by_cases h : i < xs.length
    · simp [h]
    · simp [h]
  · simp [e]

theorem set_set_same {α : Type} (xs : List α) (i : Nat) (a b : α) : (xs.set i a).set i b = xs.set i b := by
  simp

/-! ## Channels -/

theorem chan_changeRun (i j : Nat) (f : ChanRun → ChanRun) (l : Line) :
    chan (changeRun i f l) j =
      if i = j ∧ j < l.chans.length then { chan l j with run := f (chan l j).run } else chan l j := by
  simp only [chan, changeRun, change, getD_modify]

theorem chan_refreshChannel (i j : Nat) (l : Line) :
    chan (refreshChannel i l) j =
      if i = j ∧ j < l.chans.length then refresh (ownerState l (chan l j).desc) (chan l j) else chan l j := by
  simp only [chan, refreshChannel, change, getD_modify]

theorem chan_map (l : Line) (f : Channel → Channel) (j : Nat) (h : j < l.chans.length) :
    chan { l with chans := l.chans.map f } j = f (chan l j) := by
  simp [chan, List.getD_eq_getElem?_getD, h]

@[simp] theorem chan_raise (n : Notice) (l : Line) (j : Nat) : chan (raise n l) j = chan l j := rfl

theorem chan_congr {l l' : Line} (h : l'.chans = l.chans) (j : Nat) : chan l' j = chan l j := by
  simp only [chan, h]

theorem chan_unused (l : Line) (j : Nat) (h : l.chans.length ≤ j) : chan l j = Channel.unused := getD_of_le _ _ _ h

@[simp] theorem changeRun_length (i : Nat) (f : ChanRun → ChanRun) (l : Line) :
    (changeRun i f l).chans.length = l.chans.length := by
  simp [changeRun, change]

theorem Within.length {l l' : Line} (h : Within l l') : l'.chans.length = l.chans.length := by
  have e := congrArg List.length h.chans
  simpa using e

theorem Within.desc {l l' : Line} (h : Within l l') (i : Nat) :
    (Machine.chan l' i).desc = (Machine.chan l i).desc := by
  have e := congrArg Channel.desc (h.chan i)
  exact e

/-- What a plant event leaves of a channel's runtime state. -/
theorem Within.run {l l' : Line} (h : Within l l') (i : Nat) :
    let r := (Machine.chan l' i).run
    let q := (Machine.chan l i).run
    r.quality = q.quality ∧ r.raw = q.raw ∧ r.eng = q.eng ∧ r.lastSample = q.lastSample ∧ r.timer = q.timer
      ∧ r.simValue = q.simValue ∧ r.simFlag = q.simFlag ∧ r.simSource = q.simSource ∧ r.hostValue = q.hostValue
      ∧ r.limitRefused = q.limitRefused ∧ r.partialWrite = q.partialWrite ∧ r.events = q.events
      ∧ r.bound = q.bound := by
  have e := congrArg Channel.run (h.chan i)
  simp only [Channel.frame, ChanRun.mk.injEq] at e
  exact ⟨e.1, e.2.1, e.2.2.1, e.2.2.2.1, e.2.2.2.2.1, e.2.2.2.2.2.1, e.2.2.2.2.2.2.1, e.2.2.2.2.2.2.2.1,
    e.2.2.2.2.2.2.2.2.1, e.2.2.2.2.2.2.2.2.2.2.2.2.2.1, e.2.2.2.2.2.2.2.2.2.2.2.2.2.2.1,
    e.2.2.2.2.2.2.2.2.2.2.2.2.2.2.2.1, e.2.2.2.2.2.2.2.2.2.2.2.2.2.2.2.2⟩

theorem Within.statusBlock {l l' : Line} (h : Within l l') :
    { l'.status with notices := 0 } = { l.status with notices := 0 } := congrArg (fun x : Line => x.status) h.frame

theorem Within.plantOnly {l l' : Line} (h : Within l l') : PlantOnly l l' :=
  ⟨h.request, h.active, h.matchTable, h.link, h.stopHigh, h.statusBlock⟩

/-! ## Zones -/

theorem zone?_changeZone (z w : Nat) (f : ZoneRun → ZoneRun) (l : Line) :
    zone? (changeZone z f l) w =
      if z = w then (zone? l w).map (fun x => { x with run := f x.run }) else zone? l w := by
  simp only [zone?, changeZone, change, getD_modify]
  by_cases e : z = w
  · by_cases h : w < l.zones.length
    · simp [e, h]
    · simp [e, h]
  · simp [e]

@[simp] theorem changeZone_length (z : Nat) (f : ZoneRun → ZoneRun) (l : Line) :
    (changeZone z f l).zones.length = l.zones.length := by
  simp [changeZone, change]

theorem zone?_congr {l l' : Line} (h : l'.zones = l.zones) (z : Nat) : zone? l' z = zone? l z := by
  simp only [zone?, h]

theorem enterState_zones (z : Nat) (st : ZoneState) (l : Line) :
    (enterState z st l).zones = (changeZone z (fun r => { r with state := st, entryTime := now l }) l).zones := by
  unfold enterState
  simp only [(refreshZone_still z _).zones]
  split
  · rfl
  · rfl

theorem zone?_enterState (z w : Nat) (st : ZoneState) (l : Line) :
    zone? (enterState z st l) w =
      if z = w then (zone? l w).map (fun x => { x with run := { x.run with state := st, entryTime := now l } })
      else zone? l w := by
  rw [zone?_congr (enterState_zones z st l), zone?_changeZone]

theorem tripZone_zones (z : Nat) (k : TripCause) (l : Line) :
    (tripZone z k l).zones = (changeZone z (fun r =>
      { r with
        runPending := false, cause := k, program := none, deadline := none, trips := r.trips + 1, state := .tripped,
        entryTime := now l }) l).zones := by
  unfold tripZone
  show (enterState _ _ _).zones = _
  rw [enterState_zones]
  simp only [changeZone, change]
  apply List.ext_getElem?
  intro j
  simp only [List.getElem?_modify]
  by_cases e : z = j <;> simp [e, Function.comp_def, now]

theorem zone?_tripZone (z w : Nat) (k : TripCause) (l : Line) :
    zone? (tripZone z k l) w =
      if z = w then
        (zone? l w).map (fun x =>
          { x with
            run := { x.run with
              state := .tripped, runPending := false, cause := k, program := none, deadline := none,
              entryTime := now l, trips := x.run.trips + 1 } })
      else zone? l w := by
  rw [zone?_congr (tripZone_zones z k l), zone?_changeZone]

theorem zone?_some_lt {l : Line} {z : Nat} {x : Zone} (h : zone? l z = some x) : z < l.zones.length := by
  by_cases c : z < l.zones.length
  · exact c
  · rw [zone?, getD_of_le _ _ _ (Nat.le_of_not_lt c)] at h; cases h

/-! ## Nodes and slots -/

theorem nodeAt_changeNode (n m : Nat) (f : Node → Node) (l : Line) :
    nodeAt (changeNode n f l) m =
      if n - 1 = m - 1 ∧ m - 1 < l.link.nodes.length then f (nodeAt l m) else nodeAt l m := by
  simp only [nodeAt, changeNode, change, getD_modify]

theorem slotAt_changeSlot (i j : Nat) (f : Slot → Slot) (l : Line) :
    slotAt (changeSlot i f l) j =
      if i = j ∧ j < l.request.slots.length then f (slotAt l j) else slotAt l j := by
  simp only [slotAt, changeSlot, change, getD_modify]

theorem slotAt_congr {l l' : Line} (h : l'.request = l.request) (j : Nat) : slotAt l' j = slotAt l j := by
  simp only [slotAt, h]

/-- A completion: the slot is DONE with the reply, the others are unchanged, REQ_DONE is set. -/
theorem slotAt_complete (i j : Nat) (r : Reply) (l : Line) :
    slotAt (complete i r l) j =
      if i = j ∧ j < l.request.slots.length then
        { slotAt l j with
          state := .done, result := word r.code.code, val9 := r.v9, val10 := r.v10, val11 := r.v11, val12 := r.v12 }
      else slotAt l j := by
  unfold complete
  rw [slotAt_congr (raise_request _ _), slotAt_changeSlot]

theorem complete_noticeSet (i : Nat) (r : Reply) (l : Line) : noticeSet (complete i r l) .reqDone = true :=
  raise_noticeSet_self _ _

theorem complete_notices (i : Nat) (r : Reply) (l : Line) (n : Notice) (h : noticeSet l n = true) :
    noticeSet (complete i r l) n = true :=
  raise_noticeSet _ _ _ h

/-! ## Takings -/

/-- The head slot is taken when it holds a request of the kind. -/
theorem take_head {p : Slot → Bool} {f : Nat → Slot → Line → Line} {l : Line} {i : Nat} (h : headSlot l = some i)
    (hp : p (slotAt l i) = true) : take p f l = f i (slotAt l i) (leaveQueue l) := by
  simp only [take, h, hp, if_true]

theorem take_headIs {f : Nat → Slot → Line → Line} {l : Line} {i : Nat} {k : RequestKind} (h : HeadIs l i k) :
    take (ofKind k) f l = f i (slotAt l i) (leaveQueue l) :=
  take_head h.1 h.2.2

/-- A request completed by an act that leaves the request unit's slots as they were and the queue without its head. -/
theorem completed_of {l m : Line} {i : Nat} {r : Reply} (hi : i < l.request.slots.length)
    (hm : m.request = (leaveQueue l).request) : Completed l (complete i r m) i r := by
  have hs (j : Nat) : slotAt m j = slotAt l j := by simp only [slotAt, hm]; rfl
  have hl : m.request.slots.length = l.request.slots.length := by rw [hm]; rfl
  refine ⟨?_, complete_noticeSet _ _ _, ?_, fun j hj => ?_⟩
  · rw [slotAt_complete, if_pos ⟨rfl, by rw [hl]; exact hi⟩, hs]
  · show m.request.queue = _
    rw [hm]; rfl
  · rw [slotAt_complete, if_neg (fun c => hj c.1.symm), hs]

/-- A request made TAKEN. -/
theorem nowTaken_of {l m : Line} {i : Nat} (hi : i < l.request.slots.length)
    (hs : m.request.slots = (markTaken i (leaveQueue l)).request.slots)
    (hq : m.request.queue = l.request.queue.tail) : NowTaken l m i := by
  have h (j : Nat) : slotAt m j = slotAt (markTaken i (leaveQueue l)) j := by simp only [slotAt, hs]
  refine ⟨?_, hq, fun j hj => ?_⟩
  · rw [h]; unfold markTaken; rw [slotAt_changeSlot, if_pos ⟨rfl, hi⟩]; rfl
  · rw [h]; unfold markTaken; rw [slotAt_changeSlot, if_neg (fun c => hj c.1.symm)]; rfl

/-- An immediate request whose checks all hold. -/
theorem immediate_done {busy : Line → Bool} {checks : Slot → Line → List (Bool × ResultCode)}
    {act : Slot → Line → Reply × Line} {i : Nat} {a : Slot} {l : Line} (hb : busy l = false)
    (hc : refusal (checks a l) = none) : immediate busy checks act i a l = complete i (act a l).1 (act a l).2 := by
  simp only [immediate, refusal, hb, Bool.not_false, if_true, hc]

/-- A long request whose checks all hold. -/
theorem long_taken {busy : Line → Bool} {checks : Slot → Line → List (Bool × ResultCode)}
    {start : Nat → Slot → Line → Line} {i : Nat} {a : Slot} {l : Line} (hb : busy l = false)
    (hc : refusal (checks a l) = none) : long busy checks start i a l = start i a (markTaken i l) := by
  simp only [long, refusal, hb, Bool.not_false, if_true, hc]

/-- A request refused at a check, or for a conflict. -/
theorem immediate_refused {busy : Line → Bool} {checks : Slot → Line → List (Bool × ResultCode)}
    {act : Slot → Line → Reply × Line} {i : Nat} {a : Slot} {l : Line} {k : ResultCode}
    (hc : refusal ((!busy l, .busy) :: checks a l) = some k) : immediate busy checks act i a l = refuse i k l := by
  simp only [immediate, hc]

theorem long_refused {busy : Line → Bool} {checks : Slot → Line → List (Bool × ResultCode)}
    {start : Nat → Slot → Line → Line} {i : Nat} {a : Slot} {l : Line} {k : ResultCode}
    (hc : refusal ((!busy l, .busy) :: checks a l) = some k) : long busy checks start i a l = refuse i k l := by
  simp only [long, hc]

/-! ## Lots and pallets -/

theorem find?_map_keep {α : Type} (f : α → α) (p : α → Bool) (hp : ∀ x, p (f x) = p x) :
    ∀ xs : List α, (xs.map f).find? p = (xs.find? p).map f
  | [] => rfl
  | x :: xs => by
    simp only [List.map_cons, List.find?_cons, hp]
    cases p x
    · exact find?_map_keep f p hp xs
    · rfl

theorem lot?_changeLot (n m : Nat) (f : Lot → Lot) (hf : ∀ x, (f x).number = x.number) (l : Line) :
    lot? (changeLot n f l) m = (lot? l m).map fun x => if x.number = n then f x else x := by
  unfold lot? changeLot
  refine find?_map_keep _ _ (fun x => ?_) _
  by_cases e : x.number = n <;> simp [e, hf]

theorem pallet?_changePallet (n m : Nat) (f : Pallet → Pallet) (hf : ∀ x, (f x).number = x.number) (l : Line) :
    pallet? (changePallet n f l) m = (pallet? l m).map fun x => if x.number = n then f x else x := by
  unfold pallet? changePallet
  refine find?_map_keep _ _ (fun x => ?_) _
  by_cases e : x.number = n <;> simp [e, hf]

theorem pallet?_number {l : Line} {n : Nat} {p : Pallet} (h : pallet? l n = some p) : p.number = n := by
  have := List.find?_some h
  simpa using this

theorem lot?_number {l : Line} {n : Nat} {x : Lot} (h : lot? l n = some x) : x.number = n := by
  have := List.find?_some h
  simpa using this

end Sys2Proof.Machine
end

