-- ==== Sys2Proof/Laws/Link.lean ====
section
/-! SUPPORT. What the link controller's operations can change (Chapter 4). -/

namespace Sys2Proof.Machine

/-- Only the link controller's own state differs, and in it neither the node table, the link state, the scan list, the
period timer, the counters, nor what a DISCOVER or a LINK_HALT in flight holds. -/
structure Sends (l l' : Line) : Prop where
  others    : { l' with link := l.link } = l
  nodes     : l'.link.nodes = l.link.nodes
  state     : l'.link.state = l.link.state
  scanList  : l'.link.scanList = l.link.scanList
  period    : l'.link.period = l.link.period
  overrun   : l'.link.overrun = l.link.overrun
  safeCount : l'.link.safeCount = l.link.safeCount
  discovery : l'.link.discovery = l.link.discovery
  halt      : l'.link.halt = l.link.halt

theorem Sends.request {l l' : Line} (h : Sends l l') : l'.request = l.request := by
  have e := congrArg Line.request h.others
  exact e

theorem Sends.status {l l' : Line} (h : Sends l l') : l'.status = l.status := by
  have e := congrArg Line.status h.others
  exact e

theorem Sends.slotAt {l l' : Line} (h : Sends l l') (i : Nat) : slotAt l' i = Machine.slotAt l i := slotAt_congr h.request i

theorem Sends.nodeAt {l l' : Line} (h : Sends l l') (n : Nat) : nodeAt l' n = Machine.nodeAt l n := by
  simp only [Machine.nodeAt, h.nodes]

theorem Sends.noticeSet {l l' : Line} (h : Sends l l') (n : Notice) : noticeSet l' n = Machine.noticeSet l n := by
  simp only [Machine.noticeSet, h.status]

theorem Sends.refl (l : Line) : Sends l l := ⟨rfl, rfl, rfl, rfl, rfl, rfl, rfl, rfl, rfl⟩

theorem Sends.trans {a b c : Line} (h : Sends a b) (g : Sends b c) : Sends a c where
  others := by
    have h₁ := h.others
    have h₂ := g.others
    calc { c with link := a.link } = { { c with link := b.link } with link := a.link } := rfl
      _ = { b with link := a.link } := by rw [h₂]
      _ = a := h₁
  nodes := g.nodes.trans h.nodes
  state := g.state.trans h.state
  scanList := g.scanList.trans h.scanList
  period := g.period.trans h.period
  overrun := g.overrun.trans h.overrun
  safeCount := g.safeCount.trans h.safeCount
  discovery := g.discovery.trans h.discovery
  halt := g.halt.trans h.halt

theorem sendNew_sends (k : FrameKind) (n : Nat) (p : List Byte) (j : ExchangeJob) (l : Line) : Sends l (sendNew k n p j l) :=
  ⟨rfl, rfl, rfl, rfl, rfl, rfl, rfl, rfl, rfl⟩

theorem sendExchange_sends (x : Exchange) (l : Line) : Sends l (sendExchange x l) := ⟨rfl, rfl, rfl, rfl, rfl, rfl, rfl, rfl, rfl⟩

theorem sendFrame_sends (b : LinkBusy) (bytes : List Byte) (l : Line) : Sends l (sendFrame b bytes l) :=
  ⟨rfl, rfl, rfl, rfl, rfl, rfl, rfl, rfl, rfl⟩

theorem sendSafe_sends (r : Option Exchange) (l : Line) : Sends l (sendSafe r l) := ⟨rfl, rfl, rfl, rfl, rfl, rfl, rfl, rfl, rfl⟩

theorem releaseLink_sends (l : Line) : Sends l (releaseLink l) := ⟨rfl, rfl, rfl, rfl, rfl, rfl, rfl, rfl, rfl⟩

theorem startCycle_sends (l : Line) : Sends l (startCycle l) := ⟨rfl, rfl, rfl, rfl, rfl, rfl, rfl, rfl, rfl⟩

theorem sendOneShot_sends (l : Line) : Sends l (sendOneShot l) := by
  unfold sendOneShot
  cases h : l.link.oneShots with
  | nil => exact Sends.refl l
  | cons o rest => exact ⟨rfl, rfl, rfl, rfl, rfl, rfl, rfl, rfl, rfl⟩

/-- Outside HALTING the end of a cycle only starts an owed one. -/
theorem settleCycle_sends (l : Line) (h : l.link.state ≠ .halting) : Sends l (settleCycle l) := by
  have next (m : Line) (hm : Sends l m) :
      Sends l (if m.link.state = .halting then endHalt m
        else if m.link.owed then startCycle (changeLink (fun k => { k with owed := false }) m) else m) := by
    rw [if_neg (by rw [hm.state]; exact h)]
    split
    · exact hm.trans ⟨rfl, rfl, rfl, rfl, rfl, rfl, rfl, rfl, rfl⟩
    · exact hm
  unfold settleCycle
  split
  · split
    · exact Sends.refl l
    · exact next _ ⟨rfl, rfl, rfl, rfl, rfl, rfl, rfl, rfl, rfl⟩
  · exact Sends.refl l

/-- A link that is busy sends nothing further. -/
theorem pump_busy (l : Line) (h : l.link.busy ≠ .quiet) : pump l = l := by
  unfold pump
  cases hb : l.link.busy with
  | quiet => exact absurd hb h
  | waiting x => rfl
  | safe r => rfl

/-- The next frame changes nothing but the sending. -/
theorem sendNext_sends (l : Line) : Sends l (sendNext l) := by
  unfold sendNext
  split
  · exact sendOneShot_sends l
  · split
    · exact Sends.trans (b := changeLink _ l) ⟨rfl, rfl, rfl, rfl, rfl, rfl, rfl, rfl, rfl⟩ (sendOneShot_sends _)
    · split
      · exact Sends.refl l
      · exact ⟨rfl, rfl, rfl, rfl, rfl, rfl, rfl, rfl, rfl⟩

/-- Outside HALTING, what goes on the link next changes nothing but the sending. -/
theorem pump_sends (l : Line) (h : l.link.state ≠ .halting) : Sends l (pump l) := by
  unfold pump
  split
  · split
    · split
      · exact sendNew_sends _ _ _ _ l
      · exact Sends.refl l
    · have s := settleCycle_sends l h
      generalize settleCycle l = m at s
      dsimp only
      split
      · exact s.trans (sendSafe_sends none m)
      · exact s.trans (sendNext_sends m)
  · exact Sends.refl l

/-- With no cycle, nothing waiting and no discovery a quiet link sends nothing. -/
theorem pump_rests (l : Line) (hd : l.link.state ≠ .discovering) (hc : l.link.cycle = none) (ho : l.link.oneShots = [])
    (hs : l.link.safeWaits = false) : pump l = l := by
  unfold pump
  split
  · rw [if_neg hd]
    have s : settleCycle l = l := by unfold settleCycle; rw [hc]
    simp only [s, hs, Bool.false_and, Bool.false_eq_true, if_false, sendNext, hc, sendOneShot, ho]
  · rfl

/-- Outside HALTING, after an exchange the link goes on sending. -/
theorem exchangeEnded_sends (job : ExchangeJob) (l : Line) (h : l.link.state ≠ .halting) :
    Sends l (exchangeEnded job l) := by
  unfold exchangeEnded
  cases job with
  | scan => exact Sends.trans (b := changeLink _ (releaseLink l)) ⟨rfl, rfl, rfl, rfl, rfl, rfl, rfl, rfl, rfl⟩ (pump_sends _ h)
  | enum p => exact (releaseLink_sends l).trans (pump_sends _ h)
  | oneShot o => exact (releaseLink_sends l).trans (pump_sends _ h)

/-- The settling of a cycle that goes on, or of none, changes nothing. -/
theorem settleCycle_stays (l : Line) (h : ¬ CycleEnds false l) : settleCycle l = l := by
  unfold settleCycle
  split
  · next t hc =>
    rw [if_pos]
    cases ht : t with
    | false => exact absurd ⟨_, hc, rfl, .inr ⟨rfl, ht⟩⟩ h
    | true =>
      cases ho : l.link.oneShots with
      | nil => exact absurd ⟨_, hc, rfl, .inl ho⟩ h
      | cons => rfl
  · rfl

/-- Outside HALTING a cycle that ends makes way for an owed one, or for none. -/
theorem settleCycle_ends (l : Line) (h : CycleEnds false l) (hh : l.link.state ≠ .halting) :
    settleCycle l =
      changeLink (fun k =>
        { k with
          owed := false
          cycle := if k.owed = true ∧ k.scanList ≠ [] then some { rest := k.scanList, turn := false } else none }) l := by
  obtain ⟨⟨rest, turn⟩, hc, hr, ho⟩ := h
  dsimp only at hr ho
  subst hr
  have hno : (turn && !l.link.oneShots.isEmpty) = false := by
    rcases ho with ho | ⟨-, ho⟩
    · rw [ho]; simp
    · rw [ho]; rfl
  unfold settleCycle
  rw [hc]
  dsimp only
  rw [if_neg (by rw [hno]; decide), if_neg (show ¬ (changeLink (fun k => { k with cycle := none }) l).link.state = .halting from hh)]
  show (if l.link.owed = true then _ else _) = _
  cases how : l.link.owed with
  | false =>
    rw [if_neg (by decide)]
    unfold changeLink
    simp [how]
  | true =>
    rw [if_pos rfl]
    unfold startCycle changeLink
    cases hs : l.link.scanList <;> simp [how]

/-- What a quiet link, IDLE, SCANNING or HALTING, sends next. -/
theorem pump_goesOn (l : Line) (hq : l.link.busy = .quiet) (hd : l.link.state ≠ .discovering) (hl : l.link.driving = false)
    (hr : l.link.replyDue = none) (h : CycleGoesOn false l) : LinkGoesOn false l (pump l) := by
  have go : ∀ m : Line, m.link.busy = .quiet → m.link.driving = false → m.link.replyDue = none →
      m.link.oneShots = l.link.oneShots → m.link.safeWaits = l.link.safeWaits → m.link.seqBits = l.link.seqBits →
      linkScans m = linkScans l → (∀ c, m.link.cycle = some c → c.rest = [] → c.turn = true ∧ l.link.oneShots ≠ []) →
      let l' := if (m.link.safeWaits && linkScans m) = true then sendSafe none m else sendNext m
      l'.link.owed = m.link.owed ∧ l'.link.state = m.link.state ∧ l'.link.scanList = m.link.scanList
        ∧ l'.link.period = m.link.period ∧ l'.link.overrun = m.link.overrun ∧ l'.link.halt = m.link.halt
        ∧ l'.link.discovery = m.link.discovery ∧
        ((l.link.safeWaits = true ∧ linkScans l = true →
          l'.link.busy = .safe none ∧ l'.link.sent = frameBytes .safe 0 0 [] ∧ driverEnabled l' = true
            ∧ l'.link.replyDue = none ∧ l'.link.safeWaits = false ∧ l'.link.cycle = m.link.cycle
            ∧ l'.link.oneShots = l.link.oneShots ∧ l'.link.seqBits = l.link.seqBits)
        ∧ (¬ (l.link.safeWaits = true ∧ linkScans l = true) → l'.link.safeWaits = l.link.safeWaits
          ∧ (∀ o os, l.link.oneShots = o :: os → (∀ c, m.link.cycle = some c → c.turn = true) →
              NewFrame l l' (if o.isSet then .pset else .pget) o.node (oneShotPayload o) (.oneShot o)
                ∧ l'.link.oneShots = os ∧ l'.link.cycle = m.link.cycle.map fun c => { c with turn := false })
          ∧ (∀ n rest turn, m.link.cycle = some { rest := n :: rest, turn := turn } →
              turn = false ∨ l.link.oneShots = [] →
              NewFrame l l' .scan n (scanPayload l' n) .scan
                ∧ l'.link.oneShots = l.link.oneShots ∧ l'.link.cycle = some { rest := rest, turn := false })
          ∧ (m.link.cycle = none → l.link.oneShots = [] →
              l'.link.busy = .quiet ∧ driverEnabled l' = false ∧ l'.link.replyDue = none ∧ l'.link.oneShots = []
                ∧ l'.link.cycle = none ∧ l'.link.seqBits = l.link.seqBits))) := by
    intro m q1 q2 q3 ho hs hb hk hc
    have bit (n : Nat) : seqBit m n = seqBit l n := by unfold seqBit; rw [hb]
    dsimp only
    by_cases safe : l.link.safeWaits = true ∧ linkScans l = true
    · rw [if_pos (by rw [hs, hk, safe.1, safe.2]; rfl)]
      exact ⟨rfl, rfl, rfl, rfl, rfl, rfl, rfl, fun _ => ⟨rfl, rfl, rfl, rfl, rfl, rfl, ho, hb⟩, fun n => absurd safe n⟩
    · rw [if_neg (by rw [hs, hk, Bool.and_eq_true]; exact safe)]
      have sn := sendNext_sends m
      have owed : (sendNext m).link.owed = m.link.owed ∧ (sendNext m).link.safeWaits = m.link.safeWaits := by
        unfold sendNext sendOneShot sendScan sendNew sendExchange sendFrame changeLink
        repeat' split
        all_goals exact ⟨rfl, rfl⟩
      refine ⟨owed.1, sn.state, sn.scanList, sn.period, sn.overrun, sn.halt, sn.discovery, fun c => absurd c safe, fun _ =>
        ⟨owed.2.trans hs, ?_, ?_, ?_⟩⟩
      · intro o os e ht
        have shot (d : Option Cycle) (hd : d = m.link.cycle.map fun c => { c with turn := false }) :
            sendNext m = sendOneShot (changeLink (fun k => { k with cycle := d }) m) := by
          unfold sendNext
          cases hcy : m.link.cycle with
          | none =>
            subst hd
            have e : { m.link with cycle := m.link.cycle.map fun c => { c with turn := false } } = m.link := by
              rw [hcy, Option.map_none, ← hcy]
            show sendOneShot m = sendOneShot { m with
              link := { m.link with cycle := m.link.cycle.map fun c => { c with turn := false } } }
            rw [e]
          | some c =>
            subst hd
            dsimp only
            rw [if_pos (by rw [ht c hcy, ho, e]; rfl), hcy]; rfl
        rw [shot _ rfl]
        have e' : m.link.oneShots = o :: os := ho.trans e
        unfold sendOneShot
        rw [show (changeLink (fun k => { k with cycle := m.link.cycle.map fun c => { c with turn := false } }) m).link.oneShots
          = o :: os from e']
        dsimp only
        refine ⟨⟨?_, ?_, rfl, rfl, rfl, ?_⟩, rfl, rfl⟩
        · show LinkBusy.waiting _ = _
          rw [← bit]; rfl
        · rw [← bit]; rfl
        · rw [← bit, ← hb]; rfl
      · intro n rest turn e ht
        have : sendNext m = sendScan n (changeLink (fun k => { k with cycle := some { rest := rest, turn := false } }) m) := by
          unfold sendNext
          rw [e]
          dsimp only
          rw [if_neg]
          rcases ht with ht | ht
          · rw [ht]; exact Bool.false_ne_true
          · rw [ho, ht]; simp
        rw [this]
        refine ⟨⟨?_, ?_, rfl, rfl, rfl, ?_⟩, ho, rfl⟩
        · show LinkBusy.waiting _ = _
          rw [← bit]; rfl
        · rw [← bit]; rfl
        · rw [← bit, ← hb]; rfl
      · intro e no
        have : sendNext m = m := by
          unfold sendNext sendOneShot; rw [e, ho, no]
        rw [this]
        exact ⟨q1, q2, q3, ho.trans no, e, hb⟩
  have step : pump l = (if ((settleCycle l).link.safeWaits && linkScans (settleCycle l)) = true then
      sendSafe none (settleCycle l) else sendNext (settleCycle l)) := by
    unfold pump; rw [hq]; dsimp only; rw [if_neg hd]
  rw [step]
  by_cases en : CycleEnds false l
  · have hh : l.link.state ≠ .halting := by
      intro hh
      obtain ⟨c, h1, h2⟩ := h hh
      obtain ⟨d, g1, g2, g3⟩ := en
      rw [h1] at g1; cases g1
      rcases h2 with h2 | ⟨h2, h3⟩
      · exact h2 g2
      · rcases g3 with g3 | ⟨-, g3⟩
        · exact h3 g3
        · rcases h2 with h2 | h2
          · cases h2
          · rw [g3] at h2; cases h2
    have key := go (settleCycle l) (by rw [settleCycle_ends l en hh]; exact hq) (by rw [settleCycle_ends l en hh]; exact hl)
      (by rw [settleCycle_ends l en hh]; exact hr) (by rw [settleCycle_ends l en hh]; rfl)
      (by rw [settleCycle_ends l en hh]; rfl) (by rw [settleCycle_ends l en hh]; rfl)
      (by rw [settleCycle_ends l en hh]; rfl) (by
        rw [settleCycle_ends l en hh]
        intro c hc hr
        dsimp only [changeLink] at hc
        split at hc
        · next g => cases hc; exact absurd hr g.2
        · cases hc)
    rw [settleCycle_ends l en hh] at key ⊢
    obtain ⟨k1, k2, k3, k4, k5, k6, k7, k8⟩ := key
    refine ⟨fun _ => k1, fun n => absurd en n, k2, k3, k4, k5, k6, k7, fun cycle hc => ?_⟩
    have e : cycle = if l.link.owed = true ∧ l.link.scanList ≠ [] then some { rest := l.link.scanList, turn := false } else none := by
      rcases hc with ⟨n, -⟩ | ⟨-, a, b, c⟩ | ⟨-, a, b⟩
      · exact absurd en n
      · rw [if_pos ⟨a, b⟩, c]
      · rw [if_neg, b]
        rintro ⟨x, y⟩
        rcases a with a | a
        · rw [a] at x; cases x
        · exact y a
    subst e
    exact k8
  · have key := go l hq hl hr rfl rfl rfl rfl (by
      intro c hc he
      refine ⟨?_, fun no => en ⟨c, hc, he, .inl no⟩⟩
      cases ht : c.turn with
      | true => rfl
      | false => exact absurd ⟨c, hc, he, .inr ⟨rfl, ht⟩⟩ en)
    rw [settleCycle_stays l en]
    obtain ⟨k1, k2, k3, k4, k5, k6, k7, k8⟩ := key
    refine ⟨fun n => absurd n en, fun _ => k1, k2, k3, k4, k5, k6, k7, fun cycle hc => ?_⟩
    have e : cycle = l.link.cycle := by
      rcases hc with ⟨-, a⟩ | ⟨a, -⟩ | ⟨a, -⟩
      · rw [a]; cases l.link.cycle with
        | none => rfl
        | some c => rfl
      · exact absurd a en
      · exact absurd a en
    subst e
    exact k8

/-- The two lines' links differ in nothing that decides what goes on the link next. -/
def SameQueue (l m : Line) : Prop :=
  { l.link with
    nodes := m.link.nodes, busy := m.link.busy, sent := m.link.sent, driving := m.link.driving, limit := m.link.limit,
    replyDue := m.link.replyDue, safeCount := m.link.safeCount } = m.link

theorem SameQueue.refl (l : Line) : SameQueue l l := rfl

/-- What goes on the link next rests on the cycle, the one-shots, the waiting SAFE and the sequence bits only. -/
theorem LinkGoesOn.congr {scan : Bool} {l m l' : Line} (e : SameQueue l m) (h : LinkGoesOn scan m l') :
    LinkGoesOn scan l l' := by
  unfold LinkGoesOn CycleEnds NewFrame seqBit linkScans at *
  unfold SameQueue at e
  rw [← e] at h
  exact h

/-- Whether a cycle goes on rests on the link's state, its cycle and its one-shots only. -/
theorem CycleGoesOn.congr {scan : Bool} {l l' : Line} (h : l'.link.state = l.link.state)
    (c : l'.link.cycle = l.link.cycle) (o : l'.link.oneShots = l.link.oneShots) (g : CycleGoesOn scan l) :
    CycleGoesOn scan l' := by
  unfold CycleGoesOn at *; rw [h, c, o]; exact g

/-- After an exchange the link goes on as R63, R70 and R72 say. -/
theorem exchangeEnded_spec (job : ExchangeJob) (l : Line) (hd : l.link.state ≠ .discovering)
    (h : CycleGoesOn (job == .scan) l) : LinkGoesOn (job == .scan) l (exchangeEnded job l) := by
  unfold exchangeEnded
  dsimp only
  by_cases hj : job = .scan
  · subst hj
    show LinkGoesOn true l (pump _)
    generalize hm : changeLink (fun k => { k with cycle := k.cycle.map fun c => { c with turn := true } }) (releaseLink l) = m
    have ends : CycleEnds false m ↔ CycleEnds true l := by
      rw [← hm]
      constructor
      · rintro ⟨c, hc, hr, ho⟩
        obtain ⟨d, hd, rfl⟩ := Option.map_eq_some_iff.mp hc
        exact ⟨d, hd, hr, .inl (ho.resolve_right (by simp))⟩
      · rintro ⟨d, hd, hr, ho⟩
        exact ⟨{ d with turn := true }, Option.map_eq_some_iff.mpr ⟨d, hd, rfl⟩, hr, .inl (ho.resolve_right (by simp))⟩
    have key := pump_goesOn m (by rw [← hm]; rfl) (by rw [← hm]; exact hd) (by rw [← hm]; rfl) (by rw [← hm]; rfl) (by
      intro hh
      obtain ⟨c, hc, hg⟩ := h (by rw [← hm] at hh; exact hh)
      refine ⟨{ c with turn := true }, by rw [← hm]; exact Option.map_eq_some_iff.mpr ⟨c, hc, rfl⟩, ?_⟩
      rcases hg with hg | ⟨-, hg⟩
      · exact .inl hg
      · exact .inr ⟨.inr rfl, by rw [← hm]; exact hg⟩)
    unfold LinkGoesOn at key ⊢
    rw [ends] at key
    have cyc : (m.link.cycle.map fun c => { c with turn := false || c.turn }) =
        l.link.cycle.map fun c => { c with turn := true || c.turn } := by
      rw [← hm]
      show (l.link.cycle.map _).map _ = _
      cases l.link.cycle <;> rfl
    obtain ⟨k1, k2, k3, k4, k5, k6, k7, k8, k9⟩ := key
    have hk : m.link.owed = l.link.owed ∧ m.link.oneShots = l.link.oneShots ∧ m.link.safeWaits = l.link.safeWaits
        ∧ m.link.scanList = l.link.scanList ∧ m.link.seqBits = l.link.seqBits ∧ linkScans m = linkScans l
        ∧ ∀ n, seqBit m n = seqBit l n := by rw [← hm]; exact ⟨rfl, rfl, rfl, rfl, rfl, rfl, fun _ => rfl⟩
    obtain ⟨e1, e2, e3, e4, e5, e6, e7⟩ := hk
    have hs : m.link.state = l.link.state ∧ m.link.period = l.link.period ∧ m.link.overrun = l.link.overrun
        ∧ m.link.halt = l.link.halt ∧ m.link.discovery = l.link.discovery := by
      rw [← hm]; exact ⟨rfl, rfl, rfl, rfl, rfl⟩
    obtain ⟨f1, f2, f3, f4, f5⟩ := hs
    refine ⟨k1, fun n => (k2 n).trans e1, k3.trans f1, k4.trans e4, k5.trans f2, k6.trans f3, k7.trans f4, k8.trans f5,
      fun cycle hc => ?_⟩
    unfold NewFrame at k9 ⊢
    rw [e1, e2, e3, e4, e5, e6, cyc] at k9
    simp only [e7] at k9
    exact k9 cycle hc
  · have hb : (job == .scan) = false := by rw [beq_eq_false_iff_ne]; exact hj
    rw [hb] at h ⊢
    have key := pump_goesOn (releaseLink l) rfl hd rfl rfl h
    cases job with
    | scan => exact absurd rfl hj
    | enum => exact LinkGoesOn.congr (m := releaseLink l) rfl key
    | oneShot => exact LinkGoesOn.congr (m := releaseLink l) rfl key

/-- While a HALTING link's cycle goes on, and in every other state of the link, it goes on sending after an exchange. -/
theorem exchangeEnded_goesOn (job : ExchangeJob) (l : Line) (h : CycleGoesOn (job == .scan) l) :
    Sends l (exchangeEnded job l) := by
  by_cases hh : l.link.state = .halting
  · have key : ∀ m : Line, Sends l m → m.link.state = .halting → ¬ CycleEnds false m → Sends l (pump m) := by
      intro m hm hs hc
      unfold pump
      split
      · rw [if_neg (by rw [hs]; decide), settleCycle_stays m hc]
        dsimp only
        split
        · exact hm.trans (sendSafe_sends none m)
        · exact hm.trans (sendNext_sends m)
      · exact hm
    obtain ⟨c, hc, hg⟩ := h hh
    unfold exchangeEnded
    dsimp only
    cases job with
    | scan =>
      refine key _ ((releaseLink_sends l).trans (b := releaseLink l) ⟨rfl, rfl, rfl, rfl, rfl, rfl, rfl, rfl, rfl⟩) hh ?_
      rintro ⟨d, hd, hr, ho⟩
      obtain ⟨e, he, rfl⟩ := Option.map_eq_some_iff.mp hd
      rw [show l.link.cycle = some e from he] at hc; cases hc
      rcases hg with hg | ⟨-, hg⟩
      · exact hg hr
      · exact hg (ho.resolve_right (by simp))
    | enum p =>
      refine key _ (releaseLink_sends l) hh ?_
      rintro ⟨d, hd, hr, ho⟩
      rw [show l.link.cycle = some d from hd] at hc; cases hc
      rcases hg with hg | ⟨h1, hg⟩
      · exact hg hr
      · rcases ho with ho | ⟨-, ho⟩
        · exact hg ho
        · rw [ho] at h1; exact absurd h1 (by simp)
    | oneShot o =>
      refine key _ (releaseLink_sends l) hh ?_
      rintro ⟨d, hd, hr, ho⟩
      rw [show l.link.cycle = some d from hd] at hc; cases hc
      rcases hg with hg | ⟨h1, hg⟩
      · exact hg hr
      · rcases ho with ho | ⟨-, ho⟩
        · exact hg ho
        · rw [ho] at h1; exact absurd h1 (by simp)
  · exact exchangeEnded_sends job l hh

/-- A SAFE asked for changes nothing but the sending. -/
theorem askSafe_sends (l : Line) : Sends l (askSafe l) := by
  unfold askSafe
  split
  · split
    · exact sendSafe_sends none l
    · exact ⟨rfl, rfl, rfl, rfl, rfl, rfl, rfl, rfl, rfl⟩
  · exact Sends.refl l

/-- A SAFE asked for goes at once on a quiet link that scans. -/
theorem askSafe_quiet (l : Line) (hs : linkScans l = true) (hq : l.link.busy = .quiet) :
    askSafe l = sendSafe none l := by
  unfold askSafe
  rw [if_pos hs, if_pos hq]

/-- A SAFE asked for waits on a busy link that scans. -/
theorem askSafe_busy (l : Line) (hs : linkScans l = true) (hq : l.link.busy ≠ .quiet) :
    askSafe l = changeLink (fun k => { k with safeWaits := true }) l := by
  unfold askSafe
  rw [if_pos hs, if_neg hq]

/-- A SAFE asked for is dropped when the link does not scan. -/
theorem askSafe_dropped (l : Line) (hs : linkScans l = false) : askSafe l = l := by
  unfold askSafe
  simp [hs]

end Sys2Proof.Machine
end

