-- ==== Sys2Proof/Laws/Lots.lean ====
section
/-! SUPPORT. The lot operations: the closing of the OPEN lot and the numbers admissions take. -/

namespace Sys2Proof.Machine

theorem openLot_mem {l : Line} {x : Lot} (h : openLot l = some x) : x ∈ l.track.lots ∧ x.isOpen = true :=
  ⟨List.mem_of_find?_eq_some h, by simpa using List.find?_some h⟩

/-- An OPEN lot whose number no other lot has is the one found under its number. -/
theorem lot?_of_open {l : Line} {x : Lot} (h : openLot l = some x)
    (u : ∀ y ∈ l.track.lots, y.number = x.number → y = x) : lot? l x.number = some x := by
  unfold lot?
  cases e : l.track.lots.find? (·.number == x.number) with
  | none => rw [List.find?_eq_none] at e; exact absurd (e x (openLot_mem h).1) (by simp)
  | some y =>
    have := List.find?_some e
    rw [u y (List.mem_of_find?_eq_some e) (by simpa using this)]

/-- With no STORED pallet naming the lot there is none to judge. -/
theorem storedWith_nil {l : Line} {n : Nat}
    (h : ∀ p ∈ l.pack.pallets, p.state = .stored → ∀ e ∈ p.lots, e.lot ≠ n) : storedWith l n = [] := by
  unfold storedWith
  rw [List.filter_eq_nil_iff.mpr]
  · rfl
  · intro p hp
    simp only [Bool.and_eq_true, beq_iff_eq, List.any_eq_true, not_and, not_exists]
    intro a e he
    exact h p hp a e he

/-- The verdict judgment of a closed lot, in the words of `Lot.finalAt`. -/
theorem finalAt_eq (t : Word) (x : Lot) :
    x.finalAt t =
      { ({ x with isOpen := false } : Lot) with
        verdict := (verdictOf { x with isOpen := false }).1, reasons := (verdictOf { x with isOpen := false }).2
        verdictTime := some t } := by
  have e : lotReasons { x with isOpen := false } = lotReasons x := rfl
  simp only [Lot.finalAt, verdictOf, e]
  by_cases a : x.admitted = 0
  · simp only [if_pos a]
  · by_cases b : x.trial = true
    · simp only [if_neg a, if_pos b]
    · by_cases c : lotReasons x = 0
      · simp only [if_neg a, if_neg b, if_pos c]
        rw [c]
      · simp only [if_neg a, if_neg b, if_neg c]

theorem finalAt_verdict (t : Word) (x : Lot) : (x.finalAt t).verdict ≠ .pending := by
  unfold Lot.finalAt
  repeat' split
  all_goals simp

/-- The retirement judgment of a lot whose closing made it final (R167). -/
theorem canRetire_finalAt (l : Line) (t : Word) (x : Lot) :
    canRetire l (x.finalAt t) = true
      ↔ x.onTrack = 0 ∧ (∀ e ∈ l.pack.feed, e.lot ≠ x.number) ∧ x.livePallets = 0 := by
  have v := finalAt_verdict t x
  have n : (x.finalAt t).number = x.number := rfl
  have o : (x.finalAt t).isOpen = false := rfl
  have u : (x.finalAt t).onTrack = x.onTrack := rfl
  have p : (x.finalAt t).livePallets = x.livePallets := rfl
  simp only [canRetire, hasFeed, n, o, u, p]
  simp [v, and_assoc]

/-- What the closing of the OPEN lot does (R121): the lot table and the log as `LotClosing` says, the LOT_VERDICT notice
with a final verdict, and nothing else. -/
theorem closeLot_spec {l : Line} {x : Lot} (ho : openLot l = some x)
    (hu : ∀ y ∈ l.track.lots, y.number = x.number → y = x) (hv : x.verdict = .pending)
    (hs : x.unevaluated = 0 →
      (∀ p ∈ l.pack.pallets, p.state = .stored → ∀ e ∈ p.lots, e.lot ≠ x.number) ∧ 1 < l.log.reserved) :
    LotClosing l x l.log (closeLot x.number l).track.lots (closeLot x.number l).log
      ∧ { closeLot x.number l with
          log := l.log, track := { (closeLot x.number l).track with lots := l.track.lots } } =
        if x.unevaluated = 0 then raise .lotVerdict l else l := by
  have h0 : lot? l x.number = some x := lot?_of_open ho hu
  have h1 : lot? (changeLot x.number (fun x => { x with isOpen := false }) l) x.number
      = some { x with isOpen := false } := by
    rw [lot?_changeLot _ _ _ (by simp), h0]
    simp
  by_cases hz : x.unevaluated = 0
  · obtain ⟨hp, hr⟩ := hs hz
    let y := x.finalAt (now l)
    let g : RecordLog :=
      { appended l.log (now l) .lotVerdict (lotVerdictPayload l y) with reserved := l.log.reserved - 1 }
    let judged : Line :=
      { raise .lotVerdict l with
        track := { l.track with lots := l.track.lots.map fun z => if z.number = x.number then y else z }, log := g }
    have yn : y.number = x.number := rfl
    have verdict : judgeVerdict x.number (changeLot x.number (fun x => { x with isOpen := false }) l)
        = judgeRetirement x.number judged := by
      unfold judgeVerdict
      rw [h1]
      dsimp only
      rw [if_pos (by simp [verdictDue, hz, hv])]
      have en : now (changeLot x.number (fun x => { x with isOpen := false }) l) = now l := rfl
      rw [en, ← finalAt_eq]
      have ec : changeLot x.number (fun _ => y) (changeLot x.number (fun x => { x with isOpen := false }) l)
          = { l with
              track := { l.track with lots := l.track.lots.map fun z => if z.number = x.number then y else z } } := by
        simp only [changeLot, List.map_map]
        congr 2
        apply List.map_congr_left
        intro z _
        by_cases c : z.number = x.number <;> simp [c]
      rw [show changeLot x.number (fun _ => x.finalAt (now l)) _ = _ from ec]
      unfold writeReserved
      rw [if_pos (by show 0 < l.log.reserved; omega)]
      have es : ∀ m : Line, m.pack = l.pack → storedWith m x.number = [] := fun m e => storedWith_nil (by rw [e]; exact hp)
      rw [es _ (by rfl)]
      rfl
    have h2 : lot? judged x.number = some y := by
      unfold lot? at h0 ⊢
      show List.find? _ (List.map _ _) = _
      rw [find?_map_keep (fun z => if z.number = x.number then y else z) _
        (fun z => by by_cases c : z.number = x.number <;> simp [c, yn]), h0]
      simp
    unfold closeLot
    rw [verdict]
    by_cases retires : x.onTrack = 0 ∧ (∀ e ∈ l.pack.feed, e.lot ≠ x.number) ∧ x.livePallets = 0
    · have e1 : judgeRetirement x.number judged
          = { raise .lotVerdict l with
              track := { l.track with lots := l.track.lots.filter (·.number != x.number) }
              log := { appended g (now l) .lotSummary (lotSummaryPayload l y) with reserved := g.reserved - 1 } } := by
        unfold judgeRetirement
        rw [h2]
        dsimp only
        rw [if_pos ((canRetire_finalAt judged _ x).mpr retires)]
        unfold writeReserved
        rw [if_pos (by show 0 < l.log.reserved - 1; omega)]
        dsimp only
        have keeps : List.filter (·.number != x.number) (l.track.lots.map fun z => if z.number = x.number then y else z)
            = l.track.lots.filter (·.number != x.number) := by
          rw [List.filter_map]
          have : ((fun z : Lot => z.number != x.number) ∘ fun z => if z.number = x.number then y else z)
              = fun z => z.number != x.number := by
            funext z
            by_cases c : z.number = x.number <;> simp [c, yn]
          rw [this]
          conv => rhs; rw [← List.map_id (List.filter _ _)]
          apply List.map_congr_left
          intro z hz'
          simp at hz'
          simp [hz'.2]
        show ({ judged with track := { l.track with lots := List.filter _ (List.map _ _) }, log := _ } : Line) = _
        rw [keeps]
        rfl
      have e2 : ∀ m : Line, m.track.lots = l.track.lots.filter (·.number != x.number) →
          judgeRetirement x.number m = m := by
        intro m e
        unfold judgeRetirement
        have : lot? m x.number = none := by
          unfold lot?
          rw [e, List.find?_eq_none]
          intro z hz'
          simp at hz'
          simp [hz'.2]
        rw [this]
      rw [e1, e2 _ rfl, if_pos hz]
      exact ⟨⟨fun c => absurd hz c, fun _ c => absurd retires c, fun _ _ => ⟨rfl, rfl⟩⟩, rfl⟩
    · have e1 : judgeRetirement x.number judged = judged := by
        unfold judgeRetirement
        rw [h2]
        dsimp only
        rw [if_neg (fun c => retires ((canRetire_finalAt judged _ x).mp c))]
      rw [e1, e1, if_pos hz]
      exact ⟨⟨fun c => absurd hz c, fun _ _ => ⟨rfl, rfl⟩, fun _ c => absurd c retires⟩, rfl⟩
  · have e : closeLot x.number l = changeLot x.number (fun x => { x with isOpen := false }) l := by
      unfold closeLot
      have : judgeVerdict x.number (changeLot x.number (fun x => { x with isOpen := false }) l)
          = changeLot x.number (fun x => { x with isOpen := false }) l := by
        unfold judgeVerdict
        rw [h1]
        dsimp only
        rw [if_neg]
        simp only [verdictDue, Bool.and_eq_true, beq_iff_eq]
        exact fun c => hz c.1.2
      rw [this]
      unfold judgeRetirement
      rw [h1]
      simp [canRetire, hv]
    rw [e, if_neg hz]
    exact ⟨⟨fun _ => ⟨rfl, rfl⟩, fun c => absurd c hz, fun c => absurd c hz⟩, rfl⟩

/-- A list that holds n distinct numbers has at least n elements. -/
theorem length_of_injective (f : Nat → Nat) : ∀ (n : Nat) (held : List Nat),
    (∀ i < n, ∀ j < n, f i = f j → i = j) → (∀ j < n, f j ∈ held) → n ≤ held.length
  | 0, _, _, _ => Nat.zero_le _
  | n + 1, held, inj, sub => by
    have last := sub n (by omega)
    have fewer := length_of_injective f n (held.erase (f n)) (fun i hi j hj => inj i (by omega) j (by omega))
      (fun j hj => (List.mem_erase_of_ne fun e => absurd (inj j (by omega) n (by omega) e) (by omega)).mpr (sub j (by omega)))
    have := List.length_erase_of_mem last
    have := List.length_pos_of_mem last
    omega

/-- The number the counters go on to is the first after n, 65 535 followed by 1, that is not held, or every candidate the
search tried is held (R118, R148). -/
theorem nextNumber_spec (held : List Nat) : ∀ (fuel n : Nat), n ≤ 65535 →
    (∃ k, nextNumber held fuel n = (n + k) % 65535 + 1 ∧ nextNumber held fuel n ∉ held
        ∧ ∀ j < k, (n + j) % 65535 + 1 ∈ held)
      ∨ ∀ j < fuel, (n + j) % 65535 + 1 ∈ held
  | 0, _, _ => .inr fun _ h => absurd h (by omega)
  | fuel + 1, n, hn => by
    unfold nextNumber
    dsimp only
    generalize hm : (if n = 65535 then 1 else n + 1) = m
    have me : m = n % 65535 + 1 := by rw [← hm]; split <;> omega
    by_cases c : held.contains m = true
    · have cm : m ∈ held := by simpa using c
      have shift (j : Nat) : (m + j) % 65535 + 1 = (n + (j + 1)) % 65535 + 1 := by omega
      have more (k : Nat) (h : ∀ j < k, (m + j) % 65535 + 1 ∈ held) : ∀ j < k + 1, (n + j) % 65535 + 1 ∈ held := by
        intro j hj
        cases j with
        | zero => exact me ▸ cm
        | succ j => rw [← shift]; exact h j (by omega)
      rw [if_pos c]
      rcases nextNumber_spec held fuel m (by omega) with ⟨k, h1, h2, h3⟩ | h
      · exact .inl ⟨k + 1, by rw [h1, shift], h2, more k h3⟩
      · exact .inr (more fuel h)
    · rw [if_neg c]
      exact .inl ⟨0, me, by simpa using c, fun j hj => absurd hj (by omega)⟩

/-- With fewer numbers held than candidates tried the search ends on a free one (R118, R148). -/
theorem nextNumber_free (held : List Nat) (n : Nat) (hn : n ≤ 65535) (room : held.length < 64) :
    ∃ k, nextNumber held 64 n = (n + k) % 65535 + 1 ∧ nextNumber held 64 n ∉ held
      ∧ ∀ j < k, (n + j) % 65535 + 1 ∈ held := by
  rcases nextNumber_spec held 64 n hn with h | h
  · exact h
  · have := length_of_injective (fun j => (n + j) % 65535 + 1) 64 held (fun i hi j hj e => by omega) h
    omega

end Sys2Proof.Machine
end

