-- ==== Sys2Proof/Laws/Memory.lean ====
section
/-! SUPPORT. Process memory: every operation keeps the canonical form, and a read after a write. -/

namespace Sys2Proof.Machine

/-! ## The canonical form -/

theorem Memory.above_mono {lo hi : Nat} (h : lo ≤ hi) : ∀ m : Memory, Memory.above hi m = true → Memory.above lo m = true
  | [], _ => rfl
  | (k, b) :: rest, w => by
    simp only [Memory.above, Bool.and_eq_true, decide_eq_true_eq] at w ⊢
    exact ⟨⟨Nat.le_trans h w.1.1, w.1.2⟩, w.2⟩

theorem Memory.write_above (a : Nat) (b : Byte) :
    ∀ (m : Memory) (lo : Nat), lo ≤ a → Memory.above lo m = true → Memory.above lo (Memory.write m a b) = true
  | [], lo, h, _ => by
    unfold Memory.write
    split
    · rfl
    · next hb => simp [Memory.above, h, hb]
  | (k, c) :: rest, lo, h, w => by
    simp only [Memory.above, Bool.and_eq_true, decide_eq_true_eq, bne_iff_ne] at w
    unfold Memory.write
    split
    · next lt =>
      split
      · simp [Memory.above, w.1.1, w.1.2, w.2]
      · next hb => simp [Memory.above, h, hb, w.1.2, w.2, Nat.succ_le_of_lt lt]
    · next ge =>
      split
      · next eq =>
        subst eq
        split
        · exact Memory.above_mono (by omega) rest w.2
        · next hb => simp [Memory.above, h, hb, w.2]
      · next ne =>
        have := Memory.write_above a b rest (k + 1) (by omega) w.2
        simp [Memory.above, w.1.1, w.1.2, this]

/-- A write keeps the canonical form. -/
theorem Memory.write_wf (m : Memory) (a : Nat) (b : Byte) (w : m.wf = true) : (m.write a b).wf = true :=
  Memory.write_above a b m 0 (Nat.zero_le a) w

theorem writeByte_wf (st : Straps) (m : Memory) (a : Nat) (b : Byte) (w : m.wf = true) :
    (writeByte st m a b).wf = true := by
  unfold writeByte
  split
  · exact Memory.write_wf m _ b w
  · exact w

theorem writeLanes_eq (st : Straps) (m : Memory) (w : Nat) (be : BitVec 4) (d : Word) :
    writeLanes st m w be d =
      let m0 := if enabled be 0 then writeByte st m (w + 0) (lane d 0) else m
      let m1 := if enabled be 1 then writeByte st m0 (w + 1) (lane d 1) else m0
      let m2 := if enabled be 2 then writeByte st m1 (w + 2) (lane d 2) else m1
      if enabled be 3 then writeByte st m2 (w + 3) (lane d 3) else m2 := rfl

/-- A write of lanes keeps the canonical form. -/
theorem writeLanes_wf (st : Straps) (m : Memory) (w : Nat) (be : BitVec 4) (d : Word) (h : m.wf = true) :
    (writeLanes st m w be d).wf = true := by
  have step (m : Memory) (k : Nat) (h : m.wf = true) :
      (if enabled be k then writeByte st m (w + k) (lane d k) else m).wf = true := by
    split
    · exact writeByte_wf st m _ _ h
    · exact h
  rw [writeLanes_eq]
  exact step _ 3 (step _ 2 (step _ 1 (step _ 0 h)))

/-! ## A read after a write -/

theorem Memory.read_below : ∀ (m : Memory) (lo a : Nat), a < lo → Memory.above lo m = true → m.read a = Config.memoryFill
  | [], _, _, _, _ => rfl
  | (k, b) :: rest, lo, a, h, w => by
    simp only [Memory.above, Bool.and_eq_true, decide_eq_true_eq] at w
    have : k ≠ a := by omega
    simp only [Memory.read, if_neg this]
    exact Memory.read_below rest (k + 1) a (by omega) w.2

theorem Memory.read_write_above (a : Nat) (b : Byte) (x : Nat) :
    ∀ (m : Memory) (lo : Nat), Memory.above lo m = true → (m.write a b).read x = if x = a then b else m.read x
  | [], lo, _ => by
    unfold Memory.write
    split
    · next hb => by_cases hx : x = a <;> simp [Memory.read, hx, hb]
    · by_cases hx : x = a
      · simp [Memory.read, hx]
      · simp [Memory.read, hx, Ne.symm hx]
  | (k, c) :: rest, lo, w => by
    simp only [Memory.above, Bool.and_eq_true, decide_eq_true_eq] at w
    unfold Memory.write
    split
    · next lt =>
      split
      · next hb =>
        by_cases hx : x = a
        · subst hx
          have hk : k ≠ x := by omega
          simp only [if_true, Memory.read, if_neg hk, hb]
          exact Memory.read_below rest (k + 1) x (by omega) w.2
        · simp [hx]
      · by_cases hx : x = a
        · simp [Memory.read, hx]
        · simp [Memory.read, hx, Ne.symm hx]
    · next ge =>
      split
      · next eq =>
        subst eq
        split
        · next hb =>
          by_cases hx : x = a
          · subst hx
            simp only [if_true, hb]
            exact Memory.read_below rest (x + 1) x (by omega) w.2
          · simp [Memory.read, hx, Ne.symm hx]
        · by_cases hx : x = a
          · simp [Memory.read, hx]
          · simp [Memory.read, hx, Ne.symm hx]
      · next ne =>
        have ih := Memory.read_write_above a b x rest (k + 1) w.2
        simp only [Memory.read]
        by_cases hk : k = x
        · subst hk
          have : ¬ k = a := fun e => ne e.symm
          simp [this]
        · simp only [if_neg hk]; exact ih

/-- A byte read after a write: the written one at its place, the old one elsewhere. -/
theorem Memory.read_write (m : Memory) (w : m.wf = true) (a : Nat) (b : Byte) (x : Nat) :
    (m.write a b).read x = if x = a then b else m.read x :=
  Memory.read_write_above a b x m 0 w

/-- The same through the memory port, for addresses below the memory size (R4). -/
theorem memoryByte_writeByte (st : Straps) (m : Memory) (h : m.wf = true) (n a x : Nat) (b : Byte)
    (ha : a < memorySize st) (hx : x < memorySize st) :
    memoryByte st (writeByte st m a b) n x = if x = a then b else memoryByte st m n x := by
  simp only [memoryByte, writeByte, memoryPlace, if_pos ha, if_pos hx]
  exact Memory.read_write m h a b x

/-- A byte read after a write of lanes at an address below the memory size (R4). -/
theorem memoryByte_writeLanes (st : Straps) (m : Memory) (h : m.wf = true) (n w x : Nat) (be : BitVec 4) (d : Word)
    (hw : w + 3 < memorySize st) (hx : x < memorySize st) :
    memoryByte st (writeLanes st m w be d) n x =
      if w ≤ x ∧ x < w + 4 ∧ enabled be (x - w) = true then lane d (x - w) else memoryByte st m n x := by
  have one (m : Memory) (h : m.wf = true) (k : Nat) (hk : k < 4) :
      memoryByte st (if enabled be k then writeByte st m (w + k) (lane d k) else m) n x =
        if x = w + k ∧ enabled be k = true then lane d k else memoryByte st m n x := by
    by_cases e : enabled be k = true
    · rw [if_pos e, memoryByte_writeByte st m h n (w + k) x (lane d k) (by omega) hx]
      simp [e]
    · rw [if_neg e]; simp [e]
  have keep (m : Memory) (k : Nat) (h : m.wf = true) :
      (if enabled be k then writeByte st m (w + k) (lane d k) else m).wf = true := by
    split
    · exact writeByte_wf st m _ _ h
    · exact h
  rw [writeLanes_eq]
  simp only
  rw [one _ (keep _ 2 (keep _ 1 (keep _ 0 h))) 3 (by omega), one _ (keep _ 1 (keep _ 0 h)) 2 (by omega),
    one _ (keep _ 0 h) 1 (by omega), one _ h 0 (by omega)]
  by_cases r : w ≤ x ∧ x < w + 4
  · have : x = w + 0 ∨ x = w + 1 ∨ x = w + 2 ∨ x = w + 3 := by omega
    rcases this with e | e | e | e <;> subst e <;> simp
  · have h0 : ¬ x = w + 0 := by omega
    have h1 : ¬ x = w + 1 := by omega
    have h2 : ¬ x = w + 2 := by omega
    have h3 : ¬ x = w + 3 := by omega
    have : ¬ (w ≤ x ∧ x < w + 4 ∧ enabled be (x - w) = true) := fun c => r ⟨c.1, c.2.1⟩
    rw [if_neg this]
    simp only [Nat.add_zero] at h0
    simp [h0, h1, h2, h3]

/-- The first mebibyte is memory whatever the MS straps (R1). -/
theorem memorySize_ge (st : Straps) : 2 ^ 20 ≤ memorySize st :=
  Nat.pow_le_pow_right (by omega) (by omega)

/-- The control area lies in the first mebibyte (Table 1-1). -/
theorem controlBase_le (st : Straps) : controlBase st ≤ 0xC0000 := by
  unfold controlBase
  have := st.ca.isLt
  omega

end Sys2Proof.Machine
end

