-- ==== Sys2Proof/Laws/Zones.lean ====
section
/-! SUPPORT. What a zone event can do to the zones: programs, entries into RUNNING, trips and the cascade, and the bound
of R95 that each event keeps. -/

namespace Sys2Proof.Machine

/-! ## Zone tables -/

theorem zoneState_congr {l l' : Line} (h : ∀ w, zone? l' w = zone? l w) (z : Nat) : zoneState l' z = zoneState l z := by
  simp only [zoneState, h]

theorem isRunning_iff (l : Line) (z : Nat) :
    isRunning l z = true ↔ ∃ x, zone? l z = some x ∧ x.run.state = .running := by
  unfold isRunning zoneState
  cases h : zone? l z <;> simp

/-- A change of zone states that leaves every descriptor. -/
def SameDescs (l l' : Line) : Prop := ∀ w, (zone? l' w).map (·.desc) = (zone? l w).map (·.desc)

theorem SameDescs.refl (l : Line) : SameDescs l l := fun _ => rfl
theorem SameDescs.trans {a b c : Line} (x : SameDescs a b) (y : SameDescs b c) : SameDescs a c :=
  fun w => (y w).trans (x w)
theorem SameDescs.zoneDesc {l l' : Line} (h : SameDescs l l') (w : Nat) : Machine.zoneDesc l' w = Machine.zoneDesc l w := by
  simp only [Machine.zoneDesc, h w]

theorem prereqsRun_mono {l l' : Line} (d : SameDescs l l') (m : ∀ w, isRunning l w = true → isRunning l' w = true)
    (z : Nat) (h : prereqsRun l z = true) : prereqsRun l' z = true := by
  unfold prereqsRun at *
  rw [List.all_eq_true] at *
  rw [d.zoneDesc]
  exact fun x hx => m x (h x hx)

theorem prereqsRun_congr {l l' : Line} (h : ∀ w, zone? l' w = zone? l w) (z : Nat) : prereqsRun l' z = prereqsRun l z := by
  have e : isRunning l' = isRunning l := by funext w; simp only [isRunning, zoneState, h]
  simp only [prereqsRun, zoneDesc, h, e]

theorem changeZone_descs (z : Nat) (f : ZoneRun → ZoneRun) (l : Line) : SameDescs l (changeZone z f l) := by
  intro w
  rw [zone?_changeZone]
  split
  · cases zone? l w <;> rfl
  · rfl

/-! ## The bound, as a property of the zone table alone -/

/-- A program runs only in the state it belongs to (R91, R96). -/
def ProgramsFit (l : Line) : Prop :=
  ∀ z x p k, zone? l z = some x → x.run.program = some (p, k) →
    x.run.state = match p with | .start => .starting | .stop => .stopping

theorem zonesSound_iff (l : Line) :
    zonesSound l ↔ l.zones.length = Config.zoneCount
      ∧ (∀ z, z < Config.zoneCount → isRunning l z = true → prereqsRun l z = true) ∧ ProgramsFit l := Iff.rfl

theorem zonesSound_congr {l l' : Line} (e : l'.zones = l.zones) (h : zonesSound l) : zonesSound l' := by
  have hz (w : Nat) : zone? l' w = zone? l w := zone?_congr e w
  obtain ⟨a, b, c⟩ := h
  refine ⟨by rw [e]; exact a, fun z hz' hr => ?_, fun z x p k hx => c z x p k (by rw [← hz]; exact hx)⟩
  rw [prereqsRun_congr hz]
  refine b z hz' ?_
  rw [isRunning, zoneState, ← hz]; exact hr

theorem Still.zonesSound {l l' : Line} (s : Still l l') (h : Machine.zonesSound l) : Machine.zonesSound l' :=
  zonesSound_congr s.zones h

/-! ## Entering RUNNING (R95) -/

/-- A zone as it stands when it has entered RUNNING at line time t. -/
def Zone.woken (t : Word) (x : Zone) : Zone :=
  { x with run := { x.run with state := .running, runPending := false, entryTime := t } }

/-- Some waiting zones have entered RUNNING, each behind its prerequisites; nothing else has changed at the zones. -/
structure Woken (l l' : Line) : Prop where
  now : Machine.now l' = Machine.now l
  length : l'.zones.length = l.zones.length
  zones : ∀ w, zone? l' w = zone? l w
    ∨ ∃ x, zone? l w = some x ∧ x.run.state = .ready ∧ x.run.runPending = true
        ∧ zone? l' w = some (x.woken (Machine.now l)) ∧ prereqsRun l' w = true

theorem Woken.refl (l : Line) : Woken l l := ⟨rfl, rfl, fun _ => .inl rfl⟩

theorem Woken.descs {l l' : Line} (h : Woken l l') : SameDescs l l' := by
  intro w
  rcases h.zones w with e | ⟨x, a, _, _, b, _⟩
  · rw [e]
  · rw [a, b]; rfl

theorem Woken.keeps {l l' : Line} (h : Woken l l') (w : Nat) (r : isRunning l w = true) : zone? l' w = zone? l w := by
  rcases h.zones w with e | ⟨x, a, b, _, _, _⟩
  · exact e
  · obtain ⟨y, hy, hr⟩ := (isRunning_iff l w).mp r
    rw [a] at hy; cases hy; rw [b] at hr; cases hr

theorem Woken.mono {l l' : Line} (h : Woken l l') (w : Nat) (r : isRunning l w = true) : isRunning l' w = true := by
  rw [isRunning, zoneState, h.keeps w r]; exact r

theorem Woken.trans {a b c : Line} (x : Woken a b) (y : Woken b c) : Woken a c := by
  refine ⟨y.now.trans x.now, y.length.trans x.length, fun w => ?_⟩
  rcases x.zones w with e | ⟨u, h1, h2, h3, h4, h5⟩
  · rcases y.zones w with f | ⟨v, g1, g2, g3, g4, g5⟩
    · exact .inl (f.trans e)
    · exact .inr ⟨v, by rw [← e]; exact g1, g2, g3, by rw [g4, x.now], g5⟩
  · refine .inr ⟨u, h1, h2, h3, ?_, prereqsRun_mono y.descs y.mono w h5⟩
    rw [← h4]
    exact y.keeps w ((isRunning_iff b w).mpr ⟨_, h4, rfl⟩)

/-- The entry of one zone into RUNNING, before the zones that wait for it. -/
theorem zone?_enterOne (z w : Nat) (l : Line) :
    zone? (enterState z .running (changeZone z (fun r => { r with runPending := false }) l)) w =
      if z = w then (zone? l w).map (Zone.woken (now l)) else zone? l w := by
  rw [zone?_enterState, zone?_changeZone]
  by_cases e : z = w
  · simp only [e, if_true]; cases zone? l w <;> rfl
  · simp only [if_neg e]

/-- `enterRunning` of a waiting zone behind its prerequisites wakes it and a chain of waiting zones; of any other zone,
it wakes that chain after the entry itself. -/
theorem enterRunning_woken : ∀ (n z : Nat) (l : Line),
    Woken (if n = 0 then l else enterState z .running (changeZone z (fun r => { r with runPending := false }) l))
      (enterRunning n z l)
  | 0, _, l => .refl l
  | n + 1, z, l => by
    rw [if_neg (Nat.succ_ne_zero n)]
    unfold enterRunning
    generalize enterState z .running (changeZone z (fun r => { r with runPending := false }) l) = l1
    have step (m : Line) (w : Nat) : Woken m (if zoneState m w = some .ready ∧ ((zone? m w).any (·.run.runPending))
        ∧ (zoneDesc m w).prereqs.contains z ∧ prereqsRun m w then enterRunning n w m else m) := by
      split
      · next c =>
        cases n with
        | zero => exact .refl m
        | succ k =>
          have rest := enterRunning_woken (k + 1) w m
          rw [if_neg (Nat.succ_ne_zero k)] at rest
          refine Woken.trans ⟨?_, ?_, fun v => ?_⟩ rest
          · exact (enterState_within _ _ _).now.trans (changeZone_within _ _ _).now
          · rw [enterState_zones, changeZone_length, changeZone_length]
          · by_cases e : w = v
            · subst e
              obtain ⟨c1, c2, _, c4⟩ := c
              cases hx : zone? m w with
              | none => simp [zoneState, hx] at c1
              | some x =>
                refine .inr ⟨x, rfl, ?_, ?_, ?_, ?_⟩
                · simpa [zoneState, hx] using c1
                · simpa [hx] using c2
                · rw [zone?_enterOne, if_pos rfl, hx]; rfl
                · refine prereqsRun_mono ?_ ?_ w c4
                  · intro u
                    rw [zone?_enterOne]
                    split
                    · cases zone? m u <;> rfl
                    · rfl
                  · intro u hu
                    rw [isRunning, zoneState, zone?_enterOne]
                    split
                    · next e => subst e; rw [hx]; rfl
                    · exact hu
            · left; rw [zone?_enterOne, if_neg e]
      · exact .refl m
    have fold : ∀ (ws : List Nat) (m : Line), Woken m (ws.foldl (fun l w => if zoneState l w = some .ready
        ∧ ((zone? l w).any (·.run.runPending)) ∧ (zoneDesc l w).prereqs.contains z ∧ prereqsRun l w then
          enterRunning n w l else l) m) := by
      intro ws
      induction ws with
      | nil => exact fun m => .refl m
      | cons w ws ih => exact fun m => (step m w).trans (ih _)
    exact fold _ l1

/-! ## Trips (R97) -/

/-- Some active zones have tripped; nothing else has changed at the zones. -/
structure Cut (l l' : Line) : Prop where
  now : Machine.now l' = Machine.now l
  length : l'.zones.length = l.zones.length
  zones : ∀ w, zone? l' w = zone? l w
    ∨ ∃ x k, zone? l w = some x ∧ x.run.state.isActive = true ∧ zone? l' w = some (x.trippedBy (Machine.now l) k)

theorem Cut.refl (l : Line) : Cut l l := ⟨rfl, rfl, fun _ => .inl rfl⟩

theorem Cut.descs {l l' : Line} (h : Cut l l') : SameDescs l l' := by
  intro w
  rcases h.zones w with e | ⟨x, k, a, _, b⟩
  · rw [e]
  · rw [a, b]; rfl

theorem Cut.trans {a b c : Line} (x : Cut a b) (y : Cut b c) : Cut a c := by
  refine ⟨y.now.trans x.now, y.length.trans x.length, fun w => ?_⟩
  rcases x.zones w with e | ⟨u, k, h1, h2, h3⟩
  · rcases y.zones w with f | ⟨v, j, g1, g2, g3⟩
    · exact .inl (f.trans e)
    · exact .inr ⟨v, j, by rw [← e]; exact g1, g2, by rw [g3, x.now]⟩
  · rcases y.zones w with f | ⟨v, j, g1, g2, _⟩
    · exact .inr ⟨u, k, h1, h2, f.trans h3⟩
    · rw [h3] at g1; cases g1; cases g2

/-- No zone enters RUNNING at a trip. -/
theorem Cut.ran {l l' : Line} (h : Cut l l') (w : Nat) (r : isRunning l' w = true) :
    isRunning l w = true ∧ zone? l' w = zone? l w := by
  rcases h.zones w with e | ⟨x, k, _, _, b⟩
  · refine ⟨?_, e⟩
    rw [isRunning, zoneState, ← e]; exact r
  · obtain ⟨y, hy, hr⟩ := (isRunning_iff l' w).mp r
    rw [b] at hy; cases hy; cases hr

theorem isActive_iff (l : Line) (z : Nat) : isActive l z = true ↔ ∃ x, zone? l z = some x ∧ x.run.state.isActive = true := by
  unfold isActive zoneState
  cases zone? l z <;> simp

theorem tripZone_cut (z : Nat) (k : TripCause) (l : Line) (a : isActive l z = true) : Cut l (tripZone z k l) := by
  obtain ⟨x, hx, ha⟩ := (isActive_iff l z).mp a
  refine ⟨(tripZone_within z k l).now, by rw [tripZone_zones, changeZone_length], fun w => ?_⟩
  by_cases e : z = w
  · subst e
    right
    refine ⟨x, k, hx, ha, ?_⟩
    rw [zone?_tripZone, if_pos rfl, hx]; rfl
  · left; rw [zone?_tripZone, if_neg e]

theorem pickOne_zones (c : List Nat) (l : Line) : (pickOne c l).2.zones = l.zones := (pickOne_still c l).zones

theorem pickOne_cut (c : List Nat) (l : Line) : Cut l (pickOne c l).2 :=
  ⟨(pickOne_still c l).within.now, by rw [pickOne_zones], fun w => .inl (zone?_congr (pickOne_zones c l) w)⟩

theorem Cut.foldl {α : Type} {f : Line → α → Line} (h : ∀ l a, Cut l (f l a)) :
    ∀ (xs : List α) (l : Line), Cut l (xs.foldl f l)
  | [], l => .refl l
  | x :: xs, l => (h l x).trans (Cut.foldl h xs (f l x))

theorem isActive_congr {l l' : Line} (e : l'.zones = l.zones) (z : Nat) : isActive l' z = isActive l z := by
  simp only [isActive, zoneState, zone?_congr e]

theorem tripOwn_cut (causes : Nat → List TripCause) (l : Line) : Cut l (tripOwn causes l) := by
  refine Cut.foldl (fun m z => ?_) zoneNumbers l
  dsimp only
  split
  · next c =>
    refine (pickOne_cut _ m).trans (tripZone_cut _ _ _ ?_)
    rw [isActive_congr (pickOne_zones _ m)]; exact c.1
  · exact .refl m

theorem isRunning_active (l : Line) (z : Nat) (h : isRunning l z = true) : isActive l z = true := by
  obtain ⟨x, hx, hr⟩ := (isRunning_iff l z).mp h
  exact (isActive_iff l z).mpr ⟨x, hx, by rw [hr]; rfl⟩

theorem cascadeRound_cut (before : Line) (left : List Nat) (l : Line) : Cut l (cascadeRound before left l) := by
  unfold cascadeRound
  refine Cut.foldl (fun m z => ?_) zoneNumbers l
  dsimp only
  split
  · next c =>
    refine (pickOne_cut _ m).trans (tripZone_cut _ _ _ ?_)
    rw [isActive_congr (pickOne_zones _ m)]
    exact isRunning_active m z c.2
  · exact .refl m

theorem cascadeRounds_cut (before : Line) : ∀ (n : Nat) (left : List Nat) (l : Line),
    Cut l (cascadeRounds before n left l)
  | 0, _, l => .refl l
  | n + 1, left, l => (cascadeRound_cut before left l).trans (cascadeRounds_cut before n _ _)

theorem cascade_cut (before l : Line) : Cut l (cascade before l) := cascadeRounds_cut before _ _ l

/-- A trip of a zone ends its RUNNING. -/
theorem tripZone_stops (z : Nat) (k : TripCause) (l : Line) : isRunning (tripZone z k l) z = false := by
  rw [isRunning, zoneState, zone?_tripZone, if_pos rfl]
  cases zone? l z <;> rfl

theorem Cut.stopped {l l' : Line} (h : Cut l l') (w : Nat) (r : isRunning l w = false) : isRunning l' w = false := by
  cases e : isRunning l' w
  · rfl
  · rw [(h.ran w e).1] at r; cases r

/-- Every own cause acts: after `tripOwn` no active zone with a cause is still active. -/
theorem tripOwn_acts (causes : Nat → List TripCause) (l : Line) (z : Nat) (hz : z < Config.zoneCount)
    (hc : causes z ≠ []) (x : Zone) (hx : zone? l z = some x) (ha : x.run.state.isActive = true) :
    ∃ k ∈ causes z, zone? (tripOwn causes l) z = some (x.trippedBy (now l) k) := by
  have one (m : Line) (w : Nat) : Cut m (if isActive m w ∧ causes w ≠ [] then
      tripZone w ((causes w).getD (pickOne (List.range (causes w).length) m).1 .none)
        (pickOne (List.range (causes w).length) m).2 else m) := by
    split
    · next c =>
      refine (pickOne_cut _ m).trans (tripZone_cut _ _ _ ?_)
      rw [isActive_congr (pickOne_zones _ m)]; exact c.1
    · exact .refl m
  have pick (m : Line) : (causes z).getD (pickOne (List.range (causes z).length) m).1 .none ∈ causes z := by
    have lt : (pickOne (List.range (causes z).length) m).1 < (causes z).length := by
      have pos : 0 < (causes z).length := List.length_pos_iff.mpr hc
      unfold pickOne
      split
      · exact pos
      · next c e =>
        have : c ∈ List.range (causes z).length := by rw [e]; simp
        simpa using this
      · next c rest _ e =>
        have hm : ∀ k d, k < (c :: rest).length → (c :: rest).getD k d ∈ List.range (causes z).length := by
          intro k d hk
          rw [e, List.getD_eq_getElem?_getD, List.getElem?_eq_getElem hk]
          exact List.getElem_mem hk
        exact List.mem_range.mp (hm _ c (Nat.mod_lt _ (by simp)))
    rw [List.getD_eq_getElem?_getD, List.getElem?_eq_getElem lt]
    exact List.getElem_mem lt
  have key : ∀ (ws : List Nat) (m : Line), now m = now l → zone? m z = some x → z ∈ ws →
      ∃ k ∈ causes z, zone? (ws.foldl (fun m w => if isActive m w ∧ causes w ≠ [] then
        tripZone w ((causes w).getD (pickOne (List.range (causes w).length) m).1 .none)
          (pickOne (List.range (causes w).length) m).2 else m) m) z = some (x.trippedBy (now l) k) := by
    intro ws
    induction ws with
    | nil => intro m _ _ h; cases h
    | cons w ws ih =>
      intro m hn hm hmem
      by_cases e : w = z
      · subst e
        have act : isActive m w = true := (isActive_iff m w).mpr ⟨x, hm, ha⟩
        refine ⟨_, pick m, ?_⟩
        simp only [List.foldl_cons]
        rw [if_pos ⟨act, hc⟩]
        have t : zone? (tripZone w ((causes w).getD (pickOne (List.range (causes w).length) m).1 .none)
            (pickOne (List.range (causes w).length) m).2) w
            = some (x.trippedBy (now l) ((causes w).getD (pickOne (List.range (causes w).length) m).1 .none)) := by
          rw [zone?_tripZone, if_pos rfl, zone?_congr (pickOne_zones _ m), hm, (pickOne_still _ m).within.now, hn]; rfl
        rcases (Cut.foldl one ws _).zones w with f | ⟨y, j, g1, g2, _⟩
        · exact f.trans t
        · rw [t] at g1; cases g1; cases g2
      · have c := one m w
        have same : zone? (if isActive m w ∧ causes w ≠ [] then
            tripZone w ((causes w).getD (pickOne (List.range (causes w).length) m).1 .none)
              (pickOne (List.range (causes w).length) m).2 else m) z = some x := by
          split
          · rw [zone?_tripZone, if_neg e, zone?_congr (pickOne_zones _ m), hm]
          · exact hm
        exact ih _ (c.now.trans hn) same ((List.mem_cons.mp hmem).resolve_left (fun h => e h.symm))
  exact key zoneNumbers l rfl hx (List.mem_range.mpr hz)

/-! ## The cascade (R98) -/

/-- The zones that n rounds of a cascade reach from the set given. -/
def cascadeSet (before : Line) : Nat → List Nat → List Nat
  | 0, left => left
  | n + 1, left => cascadeSet before n (withNamers before left)

theorem withNamers_nil (before : Line) : withNamers before [] = [] := by
  unfold withNamers
  rw [List.filter_eq_nil_iff]
  intro z _
  simp

theorem cascadeSet_nil (before : Line) : ∀ n, cascadeSet before n [] = []
  | 0 => rfl
  | n + 1 => by rw [cascadeSet, withNamers_nil]; exact cascadeSet_nil before n

/-- One round of the cascade keeps every zone number it has. -/
theorem withNamers_keeps (before : Line) (left : List Nat) (h : ∀ z ∈ left, z < Config.zoneCount) (z : Nat)
    (hz : z ∈ left) : z ∈ withNamers before left := by
  refine List.mem_filter.mpr ⟨List.mem_range.mpr (h z hz), ?_⟩
  simp [hz]

theorem withNamers_lt (before : Line) (left : List Nat) (z : Nat) (hz : z ∈ withNamers before left) :
    z < Config.zoneCount := List.mem_range.mp (List.mem_filter.mp hz).1

theorem cascadeSet_succ (before : Line) (n : Nat) (left : List Nat) :
    cascadeSet before (n + 1) left = cascadeSet before n (withNamers before left) := rfl

theorem cascadeSet_keeps (before : Line) : ∀ (n : Nat) (left : List Nat), (∀ z ∈ left, z < Config.zoneCount) →
    ∀ z ∈ left, z ∈ cascadeSet before n left
  | 0, _, _, _, hz => hz
  | n + 1, left, hl, z, hz => by
    rw [cascadeSet_succ]
    exact cascadeSet_keeps before n _ (withNamers_lt before left) z (withNamers_keeps before left hl z hz)

theorem filter_grows (p q : Nat → Bool) (h : ∀ x, p x = true → q x = true) :
    ∀ xs : List Nat, xs.filter p = xs.filter q ∨ (xs.filter p).length < (xs.filter q).length
  | [] => .inl rfl
  | x :: xs => by
    have le : (xs.filter p).length ≤ (xs.filter q).length := by
      rcases filter_grows p q h xs with e | e
      · exact Nat.le_of_eq (congrArg List.length e)
      · exact Nat.le_of_lt e
    simp only [List.filter_cons]
    cases hp : p x
    · cases hq : q x
      · simpa using filter_grows p q h xs
      · right; simp only [Bool.false_eq_true, if_false, if_true, List.length_cons]; omega
    · rw [h x hp]
      simp only [if_true, List.length_cons]
      rcases filter_grows p q h xs with e | e
      · exact .inl (by rw [e])
      · exact .inr (by omega)

/-- A cascade's rounds grow until nothing is added. -/
theorem cascadeSet_closes (before : Line) : ∀ (n : Nat) (q : Nat → Bool),
    withNamers before (cascadeSet before n (zoneNumbers.filter q)) = cascadeSet before n (zoneNumbers.filter q)
      ∨ n + (zoneNumbers.filter q).length ≤ (cascadeSet before n (zoneNumbers.filter q)).length
  | 0, q => .inr (by simp [cascadeSet])
  | n + 1, q => by
    rw [cascadeSet_succ before n]
    let r : Nat → Bool := fun z => q z || (zoneNumbers.filter q).contains z
      || (isRunning before z && (zoneDesc before z).prereqs.any (zoneNumbers.filter q).contains)
    have round : withNamers before (zoneNumbers.filter q) = zoneNumbers.filter r := by
      refine List.filter_congr fun z hz => ?_
      have : (zoneNumbers.filter q).contains z = q z := by
        rw [Bool.eq_iff_iff, List.contains_iff_mem, List.mem_filter]
        exact ⟨fun h => h.2, fun h => ⟨hz, h⟩⟩
      simp only [r, this, Bool.or_self]
    rcases filter_grows q r (fun x hx => by simp [r, hx]) zoneNumbers with e | e
    · left
      have fix : withNamers before (zoneNumbers.filter q) = zoneNumbers.filter q := by rw [round, ← e]
      have stay : ∀ k, cascadeSet before k (zoneNumbers.filter q) = zoneNumbers.filter q := by
        intro k
        induction k with
        | zero => rfl
        | succ k ih => rw [cascadeSet_succ, fix, ih]
      rw [fix, stay, fix]
    · rw [round]
      rcases cascadeSet_closes before n r with c | c
      · exact .inl c
      · exact .inr (by omega)

theorem cascadeSet_le (before : Line) : ∀ (n : Nat) (q : Nat → Bool),
    (cascadeSet before n (zoneNumbers.filter q)).length ≤ Config.zoneCount
  | 0, q => by
    have := List.length_filter_le q zoneNumbers
    simpa [cascadeSet, zoneNumbers] using this
  | n + 1, q => by
    exact cascadeSet_le before n _

/-- The cascade's set is closed: a zone that was RUNNING and names a member is a member. -/
theorem cascadeSet_closed (before : Line) (q : Nat → Bool) (z p : Nat) (hz : z < Config.zoneCount)
    (hr : isRunning before z = true) (hp : p ∈ (zoneDesc before z).prereqs)
    (hm : p ∈ cascadeSet before Config.zoneCount (zoneNumbers.filter q)) :
    z ∈ cascadeSet before Config.zoneCount (zoneNumbers.filter q) := by
  have fix : withNamers before (cascadeSet before Config.zoneCount (zoneNumbers.filter q))
      = cascadeSet before Config.zoneCount (zoneNumbers.filter q) := by
    rcases cascadeSet_closes before Config.zoneCount q with c | c
    · exact c
    · have le := cascadeSet_le before Config.zoneCount q
      have : zoneNumbers.filter q = [] := List.length_eq_zero_iff.mp (by omega)
      rw [this, cascadeSet_nil, withNamers_nil]
  rw [← fix]
  refine List.mem_filter.mpr ⟨List.mem_range.mpr hz, ?_⟩
  simp only [Bool.or_eq_true, Bool.and_eq_true, List.any_eq_true]
  exact .inr ⟨hr, p, hp, List.contains_iff_mem.mpr hm⟩

/-- One zone's turn in a round trips that zone or does nothing. -/
theorem cascadeTurn_cut (reached left : List Nat) (m : Line) (w : Nat) :
    Cut m (if reached.contains w ∧ isRunning m w then
      tripZone w (.prereqLost (pickOne ((zoneDesc m w).prereqs.filter left.contains) m).1)
        (pickOne ((zoneDesc m w).prereqs.filter left.contains) m).2 else m) := by
  split
  · next c =>
    refine (pickOne_cut _ m).trans (tripZone_cut _ _ _ ?_)
    rw [isActive_congr (pickOne_zones _ m)]
    exact isRunning_active m w c.2
  · exact .refl m

/-- A number picked from candidates that are not empty is one of them. -/
theorem pickOne_mem (c : List Nat) (l : Line) (h : c ≠ []) : (pickOne c l).1 ∈ c := by
  unfold pickOne
  split
  · exact absurd rfl h
  · exact List.mem_singleton.mpr rfl
  · next c rest _ =>
    have lt : Config.freeIndex l.choices % (c :: rest).length < (c :: rest).length := Nat.mod_lt _ (by simp)
    rw [List.getD_eq_getElem?_getD, List.getElem?_eq_getElem lt]
    exact List.getElem_mem lt

/-- A RUNNING zone that a round reaches, naming one of the zones that left, trips with PREREQ_LOST, and its detail is one
of those that it names (R98). -/
theorem cascadeRound_trips (before : Line) (left : List Nat) (l : Line) (z : Nat) (x : Zone)
    (hm : z ∈ withNamers before left) (hx : zone? l z = some x) (hr : x.run.state = .running)
    (hp : ∃ p ∈ x.desc.prereqs, p ∈ left) :
    ∃ w ∈ x.desc.prereqs, w ∈ left
      ∧ zone? (cascadeRound before left l) z = some (x.trippedBy (now l) (.prereqLost w)) := by
  have key : ∀ (ws : List Nat) (m : Line), z ∈ ws → now m = now l → zone? m z = some x →
      ∃ w ∈ x.desc.prereqs, w ∈ left ∧ zone? (ws.foldl (fun m w =>
        if (withNamers before left).contains w ∧ isRunning m w then
          tripZone w (.prereqLost (pickOne ((zoneDesc m w).prereqs.filter left.contains) m).1)
            (pickOne ((zoneDesc m w).prereqs.filter left.contains) m).2 else m) m) z
          = some (x.trippedBy (now l) (.prereqLost w)) := by
    intro ws
    induction ws with
    | nil => intro m h; cases h
    | cons w ws ih =>
      intro m h hn hmx
      by_cases e : w = z
      · subst e
        have hd : zoneDesc m w = x.desc := by simp only [zoneDesc, hmx, Option.map_some, Option.getD_some]
        have ne : x.desc.prereqs.filter left.contains ≠ [] := by
          obtain ⟨p, h1, h2⟩ := hp
          exact List.ne_nil_of_mem (List.mem_filter.mpr ⟨h1, List.contains_iff_mem.mpr h2⟩)
        obtain ⟨m1, m2⟩ := List.mem_filter.mp (pickOne_mem _ m ne)
        refine ⟨_, m1, List.contains_iff_mem.mp m2, ?_⟩
        simp only [List.foldl_cons]
        rw [if_pos ⟨List.contains_iff_mem.mpr hm, (isRunning_iff m w).mpr ⟨x, hmx, hr⟩⟩, hd]
        have t : zone? (tripZone w (.prereqLost (pickOne (x.desc.prereqs.filter left.contains) m).1)
            (pickOne (x.desc.prereqs.filter left.contains) m).2) w
            = some (x.trippedBy (now l) (.prereqLost (pickOne (x.desc.prereqs.filter left.contains) m).1)) := by
          rw [zone?_tripZone, if_pos rfl, zone?_congr (pickOne_zones _ m), hmx, (pickOne_still _ m).within.now, hn]; rfl
        rcases (Cut.foldl (cascadeTurn_cut _ _) ws _).zones w with f | ⟨y, j, g1, g2, _⟩
        · exact f.trans t
        · rw [t] at g1; cases g1; cases g2
      · have same : zone? (if (withNamers before left).contains w ∧ isRunning m w then
            tripZone w (.prereqLost (pickOne ((zoneDesc m w).prereqs.filter left.contains) m).1)
              (pickOne ((zoneDesc m w).prereqs.filter left.contains) m).2 else m) z = some x := by
          split
          · rw [zone?_tripZone, if_neg e, zone?_congr (pickOne_zones _ m), hmx]
          · exact hmx
        exact ih _ ((List.mem_cons.mp h).resolve_left (fun h => e h.symm)) ((cascadeTurn_cut _ _ m w).now.trans hn) same
  exact key zoneNumbers l (List.mem_range.mpr (withNamers_lt before left z hm)) rfl hx

/-- After a round none of the zones it reaches is RUNNING. -/
theorem cascadeRound_stops (before : Line) (left : List Nat) (l : Line) (z : Nat) (hm : z ∈ withNamers before left) :
    isRunning (cascadeRound before left l) z = false := by
  have key : ∀ (ws : List Nat) (m : Line), z ∈ ws → isRunning (ws.foldl (fun m w =>
      if (withNamers before left).contains w ∧ isRunning m w then
        tripZone w (.prereqLost (pickOne ((zoneDesc m w).prereqs.filter left.contains) m).1)
          (pickOne ((zoneDesc m w).prereqs.filter left.contains) m).2 else m) m) z = false := by
    intro ws
    induction ws with
    | nil => intro m h; cases h
    | cons w ws ih =>
      intro m h
      by_cases e : w = z
      · subst e
        simp only [List.foldl_cons]
        refine (Cut.foldl (cascadeTurn_cut _ _) ws _).stopped w ?_
        split
        · exact tripZone_stops _ _ _
        · next c =>
          cases r : isRunning m w
          · rfl
          · exact absurd ⟨List.contains_iff_mem.mpr hm, r⟩ c
      · exact ih _ ((List.mem_cons.mp h).resolve_left (fun h => e h.symm))
  exact key zoneNumbers l (List.mem_range.mpr (withNamers_lt before left z hm))

/-- A round leaves every zone that it does not reach. -/
theorem cascadeRound_keeps (before : Line) (left : List Nat) (l : Line) (p : Nat) (h : p ∉ withNamers before left) :
    zone? (cascadeRound before left l) p = zone? l p := by
  have key : ∀ (ws : List Nat) (m : Line), zone? (ws.foldl (fun m w =>
      if (withNamers before left).contains w ∧ isRunning m w then
        tripZone w (.prereqLost (pickOne ((zoneDesc m w).prereqs.filter left.contains) m).1)
          (pickOne ((zoneDesc m w).prereqs.filter left.contains) m).2 else m) m) p = zone? m p := by
    intro ws
    induction ws with
    | nil => exact fun _ => rfl
    | cons w ws ih =>
      intro m
      simp only [List.foldl_cons]
      rw [ih]
      split
      · next c =>
        have ne : w ≠ p := fun e => h (e ▸ List.contains_iff_mem.mp c.1)
        rw [zone?_tripZone, if_neg ne, zone?_congr (pickOne_zones _ m)]
      · rfl
  exact key zoneNumbers l

/-- A round that reaches no RUNNING zone does nothing. -/
theorem cascadeRound_none (before : Line) (left : List Nat) (l : Line)
    (h : ∀ z ∈ withNamers before left, isRunning l z = false) : cascadeRound before left l = l := by
  unfold cascadeRound
  generalize zoneNumbers = ws
  induction ws with
  | nil => rfl
  | cons w ws ih =>
    simp only [List.foldl_cons]
    rw [if_neg]
    · exact ih
    · rintro ⟨c1, c2⟩
      rw [h w (List.contains_iff_mem.mp c1)] at c2; cases c2

theorem cascadeRounds_stops (before : Line) : ∀ (n : Nat) (left : List Nat) (l : Line),
    (∀ w ∈ left, isRunning l w = false) →
    ∀ z ∈ cascadeSet before n left, isRunning (cascadeRounds before n left l) z = false
  | 0, _, _, h => h
  | n + 1, left, l, _ => cascadeRounds_stops before n _ _ (cascadeRound_stops before left l)

theorem cascadeRounds_keeps (before : Line) : ∀ (n : Nat) (left : List Nat) (l : Line) (p : Nat),
    p ∉ cascadeSet before n left → zone? (cascadeRounds before n left l) p = zone? l p
  | 0, _, _, _, _ => rfl
  | n + 1, left, l, p, h =>
    (cascadeRounds_keeps before n _ _ p h).trans (cascadeRound_keeps before left l p fun m =>
      h (cascadeSet_keeps before n _ (withNamers_lt before left) p m))

theorem leftRunning_stopped (before l : Line) (w : Nat) (h : w ∈ leftRunning before l) : isRunning l w = false := by
  have := (List.mem_filter.mp h).2
  simp only [Bool.and_eq_true, Bool.not_eq_true'] at this
  exact this.2

/-- After the cascade none of its zones is RUNNING. -/
theorem cascade_stops (before l : Line) (z : Nat)
    (hm : z ∈ cascadeSet before Config.zoneCount (leftRunning before l)) : isRunning (cascade before l) z = false :=
  cascadeRounds_stops before _ _ l (leftRunning_stopped before l) z hm

/-- A zone RUNNING through an event's own changes that names a zone which these took out of RUNNING trips with
PREREQ_LOST, and its detail is such a zone, not one that the cascade trips (R98). -/
theorem cascade_trips (before l : Line) (z : Nat) (x : Zone) (hz : z < Config.zoneCount)
    (hb : isRunning before z = true) (hd : (zoneDesc before z) = x.desc) (hx : zone? l z = some x)
    (hr : x.run.state = .running) (hp : ∃ p ∈ x.desc.prereqs, p ∈ leftRunning before l) :
    ∃ w ∈ x.desc.prereqs, w ∈ leftRunning before l
      ∧ zone? (cascade before l) z = some (x.trippedBy (now l) (.prereqLost w)) := by
  have hm : z ∈ withNamers before (leftRunning before l) := by
    refine List.mem_filter.mpr ⟨List.mem_range.mpr hz, ?_⟩
    obtain ⟨p, h1, h2⟩ := hp
    simp only [Bool.or_eq_true, Bool.and_eq_true, List.any_eq_true]
    exact .inr ⟨hb, p, by rw [hd]; exact h1, List.contains_iff_mem.mpr h2⟩
  obtain ⟨w, h1, h2, h3⟩ := cascadeRound_trips before _ l z x hm hx hr hp
  refine ⟨w, h1, h2, ?_⟩
  rcases (cascadeRounds_cut before (Config.zoneCount - 1) _ (cascadeRound before (leftRunning before l) l)).zones z
    with f | ⟨y, k, g1, g2, _⟩
  · exact f.trans h3
  · rw [h3] at g1; cases g1; cases g2

/-! ## What keeps the bound -/

theorem Cut.programsFit {l l' : Line} (h : Cut l l') (p : ProgramsFit l) : ProgramsFit l' := by
  intro z x q k hx hq
  rcases h.zones z with e | ⟨y, c, _, _, b⟩
  · exact p z x q k (by rw [← e]; exact hx) hq
  · rw [b] at hx; cases hx; cases hq

/-- Zone changes by which no zone enters RUNNING, followed by the cascade, keep the bound (R95, R98). -/
theorem cascade_sound {l m : Line} (h : zonesSound l) (d : SameDescs l m) (len : m.zones.length = Config.zoneCount)
    (fit : ProgramsFit m) (ran : ∀ z, isRunning m z = true → isRunning l z = true) : zonesSound (cascade l m) := by
  have c := cascade_cut l m
  refine ⟨by rw [c.length]; exact len, fun z hz hr => ?_, c.programsFit fit⟩
  have hm := c.ran z hr
  have hl := ran z hm.1
  have pl := h.2.1 z hz hl
  have notin : ¬ z ∈ cascadeSet l Config.zoneCount (leftRunning l m) := fun i => by
    rw [cascade_stops l m z i] at hr; cases hr
  unfold prereqsRun at pl ⊢
  rw [List.all_eq_true] at pl ⊢
  rw [c.descs.zoneDesc, d.zoneDesc]
  intro p hp
  have pr := pl p hp
  have plt : p < Config.zoneCount := by
    obtain ⟨x, hx, _⟩ := (isRunning_iff l p).mp pr
    rw [← h.1]; exact zone?_some_lt hx
  cases e : isRunning (cascade l m) p
  · exfalso
    apply notin
    refine cascadeSet_closed l _ z p hz hl hp ?_
    by_cases pm : isRunning m p = true
    · -- still RUNNING before the cascade: the cascade took it
      rcases c.zones p with f | ⟨x, k, a, _, b⟩
      · rw [isRunning, zoneState, f] at e; rw [isRunning, zoneState] at pm; rw [pm] at e; cases e
      · apply Classical.byContradiction
        intro ni
        have f : zone? (cascade l m) p = zone? m p := cascadeRounds_keeps l _ _ m p ni
        rw [isRunning, zoneState, f] at e; rw [isRunning, zoneState] at pm; rw [pm] at e; cases e
    · refine cascadeSet_keeps l _ _ (fun w hw => List.mem_range.mp (List.mem_filter.mp hw).1) p ?_
      refine List.mem_filter.mpr ⟨List.mem_range.mpr plt, ?_⟩
      simp [pr, pm]
  · rfl

/-- Where the zones already keep the bound the cascade does nothing. -/
theorem cascade_eq {l m : Line} (h : zonesSound m) (d : SameDescs l m) : cascade l m = m := by
  have next (left : List Nat) (hl : ∀ z ∈ left, isRunning m z = false) :
      ∀ z ∈ withNamers l left, isRunning m z = false := by
    intro z hz
    obtain ⟨a, b⟩ := List.mem_filter.mp hz
    simp only [Bool.or_eq_true, Bool.and_eq_true, List.any_eq_true, List.contains_iff_mem] at b
    rcases b with b | ⟨_, p, hp, hpl⟩
    · exact hl z b
    · cases r : isRunning m z
      · rfl
      · have := h.2.1 z (List.mem_range.mp a) r
        unfold prereqsRun at this
        rw [List.all_eq_true] at this
        have := this p (by rw [d.zoneDesc]; exact hp)
        rw [hl p hpl] at this; cases this
  have rounds : ∀ (n : Nat) (left : List Nat), (∀ z ∈ left, isRunning m z = false) → cascadeRounds l n left m = m := by
    intro n
    induction n with
    | zero => exact fun _ _ => rfl
    | succ n ih =>
      intro left hl
      rw [cascadeRounds, cascadeRound_none l left m (next left hl)]
      exact ih _ (next left hl)
  exact rounds _ _ (leftRunning_stopped l m)

end Sys2Proof.Machine
end

