-- ==== Sys2Proof/Laws/Programs.lean ====
section
/-! SUPPORT. Programs and zone events keep the bound of R95: what each operation of the zone sequencer does to the zones. -/

namespace Sys2Proof.Machine

/-! ## One zone at a time -/

/-- Only zone z has changed, and only in its runtime state. -/
structure OnlyZone (z : Nat) (l l' : Line) : Prop where
  now : Machine.now l' = Machine.now l
  length : l'.zones.length = l.zones.length
  descs : SameDescs l l'
  others : ∀ w, w ≠ z → zone? l' w = zone? l w

theorem OnlyZone.refl (z : Nat) (l : Line) : OnlyZone z l l := ⟨rfl, rfl, .refl l, fun _ _ => rfl⟩

theorem OnlyZone.trans {z : Nat} {a b c : Line} (x : OnlyZone z a b) (y : OnlyZone z b c) : OnlyZone z a c :=
  ⟨y.now.trans x.now, y.length.trans x.length, x.descs.trans y.descs, fun w h => (y.others w h).trans (x.others w h)⟩

theorem OnlyZone.of_zones {z : Nat} {l l' : Line} (e : l'.zones = l.zones) (n : Machine.now l' = Machine.now l) :
    OnlyZone z l l' :=
  ⟨n, by rw [e], fun w => by rw [zone?_congr e], fun w _ => zone?_congr e w⟩

theorem setProgram_only (z i : Nat) (v : Int) (l : Line) : OnlyZone z l (setProgram i v l) :=
  .of_zones (setProgram_zones i v l) (setProgram_within i v l).now

theorem changeZone_only (z : Nat) (f : ZoneRun → ZoneRun) (l : Line) : OnlyZone z l (changeZone z f l) :=
  ⟨rfl, changeZone_length z f l, changeZone_descs z f l, fun w h => by rw [zone?_changeZone, if_neg (Ne.symm h)]⟩

theorem enterState_only (z : Nat) (st : ZoneState) (l : Line) : OnlyZone z l (enterState z st l) :=
  (changeZone_only z _ l).trans (.of_zones (enterState_zones z st l) (enterState_within z st l).now)

/-- A change of one zone, not RUNNING after it, in which a program fits, keeps the bound where that zone was not RUNNING
before. -/
theorem OnlyZone.sound {z : Nat} {l l' : Line} (o : OnlyZone z l l') (h : zonesSound l) (before : isRunning l z = false)
    (after : isRunning l' z = false)
    (fit : ∀ x p k, zone? l' z = some x → x.run.program = some (p, k) →
      x.run.state = match p with | .start => .starting | .stop => .stopping) : zonesSound l' := by
  have run (w : Nat) : isRunning l' w = isRunning l w := by
    by_cases e : w = z
    · subst e; rw [before, after]
    · rw [isRunning, isRunning, zoneState, zoneState, o.others w e]
  refine ⟨by rw [o.length]; exact h.1, fun w hw hr => ?_, fun w x p k hx hp => ?_⟩
  · have := h.2.1 w hw (by rw [← run]; exact hr)
    exact prereqsRun_mono o.descs (fun v hv => by rw [run]; exact hv) w this
  · by_cases e : w = z
    · subst e; exact fit x p k hx hp
    · exact h.2.2 w x p k (by rw [← o.others w e]; exact hx) hp

/-- The program of a zone, if it runs one, fits the state the zone is in. -/
theorem program_none {l : Line} (h : zonesSound l) {z : Nat} {x : Zone} (hx : zone? l z = some x)
    (h1 : x.run.state ≠ .starting) (h2 : x.run.state ≠ .stopping) : x.run.program = none := by
  cases e : x.run.program with
  | none => rfl
  | some pk =>
    obtain ⟨p, k⟩ := pk
    have := h.2.2 z x p k hx e
    cases p
    · exact absurd this h1
    · exact absurd this h2

/-! ## Entering RUNNING -/

theorem Woken.sound {l l' : Line} (w : Woken l l') (h : zonesSound l) : zonesSound l' := by
  refine ⟨by rw [w.length]; exact h.1, fun z hz hr => ?_, fun z x p k hx hp => ?_⟩
  · rcases w.zones z with e | ⟨y, _, _, _, _, g⟩
    · exact prereqsRun_mono w.descs w.mono z (h.2.1 z hz (by rw [isRunning, zoneState, ← e]; exact hr))
    · exact g
  · rcases w.zones z with e | ⟨y, a, b, _, d, _⟩
    · exact h.2.2 z x p k (by rw [← e]; exact hx) hp
    · rw [d] at hx; cases hx
      have := program_none h a (by rw [b]; decide) (by rw [b]; decide)
      have hp : y.run.program = some (p, k) := hp
      rw [this] at hp; cases hp

/-- A READY zone behind its prerequisites enters RUNNING, and the zones that waited for it with it. -/
theorem enterRunning_ready (n z : Nat) (l : Line) (x : Zone) (hx : zone? l z = some x) (hs : x.run.state = .ready)
    (hp : prereqsRun l z = true) (h : zonesSound l) :
    zonesSound (enterRunning (n + 1) z l) ∧ SameDescs l (enterRunning (n + 1) z l)
      ∧ (∀ w, isRunning l w = true → isRunning (enterRunning (n + 1) z l) w = true)
      ∧ zone? (enterRunning (n + 1) z l) z = some (x.woken (now l)) := by
  have wk := enterRunning_woken (n + 1) z l
  rw [if_neg (Nat.succ_ne_zero n)] at wk
  have o : OnlyZone z l (enterState z .running (changeZone z (fun r => { r with runPending := false }) l)) :=
    (changeZone_only z _ l).trans (enterState_only z _ _)
  have at_z : zone? (enterState z .running (changeZone z (fun r => { r with runPending := false }) l)) z
      = some (x.woken (now l)) := by rw [zone?_enterOne, if_pos rfl, hx]; rfl
  have mono (w : Nat) (hw : isRunning l w = true) :
      isRunning (enterState z .running (changeZone z (fun r => { r with runPending := false }) l)) w = true := by
    by_cases e : w = z
    · subst e; exact (isRunning_iff _ _).mpr ⟨_, at_z, rfl⟩
    · rw [isRunning, zoneState, o.others w e]; exact hw
  have s1 : zonesSound (enterState z .running (changeZone z (fun r => { r with runPending := false }) l)) := by
    refine ⟨by rw [o.length]; exact h.1, fun w hw hr => ?_, fun w y p k hy hq => ?_⟩
    · by_cases e : w = z
      · subst e; exact prereqsRun_mono o.descs mono _ hp
      · exact prereqsRun_mono o.descs mono w (h.2.1 w hw (by rw [isRunning, zoneState, ← o.others w e]; exact hr))
    · by_cases e : w = z
      · subst e
        rw [at_z] at hy; cases hy
        have := program_none h hx (by rw [hs]; decide) (by rw [hs]; decide)
        have hq : x.run.program = some (p, k) := hq
        rw [this] at hq; cases hq
      · exact h.2.2 w y p k (by rw [← o.others w e]; exact hy) hq
  refine ⟨wk.sound s1, o.descs.trans wk.descs, fun w hw => wk.mono w (mono w hw), ?_⟩
  rw [wk.keeps z ((isRunning_iff _ _).mpr ⟨_, at_z, rfl⟩)]
  exact at_z

/-! ## Programs -/

/-- The state a program runs in. -/
def Program.home : Program → ZoneState
  | .start => .starting
  | .stop => .stopping

/-- What a run of a program keeps, where it began in its state. -/
structure Advances (l l' : Line) : Prop where
  sound : zonesSound l'
  descs : SameDescs l l'
  mono : ∀ w, isRunning l w = true → isRunning l' w = true

theorem Advances.trans {a b c : Line} (x : Advances a b) (y : Advances b c) : Advances a c :=
  ⟨y.sound, x.descs.trans y.descs, fun w h => y.mono w (x.mono w h)⟩

theorem OnlyZone.advances {z : Nat} {l l' : Line} (o : OnlyZone z l l') (h : zonesSound l)
    (before : isRunning l z = false) (after : isRunning l' z = false)
    (fit : ∀ x p k, zone? l' z = some x → x.run.program = some (p, k) →
      x.run.state = match p with | .start => .starting | .stop => .stopping) : Advances l l' :=
  ⟨o.sound h before after fit, o.descs, fun w hw => by
    have ne : w ≠ z := fun e => by subst e; rw [before] at hw; cases hw
    rw [isRunning, zoneState, o.others w ne]; exact hw⟩

theorem Advances.of_zones {l l' : Line} (e : l'.zones = l.zones) (h : zonesSound l) : Advances l l' :=
  ⟨zonesSound_congr e h, fun w => by rw [zone?_congr e], fun w hw => by
    rw [isRunning, zoneState, zone?_congr e]; exact hw⟩

theorem not_running {l : Line} {z : Nat} {x : Zone} (hx : zone? l z = some x) (h : x.run.state ≠ .running) :
    isRunning l z = false := by
  cases e : isRunning l z
  · rfl
  · obtain ⟨y, hy, hr⟩ := (isRunning_iff l z).mp e
    rw [hx] at hy; cases hy; exact absurd hr h

theorem endProgram_advances (z : Nat) (p : Program) (l : Line) (x : Zone) (hx : zone? l z = some x)
    (hs : x.run.state = p.home) (h : zonesSound l) : Advances l (endProgram z p l) := by
  let x1 : Zone := { x with run := { x.run with program := none, deadline := none } }
  let l1 := changeZone z (fun r => { r with program := none, deadline := none }) l
  have z1 : zone? l1 z = some x1 := by
    show zone? (changeZone z _ l) z = _
    rw [zone?_changeZone, if_pos rfl, hx]; rfl
  have nr : isRunning l z = false := not_running hx (by rw [hs]; cases p <;> decide)
  have nr1 : isRunning l1 z = false := not_running z1 (by show x.run.state ≠ _; rw [hs]; cases p <;> decide)
  have a1 : Advances l l1 := (changeZone_only z _ l).advances h nr nr1 fun y q k hy hq => by
    rw [z1] at hy; cases hy; cases hq
  have enter (st : ZoneState) (hst : st ≠ .running) :
      Advances l1 (enterState z st l1) ∧ zone? (enterState z st l1) z
        = some { x1 with run := { x1.run with state := st, entryTime := now l1 } } := by
    have e : zone? (enterState z st l1) z = some { x1 with run := { x1.run with state := st, entryTime := now l1 } } := by
      rw [zone?_enterState, if_pos rfl, z1]; rfl
    refine ⟨(enterState_only z st l1).advances a1.sound nr1 (not_running e hst) fun y q k hy hq => ?_, e⟩
    rw [e] at hy; cases hy; cases hq
  unfold endProgram
  cases p with
  | stop => exact a1.trans (enter .off (by decide)).1
  | start =>
    obtain ⟨a2, e2⟩ := enter .ready (by decide)
    show Advances l (if ((zone? (enterState z .ready l1) z).any (·.run.runPending)) ∧ prereqsRun (enterState z .ready l1) z
      then enterRunning Config.zoneCount z (enterState z .ready l1) else enterState z .ready l1)
    split
    · next c =>
      obtain ⟨s, d, m, _⟩ := enterRunning_ready 7 z (enterState z .ready l1) _ e2 rfl c.2 a2.sound
      exact (a1.trans a2).trans ⟨s, d, m⟩
    · exact a1.trans a2

theorem waitAt_advances (z : Nat) (p : Program) (k ms : Nat) (l : Line) (x : Zone) (hx : zone? l z = some x)
    (hs : x.run.state = p.home) (h : zonesSound l) : Advances l (waitAt z p k ms l) := by
  have e : zone? (waitAt z p k ms l) z
      = some { x with run := { x.run with program := some (p, k), deadline := some (after (now l) ms) } } := by
    unfold waitAt; rw [zone?_changeZone, if_pos rfl, hx]; rfl
  have nr : x.run.state ≠ .running := by rw [hs]; cases p <;> decide
  refine (changeZone_only z _ l).advances h (not_running hx nr) (not_running e nr) fun y q j hy hq => ?_
  have e' : zone? (changeZone z (fun r => { r with program := some (p, k), deadline := some (after (now l) ms) }) l) z
      = some { x with run := { x.run with program := some (p, k), deadline := some (after (now l) ms) } } := e
  rw [e'] at hy; cases hy; cases hq
  show x.run.state = _
  rw [hs]; cases p <;> rfl

theorem runSteps_advances (z : Nat) (p : Program) : ∀ (steps : List Step) (k : Nat) (l : Line) (x : Zone),
    zone? l z = some x → x.run.state = p.home → zonesSound l → Advances l (runSteps z p k steps l)
  | [], _, l, x, hx, hs, h => endProgram_advances z p l x hx hs h
  | .set i v :: rest, k, l, x, hx, hs, h => by
    have e := setProgram_zones i v l
    exact (Advances.of_zones e h).trans (runSteps_advances z p rest (k + 1) _ x (by rw [zone?_congr e]; exact hx) hs
      (zonesSound_congr e h))
  | .waitTime ms :: _, k, l, x, hx, hs, h => by
    unfold runSteps
    exact waitAt_advances z p k ms l x hx hs h
  | .waitUntil i c th t :: rest, k, l, x, hx, hs, h => by
    unfold runSteps
    split
    · exact runSteps_advances z p rest (k + 1) l x hx hs h
    · exact waitAt_advances z p k t l x hx hs h

/-- A program that goes on keeps the bound, and no zone leaves RUNNING (R92 to R95). -/
theorem advanceProgram_advances (z : Nat) (l : Line) (h : zonesSound l) : Advances l (advanceProgram z l) := by
  unfold advanceProgram
  split
  · exact ⟨h, .refl l, fun _ hw => hw⟩
  · next p k e =>
    cases hx : zone? l z with
    | none => rw [hx] at e; cases e
    | some x =>
      rw [hx] at e
      have := h.2.2 z x p k hx e
      exact runSteps_advances z p _ _ l x hx (by rw [this]; cases p <;> rfl) h

/-! ## Events in which zones only come up -/

/-- An event whose zone changes keep the bound by themselves keeps it (R105). -/
theorem zoneEvent_up {lead : List Nat → Line → Line} (hl : ∀ zs l, Still l (lead zs l)) (f : Line → Line) (l : Line)
    (s : zonesSound (f l)) (d : SameDescs l (f l)) : zonesSound (zoneEvent lead f l) := by
  have a := zoneEvent_after hl f l
  rw [cascade_eq s d] at a
  exact a.zonesSound s

theorem plainEvent_up (f : Line → Line) (l : Line) (s : zonesSound (f l)) (d : SameDescs l (f l)) :
    zonesSound (plainEvent f l) ∧ (plainEvent f l).zones = (f l).zones := by
  have a := plainEvent_after f l
  rw [cascade_eq s d] at a
  exact ⟨a.zonesSound s, a.zones⟩

/-- An event whose zone changes let no zone enter RUNNING keeps the bound, by its cascade (R98). -/
theorem zoneEvent_down {lead : List Nat → Line → Line} (hl : ∀ zs l, Still l (lead zs l)) (f : Line → Line) (l : Line)
    (h : zonesSound l) (d : SameDescs l (f l)) (len : (f l).zones.length = Config.zoneCount) (fit : ProgramsFit (f l))
    (ran : ∀ z, isRunning (f l) z = true → isRunning l z = true) : zonesSound (zoneEvent lead f l) :=
  (zoneEvent_after hl f l).zonesSound (cascade_sound h d len fit ran)

/-- An event of trips keeps the bound (R97, R98). -/
theorem zoneEvent_cut {lead : List Nat → Line → Line} (hl : ∀ zs l, Still l (lead zs l)) (f : Line → Line) (l : Line)
    (h : zonesSound l) (c : Cut l (f l)) : zonesSound (zoneEvent lead f l) :=
  zoneEvent_down hl f l h c.descs (by rw [c.length]; exact h.1) (c.programsFit h.2.2) fun z hz => (c.ran z hz).1

theorem plainEvent_cut (f : Line → Line) (l : Line) (h : zonesSound l) (c : Cut l (f l)) : zonesSound (plainEvent f l) :=
  zoneEvent_cut (fun _ l => .refl l) f l h c

/-! ## Samples and losses -/

theorem sampleZones_sound (i : Nat) (v : Int) (l : Line) (h : zonesSound l) :
    zonesSound (sampleZones i v l) ∧ SameDescs l (sampleZones i v l) := by
  have c := tripOwn_cut (sampleCauses l i v) l
  have s1 : zonesSound (cascade l (tripOwn (sampleCauses l i v) l)) :=
    cascade_sound h c.descs (by rw [c.length]; exact h.1) (c.programsFit h.2.2) fun z hz => (c.ran z hz).1
  have d1 : SameDescs l (cascade l (tripOwn (sampleCauses l i v) l)) := c.descs.trans (cascade_cut _ _).descs
  have waits : ∀ (zs : List Nat) (m : Line), zonesSound m →
      Advances m (zs.foldl (fun l z => if waitMet l i v z then advanceProgram z l else l) m) := by
    intro zs
    induction zs with
    | nil => exact fun m hm => ⟨hm, .refl m, fun _ hw => hw⟩
    | cons z zs ih =>
      intro m hm
      simp only [List.foldl_cons]
      have a : Advances m (if waitMet m i v z then advanceProgram z m else m) := by
        split
        · exact advanceProgram_advances z m hm
        · exact ⟨hm, .refl m, fun _ hw => hw⟩
      exact a.trans (ih _ a.sound)
  have w := waits zoneNumbers _ s1
  exact ⟨w.sound, d1.trans w.descs⟩

theorem zoneSample_sound (i : Nat) (v : Int) (l : Line) (h : zonesSound l) : zonesSound (zoneSample i v l) := by
  obtain ⟨s, d⟩ := sampleZones_sound i v l h
  exact (plainEvent_up (sampleZones i v) l s d).1

/-- A fresh sample keeps the bound (R93, R99). -/
theorem freshSample_sound (i : Nat) (v : Int) (l : Line) (h : zonesSound l) : zonesSound (freshSample i v l) := by
  unfold freshSample unordered
  have ts (m : Line) (hm : zonesSound m) : zonesSound (trackSample i v m) := (trackSample_still i v m).zonesSound hm
  split
  · have hc : zonesSound { l with choices := l.choices + 1 } := zonesSound_congr (l := l) rfl h
    split
    · exact zoneSample_sound i v _ (ts _ hc)
    · exact ts _ (zoneSample_sound i v _ hc)
  · exact ts _ (zoneSample_sound i v l h)

/-- A loss of GOOD keeps the bound (R99). -/
theorem loseGood_sound (i : Nat) (l : Line) (h : zonesSound l) : zonesSound (loseGood i l) := by
  have h1 := (trackLosses_still [i] l).zonesSound h
  exact plainEvent_cut (fun l => tripOwn (lossCauses l [i]) l) _ h1 (tripOwn_cut _ _)

/-! ## Zone requests -/

/-- Going from OFF to STARTING and through the start program keeps the bound (R91). -/
theorem startZone_advances (z : Nat) (run : Bool) (l : Line) (x : Zone) (hx : zone? l z = some x)
    (hs : x.run.state = .off) (h : zonesSound l) : Advances l (startZone z run l) := by
  let l1 := changeZone z (fun r => { r with runPending := r.runPending || run }) l
  let l2 := enterState z .starting l1
  let l3 := changeZone z (fun r => { r with program := some (.start, 1), deadline := none }) l2
  have p0 : x.run.program = none := program_none h hx (by rw [hs]; decide) (by rw [hs]; decide)
  have z1 : zone? l1 z = some { x with run := { x.run with runPending := x.run.runPending || run } } := by
    show zone? (changeZone z _ l) z = _
    rw [zone?_changeZone, if_pos rfl, hx]; rfl
  have z2 : zone? l2 z = some
      { x with run := { x.run with runPending := x.run.runPending || run, state := .starting, entryTime := now l1 } } := by
    show zone? (enterState z _ l1) z = _
    rw [zone?_enterState, if_pos rfl, z1]; rfl
  have z3 : zone? l3 z = some
      { x with
        run := { x.run with
          runPending := x.run.runPending || run, state := .starting, entryTime := now l1, program := some (.start, 1),
          deadline := none } } := by
    show zone? (changeZone z _ l2) z = _
    rw [zone?_changeZone, if_pos rfl, z2]; rfl
  have o : OnlyZone z l l3 := ((changeZone_only z _ l).trans (enterState_only z _ l1)).trans (changeZone_only z _ l2)
  have a : Advances l l3 := o.advances h (not_running hx (by rw [hs]; decide)) (not_running z3 (fun c => by cases c))
    fun y p k hy hq => by rw [z3] at hy; cases hy; cases hq; rfl
  have e : startZone z run l = runSteps z .start 1 (programSteps l2 z .start) l3 := rfl
  rw [e]
  exact a.trans (runSteps_advances z .start _ 1 l3 _ z3 rfl a.sound)

theorem waitAt_stop (z k ms : Nat) (l : Line) (x : Zone) (hx : zone? l z = some x) (hs : x.run.state = .stopping) :
    OnlyZone z l (waitAt z .stop k ms l)
      ∧ ∃ y, zone? (waitAt z .stop k ms l) z = some y ∧ (y.run.state = .stopping ∨ y.run.state = .off)
        ∧ (∀ p j, y.run.program = some (p, j) → y.run.state = match p with | .start => .starting | .stop => .stopping) := by
  have e : zone? (waitAt z .stop k ms l) z
      = some { x with run := { x.run with program := some (.stop, k), deadline := some (after (now l) ms) } } := by
    unfold waitAt; rw [zone?_changeZone, if_pos rfl, hx]; rfl
  exact ⟨changeZone_only z _ l, _, e, .inl hs, fun p j hp => by cases hp; exact hs⟩

theorem runSteps_stop (z : Nat) : ∀ (steps : List Step) (k : Nat) (l : Line) (x : Zone), zone? l z = some x →
    x.run.state = .stopping →
    OnlyZone z l (runSteps z .stop k steps l)
      ∧ ∃ y, zone? (runSteps z .stop k steps l) z = some y ∧ (y.run.state = .stopping ∨ y.run.state = .off)
        ∧ (∀ p j, y.run.program = some (p, j) → y.run.state = match p with | .start => .starting | .stop => .stopping)
  | [], _, l, x, hx, _ => by
    have e : zone? (endProgram z .stop l) z = some
        { x with run := { x.run with program := none, deadline := none, state := .off, entryTime := now l } } := by
      show zone? (enterState z .off (changeZone z (fun r => { r with program := none, deadline := none }) l)) z = _
      rw [zone?_enterState, if_pos rfl, zone?_changeZone, if_pos rfl, hx]; rfl
    exact ⟨(changeZone_only z _ l).trans (enterState_only z _ _), _, e, .inr rfl, fun p j hp => by cases hp⟩
  | .set i v :: rest, k, l, x, hx, hs => by
    have e := setProgram_zones i v l
    obtain ⟨o, r⟩ := runSteps_stop z rest (k + 1) (setProgram i v l) x (by rw [zone?_congr e]; exact hx) hs
    exact ⟨(setProgram_only z i v l).trans o, r⟩
  | .waitTime ms :: rest, k, l, x, hx, hs => by
    unfold runSteps
    exact waitAt_stop z k ms l x hx hs
  | .waitUntil i c th t :: rest, k, l, x, hx, hs => by
    unfold runSteps
    split
    · exact runSteps_stop z rest (k + 1) l x hx hs
    · exact waitAt_stop z k t l x hx hs

/-- Going to STOPPING and through the stop program changes only that zone, which is then STOPPING or OFF (R96). -/
theorem stopZone_only (z : Nat) (l : Line) (x : Zone) (hx : zone? l z = some x) :
    OnlyZone z l (stopZone z l)
      ∧ ∃ y, zone? (stopZone z l) z = some y ∧ (y.run.state = .stopping ∨ y.run.state = .off)
        ∧ (∀ p j, y.run.program = some (p, j) → y.run.state = match p with | .start => .starting | .stop => .stopping) := by
  let l1 := changeZone z (fun r => { r with runPending := false, program := none, deadline := none }) l
  let l2 := enterState z .stopping l1
  let l3 := changeZone z (fun r => { r with program := some (.stop, 1), deadline := none }) l2
  have z1 : zone? l1 z = some { x with run := { x.run with runPending := false, program := none, deadline := none } } := by
    show zone? (changeZone z _ l) z = _
    rw [zone?_changeZone, if_pos rfl, hx]; rfl
  have z2 : zone? l2 z = some
      { x with
        run := { x.run with
          runPending := false, program := none, deadline := none, state := .stopping, entryTime := now l1 } } := by
    show zone? (enterState z _ l1) z = _
    rw [zone?_enterState, if_pos rfl, z1]; rfl
  have z3 : zone? l3 z = some
      { x with
        run := { x.run with
          runPending := false, program := some (.stop, 1), deadline := none, state := .stopping, entryTime := now l1 } } := by
    show zone? (changeZone z _ l2) z = _
    rw [zone?_changeZone, if_pos rfl, z2]; rfl
  have o : OnlyZone z l l3 := ((changeZone_only z _ l).trans (enterState_only z _ l1)).trans (changeZone_only z _ l2)
  have e : stopZone z l = runSteps z .stop 1 (programSteps l2 z .stop) l3 := rfl
  rw [e]
  obtain ⟨o2, r⟩ := runSteps_stop z (programSteps l2 z .stop) 1 l3 _ z3 rfl
  exact ⟨o.trans o2, r⟩

/-- A ZONE_STOP's event keeps the bound: the zone's dependents trip (R96, R98). -/
theorem stopZone_sound (z : Nat) (l : Line) (x : Zone) (hx : zone? l z = some x) (h : zonesSound l) :
    zonesSound (plainEvent (stopZone z) l) := by
  obtain ⟨o, y, hy, hs, hp⟩ := stopZone_only z l x hx
  have nr : isRunning (stopZone z l) z = false := not_running hy (by rcases hs with e | e <;> rw [e] <;> decide)
  refine zoneEvent_down (fun _ l => .refl l) (stopZone z) l h o.descs (by rw [o.length]; exact h.1)
    (fun w u p k hu hq => ?_) (fun w hw => ?_)
  · by_cases e : w = z
    · subst e; rw [hy] at hu; cases hu; exact hp p k hq
    · exact h.2.2 w u p k (by rw [← o.others w e]; exact hu) hq
  · have ne : w ≠ z := fun e => by subst e; rw [nr] at hw; cases hw
    rw [isRunning, zoneState, ← o.others w ne]; exact hw

/-- A move between two states in which a zone runs no program keeps the bound. -/
theorem enterState_advances (z : Nat) (st : ZoneState) (f : ZoneRun → ZoneRun) (l : Line) (x : Zone)
    (hx : zone? l z = some x) (h : zonesSound l) (h1 : x.run.state ≠ .running) (h2 : x.run.state ≠ .starting)
    (h3 : x.run.state ≠ .stopping) (hst : st ≠ .running) (hf : (f x.run).program = x.run.program) :
    Advances l (enterState z st (changeZone z f l)) := by
  have e : zone? (enterState z st (changeZone z f l)) z
      = some { x with run := { f x.run with state := st, entryTime := now l } } := by
    rw [zone?_enterState, if_pos rfl, zone?_changeZone, if_pos rfl, hx]; rfl
  refine ((changeZone_only z f l).trans (enterState_only z st _)).advances h (not_running hx h1) (not_running e hst)
    fun y p k hy hq => ?_
  rw [e] at hy; cases hy
  have hq : (f x.run).program = some (p, k) := hq
  rw [hf, program_none h hx h2 h3] at hq; cases hq

end Sys2Proof.Machine
end

