-- ==== Sys2Proof/Laws/Plant.lean ====
section
/-! SUPPORT. What the plant's operations do when they do something, when they do nothing, and what they leave alone. -/

namespace Sys2Proof.Machine

/-! ## Numbers -/

/-- A capped number is the lesser of the two. -/
theorem capped_eq_min (a b : Nat) : capped a b = min a b := by unfold capped; split <;> omega

/-- The more severe of two outcomes has the greater severity. -/
theorem severity_worse (a b : CellOutcome) : (worse a b).severity = max a.severity b.severity := by
  unfold worse; split <;> omega

/-- The outcome counts after units are added for one outcome. -/
theorem OutcomeUnits.add_eq (o : OutcomeUnits) (k : CellOutcome) (u : Word) :
    o.add k u =
      { pass := if k = .pass then o.pass + u else o.pass
        short := if k = .short then o.short + u else o.short
        overMax := if k = .overMax then o.overMax + u else o.overMax
        unmeasured := if k = .unmeasured then o.unmeasured + u else o.unmeasured
        positionLost := if k = .positionLost then o.positionLost + u else o.positionLost
        deviation := if k = .deviation then o.deviation + u else o.deviation } := by
  cases k <;> simp [OutcomeUnits.add]

/-! ## Lots -/

/-- A changed lot is found changed. -/
theorem lot?_changeLot_self {l : Line} {n : Nat} {x : Lot} (f : Lot → Lot) (hf : ∀ x, (f x).number = x.number)
    (h : lot? l n = some x) : lot? (changeLot n f l) n = some (f x) := by
  rw [lot?_changeLot _ _ _ hf, h]; simp [lot?_number h]

/-- Two changes of one lot are one. -/
theorem changeLot_changeLot (n : Nat) (f g : Lot → Lot) (hf : ∀ x, (f x).number = x.number) (l : Line) :
    changeLot n g (changeLot n f l) = changeLot n (fun x => g (f x)) l := by
  unfold changeLot
  simp only [List.map_map]
  congr 2
  congr 1
  funext x; simp only [Function.comp]
  by_cases e : x.number = n
  · rw [if_pos e, if_pos e, if_pos (by rw [hf]; exact e)]
  · rw [if_neg e, if_neg e, if_neg e]

/-- A change that keeps a lot's number and recipe index keeps its recipe. -/
theorem lotRecipe_changeLot {l : Line} {n : Nat} {r : Recipe} (f : Lot → Lot)
    (hf : ∀ x, (f x).number = x.number ∧ (f x).recipe = x.recipe) (h : lotRecipe l n = some r) :
    lotRecipe (changeLot n f l) n = some r := by
  unfold lotRecipe at *
  rw [lot?_changeLot _ _ _ (fun x => (hf x).1)]
  cases hx : lot? l n with
  | none => rw [hx] at h; simp at h
  | some x =>
    rw [hx] at h
    simp only [Option.map_some, Option.bind_some] at *
    rw [← h]; unfold recipeAt; split <;> simp [hf] <;> rfl

/-- A lot with a live pallet, a PENDING verdict or a feed entry does not retire (R167). -/
theorem judgeRetirement_stays {l : Line} {n : Nat} {x : Lot} (hx : lot? l n = some x)
    (h : x.livePallets ≠ 0 ∨ x.verdict = .pending ∨ hasFeed l n = true) : judgeRetirement n l = l := by
  unfold judgeRetirement
  rw [hx]; dsimp only
  rw [if_neg]
  have := lot?_number hx
  intro c
  simp only [canRetire, Bool.and_eq_true, beq_iff_eq, bne_iff_ne, Bool.not_eq_true'] at c
  rcases h with h | h | h
  · exact h c.2
  · exact c.1.1.1.2 h
  · rw [this, h] at c; simp at c

/-- A verdict that is not due is not fixed (R136). -/
theorem judgeVerdict_waits {l : Line} {n : Nat} {x : Lot} (hx : lot? l n = some x) (h : verdictDue x = false) :
    judgeVerdict n l = l := by
  unfold judgeVerdict; rw [hx]; dsimp only; rw [if_neg (by simp [h])]

/-- No STORED pallet names the lot. -/
theorem storedWith_eq_nil {l : Line} {n : Nat}
    (h : ∀ p ∈ l.pack.pallets, p.state = .stored → ∀ e ∈ p.lots, e.lot ≠ n) : storedWith l n = [] := by
  unfold storedWith
  rw [List.filter_eq_nil_iff.mpr]
  · rfl
  · intro p hp
    simp only [Bool.and_eq_true, beq_iff_eq, List.any_eq_true, not_and, not_exists]
    intro a e he; exact h p hp a e he

/-! ## Feed, bags and pallets -/

/-- What the attribution of a weight to a list that is not empty gives: the shares follow the list from its head, every
entry passed gives all its mass, and the masses sum to the weight (R144). -/
theorem drawMass_spec : ∀ (feed : List FeedEntry) (w : Nat), feed ≠ [] →
    let a := drawMass feed w
    (a.shares.map (·.mass)).sum = w ∧ a.shares ≠ [] ∧ a.feed ≠ []
    ∧ (∀ k share, a.shares[k]? = some share → ∃ e, feed[k]? = some e ∧ share.lot = e.lot ∧ share.exit = e.exit
        ∧ (k + 1 < a.shares.length → share.mass = e.mass ∧ ((a.shares.take (k + 1)).map (·.mass)).sum < w))
    ∧ feed.drop a.shares.length <:+ a.feed ∧ (∀ e ∈ a.retired, e.mass = 0)
    ∧ (a.feed.map (·.mass)).sum = (feed.map (·.mass)).sum - w
  | [], _, h => absurd rfl h
  | [e], w, _ => by
    simp only [drawMass]
    refine ⟨by simp, by simp, by simp, ?_, by simp, by simp, by simp⟩
    intro k sh hk
    cases k with
    | zero => simp at hk; subst hk; exact ⟨e, rfl, rfl, rfl, by simp⟩
    | succ k => simp at hk
  | e :: f :: rest, w, _ => by
    have ih := drawMass_spec (f :: rest) (w - min w e.mass) (by simp)
    rw [drawMass]
    by_cases hw : w - min w e.mass = 0
    · simp only [hw, if_true]
      have he : w ≤ e.mass := by omega
      have hm : min w e.mass = w := by omega
      refine ⟨by simp [hm], by simp, by split <;> simp, ?_, ?_, ?_, ?_⟩
      · intro k sh hk
        cases k with
        | zero => simp at hk; subst hk; exact ⟨e, rfl, rfl, rfl, by simp⟩
        | succ k => simp at hk
      · split
        · simp
        · simp
      · split <;> simp <;> omega
      · split <;> simp <;> omega
    · simp only [if_neg hw]
      have hm : min w e.mass = e.mass := by omega
      rw [hm] at ih hw ⊢
      generalize drawMass (f :: rest) (w - e.mass) = a at ih ⊢
      obtain ⟨i1, i2, i3, i4, i5, i6, i7⟩ := ih
      simp only [Nat.sub_self, if_true]
      refine ⟨by simp [i1]; omega, by simp, i3, ?_, by simpa using i5, by simpa using i6, ?_⟩
      · intro k sh hk
        cases k with
        | zero => simp at hk; subst hk; exact ⟨e, rfl, rfl, rfl, fun _ => ⟨rfl, by simp; omega⟩⟩
        | succ k =>
          simp at hk
          obtain ⟨g, hg, q1, q2, q3⟩ := i4 k sh hk
          refine ⟨g, by simpa using hg, q1, q2, fun hl => ?_⟩
          simp at hl
          obtain ⟨r1, r2⟩ := q3 (by omega)
          refine ⟨r1, ?_⟩
          simp only [List.take_succ_cons, List.map_cons, List.sum_cons]
          omega
      · rw [i7]; simp; omega

/-- The BAG zone is RUNNING after an event that changed no zone as before it. -/
theorem bagRunning_still {l l' : Line} (h : Still l l') : bagRunning l' = bagRunning l := by
  have a : ∀ z, zone? l' z = zone? l z := fun z => zone?_congr h.zones z
  unfold bagRunning kindIn zoneOfKind
  simp only [a, zoneState]

/-- No pallet is opened while the BAG zone is not RUNNING (R149). -/
theorem openPallets_off {l : Line} (h : bagRunning l = false) : openPallets l = judgeHold l := by
  have t : ∀ x, tryOpen x l = l := fun x => by unfold tryOpen; simp [h]
  unfold openPallets; rw [t, t]

/-- The judgment of BAGGER_HOLD changes the pack unit's flag and no other field of pack or track (R154). -/
theorem judgeHold_pack (l : Line) :
    ∃ b, (judgeHold l).pack = { l.pack with baggerHold := b } ∧ (judgeHold l).track = l.track := by
  unfold judgeHold; dsimp only; split <;> exact ⟨_, rfl, rfl⟩

/-- A part-driven output of the function holds the value set. -/
theorem functionValue_setFunction (f : ChanFunction) (v : Int) (l : Line) (j : Nat)
    (hk : (chan (setFunction f v l) j).desc.kind = .partOutput) (hf : (chan (setFunction f v l) j).desc.func = f) :
    (chan (setFunction f v l) j).run.functionValue = v := by
  by_cases hj : j < l.chans.length
  · have e : chan (setFunction f v l) j = (fun c => if c.desc.kind = .partOutput ∧ c.desc.func = f then
        refresh (ownerState l c.desc) { c with run := { c.run with functionValue := v } }
      else c) (chan l j) := chan_map l _ j hj
    rw [e] at hk hf ⊢
    dsimp only at *
    split
    · unfold refresh; split <;> rfl
    · next hc =>
      rw [if_neg hc] at hk hf
      exact absurd ⟨hk, hf⟩ hc
  · rw [chan_unused _ _ (by simp [setFunction]; omega)] at hk
    exact absurd hk (by decide)

/-- Any other channel is left as it was. -/
theorem setFunction_other (f : ChanFunction) (v : Int) (l : Line) (j : Nat)
    (h : (chan l j).desc.kind ≠ .partOutput ∨ (chan l j).desc.func ≠ f) : chan (setFunction f v l) j = chan l j := by
  by_cases hj : j < l.chans.length
  · have e : chan (setFunction f v l) j = (fun c => if c.desc.kind = .partOutput ∧ c.desc.func = f then
        refresh (ownerState l c.desc) { c with run := { c.run with functionValue := v } }
      else c) (chan l j) := chan_map l _ j hj
    rw [e]; dsimp only; rw [if_neg]; rintro ⟨a, b⟩; rcases h with h | h
    · exact h a
    · exact h b
  · rw [chan_unused _ _ (by simp [setFunction]; omega), chan_unused _ _ (by omega)]

/-! ## Offered records -/

/-- What an offer of an unreserved record does: the record is offered, and only the log and the log's notices change
(R172). -/
theorem offer_spec (k : RecordKind) (p : List Word) (l : Line) :
    Offered l.log (reserveFloor l) (now l) k p (offer k p l)
    ∧ { offer k p l with log := l.log, status := { (offer k p l).status with notices := l.status.notices } } = l
    ∧ ∀ n : Notice, n ≠ .logDrop → n ≠ .logThreshold → noticeSet (offer k p l) n = noticeSet l n := by
  refine ⟨?_, ?_, ?_⟩
  · unfold offer Offered freeUnreserved Config.logCount
    refine ⟨fun h => ?_, fun h => ?_⟩
    · rw [if_pos h, judgeThreshold_log]; rfl
    · rw [if_neg (by omega)]; exact ⟨rfl, raise_noticeSet_self _ _⟩
  · unfold offer judgeThreshold; split <;> (try split) <;> rfl
  · intro n a b
    unfold offer judgeThreshold; split <;> (try split)
    · exact noticeSet_raise_ne _ b
    · rfl
    · exact noticeSet_raise_ne _ a

/-! ## Opening pallets and BAGGER_HOLD -/

/-- A list that has every number below n is at least n long. -/
theorem length_ge_of_mem : ∀ (n : Nat) (used : List Nat), (∀ p, p < n → p ∈ used) → n ≤ used.length
  | 0, _, _ => Nat.zero_le _
  | n + 1, used, h => by
    have m := h n (Nat.lt_succ_self n)
    have := length_ge_of_mem n (used.erase n) fun p hp =>
      (List.mem_erase_of_ne (by omega)).mpr (h p (by omega))
    rw [List.length_erase_of_mem m] at this
    have := List.length_pos_of_mem m
    omega

/-- Records fewer than the table leave a free one. -/
theorem freePositions_ne_nil (size : Nat) (used : List Nat) (h : used.length < size) : freePositions size used ≠ [] := by
  intro e
  have := length_ge_of_mem size used fun p hp => Decidable.byContradiction fun c => by
    have : p ∈ freePositions size used := List.mem_filter.mpr ⟨List.mem_range.mpr hp, by simp [c]⟩
    rw [e] at this; cases this
  omega

/-- What an attempt to open a pallet can do: nothing, or one new pallet in a free record under the counter's number,
with one reservation (R149). -/
theorem tryOpen_spec (x : Lane) (l : Line) :
    let opens := bagRunning l = true ∧ openPallet l x = none ∧ l.pack.pallets.length < 32 ∧ 1 ≤ freeUnreserved l.log
    (¬ opens → tryOpen x l = l)
    ∧ (opens → ∃ pos choices notices,
        tryOpen x l =
          { l with
            pack := { l.pack with
              pallets := l.pack.pallets ++ [newPallet pos l.pack.palletCounter x]
              palletCounter :=
                nextNumber ((l.pack.pallets ++ [newPallet pos l.pack.palletCounter x]).map (·.number)) 64
                  l.pack.palletCounter }
            log := { l.log with reserved := l.log.reserved + 1 }
            choices := choices
            status := { l.status with notices := notices } }
        ∧ pos < 32 ∧ (∀ r ∈ l.pack.pallets, r.pos ≠ pos)
        ∧ ∀ n : Notice, n ≠ .logThreshold → noticeSet (tryOpen x l) n = noticeSet l n) := by
  intro opens
  have e : (bagRunning l && (openPallet l x).isNone && decide (l.pack.pallets.length < Config.palletCount)
      && canGrant l 1) = true ↔ opens := by
    simp only [opens, canGrant, Bool.and_eq_true, decide_eq_true_eq, Option.isNone_iff_eq_none, and_assoc]
    exact Iff.rfl
  refine ⟨fun h => by unfold tryOpen; rw [if_neg (mt e.mp h)], fun h => ?_⟩
  have hp := pickOne_mem (freePositions Config.palletCount (l.pack.pallets.map (·.pos))) (grant 1 l)
    (freePositions_ne_nil _ _ (by simpa [Config.palletCount] using h.2.2.1))
  obtain ⟨m1, m2⟩ := List.mem_filter.mp hp
  have g : ∃ t, grant 1 l =
        { l with log := { l.log with reserved := l.log.reserved + 1 }, status := { l.status with notices := t } }
      ∧ ∀ n : Notice, n ≠ .logThreshold → noticeSet (grant 1 l) n = noticeSet l n := by
    unfold grant judgeThreshold
    split
    · exact ⟨_, rfl, fun n hn => noticeSet_raise_ne _ hn⟩
    · exact ⟨_, rfl, fun n hn => rfl⟩
  obtain ⟨t, gt, gn⟩ := g
  have c : ∃ k, (pickOne (freePositions Config.palletCount (l.pack.pallets.map (·.pos))) (grant 1 l)).2 =
      { grant 1 l with choices := k } := by unfold pickOne; split <;> exact ⟨_, rfl⟩
  obtain ⟨k, ck⟩ := c
  refine ⟨_, k, t, ?_, List.mem_range.mp m1, ?_, ?_⟩
  · unfold tryOpen; rw [if_pos (e.mpr h)]; dsimp only; rw [ck, gt]
  · intro r hr c
    simp only [Bool.not_eq_true', List.contains_eq_mem, decide_eq_false_iff_not] at m2
    exact m2 (c ▸ List.mem_map_of_mem hr)
  · intro n hn
    rw [← gn n hn]
    unfold tryOpen; rw [if_pos (e.mpr h)]; dsimp only; rw [ck]; rfl

/-- What the judgment of BAGGER_HOLD can do: the flag, the function's value and, at a rise, the notice (R154). -/
theorem judgeHold_spec (l : Line) :
    let want := holdWanted l
    let l' := judgeHold l
    l'.pack = { l.pack with baggerHold := want } ∧ l'.log = l.log
    ∧ (∀ j, (chan l' j).desc.kind = .partOutput → (chan l' j).desc.func = .baggerHold →
        (chan l' j).run.functionValue = flag want)
    ∧ (∀ j, (chan l j).desc.kind ≠ .partOutput ∨ (chan l j).desc.func ≠ .baggerHold → chan l' j = chan l j)
    ∧ (want = true → l.pack.baggerHold = false → noticeSet l' .baggerHold = true)
    ∧ (∀ m : Notice, m ≠ .baggerHold → noticeSet l' m = noticeSet l m)
    ∧ { l' with pack := l.pack, chans := l.chans, status := l.status } = l
    ∧ { l'.status with notices := l.status.notices } = l.status := by
  intro want l'
  have hf := functionValue_setFunction .baggerHold (flag want) { l with pack := { l.pack with baggerHold := want } }
  have ho := setFunction_other .baggerHold (flag want) { l with pack := { l.pack with baggerHold := want } }
  have el : l' = if (want && !l.pack.baggerHold) = true then
      raise .baggerHold (setFunction .baggerHold (flag want) { l with pack := { l.pack with baggerHold := want } })
      else setFunction .baggerHold (flag want) { l with pack := { l.pack with baggerHold := want } } := rfl
  by_cases r : (want && !l.pack.baggerHold) = true
  · rw [if_pos r] at el
    rw [el]
    exact ⟨rfl, rfl, hf, ho, fun _ _ => raise_noticeSet_self _ _, fun m hm => noticeSet_raise_ne _ hm, rfl, rfl⟩
  · rw [if_neg r] at el
    rw [el]
    refine ⟨rfl, rfl, hf, ho, fun a b => ?_, fun m hm => rfl, rfl, rfl⟩
    simp [a, b] at r

/-! ## The track's sections -/

/-- The sections as they were. -/
def Sections (l l' : Line) : Prop := l'.track.sections = l.track.sections

theorem Sections.trans {a b c : Line} (x : Sections a b) (y : Sections b c) : Sections a c := Eq.trans y x

theorem Sections.foldl {α : Type} {f : Line → α → Line} (h : ∀ l a, Sections l (f l a)) :
    ∀ (xs : List α) (l : Line), Sections l (xs.foldl f l)
  | [], _ => rfl
  | x :: xs, l => (h l x).trans (Sections.foldl h xs _)

theorem writeReserved_sections (k : RecordKind) (p : List Word) (l : Line) : Sections l (writeReserved k p l) := by
  unfold writeReserved Sections; split <;> rfl

theorem tryOpen_track (x : Lane) (l : Line) : (tryOpen x l).track = l.track := by
  unfold tryOpen; split
  · dsimp only; unfold pickOne grant judgeThreshold; split <;> (try split) <;> rfl
  · rfl

theorem openPallets_track (l : Line) : (openPallets l).track = l.track := by
  unfold openPallets
  obtain ⟨_, _, h⟩ := judgeHold_pack (tryOpen .hold (tryOpen .release l))
  rw [h, tryOpen_track, tryOpen_track]

theorem judgeRetirement_sections (n : Nat) (l : Line) : Sections l (judgeRetirement n l) := by
  unfold judgeRetirement; split
  · rfl
  · split
    · exact writeReserved_sections _ _ _
    · rfl

theorem resolvePallet_sections (p : Pallet) (l : Line) : Sections l (resolvePallet p l) := by
  unfold resolvePallet
  dsimp only
  refine Sections.trans ?_ (congrArg Track.sections (openPallets_track _))
  refine Sections.trans ?_ (Sections.foldl (f := fun l (e : PalletLot) => judgeRetirement e.lot l)
    (fun l e => judgeRetirement_sections _ _) p.lots _)
  refine Sections.trans ?_ (Sections.foldl
    (f := fun l (e : PalletLot) => changeLot e.lot (fun x => { x with livePallets := x.livePallets - 1 }) l)
    (fun l e => rfl) p.lots _)
  exact writeReserved_sections _ _ _

theorem judgeResolution_sections (n : Nat) (l : Line) : Sections l (judgeResolution n l) := by
  unfold judgeResolution; split
  · rfl
  · split
    · exact resolvePallet_sections _ _
    · rfl

theorem judgeVerdict_sections (n : Nat) (l : Line) : Sections l (judgeVerdict n l) := by
  unfold judgeVerdict; split
  · rfl
  · split
    · dsimp only
      refine Sections.trans ?_ (judgeRetirement_sections _ _)
      refine Sections.trans ?_ (Sections.foldl (f := fun l (p : Pallet) => judgeResolution p.number l)
        (fun l p => judgeResolution_sections _ _) _ _)
      exact (show Sections l (changeLot n _ l) from rfl).trans (writeReserved_sections _ _ _)
    · rfl

theorem countFinal_sections (c : TrackCell) (l : Line) : Sections l (countFinal c l) := by
  unfold countFinal; exact (show Sections l (changeLot c.lot _ l) from rfl).trans (judgeVerdict_sections _ _)

theorem retireFeed_sections (e : FeedEntry) (l : Line) : Sections l (retireFeed e l) := by
  unfold retireFeed; exact (show Sections l (changeLot e.lot _ l) from rfl).trans (judgeRetirement_sections _ _)

theorem feedCell_sections (n u : Nat) (l : Line) : Sections l (feedCell n u l) := by
  unfold feedCell; dsimp only; split
  · rfl
  · exact (show Sections l _ from rfl).trans (retireFeed_sections _ _)

theorem exitTrack_sections (c : TrackCell) (l : Line) : Sections l (exitTrack c l) := by
  unfold exitTrack; dsimp only
  refine Sections.trans ?_ (judgeRetirement_sections _ _)
  exact (show Sections l (changeLot c.lot _ l) from rfl).trans (feedCell_sections _ _ _)

theorem mergeLots_sections (past : Bool) (a b : TrackCell) (l : Line) : Sections l (mergeLots past a b l) := by
  unfold mergeLots; split
  · rfl
  · refine Sections.trans ?_ (judgeRetirement_sections _ _)
    exact (show Sections l (mergeTwoLots past a b l) from rfl).trans (judgeVerdict_sections _ _)

/-- The descriptors of the used sections, in order. -/
def sectionDescs (l : Line) : List SectionDesc := l.track.sections.map (·.desc)

theorem Sections.descs {l l' : Line} (h : Sections l l') : sectionDescs l' = sectionDescs l := by
  unfold sectionDescs; rw [h]

theorem changeSection_descs (i : Nat) (f : Section → Section) (hf : ∀ s, (f s).desc = s.desc) (l : Line) :
    sectionDescs (changeSection i f l) = sectionDescs l := by
  unfold sectionDescs changeSection change
  apply List.ext_getElem
  · simp
  · intro j h1 h2
    simp only [List.getElem_map, List.getElem_modify]
    split
    · exact hf _
    · rfl

theorem judgeArrival_descs (i n : Nat) (l : Line) : sectionDescs (judgeArrival i n l) = sectionDescs l := by
  unfold judgeArrival; split
  · rfl
  · dsimp only
    split <;> exact changeSection_descs i _ (by intro s; rfl) l

theorem placeCell_descs (i : Nat) (c : TrackCell) (l : Line) : sectionDescs (placeCell i c l) = sectionDescs l := by
  have e : ∀ c s, (setEntry c s).desc = s.desc := fun c s => by unfold setEntry; split <;> rfl
  unfold placeCell; split
  · rfl
  · split
    · rw [judgeArrival_descs, changeSection_descs _ _ (e _)]
    · rw [judgeArrival_descs, (mergeLots_sections _ _ _ _).descs, changeSection_descs _ _ (e _)]

theorem carryCell_descs (i : Nat) (c : TrackCell) (l : Line) : sectionDescs (carryCell i c l) = sectionDescs l := by
  unfold carryCell; dsimp only
  have h : ∀ (c : TrackCell) (l' : Line), sectionDescs l' = sectionDescs l →
      sectionDescs (if i + 1 < l'.track.sections.length then placeCell (i + 1) c l' else exitTrack c l')
        = sectionDescs l := by
    intro c l' e; split
    · rw [placeCell_descs, e]
    · rw [(exitTrack_sections _ _).descs, e]
  apply h
  split
  · rw [(countFinal_sections _ _).descs]
  · rfl

theorem admitCell_descs (l : Line) : sectionDescs (admitCell l) = sectionDescs l := by
  unfold admitCell; split
  · rfl
  · rw [placeCell_descs]; rfl

/-- A shift keeps every section's descriptor. -/
theorem shiftSection_descs (i : Nat) (l : Line) : sectionDescs (shiftSection i l) = sectionDescs l := by
  have e : ∀ s, (shiftPlaces s).desc = s.desc := fun s => by unfold shiftPlaces; split <;> rfl
  unfold shiftSection; split
  · rfl
  · dsimp only
    have h := changeSection_descs i shiftPlaces e l
    split <;> split
    · rw [admitCell_descs, h]
    · rw [admitCell_descs, carryCell_descs, h]
    · rw [h]
    · rw [carryCell_descs, h]

/-- The section a criterion kind's point lies at: the last of that kind (R107). -/
theorem lastOf_iff (c : Criterion) (l : Line) (k : Nat) :
    lastOf c l = some k ↔
      (∃ f, l.track.sections[k]? = some f ∧ f.desc.criterion = c)
        ∧ ∀ j f, k < j → l.track.sections[j]? = some f → f.desc.criterion ≠ c := by
  unfold lastOf indicesWhere
  generalize hP : (fun i : Nat => (l.track.sections[i]?).any (fun s : Section => s.desc.criterion == c)) = P
  have hPi : ∀ i, P i = true ↔ ∃ f, l.track.sections[i]? = some f ∧ f.desc.criterion = c := by
    intro i; rw [← hP]; dsimp only
    cases l.track.sections[i]? <;> simp
  have hL : ∀ i, P i = true → i < l.track.sections.length := by
    intro i hi
    obtain ⟨f, hf, _⟩ := (hPi i).mp hi
    rcases Nat.lt_or_ge i l.track.sections.length with h | h
    · exact h
    · rw [List.getElem?_eq_none h] at hf; simp at hf
  have gen : ∀ n, ((List.range n).filter P).getLast? = some k ↔
      (P k = true ∧ k < n ∧ ∀ j, k < j → j < n → P j = false) := by
    intro n
    induction n with
    | zero => simp
    | succ n ih =>
      rw [List.range_succ, List.filter_append]
      by_cases c : P n = true
      · rw [show [n].filter P = [n] by simp [c]]
        simp only [List.getLast?_append, List.getLast?_singleton, Option.some_or, Option.some.injEq]
        constructor
        · rintro rfl; exact ⟨c, by omega, fun j h1 h2 => by omega⟩
        · rintro ⟨h1, h2, h3⟩
          rcases Nat.lt_or_ge k n with h | h
          · have := h3 n h (by omega); rw [c] at this; simp at this
          · omega
      · rw [show [n].filter P = [] by simp [c], List.append_nil, ih]
        constructor
        · rintro ⟨h1, h2, h3⟩
          refine ⟨h1, by omega, fun j a b => ?_⟩
          rcases Nat.lt_or_ge j n with h | h
          · exact h3 j a h
          · have : j = n := by omega
            subst this; simpa using c
        · rintro ⟨h1, h2, h3⟩
          have : k ≠ n := by rintro rfl; exact c h1
          exact ⟨h1, by omega, fun j a b => h3 j a (by omega)⟩
  rw [gen, hPi]
  constructor
  · rintro ⟨h1, h2, h3⟩
    refine ⟨h1, fun j f hj hf hc => ?_⟩
    have hp := (hPi j).mpr ⟨f, hf, hc⟩
    have := h3 j hj (hL j hp); rw [hp] at this; simp at this
  · rintro ⟨h1, h2⟩
    refine ⟨h1, hL k ((hPi k).mpr h1), fun j a b => ?_⟩
    rw [Bool.eq_false_iff]; intro hp
    obtain ⟨f, hf, hc⟩ := (hPi j).mp hp
    exact h2 j f a hf hc

/-- A sample of a channel that no section names as its criterion channel judges no cell (R127). -/
theorem criterionSample_unnamed (l : Line) (i : Nat) (v : Int)
    (h : ∀ d ∈ sectionDescs l, d.criterion = .none ∨ d.criterionChan ≠ i) : criterionSample i v l = l := by
  unfold criterionSample
  dsimp only
  have : l.track.sections.map (fun s => if judgedBy i s.desc then
          { s with places := s.places.map (·.map (sampleCell l s (carryDecimals (chan l i).desc.decimals 1 v))),
                   lastCriterion := some (now l) }
        else s) = l.track.sections := by
    conv => rhs; rw [← List.map_id l.track.sections]
    apply List.map_congr_left
    intro f hf
    rw [if_neg]
    · rfl
    · unfold judgedBy
      rcases h f.desc (List.mem_map_of_mem hf) with h | h <;> simp [h]
  rw [this]

/-! ## Zone events that change no zone -/

/-- No zone has a cause of its own: none trips. -/
theorem tripOwn_none (causes : Nat → List TripCause) (l : Line) (h : ∀ z, causes z = []) : tripOwn causes l = l := by
  unfold tripOwn
  generalize zoneNumbers = zs
  induction zs with
  | nil => rfl
  | cons z zs ih => simp only [List.foldl_cons]; rw [if_neg (by simp [h z])]; exact ih

/-- Where no zone has left RUNNING nothing cascades. -/
theorem cascade_self (l : Line) : cascade l l = l := by
  have none_left : leftRunning l l = [] := by
    unfold leftRunning; rw [List.filter_eq_nil_iff]; intro z _; cases isRunning l z <;> simp
  have rounds : ∀ n, cascadeRounds l n [] l = l := by
    intro n
    induction n with
    | zero => rfl
    | succ n ih => rw [cascadeRounds, withNamers_nil, cascadeRound_none l [] l (by rw [withNamers_nil]; simp)]; exact ih
  unfold cascade
  rw [none_left, rounds]

/-- An event that changes nothing at the zone sequencer reports and records nothing (R97, R105). -/
theorem plainEvent_self (f : Line → Line) (l : Line) (h : f l = l) : plainEvent f l = l := by
  have enters_self : ∀ z st, enters l l z st = false := fun z st => by
    unfold enters bne; cases zoneState l z == some st <;> rfl
  have leaves_self : ∀ z st, leaves l l z st = false := fun z st => by
    unfold leaves bne; cases zoneState l z == some st <;> rfl
  unfold plainEvent zoneEvent
  rw [h, cascade_self]
  have t : trippedBetween l l = [] := by unfold trippedBetween; simp [enters_self]
  have c : lotClosedBy l l = none := by
    unfold lotClosedBy; split
    · simp [leaves_self]
    · rfl
  have b : bagEnters l l = false := by unfold bagEnters; simp [enters_self]
  have r1 : trackReport l l = l := by unfold trackReport; rw [c]
  have r2 : packReport l l = l := by unfold packReport; split <;> simp
  have r3 : transferReport l l = l := by unfold transferReport; split <;> simp [enters_self, leaves_self]
  have r0 : offerTrips l l l = l := by unfold offerTrips; rw [t]; rfl
  simp only [inFreeOrder, t, c, b]
  simp [freely, r0, r1, r2, r3]

end Sys2Proof.Machine
end

