-- ==== Sys2Proof/Laws/Steps.lean ====
section
/-! SUPPORT. What the steps of a program do to the program values and where they leave their zone (R44, R92 to R96), and
what a zone event keeps of the program values. -/

namespace Sys2Proof.Machine

/-! ## Program values through a zone event -/

theorem changeZone_programs (z : Nat) (f : ZoneRun → ZoneRun) (l : Line) :
    programValues (changeZone z f l) = programValues l := rfl

/-- An entry into a state other than STARTING and STOPPING keeps the program values (R44). -/
theorem enterState_programs (z : Nat) (st : ZoneState) (l : Line) (h1 : st ≠ .starting) (h2 : st ≠ .stopping) :
    programValues (enterState z st l) = programValues l := by
  unfold enterState
  dsimp only
  rw [(refreshZone_still _ _).programs, if_neg (by simp [h1, h2]), (raise_still _ _).programs]
  rfl

theorem foldl_programs {α : Type} {f : Line → α → Line} (h : ∀ l a, programValues (f l a) = programValues l) :
    ∀ (xs : List α) (l : Line), programValues (xs.foldl f l) = programValues l
  | [], _ => rfl
  | x :: xs, l => (foldl_programs h xs _).trans (h l x)

theorem enterRunning_programs : ∀ (n z : Nat) (l : Line), programValues (enterRunning n z l) = programValues l
  | 0, _, _ => rfl
  | n + 1, z, l => by
    unfold enterRunning
    refine (foldl_programs (fun m w => ?_) _ _).trans (enterState_programs z .running _ (by decide) (by decide))
    split
    · exact enterRunning_programs n w m
    · rfl

theorem tripZone_programs (z : Nat) (k : TripCause) (l : Line) : programValues (tripZone z k l) = programValues l :=
  ((raise_still _ _).programs).trans (enterState_programs z .tripped _ (by decide) (by decide))

theorem tripOwn_programs (causes : Nat → List TripCause) (l : Line) :
    programValues (tripOwn causes l) = programValues l := by
  refine foldl_programs (fun m z => ?_) zoneNumbers l
  dsimp only
  split
  · exact (tripZone_programs _ _ _).trans (pickOne_still _ m).programs
  · rfl

theorem cascadeRounds_programs (before : Line) : ∀ (n : Nat) (left : List Nat) (l : Line),
    programValues (cascadeRounds before n left l) = programValues l
  | 0, _, _ => rfl
  | n + 1, left, l => by
    refine (cascadeRounds_programs before n _ _).trans (foldl_programs (fun m z => ?_) zoneNumbers l)
    dsimp only
    split
    · exact (tripZone_programs _ _ _).trans (pickOne_still _ m).programs
    · rfl

theorem cascade_programs (before l : Line) : programValues (cascade before l) = programValues l :=
  cascadeRounds_programs before _ _ l

/-- The cascade and the reports of a zone event keep the program values that its own changes gave (R44, R98, R105). -/
theorem plainEvent_programs (f : Line → Line) (l : Line) : programValues (plainEvent f l) = programValues (f l) :=
  (plainEvent_after f l).programs.trans (cascade_programs l (f l))

/-- A cascade leaves every zone that it cannot reach: a zone not RUNNING in the end (R98). -/
theorem cascade_idle (before l : Line) (z : Nat) (h : isRunning l z = false) : zone? (cascade before l) z = zone? l z := by
  rcases (cascade_cut before l).zones z with e | ⟨x, k, hx, _, hk⟩
  · exact e
  · have turn (left : List Nat) (m : Line) (hm : isRunning m z = false) :
        zone? (cascadeRound before left m) z = zone? m z := by
      unfold cascadeRound
      have key : ∀ (ws : List Nat) (m : Line), isRunning m z = false → zone? (ws.foldl (fun l w =>
          if (withNamers before left).contains w ∧ isRunning l w then
            tripZone w (.prereqLost (pickOne ((zoneDesc l w).prereqs.filter left.contains) l).1)
              (pickOne ((zoneDesc l w).prereqs.filter left.contains) l).2 else l) m) z = zone? m z := by
        intro ws
        induction ws with
        | nil => exact fun _ _ => rfl
        | cons w ws ih =>
          intro m hm
          have e : zone? (if (withNamers before left).contains w ∧ isRunning m w then
            tripZone w (.prereqLost (pickOne ((zoneDesc m w).prereqs.filter left.contains) m).1)
              (pickOne ((zoneDesc m w).prereqs.filter left.contains) m).2 else m) z = zone? m z := by
            split
            · next c =>
              have ne : w ≠ z := fun e => by rw [e, hm] at c; cases c.2
              rw [zone?_tripZone, if_neg ne, zone?_congr (pickOne_zones _ m)]
            · rfl
          simp only [List.foldl_cons]
          rw [ih _ (by rw [isRunning, zoneState, e]; exact hm), e]
      exact key zoneNumbers m hm
    have rounds : ∀ (n : Nat) (left : List Nat) (m : Line), isRunning m z = false →
        zone? (cascadeRounds before n left m) z = zone? m z := by
      intro n
      induction n with
      | zero => exact fun _ _ _ => rfl
      | succ n ih =>
        intro left m hm
        have e := turn left m hm
        unfold cascadeRounds
        rw [ih _ _ (by rw [isRunning, zoneState, e]; exact hm), e]
    exact rounds _ _ l h

/-- With no zone leaving RUNNING there is no cascade (R98). -/
theorem cascade_none {before l : Line} (h : leftRunning before l = []) : cascade before l = l := by
  unfold cascade
  rw [h]
  have key : ∀ n, cascadeRounds before n [] l = l := by
    intro n
    induction n with
    | zero => rfl
    | succ n ih =>
      unfold cascadeRounds
      rw [withNamers_nil, cascadeRound_none before [] l (by rw [withNamers_nil]; intro z hz; cases hz)]
      exact ih
  exact key _

/-! ## The steps of a program -/

/-- A step that passes gives its output its value (R92). -/
def passStep (l : Line) : Step → Line
  | .set i v => setProgram i v l
  | _ => l

theorem passStep_within (l : Line) (step : Step) : Within l (passStep l step) := by
  cases step
  · exact setProgram_within _ _ l
  all_goals exact .refl l

theorem passStep_zones (l : Line) (step : Step) : (passStep l step).zones = l.zones := by
  cases step
  · exact setProgram_zones _ _ l
  all_goals rfl

theorem passSteps_zones : ∀ (steps : List Step) (l : Line), (steps.foldl passStep l).zones = l.zones
  | [], _ => rfl
  | s :: steps, l => (passSteps_zones steps _).trans (passStep_zones l s)

theorem passSteps_within (steps : List Step) (l : Line) : Within l (steps.foldl passStep l) :=
  .foldl passStep_within steps l

/-- What the plant blocks change of a channel decides no WAIT_UNTIL. -/
theorem Passes.congr {l l' : Line} (h : Within l l') (step : Step) : Passes l' step ↔ Passes l step := by
  cases step with
  | set => exact Iff.rfl
  | waitTime => exact Iff.rfl
  | waitUntil c cmp threshold ms =>
    have f := h.chan c
    have q : (chan l' c).run.quality = (chan l c).run.quality := congrArg (fun x => x.run.quality) f
    have v : currentValue (chan l' c) = currentValue (chan l c) := by
      unfold currentValue
      rw [show (chan l' c).run.simFlag = _ from congrArg (fun x => x.run.simFlag) f,
        show (chan l' c).run.simValue = _ from congrArg (fun x => x.run.simValue) f,
        show (chan l' c).run.eng = _ from congrArg (fun x => x.run.eng) f]
      rfl
    simp only [Passes, q, v]

theorem passes_iff (l : Line) (c : Nat) (cmp : Comparison) (threshold : Int) (ms : Nat) :
    Passes l (.waitUntil c cmp threshold ms)
      ↔ (isGood l c = true ∧ meets cmp (currentValue (chan l c)) threshold = true) := by
  simp [Passes, isGood]

/-- A program runs through the steps that pass (R92, R93). -/
theorem runSteps_passes (z : Nat) (p : Program) : ∀ (done rest : List Step) (k : Nat) (l : Line),
    (∀ s ∈ done, Passes l s) →
    runSteps z p k (done ++ rest) l = runSteps z p (k + done.length) rest (done.foldl passStep l)
  | [], _, _, _, _ => rfl
  | .set i v :: done, rest, k, l, h => by
    have e := runSteps_passes z p done rest (k + 1) (setProgram i v l) fun s hs =>
      (Passes.congr (setProgram_within i v l) s).mpr (h s (List.mem_cons_of_mem _ hs))
    simp only [List.cons_append, runSteps, List.length_cons, List.foldl_cons, passStep]
    rw [e]; congr 1; omega
  | .waitTime ms :: done, rest, k, l, h => absurd (h _ List.mem_cons_self) id
  | .waitUntil c cmp th ms :: done, rest, k, l, h => by
    have e := runSteps_passes z p done rest (k + 1) l fun s hs => h s (List.mem_cons_of_mem _ hs)
    have c := (passes_iff l c cmp th ms).mp (h _ List.mem_cons_self)
    simp only [List.cons_append, runSteps, List.length_cons, List.foldl_cons, passStep]
    rw [if_pos c, e]; congr 1; omega

/-- A SET gives an output the value clamped into its range and no other channel a program value (R44). -/
theorem programValue_setProgram (i : Nat) (v : Int) (l : Line) (j : Nat) (hj : (chan l j).desc.kind.isOutput = true) :
    (chan (setProgram i v l) j).run.programValue =
      if i = j then clampInt (chan l j).desc.engMin (chan l j).desc.engMax v else (chan l j).run.programValue := by
  have lt : j < l.chans.length := by
    refine Nat.lt_of_not_le fun h => ?_
    rw [chan, List.getD_eq_getElem?_getD, List.getElem?_eq_none h] at hj
    cases hj
  unfold setProgram
  split
  · next hi =>
    rw [programValue_congr (refreshChannel_still i _).programs, chan_changeRun]
    by_cases e : i = j
    · subst e; simp [lt]
    · simp [e]
  · next hi =>
    rw [if_neg fun e => hi (by rw [e]; exact hj)]

theorem SetsApplied.of_steps {l : Line} : ∀ (done : List Step) (m : Line) (start : Nat → Int),
    (∀ j, (chan m j).desc = (chan l j).desc) →
    (∀ j, (chan l j).desc.kind.isOutput = true → (chan m j).run.programValue = start j) →
    SetsApplied l (done.foldl passStep m) start done
  | [], _, _, _, h => h
  | step :: done, m, start, hd, h => by
    intro j hj
    have w := passStep_within m step
    have hd' : ∀ j, (chan (passStep m step) j).desc = (chan l j).desc := fun j =>
      (congrArg (fun x => x.desc) (w.chan j)).trans (hd j)
    have ih := SetsApplied.of_steps done (passStep m step)
      (fun j => (match step with
        | .set i w => if i = j then clampInt (chan l j).desc.engMin (chan l j).desc.engMax w else start j
        | _ => start j)) hd' ?_ j hj
    · simp only [List.foldl_cons]
      cases step <;> exact ih
    · intro j hj
      cases step with
      | set i v =>
        show (chan (setProgram i v m) j).run.programValue = _
        rw [programValue_setProgram i v m j (by rw [hd]; exact hj), hd, h j hj]
      | waitTime => exact h j hj
      | waitUntil => exact h j hj

/-! ## Where a program leaves its zone -/

theorem endProgram_programs (z : Nat) (p : Program) (l : Line) : programValues (endProgram z p l) = programValues l := by
  unfold endProgram
  dsimp only
  cases p with
  | stop => exact enterState_programs z .off _ (by decide) (by decide)
  | start =>
    dsimp only
    split
    · exact (enterRunning_programs _ _ _).trans (enterState_programs z .ready _ (by decide) (by decide))
    · exact enterState_programs z .ready _ (by decide) (by decide)

/-- A program that stands at a step which waits, or at its end, sets no program value. -/
theorem runSteps_programs (z : Nat) (p : Program) (k : Nat) (rest : List Step) (l : Line)
    (h : ∀ step ∈ rest.head?, ¬ Passes l step) : programValues (runSteps z p k rest l) = programValues l := by
  cases rest with
  | nil => exact endProgram_programs z p l
  | cons step more =>
    cases step with
    | set => exact absurd trivial (h _ rfl)
    | waitTime => rfl
    | waitUntil c cmp th ms =>
      unfold runSteps
      rw [if_neg fun c => h _ rfl ((passes_iff _ _ _ _ _).mpr c)]
      rfl

/-- A program that ends leaves its zone in OFF, in READY, or in RUNNING behind its prerequisites (R94 to R96). -/
theorem endProgram_lands (z : Nat) (l : Line) (x : Zone) (hx : zone? l z = some x) (hr : x.run.state ≠ .running) :
    let ended (st : ZoneState) : Zone :=
      { x with run := { x.run with state := st, program := none, deadline := none, entryTime := now l } }
    zone? (endProgram z .stop l) z = some (ended .off)
    ∧ (¬ (x.run.runPending = true ∧ prereqsRun l z = true) → zone? (endProgram z .start l) z = some (ended .ready))
    ∧ (x.run.runPending = true ∧ prereqsRun l z = true →
        zone? (endProgram z .start l) z =
          some { ended .running with run := { (ended .running).run with runPending := false } }) := by
  intro ended
  let m := changeZone z (fun r => { r with program := none, deadline := none }) l
  have enters (st : ZoneState) : zone? (enterState z st m) z = some (ended st) := by
    show zone? (enterState z st (changeZone z _ l)) z = _
    rw [zone?_enterState, if_pos rfl, zone?_changeZone, if_pos rfl, hx]; rfl
  have o : OnlyZone z l (enterState z .ready m) := (changeZone_only z _ l).trans (enterState_only z _ _)
  have run : isRunning (enterState z .ready m) = isRunning l := by
    funext w
    by_cases e : w = z
    · subst e
      rw [not_running hx hr, not_running (enters .ready) (by show ZoneState.ready ≠ _; decide)]
    · rw [isRunning, isRunning, zoneState, zoneState, o.others w e]
  have pre : prereqsRun (enterState z .ready m) z = prereqsRun l z := by
    unfold prereqsRun; rw [o.descs.zoneDesc, run]
  have start : endProgram z .start l =
      if (zone? (enterState z .ready m) z).any (·.run.runPending) ∧ prereqsRun (enterState z .ready m) z then
        enterRunning Config.zoneCount z (enterState z .ready m) else enterState z .ready m := rfl
  have pend : (zone? (enterState z .ready m) z).any (·.run.runPending) = x.run.runPending := by rw [enters]; rfl
  refine ⟨enters .off, fun h => ?_, fun h => ?_⟩
  · rw [start, pend, pre, if_neg h]; exact enters .ready
  · rw [start, pend, pre, if_pos h]
    have wk := enterRunning_woken 8 z (enterState z .ready m)
    rw [if_neg (by decide)] at wk
    have at_z := zone?_enterOne z z (enterState z .ready m)
    rw [if_pos rfl, enters] at at_z
    rw [show Config.zoneCount = 8 from rfl, wk.keeps z ((isRunning_iff _ _).mpr ⟨_, at_z, rfl⟩), at_z]
    have : now (enterState z .ready m) = now l := o.now
    simp only [Option.map_some, Zone.woken, this, ended]

/-- A program standing before a step that does not pass, or before its end, lands its zone there (R92 to R96). `l` is
the state in which its event began, `zone` the zone but for the program's own fields. -/
theorem runSteps_lands (z : Nat) (p : Program) (k : Nat) (rest : List Step) {l m : Line} {x zone : Zone}
    (hx : zone? m z = some x) (hr : x.run.state ≠ .running)
    (hz : { x with run := { x.run with program := none, deadline := none } }
        = { zone with run := { zone.run with program := none, deadline := none } })
    (hn : now m = now l) (hp : p = .start → prereqsRun m z = prereqsRun l z)
    (h : ∀ step ∈ rest.head?, ¬ Passes m step) :
    Lands l (runSteps z p k rest m) z zone p k rest := by
  obtain ⟨d, r⟩ := x
  obtain ⟨d', r'⟩ := zone
  obtain ⟨s1, s2, s3, s4, s5, s6, s7⟩ := r
  obtain ⟨t1, t2, t3, t4, t5, t6, t7⟩ := r'
  simp only [Zone.mk.injEq, ZoneRun.mk.injEq] at hz
  have wait (ms : Nat) : zone? (waitAt z p k ms m) z = some
      { desc := d, run := { (⟨s1, s2, s3, s4, s5, s6, s7⟩ : ZoneRun) with
          program := some (p, k), deadline := some (now l + word ms) } } := by
    unfold waitAt
    rw [zone?_changeZone, if_pos rfl, hx, ← hn]; rfl
  have ends := endProgram_lands z m _ hx hr
  rw [hn] at ends
  obtain ⟨rfl, rfl, rfl, rfl, -, -, rfl, rfl⟩ := hz
  refine ⟨?_, ?_, ?_, ?_, ?_⟩
  · rintro ms more rfl
    exact wait ms
  · rintro c cmp th ms more rfl
    unfold runSteps
    rw [if_neg fun e => h _ rfl ((passes_iff _ _ _ _ _).mpr e)]
    exact wait ms
  · rintro rfl rfl
    exact ends.1
  · rintro rfl rfl ng
    rw [hp rfl] at ends
    exact ends.2.1 ng
  · rintro rfl rfl g
    rw [hp rfl] at ends
    exact ends.2.2 g

/-- A zone that changes alone, not RUNNING before, takes no zone out of RUNNING. -/
theorem OnlyZone.mono {z : Nat} {l l' : Line} (o : OnlyZone z l l') (h : isRunning l z = false) (w : Nat)
    (hw : isRunning l w = true) : isRunning l' w = true := by
  have ne : w ≠ z := fun e => by rw [e, h] at hw; cases hw
  rw [isRunning, zoneState, o.others w ne]; exact hw

theorem enterRunning_mono (n z : Nat) (l : Line) (w : Nat) (hw : isRunning l w = true) :
    isRunning (enterRunning (n + 1) z l) w = true := by
  have wk := enterRunning_woken (n + 1) z l
  rw [if_neg (Nat.succ_ne_zero n)] at wk
  refine wk.mono w ?_
  obtain ⟨x, hx, hr⟩ := (isRunning_iff l w).mp hw
  refine (isRunning_iff _ _).mpr ?_
  rw [zone?_enterOne]
  split
  · exact ⟨_, by rw [hx]; rfl, rfl⟩
  · exact ⟨x, hx, hr⟩

/-- A program takes no zone out of RUNNING (R92 to R96). -/
theorem runSteps_mono (z : Nat) (p : Program) : ∀ (steps : List Step) (k : Nat) (l : Line), isRunning l z = false →
    ∀ w, isRunning l w = true → isRunning (runSteps z p k steps l) w = true
  | [], _, l, h, w, hw => by
    have o (st : ZoneState) : OnlyZone z l
        (enterState z st (changeZone z (fun r => { r with program := none, deadline := none }) l)) :=
      (changeZone_only z _ l).trans (enterState_only z _ _)
    unfold runSteps endProgram
    cases p with
    | stop => exact (o .off).mono h w hw
    | start =>
      dsimp only
      split
      · exact enterRunning_mono 7 z _ w ((o .ready).mono h w hw)
      · exact (o .ready).mono h w hw
  | .set i v :: rest, k, l, h, w, hw => by
    have e (u : Nat) : isRunning (setProgram i v l) u = isRunning l u := by
      rw [isRunning, isRunning, zoneState, zoneState, zone?_congr (setProgram_zones i v l)]
    exact runSteps_mono z p rest (k + 1) _ (by rw [e]; exact h) w (by rw [e]; exact hw)
  | .waitTime ms :: _, k, l, h, w, hw => by
    unfold runSteps waitAt
    exact (changeZone_only z _ l).mono h w hw
  | .waitUntil i c th ms :: rest, k, l, h, w, hw => by
    unfold runSteps
    split
    · exact runSteps_mono z p rest (k + 1) l h w hw
    · exact (changeZone_only z _ l).mono h w hw

theorem leftRunning_nil {before l : Line} (h : ∀ w, isRunning before w = true → isRunning l w = true) :
    leftRunning before l = [] := by
  unfold leftRunning
  rw [List.filter_eq_nil_iff]
  intro w _ c
  simp only [Bool.and_eq_true, Bool.not_eq_true'] at c
  rw [h w c.1] at c; cases c.2

end Sys2Proof.Machine
end

