-- ==== Sys2Proof/Laws/Takings.lean ====
section
/-! SUPPORT. What the takings leave of a COMMIT_FULL in flight (R21, R8). -/

namespace Sys2Proof.Machine

/-- The COMMIT_FULL in flight, or its absence, is as it was. -/
def SameCommit (l l' : Line) : Prop := l'.request.commit = l.request.commit

theorem SameCommit.trans {a b c : Line} (x : SameCommit a b) (y : SameCommit b c) : SameCommit a c := Eq.trans y x

theorem complete_sameCommit (i : Nat) (r : Reply) (l : Line) : SameCommit l (complete i r l) := rfl

theorem immediate_sameCommit (busy : Line → Bool) (checks : Slot → Line → List (Bool × ResultCode))
    (act : Slot → Line → Reply × Line) (h : ∀ a l, SameCommit l (act a l).2) (i : Nat) (a : Slot) (l : Line) :
    SameCommit l (immediate busy checks act i a l) := by
  unfold immediate; split
  · rfl
  · exact (h a l).trans (complete_sameCommit _ _ _)

theorem long_sameCommit (busy : Line → Bool)
    (checks : Slot → Line → List (Bool × ResultCode)) (st : Nat → Slot → Line → Line) (h : ∀ i a l,
    SameCommit l (st i a l)) (i : Nat) (a : Slot) (l : Line) :
    SameCommit l (long busy checks st i a l) := by
  unfold long; split
  · rfl
  · exact (show SameCommit l (markTaken i l) from rfl).trans (h _ _ _)

theorem take_sameCommit (p : Slot → Bool) (f : Nat → Slot → Line → Line) (h : ∀ i a l,
    SameCommit l (f i a l)) (l : Line) : SameCommit l (take p f l) := by
  unfold take; split
  · split
    · exact (show SameCommit l (leaveQueue l) from rfl).trans (h _ _ _)
    · rfl
  · rfl

theorem still_sameCommit {l l' : Line} (h : Still l l') : SameCommit l l' := by unfold SameCommit; rw [h.within.request]

theorem within_sameCommit {l l' : Line} (h : Within l l') : SameCommit l l' := by unfold SameCommit; rw [h.request]

theorem endHalt_sameCommit (l : Line) : SameCommit l (endHalt l) := by
  unfold endHalt; dsimp only
  have f : ∀ (xs : List Nat) (l : Line), SameCommit l (xs.foldl (fun l n => changeNode n
      (fun nd => { nd with misses := 0 }) l) l) := by
    intro xs; induction xs with
    | nil => intro l; rfl
    | cons x xs ih => intro l; exact (show SameCommit l (changeNode x _ l) from rfl).trans (ih _)
  split
  · exact SameCommit.trans (f _ l) (SameCommit.trans (b := raise .linkHalted _) rfl (complete_sameCommit _ _ _))
  · exact (f _ l).trans rfl

theorem startCycle_sameCommit (l : Line) : SameCommit l (startCycle l) := rfl

theorem sendOneShot_sameCommit (l : Line) : SameCommit l (sendOneShot l) := by unfold sendOneShot; split <;> rfl

theorem sendNext_sameCommit (l : Line) : SameCommit l (sendNext l) := by
  unfold sendNext; split
  · exact sendOneShot_sameCommit _
  · split
    · exact (show SameCommit l _ from rfl).trans (sendOneShot_sameCommit _)
    · split <;> rfl

theorem settleCycle_sameCommit (l : Line) : SameCommit l (settleCycle l) := by
  unfold settleCycle; split
  · split
    · rfl
    · dsimp only; split
      · exact (show SameCommit l _ from rfl).trans (endHalt_sameCommit _)
      · split <;> rfl
  · rfl

theorem pump_sameCommit (l : Line) : SameCommit l (pump l) := by
  unfold pump; split
  · split
    · split <;> rfl
    · dsimp only; split
      · exact (settleCycle_sameCommit l).trans rfl
      · exact (settleCycle_sameCommit l).trans (sendNext_sameCommit _)
  · rfl

theorem leaveSimulate_sameCommit (z : Nat) (l : Line) : SameCommit l (leaveSimulate z l) := by
  unfold leaveSimulate; dsimp only
  refine SameCommit.trans ?_ (still_sameCommit (plainEvent_after _ _))
  refine SameCommit.trans ?_ (within_sameCommit (cascade_within _ _))
  refine SameCommit.trans ?_ (within_sameCommit (tripOwn_within _ _))
  refine SameCommit.trans ?_ (still_sameCommit (trackLosses_still _ _))
  refine SameCommit.trans ?_ (within_sameCommit (enterState_within _ _ _))
  show SameCommit l (safeOutputs z (if _ then _ else _))
  split <;> rfl

theorem changeZone_sameCommit (z : Nat) (f : ZoneRun → ZoneRun) (l : Line) : SameCommit l (changeZone z f l) := rfl

theorem plainEvent_sameCommit (f : Line → Line) (h : ∀ l, SameCommit l (f l)) (l : Line) :
    SameCommit l (plainEvent f l) :=
  (h l).trans ((within_sameCommit (cascade_within _ _)).trans (still_sameCommit (plainEvent_after _ _)))

theorem zoneStart_sameCommit (z : Nat) (l : Line) : SameCommit l (zoneStart z l) := by
  unfold zoneStart; split
  · exact plainEvent_sameCommit _ (fun l => within_sameCommit (startZone_within _ _ _)) l
  · rfl

theorem zoneRun_sameCommit (z : Nat) (l : Line) : SameCommit l (zoneRun z l) := by
  unfold zoneRun; split
  · exact plainEvent_sameCommit _ (fun l => within_sameCommit (startZone_within _ _ _)) l
  · rfl
  · refine plainEvent_sameCommit _ (fun l => ?_) l
    dsimp only; split
    · exact (show SameCommit l (changeZone z _ l) from rfl).trans (within_sameCommit (enterRunning_within _ _ _))
    · rfl
  · rfl

theorem zoneStop_sameCommit (z : Nat) (l : Line) : SameCommit l (zoneStop z l) := by
  unfold zoneStop; split
  · exact plainEvent_sameCommit _ (fun l => within_sameCommit (stopZone_within _ _)) l
  · exact plainEvent_sameCommit _ (fun l => within_sameCommit (stopZone_within _ _)) l
  · exact plainEvent_sameCommit _ (fun l => within_sameCommit (stopZone_within _ _)) l
  · exact leaveSimulate_sameCommit _ _
  · rfl

theorem zoneReset_sameCommit (z : Nat) (l : Line) : SameCommit l (zoneReset z l) := by
  unfold zoneReset; split
  · exact plainEvent_sameCommit _
      (fun l => (changeZone_sameCommit z _ l).trans (within_sameCommit (enterState_within _ _ _))) l
  · rfl

theorem simulateEnter_sameCommit (z : Nat) (l : Line) : SameCommit l (simulateEnter z l) := by
  unfold simulateEnter; split
  · exact plainEvent_sameCommit _ (fun l => within_sameCommit (enterState_within _ _ _)) l
  · rfl

theorem simulateLeave_sameCommit (z : Nat) (l : Line) : SameCommit l (simulateLeave z l) := by
  unfold simulateLeave; split
  · exact leaveSimulate_sameCommit _ _
  · rfl

theorem closeOpenLot_sameCommit (l : Line) : SameCommit l (closeOpenLot l) := by
  unfold closeOpenLot; split
  · exact still_sameCommit (closeLot_still _ _)
  · rfl

theorem actLotOpen_sameCommit (a : Slot) (l : Line) : SameCommit l (actLotOpen a l).2 := by
  unfold actLotOpen; dsimp only
  refine SameCommit.trans ?_ (still_sameCommit (writeReserved_still _ _ _))
  have : ∀ l : Line, SameCommit l (admitLot (a.arg3 = 1) a.arg2.toNat l).2 := by
    intro l; unfold admitLot
    exact (still_sameCommit (pickOne_still _ l)).trans rfl
  refine SameCommit.trans ?_ (this _)
  refine SameCommit.trans ?_ (closeOpenLot_sameCommit _)
  unfold grant judgeThreshold; split <;> rfl

theorem actLotFlush_sameCommit (a : Slot) (l : Line) : SameCommit l (actLotFlush a l).2 := by
  unfold actLotFlush; dsimp only
  have h1 : ∀ n (l : Line), SameCommit l (retireLotFeed n l).2 := by
    intro n l; unfold retireLotFeed; split
    · exact still_sameCommit ((setFeed_still _ l).trans (retireFeed_still _ _))
    · exact still_sameCommit (judgeRetirement_still _ _)
  have h2 : ∀ n (l : Line), SameCommit l (clearFromTrack n l).2 := by
    intro n l; unfold clearFromTrack; dsimp only; split
    · exact (show SameCommit l (changeLot n _ (emptyCells n l)) from rfl).trans (still_sameCommit
        (judgeVerdict_still _ _))
    · rfl
  split
  · exact (h2 _ l).trans (h1 _ _)
  · exact h1 _ _

theorem actPalletClose_sameCommit (a : Slot) (l : Line) : SameCommit l (actPalletClose a l).2 := by
  unfold actPalletClose; split
  · rfl
  · split
    · unfold discardPallet
      refine SameCommit.trans ?_ (still_sameCommit (openPallets_still _))
      rfl
    · exact still_sameCommit (closePallet_still _ _ _)

theorem actConfirm_sameCommit (a : Slot) (l : Line) : SameCommit l (actConfirm a l).2 := by
  unfold actConfirm; dsimp only
  exact (still_sameCommit (storePallet_still _ _)).trans (still_sameCommit (judgeResolution_still _ _))

/-- Every taking but a COMMIT_FULL's leaves the COMMIT_FULL in flight as it was, so it leaves the staging-touch
    flag alone. -/
theorem takeAny_sameCommit (l : Line) (k : RequestKind) (h : k ≠ .commitFull) (i : Nat)
    (hh : headSlot l = some i) (hk : RequestKind.ofCode (slotAt l i).kind.toNat = some k) :
    SameCommit l (takeAny l) := by
  unfold takeAny; rw [hh]; dsimp only; rw [hk]
  cases k with
  | commitFull => exact absurd rfl h
  | commitRecipe =>
    refine take_sameCommit _ _ (fun i a l => ?_) l
    dsimp only; split
    · rfl
    · rfl
  | reinit => exact take_sameCommit _ _ (long_sameCommit busyReinit commitChecks startReinit (fun i a l => rfl)) l
  | discover => exact take_sameCommit _ _ (long_sameCommit busyReinit discoverChecks startDiscover
      (fun i a l => SameCommit.trans rfl (pump_sameCommit _))) l
  | linkStart => exact take_sameCommit _ _ (immediate_sameCommit busyConfig linkStartChecks actLinkStart
      (fun a l => SameCommit.trans (b := startCycle _) rfl (pump_sameCommit _))) l
  | linkHalt => 
    refine take_sameCommit _ _ (long_sameCommit _ _ _ (fun i a l => ?_)) l
    unfold startHalt; dsimp only; split
    · refine SameCommit.trans ?_ (pump_sameCommit _)
      refine SameCommit.trans ?_ (endHalt_sameCommit _)
      rfl
    · rfl
  | nodeRead => exact take_sameCommit _ _ (long_sameCommit busyNode (nodeChecks false) (startOneShot false)
      (fun i a l => SameCommit.trans rfl (pump_sameCommit _))) l
  | nodeWrite => exact take_sameCommit _ _ (long_sameCommit busyNode (nodeChecks true) (startOneShot true)
      (fun i a l => SameCommit.trans rfl (pump_sameCommit _))) l
  | zoneStart => exact take_sameCommit _ _ (immediate_sameCommit busyConfig startChecks (zoneAct zoneStart)
      (fun a l => zoneStart_sameCommit _ l)) l
  | zoneRun => exact take_sameCommit _ _ (immediate_sameCommit busyConfig startChecks (zoneAct zoneRun)
      (fun a l => zoneRun_sameCommit _ l)) l
  | zoneStop => exact take_sameCommit _ _ (immediate_sameCommit busyConfig stopChecks (zoneAct zoneStop)
      (fun a l => zoneStop_sameCommit _ l)) l
  | zoneReset => exact take_sameCommit _ _ (immediate_sameCommit busyConfig resetChecks (zoneAct zoneReset)
      (fun a l => zoneReset_sameCommit _ l)) l
  | zoneSimulate =>
    dsimp only; split
    · exact take_sameCommit _ _ (immediate_sameCommit busyConfig leaveChecks (zoneAct simulateLeave)
        (fun a l => simulateLeave_sameCommit _ l)) l
    · exact take_sameCommit _ _ (immediate_sameCommit busyConfig enterChecks (zoneAct simulateEnter)
        (fun a l => simulateEnter_sameCommit _ l)) l
  | lotOpen => exact take_sameCommit _ _ (immediate_sameCommit busyConfig lotOpenChecks actLotOpen
      (fun a l => actLotOpen_sameCommit a l)) l
  | lotClose => exact take_sameCommit _ _ (immediate_sameCommit neverBusy lotCloseChecks actLotClose
      (fun a l => closeOpenLot_sameCommit l)) l
  | lotFlush => exact take_sameCommit _ _ (immediate_sameCommit neverBusy flushChecks actLotFlush
      (fun a l => actLotFlush_sameCommit a l)) l
  | injectBag => exact take_sameCommit _ _ (immediate_sameCommit neverBusy injectChecks actInject
      (fun a l => still_sameCommit (judgeBag_still _ _ _))) l
  | palletClose => exact take_sameCommit _ _ (immediate_sameCommit neverBusy palletCloseChecks actPalletClose
      (fun a l => actPalletClose_sameCommit a l)) l
  | palletConfirm => exact take_sameCommit _ _ (immediate_sameCommit neverBusy confirmChecks actConfirm
      (fun a l => actConfirm_sameCommit a l)) l

/-- A taking that leaves the COMMIT_FULL in flight alone changes only the blocks (R8). -/
theorem afterTaking_sameCommit (s : State) (f : Line → Line) (h : SameCommit s.line (f s.line)) :
    afterTaking f s = s.onLine f := by
  unfold afterTaking touchAfter
  rw [h]
  cases s.line.request.commit <;> simp [State.onLine]

end Sys2Proof.Machine
end

