-- ==== Sys2Proof/Laws/Trips.lean ====
section
/-! SUPPORT. Zone trips: what one zone event leaves of the zones behind those that left RUNNING, and the ZONE_TRIP records
it offers. -/

namespace Sys2Proof.Machine

/-! ## What leaves the log and the track as they were -/

/-- Neither the log nor the track differs. -/
def Quiet (l l' : Line) : Prop := l'.log = l.log ∧ l'.track = l.track

theorem Quiet.refl (l : Line) : Quiet l l := ⟨rfl, rfl⟩

theorem Quiet.trans {a b c : Line} (x : Quiet a b) (y : Quiet b c) : Quiet a c := ⟨y.1.trans x.1, y.2.trans x.2⟩

theorem Quiet.foldl {α} {f : Line → α → Line} (h : ∀ l a, Quiet l (f l a)) : ∀ (xs : List α) l, Quiet l (xs.foldl f l)
  | [], l => .refl l
  | _ :: xs, l => (h l _).trans (Quiet.foldl h xs _)

theorem refreshZone_quiet (z : Nat) (l : Line) : Quiet l (refreshZone z l) := by
  unfold refreshZone; exact ⟨rfl, rfl⟩

theorem enterState_quiet (z : Nat) (st : ZoneState) (l : Line) : Quiet l (enterState z st l) := by
  unfold enterState
  dsimp only
  refine Quiet.trans ?_ (refreshZone_quiet _ _)
  split <;> exact ⟨rfl, rfl⟩

theorem raise_quiet (n : Notice) (l : Line) : Quiet l (raise n l) := ⟨rfl, rfl⟩

theorem changeZone_quiet (z : Nat) (f : ZoneRun → ZoneRun) (l : Line) : Quiet l (changeZone z f l) := ⟨rfl, rfl⟩

theorem tripZone_quiet (z : Nat) (k : TripCause) (l : Line) : Quiet l (tripZone z k l) :=
  (changeZone_quiet z _ l).trans ((enterState_quiet z .tripped _).trans (raise_quiet _ _))

theorem pickOne_quiet (c : List Nat) (l : Line) : Quiet l (pickOne c l).2 := by
  unfold pickOne; split <;> exact ⟨rfl, rfl⟩

theorem tripOwn_quiet (c : Nat → List TripCause) (l : Line) : Quiet l (tripOwn c l) := by
  unfold tripOwn
  refine Quiet.foldl (fun m z => ?_) _ _
  dsimp only
  split
  · exact (pickOne_quiet _ _).trans (tripZone_quiet _ _ _)
  · exact .refl _

theorem cascadeRounds_quiet (before : Line) : ∀ n left (l : Line), Quiet l (cascadeRounds before n left l)
  | 0, _, l => .refl l
  | n + 1, left, l => by
    unfold cascadeRounds
    refine Quiet.trans ?_ (cascadeRounds_quiet before n _ _)
    unfold cascadeRound
    refine Quiet.foldl (fun m z => ?_) _ _
    dsimp only
    split
    · exact (pickOne_quiet _ _).trans (tripZone_quiet _ _ _)
    · exact .refl _

theorem cascade_quiet (before l : Line) : Quiet l (cascade before l) := cascadeRounds_quiet before _ _ l

theorem setFunction_quiet (f : ChanFunction) (v : Int) (l : Line) : Quiet l (setFunction f v l) := by
  unfold setFunction; exact ⟨rfl, rfl⟩

theorem judgeHold_quiet (l : Line) : Quiet l (judgeHold l) := by
  have h := setFunction_quiet .baggerHold (flag (holdWanted l))
    { l with pack := { l.pack with baggerHold := holdWanted l } }
  unfold judgeHold
  dsimp only
  split
  · exact h.trans (raise_quiet _ _)
  · exact h

theorem judgeDispatch_quiet (l : Line) : Quiet l (judgeDispatch l) := by
  unfold judgeDispatch
  split
  · split
    · exact .refl l
    · exact Quiet.trans ⟨rfl, rfl⟩ (setFunction_quiet _ _ _)
  · exact .refl l

theorem abandonTransit_quiet (l : Line) : Quiet l (abandonTransit l) := by
  unfold abandonTransit freePath
  split
  · exact .refl l
  · exact Quiet.trans ⟨rfl, rfl⟩ (setFunction_quiet _ _ _)

/-- A zone event in which the BAG zone does not enter RUNNING opens no pallet, so the pack unit's part reserves
nothing. -/
theorem packReport_quiet (before l : Line) (h : bagEnters before l = false) : Quiet l (packReport before l) := by
  unfold packReport bagEnters at *
  split
  · exact .refl l
  · next z hz =>
    have : enters before l z .running = false := by rw [hz] at h; simpa using h
    split
    · exact .refl l
    · rw [this]; exact judgeHold_quiet l

theorem transferReport_quiet (before l : Line) : Quiet l (transferReport before l) := by
  unfold transferReport
  split
  · exact .refl l
  · split
    · exact judgeDispatch_quiet l
    · split
      · exact abandonTransit_quiet l
      · exact .refl l

/-! ## Records offered one after the other -/

theorem offer_track (k : RecordKind) (p : List Word) (l : Line) : (offer k p l).track = l.track := by
  unfold offer judgeThreshold
  split
  · split <;> rfl
  · rfl

/-- One record offered, in the words of `offeredOn` (R172). -/
theorem offer_offeredOn (r : RecordKind × List Word) (l : Line) :
    (offer r.1 r.2 l).log = offeredOn (reserveFloor l) (now l) l.log r
      ∧ ((offer r.1 r.2 l).log.drops ≠ l.log.drops → noticeSet (offer r.1 r.2 l) .logDrop = true) := by
  obtain ⟨⟨a, b⟩, -, -⟩ := offer_spec r.1 r.2 l
  unfold offeredOn
  by_cases h : reserveFloor l < 1024 - usedCount l.log - l.log.reserved
  · rw [if_pos h]
    exact ⟨a h, fun c => absurd (by rw [a h]; rfl) c⟩
  · rw [if_neg h]
    exact ⟨(b (Nat.le_of_not_lt h)).1, fun _ => (b (Nat.le_of_not_lt h)).2⟩

/-- Records offered in turn: the log they leave, LOG_DROP when one was dropped, and the rest as it was (R172). -/
theorem offers_spec : ∀ (rs : List (RecordKind × List Word)) (l : Line),
    let l' := rs.foldl (fun m r => offer r.1 r.2 m) l
    l'.log = rs.foldl (offeredOn (reserveFloor l) (now l)) l.log
      ∧ (l'.log.drops ≠ l.log.drops → noticeSet l' .logDrop = true) ∧ Still l l' ∧ l'.track = l.track
  | [], l => ⟨rfl, fun c => absurd rfl c, .refl l, rfl⟩
  | r :: rs, l => by
    have st := offer_still r.1 r.2 l
    have floor : reserveFloor (offer r.1 r.2 l) = reserveFloor l := by unfold reserveFloor; rw [st.within.active]
    obtain ⟨a, b, c, d⟩ := offers_spec rs (offer r.1 r.2 l)
    obtain ⟨o1, o2⟩ := offer_offeredOn r l
    rw [floor, st.within.now, o1] at a
    refine ⟨a, fun hd => ?_, st.trans c, d.trans (offer_track _ _ _)⟩
    by_cases h : (offer r.1 r.2 l).log.drops = l.log.drops
    · exact b (by rw [h]; exact hd)
    · exact c.within.notices _ (o2 h)

/-- The track unit's part of a zone event writes nothing when it closes no lot, or one that keeps units unevaluated
(R122, R136). -/
theorem trackReport_quiet (before l : Line)
    (h : ∀ x, openLot l = some x →
      (x.verdict = .pending ∧ x.unevaluated ≠ 0 ∧ (∀ y ∈ l.track.lots, y.number = x.number → y = x))
        ∨ lotClosedBy before l = none) :
    (trackReport before l).log = l.log := by
  unfold trackReport
  split
  · next x hx =>
    have ho : openLot l = some x := by
      unfold lotClosedBy at hx
      split at hx
      · next y z h1 h2 => split at hx <;> split at hx <;> cases hx <;> exact h1
      · cases hx
    rcases h x ho with ⟨hv, hu, hn⟩ | h
    · exact ((closeLot_spec ho hn hv fun c => absurd c hu).1.1 hu).2
    · rw [h] at hx; cases hx
  · rfl

theorem freely_one (f : Line → Line) (l : Line) : freely 1 [f] l = f l := by
  simp [freely, pickOne]

/-! ## The records of a zone event -/

/-- A zone event in which no zone enters RUNNING, `lead` offering the records R gives for the zones that trip, leaves the
log as `TripsRecorded` says (R97, R172). -/
theorem zoneEvent_records (lead : List Nat → Line → Line) (R : List Nat → List (RecordKind × List Word))
    (f : Line → Line) (l : Line)
    (hl : ∀ zs m, m.link = l.link → lead zs m = (R zs).foldl (fun m r => offer r.1 r.2 m) m)
    (hls : ∀ zs m, Still m (lead zs m))
    (hf : Quiet l (f l)) (hw : Within l (f l))
    (hr : ∀ z, isRunning (cascade l (f l)) z = true → isRunning l z = true) :
    TripsRecorded (R (trippedBetween l (cascade l (f l)))) l (zoneEvent lead f l) := by
  unfold TripsRecorded
  intro order hq
  have sz := (zoneEvent_after hls f l).zones
  have wh : Within l (cascade l (f l)) := hw.trans (cascade_within _ _)
  have qt : Quiet l (cascade l (f l)) := hf.trans (cascade_quiet _ _)
  have zeq : ∀ z, zone? (zoneEvent lead f l) z = zone? (cascade l (f l)) z := fun z => zone?_congr sz z
  have order_eq : order = trippedBetween l (cascade l (f l)) := by
    show (List.range 8).filter _ ++ (List.range 8).filter _ = _
    unfold trippedBetween zoneNumbers
    simp only [List.filter_filter]
    have e : ∀ z, tripsIn l (zoneEvent lead f l) z = enters l (cascade l (f l)) z .tripped := by
      intro z; unfold tripsIn enters zoneState; rw [zeq]
    have g : ∀ z, lostPrereq (zoneEvent lead f l) z =
        ((zone? (cascade l (f l)) z).any fun x => match x.run.cause with | .prereqLost _ => true | _ => false) := by
      intro z; unfold lostPrereq; rw [zeq] <;> rfl
    congr 1
    · apply List.filter_congr; intro z _; rw [e, g, Bool.and_comm] <;> rfl
    · apply List.filter_congr; intro z _; rw [e, g, Bool.and_comm] <;> rfl
  have pay : ∀ z, zoneTripPayload l (zoneEvent lead f l) z = zoneTripPayload l (cascade l (f l)) z := by
    intro z; unfold zoneTripPayload; rw [zeq]
  rw [order_eq]
  have hq' : ∀ x, openLot l = some x →
      (x.verdict = .pending ∧ x.unevaluated ≠ 0 ∧ (∀ y ∈ l.track.lots, y.number = x.number → y = x))
        ∨ lotClosedBy l (cascade l (f l)) = none := by
    intro x hx
    rcases hq x hx with h | h
    · exact .inl h
    · right
      unfold lotClosedBy
      split
      · next y z h1 h2 =>
        have h2' : ∃ fs, l.track.sections[0]? = some fs ∧ fs.desc.zone = z := by
          unfold firstZone usedSection? at h2; rw [qt.2] at h2
          obtain ⟨fs, a, b⟩ := Option.map_eq_some_iff.mp h2
          exact ⟨fs, by simpa using a, b⟩
        obtain ⟨fs, a, b⟩ := h2'
        have hz := h fs a
        rw [b] at hz
        have hz' : zoneState (cascade l (f l)) z = zoneState l z := by
          rw [← hz]; unfold zoneState; rw [zeq]
        unfold leaves; rw [hz']
        split <;> (rw [if_neg]; cases zoneState l z <;> simp)
      · rfl
  clear hq order order_eq zeq sz
  generalize hC : cascade l (f l) = C at *
  have hfl : reserveFloor C = reserveFloor l := by unfold reserveFloor; rw [wh.active]
  let rs := R (trippedBetween l C) ++ (trippedBetween l C).map fun z => (RecordKind.zoneTrip, zoneTripPayload l C z)
  -- the records have been offered between the two lines
  let Done (m t : Line) : Prop :=
    t.log = rs.foldl (offeredOn (reserveFloor l) (now l)) m.log
      ∧ (t.log.drops ≠ m.log.drops → noticeSet t .logDrop = true)
  have bag : bagEnters l C = false := by
    unfold bagEnters
    cases h : zoneOfKind C .bag with
    | none => rfl
    | some z =>
      show enters l C z .running = false
      unfold enters
      have := hr z
      unfold isRunning at this
      cases h1 : zoneState C z == some .running
      · simp
      · have h2 := this h1
        have h3 : zoneState l z = some .running := by simpa using h2
        rw [h3]; rfl
  let A : Line → Line := fun x => offerTrips l C (lead (trippedBetween l C) x)
  have partA : ∀ m : Line, Within C m → Done m (A m) ∧ Still m (A m) ∧ (A m).track = m.track := by
    intro m hm
    have e : A m = rs.foldl (fun m r => offer r.1 r.2 m) m := by
      show offerTrips l C (lead (trippedBetween l C) m) = _
      rw [hl _ m (hm.link.trans wh.link)]
      unfold offerTrips
      show _ = List.foldl _ m (R (trippedBetween l C) ++ _)
      rw [List.foldl_append, List.foldl_map]
    rw [e]
    obtain ⟨x, b, c, d⟩ := offers_spec rs m
    have floor : reserveFloor m = reserveFloor l := by rw [← hfl]; unfold reserveFloor; rw [hm.active]
    rw [floor, hm.now.trans wh.now] at x
    exact ⟨⟨x, b⟩, c, d⟩
  have partB : ∀ m : Line, m.zones = C.zones → m.track = C.track →
      (trackReport l m).log = m.log ∧ Still m (trackReport l m) := by
    intro m hz ht
    refine ⟨trackReport_quiet l m ?_, trackReport_still l m⟩
    have ho : openLot m = openLot l := by unfold openLot; rw [ht, qt.2]
    have hlc : lotClosedBy l m = lotClosedBy l C := by
      unfold lotClosedBy firstZone usedSection? leaves zoneState zone? openLot; rw [hz, ht]
    intro x hx
    rw [hlc, ht, qt.2]
    exact hq' x (ho ▸ hx)
  have rest : ∀ m : Line, m.zones = C.zones →
      Quiet m (transferReport l (packReport l m)) ∧ Still m (transferReport l (packReport l m)) := by
    intro m hz
    have hb : bagEnters l m = false := by
      rw [← bag]; unfold bagEnters zoneOfKind enters zoneState zone?; rw [hz]
    exact ⟨(packReport_quiet l m hb).trans (transferReport_quiet l _),
      (packReport_still l m).trans (transferReport_still l _)⟩
  have fin : ∃ m : Line, m.log = C.log ∧ Done m (zoneEvent lead f l) := ?_
  · obtain ⟨m, hm, done⟩ := fin
    simp only [pay]
    rw [← qt.1, ← hm]
    exact done
  · have ze : zoneEvent lead f l = inFreeOrder
        [(!(trippedBetween l C).isEmpty, A), ((lotClosedBy l C).isSome, trackReport l),
         (bagEnters l C, packReport l), (false, transferReport l)] C := by
      unfold zoneEvent; dsimp only; rw [hC]
    rw [ze, bag]
    unfold inFreeOrder
    cases ha : (trippedBetween l C).isEmpty <;> cases hb : (lotClosedBy l C).isSome
    · simp only [Bool.not_false, List.filter, Bool.not_true, List.map_cons, List.map_nil, List.length_cons,
        List.length_nil, List.foldl_cons, List.foldl_nil]
      generalize hm1 : trackReport l C = m1
      obtain ⟨b1, b2⟩ := partB C rfl rfl
      rw [hm1] at b1 b2
      obtain ⟨c1, c2⟩ := rest m1 b2.zones
      generalize transferReport l (packReport l m1) = m2 at c1 c2 ⊢
      rw [show freely (0 + 1) [A] m2 = A m2 from freely_one A m2]
      exact ⟨m2, c1.1.trans b1, (partA m2 (b2.within.trans c2.within)).1⟩
    · simp only [Bool.not_false, List.filter, Bool.not_true, List.map_cons, List.map_nil, List.length_cons,
        List.length_nil, List.foldl_cons, List.foldl_nil]
      obtain ⟨c1, c2⟩ := rest C rfl
      generalize transferReport l (packReport l C) = m2 at c1 c2 ⊢
      have hk : ∀ k, k = 0 ∨ k = 1 → ∀ m, Still m2 m → m.log = m2.log → m.track = m2.track →
          Done m (freely 1 ([A, trackReport l].eraseIdx k) (([A, trackReport l].getD k id) m)) := by
        intro k hk m hs hlog htr
        have wm : Within C m := c2.within.trans hs.within
        have zm : m.zones = C.zones := hs.zones.trans c2.zones
        have tm : m.track = C.track := htr.trans c1.2
        rcases hk with rfl | rfl
        · rw [show freely 1 ([A, trackReport l].eraseIdx 0) (([A, trackReport l].getD 0 id) m) = trackReport l (A m)
            from freely_one _ _]
          obtain ⟨⟨a1, a2⟩, a3, a4⟩ := partA m wm
          obtain ⟨p1, p2⟩ := partB (A m) (a3.zones.trans zm) (a4.trans tm)
          exact ⟨p1.trans a1, fun h => p2.within.notices _ (a2 (p1 ▸ h))⟩
        · rw [show freely 1 ([A, trackReport l].eraseIdx 1) (([A, trackReport l].getD 1 id) m) = A (trackReport l m)
            from freely_one _ _]
          obtain ⟨p1, p2⟩ := partB m zm tm
          obtain ⟨⟨a1, a2⟩, -⟩ := partA (trackReport l m) (wm.trans p2.within)
          rw [p1] at a1 a2
          exact ⟨a1, a2⟩
      show ∃ m : Line, m.log = C.log ∧ Done m (freely 2 [A, trackReport l] m2)
      rw [show freely 2 [A, trackReport l] m2 = freely 1 ([A, trackReport l].eraseIdx (pickOne [0, 1] m2).1)
        (([A, trackReport l].getD (pickOne [0, 1] m2).1 id) (pickOne [0, 1] m2).2) from rfl]
      have mem := pickOne_mem [0, 1] m2 (by decide)
      simp only [List.mem_cons, List.not_mem_nil, or_false] at mem
      have q := pickOne_quiet [0, 1] m2
      exact ⟨_, q.1.trans c1.1, hk _ mem _ (pickOne_still _ _) q.1 q.2⟩
    · simp only [Bool.not_false, List.filter, Bool.not_true, List.map_nil, List.length_nil, List.foldl_cons,
        List.foldl_nil]
      show ∃ m : Line, m.log = C.log ∧ Done m (transferReport l (packReport l (trackReport l (A C))))
      obtain ⟨⟨a1, a2⟩, a3, a4⟩ := partA C (.refl C)
      obtain ⟨p1, p2⟩ := partB (A C) a3.zones a4
      obtain ⟨c1, c2⟩ := rest _ (p2.zones.trans a3.zones)
      have e := c1.1.trans p1
      exact ⟨C, rfl, e.trans a1, fun h => c2.within.notices _ (p2.within.notices _ (a2 (e ▸ h)))⟩
    · simp only [Bool.not_false, List.filter, Bool.not_true, List.map_cons, List.map_nil, List.length_cons,
        List.length_nil, List.foldl_cons, List.foldl_nil]
      obtain ⟨⟨a1, a2⟩, a3, a4⟩ := partA C (.refl C)
      obtain ⟨c1, c2⟩ := rest (A C) a3.zones
      generalize transferReport l (packReport l (A C)) = m2 at c1 c2 ⊢
      rw [show freely (0 + 1) [trackReport l] m2 = trackReport l m2 from freely_one _ _]
      obtain ⟨p1, p2⟩ := partB m2 (c2.zones.trans a3.zones) (c1.2.trans a4)
      have e := p1.trans c1.1
      exact ⟨C, rfl, e.trans a1, fun h => p2.within.notices _ (c2.within.notices _ (a2 (e ▸ h)))⟩

/-! ## The cascade -/

/-- A RUNNING zone goes through the rounds of the cascade as it was, or trips behind a prerequisite that left (R98). -/
theorem cascadeRounds_causes (before : Line) : ∀ (n : Nat) (left : List Nat) (l : Line),
    (∀ w ∈ left, w < 8 ∧ isRunning before w = true ∧ isRunning l w = false) → SameDescs before l →
    ∀ z x, zone? l z = some x → x.run.state = .running →
      zone? (cascadeRounds before n left l) z = some x
      ∨ ∃ w, w < 8 ∧ w ∈ x.desc.prereqs ∧ isRunning before w = true
          ∧ isRunning (cascadeRounds before n left l) w = false
          ∧ zone? (cascadeRounds before n left l) z = some (x.trippedBy (now l) (.prereqLost w))
  | 0, _, _, _, _, _, _, hx, _ => .inl hx
  | n + 1, left, l, hl, hd, z, x, hx, hr => by
    have cut := cascadeRound_cut before left l
    have next : ∀ w ∈ withNamers before left,
        w < 8 ∧ isRunning before w = true ∧ isRunning (cascadeRound before left l) w = false := by
      intro w hw
      refine ⟨withNamers_lt before left w hw, ?_, cascadeRound_stops before left l w hw⟩
      have := (List.mem_filter.mp hw).2
      simp only [Bool.or_eq_true, Bool.and_eq_true] at this
      rcases this with a | a
      · exact (hl w (List.contains_iff_mem.mp a)).2.1
      · exact a.1
    show zone? (cascadeRounds before n (withNamers before left) (cascadeRound before left l)) z = _ ∨ _
    by_cases hm : z ∈ withNamers before left
    · right
      have hp : ∃ p ∈ x.desc.prereqs, p ∈ left := by
        have := (List.mem_filter.mp hm).2
        simp only [Bool.or_eq_true, Bool.and_eq_true, List.any_eq_true] at this
        rcases this with a | ⟨-, p, p1, p2⟩
        · have := (hl z (List.contains_iff_mem.mp a)).2.2
          rw [(isRunning_iff l z).mpr ⟨x, hx, hr⟩] at this; cases this
        · refine ⟨p, ?_, List.contains_iff_mem.mp p2⟩
          have e := hd z
          rw [hx] at e
          have : zoneDesc before z = x.desc := by unfold zoneDesc; rw [← e]; rfl
          rw [← this]; exact p1
      obtain ⟨w, w1, w2, w3⟩ := cascadeRound_trips before left l z x hm hx hr hp
      refine ⟨w, (hl w w2).1, w1, (hl w w2).2.1, ?_, ?_⟩
      · exact (cut.trans (cascadeRounds_cut before n _ _)).stopped w (hl w w2).2.2
      · have later := cascadeRounds_cut before n (withNamers before left) (cascadeRound before left l)
        rcases later.zones z with f | ⟨y, k, g1, g2, _⟩
        · exact f.trans w3
        · rw [w3] at g1; cases g1; cases g2
    · have e := cascadeRound_keeps before left l z hm
      have ih := cascadeRounds_causes before n (withNamers before left) (cascadeRound before left l) next
        (fun w => (cut.descs w).trans (hd w)) z x (e.trans hx) hr
      rw [cut.now] at ih
      exact ih

/-- What the cascade of an event leaves of the zones that the event does not change of itself (R98). -/
theorem cascaded {own : Nat → Prop} {l m t : Line} (same : ∀ z, z < 8 → ¬ own z → zone? m z = zone? l z)
    (hn : now m = now l) (hd : SameDescs l m)
    (hz : ∀ z, zone? t z = zone? (cascade l m) z) : Cascaded own l t := by
  have ran (z : Nat) : isRunning t z = isRunning (cascade l m) z := by unfold isRunning zoneState; rw [hz]
  intro z z8 no
  refine ⟨fun h => ?_, fun x hx => ?_⟩
  · have hm : zone? m z = none := (same z z8 no).trans h
    have : isRunning m z = false := by unfold isRunning zoneState; rw [hm]; rfl
    rw [hz, cascade_idle l m z this, hm]
  · have hm : zone? m z = some x := (same z z8 no).trans hx
    have hleft : ∀ w ∈ leftRunning l m, w < 8 ∧ isRunning l w = true ∧ isRunning m w = false := by
      intro w hw
      have h := List.mem_filter.mp hw
      simp only [Bool.and_eq_true, Bool.not_eq_true'] at h
      exact ⟨List.mem_range.mp h.1, h.2⟩
    intro left
    refine ⟨fun hr ⟨w, w8, wp, wr, wn⟩ => ?_, fun h => ?_⟩
    · rcases cascadeRounds_causes l Config.zoneCount (leftRunning l m) m hleft hd z x hm hr
        with a | ⟨v, v8, vp, vr, vn, hv⟩
      · exfalso
        rw [ran] at wn
        have hw : w ∈ cascadeSet l Config.zoneCount (leftRunning l m) := by
          by_cases c : w ∈ cascadeSet l Config.zoneCount (leftRunning l m)
          · exact c
          · have e := cascadeRounds_keeps l Config.zoneCount (leftRunning l m) m w c
            have : isRunning m w = false := by
              unfold isRunning zoneState at wn ⊢; rw [← e]; exact wn
            exact absurd (cascadeSet_keeps l Config.zoneCount (leftRunning l m) (fun z h => (hleft z h).1) w
              (List.mem_filter.mpr ⟨List.mem_range.mpr w8, by rw [wr, this]; rfl⟩)) c
        have hpz : w ∈ (zoneDesc l z).prereqs := by unfold zoneDesc; rw [hx]; exact wp
        have hz' := cascadeSet_closed l (fun z => isRunning l z && !isRunning m z) z w z8
          ((isRunning_iff l z).mpr ⟨x, hx, hr⟩) hpz hw
        have s := cascade_stops l m z hz'
        have : isRunning (cascade l m) z = true := (isRunning_iff _ z).mpr ⟨x, a, hr⟩
        rw [this] at s; cases s
      · refine ⟨v, ⟨v8, vp, vr, by rw [ran]; exact vn⟩, ?_⟩
        rw [hz, ← hn]; exact hv
    · by_cases hr : x.run.state = .running
      · rcases h with h | h
        · exact absurd hr h
        · rcases cascadeRounds_causes l Config.zoneCount (leftRunning l m) m hleft hd z x hm hr
            with a | ⟨v, v8, vp, vr, vn, hv⟩
          · rw [hz]; exact a
          · exact absurd ⟨v8, vp, vr, by rw [ran]; exact vn⟩ (h v)
      · rw [hz, cascade_idle l m z, hm]
        cases c : isRunning m z with
        | false => rfl
        | true =>
          obtain ⟨y, hy, hyr⟩ := (isRunning_iff m z).mp c
          rw [hm] at hy; cases hy; exact absurd hyr hr

end Sys2Proof.Machine
end

