-- ==== Sys2Proof/Laws/Pallets.lean ====
section
/-! SUPPORT. The pallet operations: what dispatching, closing, exposing and joining leave of the pallet they reach and of
the lots it lists. -/

namespace Sys2Proof.Machine

/-! ## Reads through the operations -/

theorem pallet?_congr {l m : Line} (h : m.pack.pallets = l.pack.pallets) (n : Nat) : pallet? m n = pallet? l n := by
  unfold pallet?; rw [h]

/-- Pallets opened behind the others leave a pallet found as it was. -/
theorem pallet?_append {l m : Line} {more : List Pallet} (h : m.pack.pallets = l.pack.pallets ++ more) {n : Nat}
    {q : Pallet} (hq : pallet? l n = some q) : pallet? m n = some q := by
  unfold pallet? at *; rw [h, List.find?_append, hq]; rfl

theorem lot?_congr {l m : Line} (h : m.track = l.track) (n : Nat) : lot? m n = lot? l n := by unfold lot?; rw [h]

theorem kindIn_congr {l m : Line} (h : m.zones = l.zones) (k : ZoneKind) (st : ZoneState) : kindIn m k st = kindIn l k st := by
  unfold kindIn zoneOfKind zoneState zone?; rw [h]

theorem offer_blocks (k : RecordKind) (p : List Word) (l : Line) :
    (offer k p l).pack = l.pack ∧ (offer k p l).track = l.track ∧ (offer k p l).transfer = l.transfer := by
  unfold offer judgeThreshold
  split
  · split <;> exact ⟨rfl, rfl, rfl⟩
  · exact ⟨rfl, rfl, rfl⟩

theorem pickOne_blocks (c : List Nat) (l : Line) :
    (pickOne c l).2.pack = l.pack ∧ (pickOne c l).2.track = l.track ∧ (pickOne c l).2.transfer = l.transfer := by
  unfold pickOne; split <;> exact ⟨rfl, rfl, rfl⟩

/-- A change of every lot of a list without repeats, read at one lot. -/
theorem lot?_foldl_changeLot (f : Lot → Lot) (hf : ∀ x, (f x).number = x.number) : ∀ (ns : List Nat) (l : Line) (n : Nat)
    (x : Lot), ns.Nodup → lot? l n = some x →
      lot? (ns.foldl (fun l n => changeLot n f l) l) n = some (if n ∈ ns then f x else x)
  | [], l, n, x, _, hx => by simpa using hx
  | k :: ks, l, n, x, hn, hx => by
    simp only [List.foldl_cons, List.nodup_cons] at hn ⊢
    have h1 : lot? (changeLot k f l) n = some (if n = k then f x else x) := by
      rw [lot?_changeLot _ _ _ hf, hx]
      by_cases c : n = k <;> simp [lot?_number hx, c]
    rw [lot?_foldl_changeLot f hf ks _ n _ hn.2 h1]
    by_cases c : n = k
    · subst c; simp [hn.1]
    · simp [c]

/-- A change of lots leaves the pallets, the path and the rest as they were. -/
theorem foldl_changeLot_still (f : Lot → Lot) : ∀ (ns : List Nat) (l : Line),
    let l' := ns.foldl (fun l n => changeLot n f l) l
    l'.pack = l.pack ∧ l'.transfer = l.transfer ∧ Still l l'
  | [], l => ⟨rfl, rfl, .refl l⟩
  | k :: ks, l =>
    have ih := foldl_changeLot_still f ks (changeLot k f l)
    ⟨ih.1, ih.2.1, (changeLot_still k f l).trans ih.2.2⟩

/-! ## Dispatch and closing -/

/-- What the dispatch judgment leaves of a CLOSED pallet: CLOSED, or IN_TRANSIT if the path was IDLE (R159). -/
theorem judgeDispatch_closed (l : Line) (n : Nat) (q : Pallet) (h : pallet? l n = some q) (hc : q.state = .closed) :
    ∃ st, pallet? (judgeDispatch l) n = some { q with state := st } ∧ (st = .closed ∨ st = .inTransit)
      ∧ (l.transfer.transit.isSome = true ∨ kindIn l .transfer .running = false → st = .closed) := by
  unfold judgeDispatch
  split
  · next c =>
    simp only [Bool.and_eq_true, Option.isNone_iff_eq_none] at c
    have idle : ¬ (l.transfer.transit.isSome = true ∨ kindIn l .transfer .running = false) := by
      rintro (h | h)
      · rw [c.1] at h; cases h
      · rw [c.2] at h; cases h
    split
    · exact ⟨q.state, h, .inl hc, fun x => absurd x idle⟩
    · next p hp =>
      by_cases e : n = p.number
      · refine ⟨.inTransit, ?_, .inr rfl, fun x => absurd x idle⟩
        show pallet? (changePallet p.number _ l) n = _
        rw [pallet?_changePallet _ _ _ (by intro x; rfl), h]
        simp [pallet?_number h, e]
      · refine ⟨.closed, ?_, .inl rfl, fun _ => rfl⟩
        show pallet? (changePallet p.number _ l) n = _
        rw [pallet?_changePallet _ _ _ (by intro x; rfl), h, Option.map_some,
          if_neg (by rw [pallet?_number h]; exact e), ← hc]
  · exact ⟨q.state, h, .inl hc, fun _ => hc⟩

theorem tryOpen_pallets (x : Lane) (l : Line) : ∃ more, (tryOpen x l).pack.pallets = l.pack.pallets ++ more := by
  unfold tryOpen
  split
  · dsimp only
    unfold pickOne grant judgeThreshold
    split <;> (try split) <;> exact ⟨_, rfl⟩
  · exact ⟨[], by simp⟩

/-- Opening pallets only adds pallets (R149). -/
theorem openPallets_pallets (l : Line) : ∃ more, (openPallets l).pack.pallets = l.pack.pallets ++ more := by
  unfold openPallets
  obtain ⟨m1, h1⟩ := tryOpen_pallets .release l
  obtain ⟨m2, h2⟩ := tryOpen_pallets .hold (tryOpen .release l)
  obtain ⟨_, h3, -⟩ := judgeHold_pack (tryOpen .hold (tryOpen .release l))
  refine ⟨m1 ++ m2, ?_⟩
  rw [h3]
  show (tryOpen .hold (tryOpen .release l)).pack.pallets = _
  rw [h2, h1, List.append_assoc]

/-- What a closing leaves of the pallet closed (R152, R158, R159). -/
theorem closePallet_spec (n : Nat) (r : CloseReason) (l : Line) (q : Pallet) (h : pallet? l n = some q) :
    ∃ st, pallet? (closePallet n r l) n
        = some { q with state := st, reason := r, joinOrder := some l.transfer.joinCounter }
      ∧ (st = .closed ∨ st = .inTransit)
      ∧ (l.transfer.transit.isSome = true ∨ kindIn l .transfer .running = false → st = .closed) := by
  let m : Line :=
    { changePallet n (fun p => { p with state := .closed, reason := r, joinOrder := some l.transfer.joinCounter }) l with
      transfer := { l.transfer with joinCounter := l.transfer.joinCounter + 1 } }
  obtain ⟨more, hm⟩ := openPallets_pallets (judgeDispatch m)
  have h1 : pallet? m n = some { q with state := .closed, reason := r, joinOrder := some l.transfer.joinCounter } := by
    show pallet? (changePallet n _ l) n = _
    rw [pallet?_changePallet _ _ _ (by intro x; rfl), h]
    simp [pallet?_number h]
  obtain ⟨st, a, b, c⟩ := judgeDispatch_closed m n _ h1 rfl
  exact ⟨st, pallet?_append hm a, b, c⟩

theorem closePallet_track (n : Nat) (r : CloseReason) (l : Line) : (closePallet n r l).track = l.track :=
  (openPallets_track _).trans (judgeDispatch_quiet _).2

/-! ## Exposure -/

/-- What an exposure leaves of the pallet exposed and of the lots (R156, R157). -/
theorem exposePallet_spec (n : Nat) (l : Line) (q : Pallet) (h : pallet? l n = some q) :
    let l' := exposePallet n l
    let exposed := { q with exposed := true, timer := .expired }
    (q.state ≠ .opened → pallet? l' n = some exposed)
    ∧ (q.state = .opened → ∃ st,
        pallet? l' n = some { exposed with state := st, reason := .exposed, joinOrder := some l.transfer.joinCounter }
        ∧ (st = .closed ∨ st = .inTransit)
        ∧ (l.transfer.transit.isSome = true ∨ kindIn l .transfer .running = false → st = .closed))
    ∧ noticeSet l' .palletExposed = true
    ∧ ∀ k x, (q.lots.map (·.lot)).Nodup → lot? l k = some x →
        lot? l' k = some (if k ∈ q.lots.map (·.lot) then { x with exposedPallets := x.exposedPallets + 1 } else x) := by
  intro l' exposed
  -- the line once the pallet is marked and its lots count it
  let marked := changePallet n (fun q => { q with exposed := true, timer := .expired }) l
  let count (x : Lot) : Lot := { x with exposedPallets := x.exposedPallets + 1 }
  let m := (q.lots.map (·.lot)).foldl (fun l n => changeLot n count l) marked
  obtain ⟨mp, mt, ms⟩ := foldl_changeLot_still count (q.lots.map (·.lot)) marked
  have zones : m.zones = l.zones := ms.zones
  have transfer : m.transfer = l.transfer := mt
  have pallet : pallet? m n = some exposed := by
    rw [pallet?_congr (congrArg Pack.pallets mp), pallet?_changePallet _ _ _ (by intro x; rfl), h]
    simp [pallet?_number h, exposed]
  have lots : ∀ k x, (q.lots.map (·.lot)).Nodup → lot? l k = some x →
      lot? m k = some (if k ∈ q.lots.map (·.lot) then count x else x) :=
    fun k x hn hx => lot?_foldl_changeLot count (by intro x; rfl) _ marked k x hn hx
  let record := offer .exposure (exposurePayload m q)
  let close (l : Line) : Line := if q.state == .opened then closePallet n .exposed l else l
  have unfolds : l' = inFreeOrder [(q.state == .opened, close), (true, record)] (raise .palletExposed m) := by
    show exposePallet n l = _
    unfold exposePallet
    rw [h]
    dsimp only
    rw [show q.lots.foldl (fun l (e : PalletLot) =>
        changeLot e.lot (fun x => { x with exposedPallets := x.exposedPallets + 1 }) l) _ = m from
      (List.foldl_map (f := fun e : PalletLot => e.lot) (g := fun l n => changeLot n count l)).symm]
  have notice : noticeSet l' .palletExposed = true := by
    rw [unfolds]
    refine (inFreeOrder_still ?_ _).within.notices _ (raise_noticeSet_self _ _)
    intro p hp u
    simp only [List.mem_cons, List.not_mem_nil, or_false] at hp
    rcases hp with rfl | rfl
    · exact ite_still (closePallet_still _ _ _) (.refl u)
    · exact offer_still _ _ _
  by_cases ho : q.state = .opened
  · have hb : (q.state == .opened) = true := by rw [ho]; rfl
    have closes (u : Line) : close u = closePallet n .exposed u := if_pos hb
    -- closed from a line that agrees with the one marked, whichever part came first
    have ends : ∃ u : Line, u.pack = m.pack ∧ u.track = m.track ∧ u.transfer = m.transfer ∧ u.zones = m.zones
        ∧ l'.pack = (closePallet n .exposed u).pack ∧ l'.track = (closePallet n .exposed u).track := by
      have steps : l' = freely 1 ([close, record].eraseIdx (pickOne [0, 1] (raise .palletExposed m)).1)
          (([close, record].getD (pickOne [0, 1] (raise .palletExposed m)).1 id)
            (pickOne [0, 1] (raise .palletExposed m)).2) := by
        rw [unfolds, hb]; rfl
      have mem := pickOne_mem [0, 1] (raise .palletExposed m) (by decide)
      have same := pickOne_blocks [0, 1] (raise .palletExposed m)
      have still := pickOne_still [0, 1] (raise .palletExposed m)
      rw [steps]
      generalize (pickOne [0, 1] (raise .palletExposed m)).2 = u at same still ⊢
      simp only [List.mem_cons, List.not_mem_nil, or_false] at mem
      rcases mem with e | e
      · rw [e, show freely 1 ([close, record].eraseIdx 0) (([close, record].getD 0 id) u) = record (close u) from
          freely_one _ _]
        have o := offer_blocks .exposure (exposurePayload m q) (close u)
        exact ⟨u, same.1, same.2.1, same.2.2, still.zones, by rw [← closes]; exact o.1, by rw [← closes]; exact o.2.1⟩
      · rw [e, show freely 1 ([close, record].eraseIdx 1) (([close, record].getD 1 id) u) = close (record u) from
          freely_one _ _, closes]
        have o := offer_blocks .exposure (exposurePayload m q) u
        exact ⟨record u, o.1.trans same.1, o.2.1.trans same.2.1, o.2.2.trans same.2.2,
          (offer_still _ _ _).zones.trans still.zones, rfl, rfl⟩
    obtain ⟨u, e1, e2, e3, e4, e5, e6⟩ := ends
    obtain ⟨st, a, b, c⟩ := closePallet_spec n .exposed u _ ((pallet?_congr (congrArg Pack.pallets e1) n).trans pallet)
    rw [e3, transfer] at a c
    rw [kindIn_congr (e4.trans zones)] at c
    refine ⟨fun c => absurd ho c, fun _ => ⟨st, ?_, b, c⟩, notice, fun k x hn hx => ?_⟩
    · rw [pallet?_congr (congrArg Pack.pallets e5), a]
    · rw [lot?_congr (e6.trans ((closePallet_track _ _ _).trans e2))]
      exact lots k x hn hx
  · have hb : (q.state == .opened) = false := by simpa using ho
    have steps : l' = record (raise .palletExposed m) := by
      rw [unfolds, hb]
      have idle (u : Line) : close u = u := if_neg (by rw [hb]; decide)
      simp [inFreeOrder, freely, pickOne, idle]
    have o := offer_blocks .exposure (exposurePayload m q) (raise .palletExposed m)
    refine ⟨fun _ => ?_, fun c => absurd c ho, notice, fun k x hn hx => ?_⟩
    · rw [steps, pallet?_congr (congrArg Pack.pallets o.1)]; exact pallet
    · rw [steps, lot?_congr o.2.1]; exact lots k x hn hx

/-! ## Joining -/

theorem foldl_min_le (r : Nat) : ∀ rest : List Nat, rest.foldl min r ≤ r ∧ ∀ x ∈ rest, rest.foldl min r ≤ x := by
  intro rest
  induction rest generalizing r with
  | nil => simp
  | cons a rest ih =>
    simp only [List.foldl_cons]
    have := ih (min r a)
    refine ⟨by omega, fun x hx => ?_⟩
    rcases List.mem_cons.mp hx with rfl | hx
    · omega
    · exact this.2 x hx

theorem foldl_min_mem (r : Nat) : ∀ rest : List Nat, rest.foldl min r ∈ r :: rest := by
  intro rest
  induction rest generalizing r with
  | nil => simp
  | cons a rest ih =>
    simp only [List.foldl_cons]
    rcases List.mem_cons.mp (ih (min r a)) with h | h
    · rw [h]
      rcases Nat.le_total r a with c | c
      · rw [Nat.min_eq_left c]; simp
      · rw [Nat.min_eq_right c]; simp
    · simp [h]

/-- The least exposure limit of the lots' recipes, in the words statements use (R151). -/
theorem exposureMs_eq (l : Line) (listed : List Nat) (limit : Nat)
    (some_ : ∃ n ∈ listed, ∃ e, lotRecipe l n = some e ∧ e.exposureLimit = limit)
    (least : ∀ n ∈ listed, ∀ e, lotRecipe l n = some e → limit ≤ e.exposureLimit) :
    exposureMs l listed = limit * 1000 := by
  have mem : ∀ v, v ∈ (listed.filterMap (lotRecipe l)).map (·.exposureLimit)
      ↔ ∃ n ∈ listed, ∃ e, lotRecipe l n = some e ∧ e.exposureLimit = v := by
    intro v
    simp only [List.mem_map, List.mem_filterMap]
    constructor
    · rintro ⟨e, ⟨n, hn, he⟩, hv⟩; exact ⟨n, hn, e, he, hv⟩
    · rintro ⟨n, hn, e, he, hv⟩; exact ⟨e, ⟨n, hn, he⟩, hv⟩
  unfold exposureMs
  cases h : (listed.filterMap (lotRecipe l)).map (·.exposureLimit) with
  | nil => rw [h] at mem; exact absurd ((mem limit).mpr some_) (by simp)
  | cons r rest =>
    rw [h] at mem
    dsimp only
    congr 1
    have a := foldl_min_mem r rest
    have b := foldl_min_le r rest
    obtain ⟨n, hn, e, he, hv⟩ := (mem _).mp a
    have c := least n hn e he
    rcases List.mem_cons.mp ((mem limit).mpr some_) with d | d
    · have := b.1; omega
    · have := b.2 _ d; omega

/-- What a bag's joining leaves of the OPEN pallet it joins and of its lots (R150 to R152, R156, R157). -/
theorem joinPallet_spec (p : Pallet) (w : Nat) (listed : List Nat) (start : Word) (b : Bool) (l : Line)
    (hp : pallet? l p.number = some p) (ho : p.state = .opened) :
    PalletJoined l (joinPallet p w listed start b l) p listed w b start l.transfer.joinCounter := by
  unfold PalletJoined
  intro missing lots g limit hg some_ least due first deadline joined full past
  have missing_eq : newLots p listed = missing := rfl
  have deadline_eq : earliest p.deadline (after start (exposureMs l listed)) = deadline := by
    rw [exposureMs_eq l listed limit some_ least]
    show earliest p.deadline due = _
    unfold earliest
    show _ = match p.deadline with | none => due | some t => if earlier due t then due else t
    cases p.deadline <;> rfl
  have first_eq : earliest p.exposureStart start = first := by
    show _ = match p.exposureStart with | none => start | some t => if earlier start t then start else t
    unfold earliest
    cases p.exposureStart <;> rfl
  have lots_eq : joinLots p listed b = lots := by
    show _ = List.map _ _
    unfold joinLots
    apply List.map_congr_left
    intro e _
    by_cases c : listed.head? = some e.lot
    · rw [if_pos c.symm, if_pos c]; cases b <;> rfl
    · rw [if_neg (fun h => c h.symm), if_neg c]
  unfold joinPallet
  dsimp only
  rw [deadline_eq, missing_eq]
  -- the line once the pallet's record has changed, and once its new lots count it
  generalize hm : changePallet p.number (fun q =>
    { q with
      lots := joinLots q listed b
      bags := q.bags + 1
      mass := addMass q.mass w
      exposureStart := some (earliest q.exposureStart start)
      deadline := some deadline
      timer := .running }) l = m
  have m_pallet : pallet? m p.number = some joined := by
    rw [← hm, pallet?_changePallet _ _ _ (by intro x; rfl), hp]
    simp only [Option.map_some, if_true, lots_eq, first_eq, joined]
  have m_still : Still l m := by rw [← hm]; exact changePallet_still _ _ _
  have m_lot : ∀ n, lot? m n = lot? l n := by intro n; rw [← hm]; rfl
  have m_transfer : m.transfer = l.transfer := by rw [← hm]; rfl
  clear hm
  let count (x : Lot) : Lot := { x with livePallets := x.livePallets + 1 }
  obtain ⟨c_pack, c_transfer, c_still⟩ := foldl_changeLot_still count missing m
  have c_lot := lot?_foldl_changeLot count (by intro x; rfl) missing m
  generalize missing.foldl (fun l (n : Nat) =>
    changeLot n (fun x => { x with livePallets := x.livePallets + 1 }) l) m = k at c_pack c_transfer c_still c_lot ⊢
  have k_still : Still l k := m_still.trans c_still
  have k_pallet : pallet? k p.number = some joined := (pallet?_congr (congrArg Pack.pallets c_pack) _).trans m_pallet
  have k_transfer : k.transfer = l.transfer := c_transfer.trans m_transfer
  have k_lot : ∀ n x, listed.Nodup → lot? l n = some x → lot? k n = some (if n ∈ missing then count x else x) :=
    fun n x hn hx => c_lot n x (hn.sublist List.filter_sublist) ((m_lot n).trans hx)
  have capacity : palletCapacity k = g.palletCapacity := by unfold palletCapacity; rw [k_still.within.active, hg]; rfl
  clear c_pack c_transfer c_still c_lot m_pallet m_still m_lot m_transfer
  -- the lots listed
  have names : lots.map (·.lot) = p.lots.map (·.lot) ++ missing := by
    show (List.map _ (p.lots ++ missing.map _)).map _ = _
    rw [List.map_map]
    have : ((fun x : PalletLot => x.lot) ∘ fun e : PalletLot =>
        if listed.head? = some e.lot then
          { e with bags := e.bags + 1, provisional := if b then e.provisional + 1 else e.provisional }
        else e) = fun x => x.lot := by
      funext e
      simp only [Function.comp]
      split <;> rfl
    rw [this, List.map_append, List.map_map]
    congr 1
    exact List.map_id'' (fun _ => rfl) _
  have distinct : listed.Nodup → (p.lots.map (·.lot)).Nodup → (lots.map (·.lot)).Nodup := by
    intro a c
    rw [names]
    refine List.nodup_append.mpr ⟨c, a.sublist List.filter_sublist, ?_⟩
    rintro x hx _ hy rfl
    have := (List.mem_filter.mp hy).2
    simp only [Bool.not_eq_true', List.any_eq_false, beq_iff_eq] at this
    obtain ⟨e, he, rfl⟩ := List.mem_map.mp hx
    exact this e he rfl
  have named : ∀ n ∈ listed, n ∈ lots.map (·.lot) := by
    intro n hn
    rw [names, List.mem_append]
    by_cases c : n ∈ p.lots.map (·.lot)
    · exact .inl c
    · refine .inr (List.mem_filter.mpr ⟨hn, ?_⟩)
      simp only [Bool.not_eq_true', List.any_eq_false, beq_iff_eq]
      intro e he h
      exact c (List.mem_map.mpr ⟨e, he, h⟩)
  -- the closing at the capacity
  have closing : ∃ q c, c = (if g.palletCapacity ≤ p.bags + 1 then closePallet p.number .capacity k else k)
      ∧ pallet? c p.number = some q ∧ (¬ full → q = joined ∧ c = k)
      ∧ (full → ∃ st, (st = .closed ∨ st = .inTransit)
          ∧ (l.transfer.transit.isSome = true ∨ kindIn l .transfer .running = false → st = .closed)
          ∧ q = { joined with state := st, reason := .capacity, joinOrder := some l.transfer.joinCounter })
      ∧ c.track = k.track ∧ now c = now l := by
    by_cases hf : full
    · obtain ⟨st, a, s1, s2⟩ := closePallet_spec p.number .capacity k joined k_pallet
      rw [k_transfer] at a s2
      rw [kindIn_congr k_still.zones] at s2
      refine ⟨_, _, (if_pos hf).symm, a, fun x => absurd hf x, fun _ => ⟨st, s1, s2, rfl⟩, closePallet_track _ _ _, ?_⟩
      exact (k_still.trans (closePallet_still _ _ _)).within.now
    · exact ⟨joined, k, (if_neg hf).symm, k_pallet, fun _ => ⟨rfl, rfl⟩, fun x => absurd x hf, rfl, k_still.within.now⟩
  obtain ⟨q, c, c_eq, c_pallet, notFull, isFull, c_track, c_now⟩ := closing
  rw [capacity, ← c_eq, c_now]
  have q_lots : q.lots = lots := by
    by_cases hf : full
    · obtain ⟨st, -, -, e⟩ := isFull hf; rw [e]
    · rw [(notFull hf).1]
  by_cases hpast : past
  · rw [if_pos hpast]
    obtain ⟨closed, opened, notice, counted⟩ := exposePallet_spec p.number c q c_pallet
    refine ⟨fun _ x => absurd hpast x, fun _ => ?_, fun _ => notice, ?_⟩
    · by_cases hf : full
      · obtain ⟨st, s1, s2, e⟩ := isFull hf
        have shut : q.state ≠ .opened := by rw [e]; rcases s1 with s | s <;> rw [s] <;> simp
        exact ⟨st, s1, s2, _, closed shut, fun _ => by rw [e], fun x => absurd hf x, fun _ => ⟨rfl, rfl⟩,
          fun x => absurd hpast x, by rw [e]⟩
      · obtain ⟨e, ec⟩ := notFull hf
        obtain ⟨st, a, s1, s2⟩ := opened (by rw [e]; exact ho)
        rw [ec, k_transfer, kindIn_congr k_still.zones] at s2
        rw [ec, k_transfer, e] at a
        exact ⟨st, s1, s2, _, by rw [ec]; exact a, fun x => absurd x hf, fun _ => rfl, fun _ => ⟨rfl, rfl⟩,
          fun x => absurd hpast x, rfl⟩
    · intro n hn x nd1 nd2 hx _
      have once := counted n _ (by rw [q_lots]; exact distinct nd1 nd2) ((lot?_congr c_track n).trans (k_lot n x nd1 hx))
      rw [q_lots, if_pos (named n hn)] at once
      refine ⟨_, once, fun h => by rw [if_pos h], fun h => by rw [if_neg h], fun _ => ?_, fun x => absurd hpast x⟩
      by_cases h : n ∈ missing
      · rw [if_pos h]
      · rw [if_neg h]
  · rw [if_neg hpast]
    refine ⟨fun hf _ => by rw [c_pallet, (notFull hf).1], fun h => ?_, fun x => absurd x hpast, ?_⟩
    · have hf := h.resolve_right hpast
      obtain ⟨st, s1, s2, e⟩ := isFull hf
      exact ⟨st, s1, s2, q, c_pallet, fun _ => by rw [e], fun x => absurd hf x, fun x => absurd x hpast,
        fun _ => by rw [e]; exact ⟨rfl, rfl⟩, by rw [e]⟩
    · intro n hn x nd1 nd2 hx _
      refine ⟨_, (lot?_congr c_track n).trans (k_lot n x nd1 hx), fun h => by rw [if_pos h], fun h => by rw [if_neg h],
        fun x => absurd x hpast, fun _ => ?_⟩
      by_cases h : n ∈ missing
      · rw [if_pos h]
      · rw [if_neg h]

end Sys2Proof.Machine
end

