-- ==== Sys2Proof/WellFormed.lean ====
section
/-! DEFINITION. Which commands are well formed: operands that stay inside the row's own words (opcode_table.json).
The machine answers ill-formed ones too (notes/assumptions/6, 7); well-formedness only says that the operands are
of the row's shape. -/

namespace Sys2Proof

/-- A partial access has one to three enables set (R2). -/
def partialEnables (be : BitVec 4) : Bool := be != 0#4 && be != 15#4

/-- A reply that has arrived whole: start, address, kind, control, length, as many payload bytes as the length says,
and two CRC bytes (R54, R177). -/
def wholeReply (chars : List Byte) : Bool :=
  5 ≤ chars.length && chars.length == 7 + (chars.getD 4 0#8).toNat

/-- The row's conditions on the operands. -/
def Instr.wellFormed : Instr → Bool
  | .stagingWrite _ be _ => be != 0#4
  | .inputChannelWrite _ be _ => be != 0#4
  | .partOutputWrite _ be _ => be != 0#4
  | .outputPartialWrite _ be _ => partialEnables be
  | .requestArgumentWrite _ word _ => 1 ≤ word.toNat && word.toNat ≤ 7
  | .discardedWrite _ be _ => be != 0#4
  | .scanReply chars => wholeReply chars
  | .enumReply chars => wholeReply chars
  | .oneShotReply chars => wholeReply chars
  | .replyCheckFailure chars => wholeReply chars
  | .exposureTimerExpiry pallet => pallet != 0#16
  | .pinReset _ _ _ | .stopNFallingEdge | .stopNRisingEdge | .stagingRead | .outputHostWrite _ _
  | .noticeWordWrite _ | .noticeEnableWrite _ | .heartbeat _ | .logRelease _ | .submission _ | .slotFree _
  | .requestUnknownKind | .commitFull | .commitRecipe | .reinit | .reinitCompletion | .discover
  | .linkStart | .linkHalt | .nodeRead | .nodeWrite | .zoneStart | .zoneRun | .zoneStop | .zoneReset
  | .zoneSimulateEnter | .zoneSimulateLeave | .lotOpen | .lotClose | .lotFlush | .injectBag | .palletClose
  | .palletConfirm | .replyLimitExpiry | .replyCharacterGap | .safeFrameSent | .periodTimerExpiry
  | .staleTimerExpiry _ | .watchdogExpiry | .waitTimeExpiry _ | .waitUntilTimeout _ | .transitTimerExpiry
  | .passThroughAccess _ => true

end Sys2Proof
end

