-- ==== Sys2Proof/Laws/PerInstr.lean ====
section
/-! SUPPORT. The per-command family: the byte enables of a well-formed host write row are never all clear (R2). -/

namespace Sys2Proof.Laws.AccessEnables

/-- The byte enables a host write row carries as an operand. -/
def enablesOf : Instr → Option (BitVec 4)
  | .stagingWrite _ be _ | .inputChannelWrite _ be _ | .partOutputWrite _ be _ | .outputPartialWrite _ be _
  | .discardedWrite _ be _ => some be
  | _ => none

/-- A well-formed row that carries byte enables has at least one set. -/
def Statement (i : Instr) : Prop := i.wellFormed = true → enablesOf i ≠ some 0#4

theorem pinReset (straps : Straps) (stopHigh : Bool) (during : List Access) : Statement (.pinReset straps stopHigh during) := fun _ e => nomatch e
theorem stopNFallingEdge : Statement .stopNFallingEdge := fun _ e => nomatch e
theorem stopNRisingEdge : Statement .stopNRisingEdge := fun _ e => nomatch e
theorem stagingWrite (offset : BitVec 16) (be : BitVec 4) (data : Word) : Statement (.stagingWrite offset be data) := by
  intro h e; simp_all [enablesOf, Instr.wellFormed]
theorem stagingRead : Statement .stagingRead := fun _ e => nomatch e
theorem inputChannelWrite (addr : Word) (be : BitVec 4) (data : Word) : Statement (.inputChannelWrite addr be data) := by
  intro h e; simp_all [enablesOf, Instr.wellFormed]
theorem partOutputWrite (addr : Word) (be : BitVec 4) (data : Word) : Statement (.partOutputWrite addr be data) := by
  intro h e; simp_all [enablesOf, Instr.wellFormed]
theorem outputHostWrite (addr : Word) (data : Word) : Statement (.outputHostWrite addr data) := fun _ e => nomatch e
theorem outputPartialWrite (addr : Word) (be : BitVec 4) (data : Word) : Statement (.outputPartialWrite addr be data) := by
  intro h e; simp_all [enablesOf, Instr.wellFormed, partialEnables]
theorem noticeWordWrite (data : Word) : Statement (.noticeWordWrite data) := fun _ e => nomatch e
theorem noticeEnableWrite (data : Word) : Statement (.noticeEnableWrite data) := fun _ e => nomatch e
theorem heartbeat (data : Word) : Statement (.heartbeat data) := fun _ e => nomatch e
theorem logRelease (data : Word) : Statement (.logRelease data) := fun _ e => nomatch e
theorem requestArgumentWrite (slot : BitVec 4) (k : BitVec 4) (data : Word) : Statement (.requestArgumentWrite slot k data) := fun _ e => nomatch e
theorem submission (slot : BitVec 4) : Statement (.submission slot) := fun _ e => nomatch e
theorem slotFree (slot : BitVec 4) : Statement (.slotFree slot) := fun _ e => nomatch e
theorem discardedWrite (addr : Word) (be : BitVec 4) (data : Word) : Statement (.discardedWrite addr be data) := by
  intro h e; simp_all [enablesOf, Instr.wellFormed]
theorem requestUnknownKind : Statement .requestUnknownKind := fun _ e => nomatch e
theorem commitFull : Statement .commitFull := fun _ e => nomatch e
theorem commitRecipe : Statement .commitRecipe := fun _ e => nomatch e
theorem reinit : Statement .reinit := fun _ e => nomatch e
theorem reinitCompletion : Statement .reinitCompletion := fun _ e => nomatch e
theorem discover : Statement .discover := fun _ e => nomatch e
theorem linkStart : Statement .linkStart := fun _ e => nomatch e
theorem linkHalt : Statement .linkHalt := fun _ e => nomatch e
theorem nodeRead : Statement .nodeRead := fun _ e => nomatch e
theorem nodeWrite : Statement .nodeWrite := fun _ e => nomatch e
theorem zoneStart : Statement .zoneStart := fun _ e => nomatch e
theorem zoneRun : Statement .zoneRun := fun _ e => nomatch e
theorem zoneStop : Statement .zoneStop := fun _ e => nomatch e
theorem zoneReset : Statement .zoneReset := fun _ e => nomatch e
theorem zoneSimulateEnter : Statement .zoneSimulateEnter := fun _ e => nomatch e
theorem zoneSimulateLeave : Statement .zoneSimulateLeave := fun _ e => nomatch e
theorem lotOpen : Statement .lotOpen := fun _ e => nomatch e
theorem lotClose : Statement .lotClose := fun _ e => nomatch e
theorem lotFlush : Statement .lotFlush := fun _ e => nomatch e
theorem injectBag : Statement .injectBag := fun _ e => nomatch e
theorem palletClose : Statement .palletClose := fun _ e => nomatch e
theorem palletConfirm : Statement .palletConfirm := fun _ e => nomatch e
theorem scanReply (chars : List Byte) : Statement (.scanReply chars) := fun _ e => nomatch e
theorem enumReply (chars : List Byte) : Statement (.enumReply chars) := fun _ e => nomatch e
theorem oneShotReply (chars : List Byte) : Statement (.oneShotReply chars) := fun _ e => nomatch e
theorem replyLimitExpiry : Statement .replyLimitExpiry := fun _ e => nomatch e
theorem replyCharacterGap : Statement .replyCharacterGap := fun _ e => nomatch e
theorem safeFrameSent : Statement .safeFrameSent := fun _ e => nomatch e
theorem periodTimerExpiry : Statement .periodTimerExpiry := fun _ e => nomatch e
theorem staleTimerExpiry (channel : BitVec 8) : Statement (.staleTimerExpiry channel) := fun _ e => nomatch e
theorem watchdogExpiry : Statement .watchdogExpiry := fun _ e => nomatch e
theorem waitTimeExpiry (zone : BitVec 3) : Statement (.waitTimeExpiry zone) := fun _ e => nomatch e
theorem waitUntilTimeout (zone : BitVec 3) : Statement (.waitUntilTimeout zone) := fun _ e => nomatch e
theorem exposureTimerExpiry (pallet : BitVec 16) : Statement (.exposureTimerExpiry pallet) := fun _ e => nomatch e
theorem transitTimerExpiry : Statement .transitTimerExpiry := fun _ e => nomatch e
theorem replyCheckFailure (chars : List Byte) : Statement (.replyCheckFailure chars) := fun _ e => nomatch e
theorem passThroughAccess (access : Access) : Statement (.passThroughAccess access) := fun _ e => nomatch e

end Sys2Proof.Laws.AccessEnables
end

