-- ==== Sys2Proof/Tests/Slice0.lean ====
section
/-! SUPPORT. Tests: ill-formed terms refused, worked values of the manual, single steps on small states, and for every
statement with hypotheses a state and operands that meet them. -/

namespace Sys2Proof.Tests

open Sys2Proof Sys2Proof.Machine

set_option Elab.async false

/-! ## Small states -/

/-- The reset state with the blocks given. -/
def on (l : Line) : State := { State.reset with line := l }

/-- The reset state with the blocks given and the arbiter's count at n. -/
def counted (n : Nat) (l : Line) : State := { on l with path := { State.reset.path with arbiter := n } }

def l0 : Line := Line.reset

/-- Slot 0 at the head of the submission queue, with its kind and arguments. -/
def ask (kind a2 a3 a4 : Word) (l : Line) : Line :=
  let slot : Slot := { Slot.empty with state := .submitted, kind := kind, arg2 := a2, arg3 := a3, arg4 := a4 }
  { l with request := { l.request with slots := l.request.slots.set 0 slot, queue := [0] } }

/-- Slot 3 in the state given. -/
def slotIn (st : SlotState) (l : Line) : Line :=
  { l with request := { l.request with slots := l.request.slots.set 3 { Slot.empty with state := st, arg2 := 7, result := 1 } } }

/-- A general block. -/
def general : General :=
  { scanPeriod := 10, replyLimit := 500, heartbeatLimit := 100, palletCapacity := 20, transitLimit := 60,
    logThreshold := 1024, reserveFloor := 4 }

def active (l : Line) : Line := { l with active := some general }

/-- A channel of a kind with range 0 to 1000, owned by zone 0, at node 1 point 0. -/
def channel (kind : ChanKind) : Channel :=
  { Channel.unused with
    desc := { Channel.unused.desc with
      kind := kind, addr := 0x40000, owner := some 0, node := 1, engMax := 1000, fallback := 7, staleLimit := 100 } }

/-- Two channels, the first matched at address 0x40000. -/
def channels (a b : Channel) (l : Line) : Line := { l with chans := [a, b], matchTable := [(0x40000, 0)] }

/-- A zone with its programs and the run given by a state. -/
def zone (kind : ZoneKind) (st : ZoneState) (start stop : List Machine.Step) : Zone :=
  { desc := { kind := kind, prereqs := [], guarded := true, nodeFaultTrips := false, startProgram := start,
              stopProgram := stop, conditions := [] }
    run := { state := st, runPending := false, cause := .none, program := none, deadline := none, entryTime := 0,
             trips := 0 } }

/-- Zone 0 and zone 1 present. -/
def zones (a b : Zone) (l : Line) : Line := { l with zones := [some a, some b, none, none, none, none, none, none] }

def off (start stop : List Machine.Step) : Zone := zone .track .off start stop

/-- The zone stands in its program. -/
def inProgram (p : Program) (k : Nat) (deadline : Word) (z : Zone) : Zone :=
  { z with run := { z.run with program := some (p, k), deadline := some deadline } }

/-- Node 1 with its state and points. -/
def nodeOne (st : NodeState) (ps : List Point) (l : Line) : Line :=
  { l with
    link := { l.link with
      nodes := { Node.absent with state := st, points := ps } :: List.replicate 15 Node.absent } }

def linkIn (st : LinkState) (l : Line) : Line := { l with link := { l.link with state := st } }

/-- An exchange with node 1 for which a reply is awaited. -/
def awaiting (kind : FrameKind) (job : ExchangeJob) (retry : Bool) : Exchange :=
  { kind := kind, addr := 1, control := 0x80, payload := [], retry := retry, job := job }

def waiting (x : Exchange) (l : Line) : Line := { l with link := { l.link with busy := .waiting x } }

def oneShot : OneShot := { slot := 2, isSet := false, node := 1, param := 3, value := 0 }

/-- The line time. -/
def atTime (t : Word) (l : Line) : Line := { l with status := { l.status with time := t } }

def recipe : Recipe :=
  { product := 9, blanchMin := 0, blanchDeviation := 0, blanchCreditMin := 0, blanchCreditMax := 0, freezeMax := 0,
    freezeDeviation := 0, freezeCreditMin := 0, massPerUnit := 1, bagTarget := 1, bagMin := 1, bagMax := 1,
    exposureLimit := 1 }

/-- One section of one cell in zone 0, and one recipe. -/
def track (l : Line) : Line :=
  { l with
    track := { l.track with
      sections :=
        [{ desc := { zone := 0, length := 1, motion := 0, countsPerCell := 1, criterion := .freeze, criterionChan := 1,
                     maxGap := 10, arrivalFlag := false }
           places := [none], remainder := 0, lastCriterion := none, lastLot := 0, arrival := none }]
      recipes := List.replicate 32 (some recipe) } }

/-- One live lot of number 5. -/
def lot (f : Lot → Lot) (l : Line) : Line :=
  { l with track := { l.track with lots := [f (newLot 0 5 false 0 0 1)] } }

/-- One live pallet of number 4, naming lot 5. -/
def pallet (f : Pallet → Pallet) (l : Line) : Line :=
  { l with
    pack := { l.pack with
      pallets :=
        [f { pos := 0, number := 4, lane := .release, state := .opened, bags := 1, mass := 10,
             lots := [{ lot := 5, bags := 1, provisional := 0 }], exposureStart := none, deadline := none,
             exposed := false, reason := .none, joinOrder := none, timer := .idle }] } }

/-- Only pallet p's transit, due at the line time given. -/
def transit (n : Nat) (deadline : Word) (l : Line) : Line :=
  { l with transfer := { l.transfer with transit := some { number := n, deadline := deadline } } }

/-- Zone 0, of section 0, in the state given with an OPEN lot, and zone 1, the TRANSFER zone, RUNNING with a pallet in
transit. -/
def leaving (st : ZoneState) (trial : Bool) (left : Nat) (l : Line) : Line :=
  transit 4 9 (pallet (fun p => { p with state := .inTransit })
    (lot (fun x => { x with trial := trial, unevaluated := word left })
      (track (zones (zone .track st [] []) (zone .transfer .running [] []) l))))

/-- A link in the state given whose cycle has the nodes and the turn given left, with the one-shots given waiting and
slot 3's LINK_HALT in flight. -/
def cycling (st : LinkState) (rest : List Nat) (turn : Bool) (queue : List OneShot) (l : Line) : Line :=
  { l with
    link := { l.link with
      state := st, cycle := some { rest := rest, turn := turn }, oneShots := queue, halt := some 3, scanList := [1] } }

/-- The record log with one written entry. -/
def oneRecord (l : Line) : Line := { l with log := appendRecord l.log .watchdog 0 [0] }

/-- A COMMIT_FULL in flight with the words given. -/
def committing (ws : List Word) (l : Line) : Line := { l with request := { l.request with commit := some { slot := 2, words := ws } } }

/-- A COMMIT_RECIPE in progress with the words given. -/
def recipeReading (ws : List Word) (l : Line) : Line :=
  { l with request := { l.request with recipeJob := some { slot := 2, index := 31, words := ws } } }

/-! ## Ill-formed commands are refused by the check -/

theorem test_illFormed_stagingWrite : (Instr.stagingWrite 0 0 1).wellFormed = false := by decide
theorem test_illFormed_inputChannelWrite : (Instr.inputChannelWrite 0x40000 0 1).wellFormed = false := by decide
theorem test_illFormed_partOutputWrite : (Instr.partOutputWrite 0x40000 0 1).wellFormed = false := by decide
theorem test_illFormed_outputPartialWrite_none : (Instr.outputPartialWrite 0x40000 0 1).wellFormed = false := by decide
theorem test_illFormed_outputPartialWrite_all : (Instr.outputPartialWrite 0x40000 15 1).wellFormed = false := by decide
theorem test_illFormed_argumentWrite_low : (Instr.requestArgumentWrite 0 0 1).wellFormed = false := by decide
theorem test_illFormed_argumentWrite_high : (Instr.requestArgumentWrite 0 8 1).wellFormed = false := by decide
theorem test_illFormed_discardedWrite : (Instr.discardedWrite 0 0 1).wellFormed = false := by decide
theorem test_illFormed_scanReply_short : (Instr.scanReply [0xA5, 1, 1, 0]).wellFormed = false := by decide
theorem test_illFormed_enumReply_long :
    (Instr.enumReply [0xA5, 1, 2, 0, 0, 0, 0, 0]).wellFormed = false := by decide
theorem test_illFormed_oneShotReply_cut :
    (Instr.oneShotReply [0xA5, 1, 3, 0, 3, 0, 0, 0]).wellFormed = false := by decide
theorem test_illFormed_replyCheckFailure : (Instr.replyCheckFailure []).wellFormed = false := by decide
theorem test_illFormed_exposureTimerExpiry : (Instr.exposureTimerExpiry 0).wellFormed = false := by decide
theorem test_wellFormed_boundaries :
    (Instr.outputPartialWrite 0x40000 14 1).wellFormed = true ∧ (Instr.requestArgumentWrite 15 7 0).wellFormed = true
      ∧ (Instr.scanReply (frameBytes .scan 1 0 [0, 0])).wellFormed = true := by decide

/-! ## Worked values of the manual -/

/-- R54: the check value of the ASCII bytes 123456789. -/
theorem test_crc_checkValue : crc [0x31, 0x32, 0x33, 0x34, 0x35, 0x36, 0x37, 0x38, 0x39] = 0x29B1#16 := by decide +kernel

/-- Table 1-3: the value 0x11223344 under each arrangement. -/
theorem test_arrangements :
    arrange .asIs 0x11223344 = 0x11223344 ∧ arrange .swapBytes 0x11223344 = 0x22114433
      ∧ arrange .swapHalves 0x11223344 = 0x33441122 ∧ arrange .swapBoth 0x11223344 = 0x44332211 := by decide +kernel

/-- R12: with UBO at 1 the most significant byte stands at the lowest address. -/
theorem test_bigOrder : lane (upstreamOrder true 0x11223344) 0 = 0x11#8 ∧ lane (upstreamOrder false 0x11223344) 0 = 0x44#8 := by
  decide +kernel

/-- R35: halves go away from zero. -/
theorem test_roundQuotient :
    roundQuotient 5 2 = 3 ∧ roundQuotient (-5) 2 = -3 ∧ roundQuotient 4 3 = 1 ∧ roundQuotient (-4) 3 = -1
      ∧ roundQuotient 5 (-2) = -3 := by decide +kernel

/-- An analog channel's descriptor with the range given. -/
def ranged (kind : ChanKind) (lo hi : Int) : Channel :=
  { Channel.unused with desc := { (channel kind).desc with engMin := lo, engMax := hi } }

/-- Table 3-4: the five input conversions. -/
theorem test_inputConversions :
    analogEng (ranged .inputAnalog (-500) 300).desc ⟨0, 65535⟩ 20000 = -256
      ∧ analogEng (ranged .inputAnalog 0 1000).desc ⟨0, 4000⟩ 2 = 1
      ∧ analogEng (ranged .inputAnalog (-1000) 0).desc ⟨0, 4000⟩ 2 = -1000
      ∧ analogEng (ranged .inputAnalog 0 1000).desc ⟨6400, 32000⟩ 5000 = 0
      ∧ analogEng (ranged .inputAnalog 0 500).desc ⟨60000, 10000⟩ 35000 = 250 := by decide +kernel

/-- R37: the raw values of the applied values 955 and 1. -/
theorem test_outputConversions :
    let c : Channel := { ranged .outputAnalog 0 1000 with run := { Channel.unused.run with bound := some ⟨6400, 32000⟩ } }
    rawOfApplied c 955 = 30848 ∧ rawOfApplied c 1 = 6426 := by decide +kernel

/-- Table 12-1: bit positions of the notices. -/
theorem test_noticeBits : Notice.reqDone.mask = 1#18 ∧ Notice.stopInput.mask = 0x20000#18 := by decide

/-- The word form has no bits: no word spells a command. -/
theorem test_noWordSpellsACommand : decodeTableWord 32 0 = none := by decide

/-! ## Single steps -/

/-- A staging write reaches memory at the staging base. -/
theorem test_stagingWrite_stores :
    (match step { State.reset with pending := [.stagingWrite 4 15 0x04030201] } with
      | .next t => t.mem == [(0x20004, 1), (0x20005, 2), (0x20006, 3), (0x20007, 4)] && t.pending == []
      | _ => false) = true := by decide +kernel

/-- A discarded write records its address and raises BAD_WRITE. -/
theorem test_discardedWrite_records :
    (match step { State.reset with pending := [.discardedWrite 0x12 15 1] } with
      | .next t => t.line.status.lastBad == 0x12 && t.line.status.notices == 0x80
      | _ => false) = true := by decide +kernel

/-- A submission, then its taking on an empty queue: a slot of kind 0 completes with BAD_REQUEST. -/
theorem test_unknownKind_completes :
    (match step (on (ask 0 0 0 0 l0)) with
      | .next t => (slotAt t.line 0).state == .done && (slotAt t.line 0).result == 3 && noticeSet t.line .reqDone
      | _ => false) = true := by decide +kernel

/-- With nothing to do a millisecond passes. -/
theorem test_idle_ticks :
    (match step State.reset with
      | .next t => t.line.status.time == 1
      | _ => false) = true := by decide +kernel

/-- The end of SAFE on the link raises the count. -/
theorem test_safeSent_counts :
    (match exec .safeFrameSent (on { linkIn .scanning l0 with link := { (linkIn .scanning l0).link with busy := .safe none } }) with
      | .next t => t.line.link.safeCount == 1 && t.line.link.busy == .quiet
      | _ => false) = true := by decide +kernel

/-- A falling edge of STOP_N trips a RUNNING zone. -/
theorem test_stopFall_trips :
    (match exec .stopNFallingEdge (on (zones (zone .track .running [] []) (off [] []) l0)) with
      | .next t => zoneState t.line 0 == some .tripped && zoneState t.line 1 == some .off && !t.line.stopHigh
      | _ => false) = true := by decide +kernel

/-- ZONE_RUN of an OFF zone with empty programs ends RUNNING. -/
theorem test_zoneRun_runs :
    (match exec .zoneRun (on (active (ask 10 0 0 0 (zones (off [] []) (off [] []) l0)))) with
      | .next t => zoneState t.line 0 == some .running && (slotAt t.line 0).result == 1 && (slotAt t.line 0).val9 == 3
      | _ => false) = true := by decide +kernel

/-! ## States that meet the hypotheses of the statements: the machine -/

theorem witness_StepRunsTheFrontCommand :
    ({ State.reset with pending := [.heartbeat 0] } : State).pending = .heartbeat 0 :: [] := rfl

theorem witness_IdleStep_request : (on (ask 9 0 0 0 l0)).pending = [] ∧ headSlot (ask 9 0 0 0 l0) = some 0 := by
  decide +kernel

theorem witness_IdleStep_nothing :
    State.reset.pending = [] ∧ headSlot l0 = none ∧ l0.request.reinit = none ∧ dueTimer l0 = none
      ∧ waitingOffset l0 = none := by decide +kernel

theorem witness_IdleStep_background :
    ∀ reinit ∈ [none, some 15], ∀ commit ∈ [none, some ({ slot := 2, words := [] } : CommitJob)],
      let l := { l0 with request := { l0.request with reinit := reinit, commit := commit } }
      (on l).pending = [] ∧ headSlot l = none ∧ dueTimer l = none := by decide +kernel

theorem witness_IdleStep_kinds :
    ∀ k ∈ [(1, RequestKind.commitFull), (2, .commitRecipe), (3, .reinit), (4, .discover), (5, .linkStart),
        (6, .linkHalt), (7, .nodeRead), (8, .nodeWrite), (9, .zoneStart), (10, .zoneRun), (11, .zoneStop),
        (12, .zoneReset), (13, .zoneSimulate), (14, .lotOpen), (15, .lotClose), (16, .lotFlush), (17, .injectBag),
        (18, .palletClose), (19, .palletConfirm)],
      headSlot (ask (word k.1) 0 0 0 l0) = some 0 ∧ ofKind k.2 (slotAt (ask (word k.1) 0 0 0 l0) 0) = true := by
  decide +kernel

theorem witness_IdleStep_unknown : RequestKind.ofCode (slotAt (ask 20 0 0 0 l0) 0).kind.toNat = none := by
  decide +kernel

/-- A state whose memory lists a byte, with a command waiting. -/
def storing : State := { State.reset with mem := [(5, 1)], pending := [.stagingWrite 0 1 9] }

theorem witness_StepKeepsMemoryCanonical :
    memorySound storing ∧ ∃ t, step storing = .next t ∧ t.mem = [(5, 1), (0x20000, 9)] := by
  refine ⟨by unfold memorySound; decide +kernel, _, rfl, by decide +kernel⟩

theorem witness_StepKeepsTheLogWithinItsBound :
    logSound (oneRecord l0) ∧ ∃ t, step { on (oneRecord l0) with pending := [.logRelease 1] } = .next t := by
  refine ⟨by unfold logSound; decide +kernel, _, rfl⟩

/-- A table whose zone 1 runs behind zone 0. -/
def behind : Line :=
  let first := zone .track .running [] []
  let second := zone .bag .running [] []
  zones first { second with desc := { second.desc with prereqs := [0] } } l0

theorem witness_StepKeepsRunningZonesBehindRunningPrerequisites :
    zonesSound behind ∧ ∃ t, step { on behind with pending := [.stopNFallingEdge] } = .next t := by
  refine ⟨⟨by decide +kernel, by decide +kernel, ?_⟩, _, rfl⟩
  intro z w p k hz hp
  match z with
  | 0 | 1 => cases hz; cases hp
  | 2 | 3 | 4 | 5 | 6 | 7 => cases hz
  | n + 8 => cases hz

/-- A zone RUNNING with an output that has its host value in force. -/
def applying : Line :=
  let c := channel .outputDiscrete
  zones (zone .track .running [] []) (off [] [])
    (channels (refresh (some .running) { c with run := { c.run with hostValue := 1 } }) (channel .inputDiscrete) l0)

theorem witness_StepKeepsEveryOutputAtItsZonesValue :
    outputsSound applying ∧ (chan applying 0).run.applied = 1
      ∧ ∃ t, step { on applying with pending := [.stopNFallingEdge] } = .next t := by
  refine ⟨by unfold outputsSound; decide +kernel, by decide +kernel, _, rfl⟩

/-! ## Pins, memory, channel words -/

theorem witness_StopEdges :
    let l := waiting (awaiting .scan .scan false) (linkIn .scanning behind)
    l.zones.length = Config.zoneCount ∧ isActive l 0 = true ∧ isActive l 2 = false ∧ linkScans l = true
      ∧ l.link.busy ≠ .quiet ∧ linkScans behind = false ∧ (linkIn .halting behind).link.busy = .quiet
      ∧ linkScans (linkIn .halting behind) = true := by decide +kernel

theorem witness_StopEdges_leaves :
    ∀ left ∈ [0, 1],
      let l := leaving .running false left l0
      l.zones.length = Config.zoneCount ∧ (l.track.sections[0]?).any (fun f => isRunning l f.desc.zone) = true
        ∧ (openLot l).any (fun x => !x.trial && x.verdict == .pending && decide (x.unevaluated = 0) == (left == 0)
            && l.track.lots.all fun y => y.number != x.number || y == x) = true
        ∧ zoneOfKind l .transfer = some 1 ∧ isRunning l 1 = true
        ∧ (l.transfer.transit.any fun tr => (pallet? l tr.number).any (·.state == .inTransit)) = true := by
  decide +kernel

theorem witness_StagingWrite : (8#4 : BitVec 4) ≠ 0 ∧ (counted 15 (committing [] l0)).path.arbiter < 16 := by decide

theorem witness_PassThrough_access :
    ∀ write ∈ [true, false],
      let a : Access := { write := write, addr := 0xFFFFF, be := 8, data := 1 }
      let s := counted 15 l0
      a.be ≠ 0 ∧ classify s.path.straps s.line.matchTable (wordAddress a.addr) = .passThrough
        ∧ wordAddress a.addr < memorySize s.path.straps ∧ s.path.arbiter < 16 ∧ a.write = write ∧ s.mem.wf = true := by
  decide +kernel

theorem witness_PassThrough_beyondMemory :
    ∀ write ∈ [true, false],
      let a : Access := { write := write, addr := 0xFFFFFFFF, be := 1, data := 1 }
      let s := counted 15 l0
      a.be ≠ 0 ∧ classify s.path.straps s.line.matchTable (wordAddress a.addr) = .passThrough
        ∧ memorySize s.path.straps ≤ wordAddress a.addr ∧ s.path.arbiter < 16 ∧ s.mem.wf = true := by
  decide +kernel

theorem witness_PassThrough_sixteenth :
    ∀ k ∈ [3230, 3231],
      let s := counted 16 (committing (List.replicate k 0) l0)
      (1#4 : BitVec 4) ≠ 0 ∧ s.path.arbiter = 16 ∧ (waitingOffset s.line).isSome = true
        ∧ s.line.request.commit = some { slot := 2, words := List.replicate k 0 }
        ∧ decide ((List.replicate k (0 : Word)).length + 1 < Config.commitWords) = (k == 3230)
        ∧ classify s.path.straps s.line.matchTable (wordAddress 0x30000) = .passThrough
        ∧ wordAddress 0x30000 < memorySize s.path.straps := by decide +kernel

theorem witness_PartAnsweredRead_part :
    ∀ a ∈ [(0x0 : Word), 0x1FFFF], ∃ n, classify State.reset.path.straps l0.matchTable (wordAddress a) = .part n := by
  intro a ha
  simp only [List.mem_cons, List.not_mem_nil, or_false] at ha
  rcases ha with rfl | rfl
  · exact ⟨0, by decide +kernel⟩
  · exact ⟨0x1FFFC, by decide +kernel⟩

theorem witness_PartAnsweredRead_channel :
    ∀ k ∈ [ChanKind.inputAnalog, .outputAnalog, .partOutput],
      let c := channel k
      let l := channels { c with desc := { c.desc with readback := .applied } } c l0
      classify State.reset.path.straps l.matchTable (wordAddress 0x40003) = .channel 0
        ∧ ((chan l 0).desc.kind.isInput = true ∨ (chan l 0).desc.readback = .applied) := by decide +kernel

theorem witness_PartAnsweredRead_commanded :
    let s := counted 15 (channels (channel .outputAnalog) (channel .outputAnalog) l0)
    classify s.path.straps s.line.matchTable (wordAddress 0x40003) = .channel 0
      ∧ (chan s.line 0).desc.kind.isInput = false ∧ (chan s.line 0).desc.readback = .commanded
      ∧ wordAddress 0x40003 < memorySize s.path.straps ∧ s.path.arbiter < 16 := by decide +kernel

theorem witness_PartAnsweredRead_staging :
    ∀ a ∈ [0x20000, 0x24C7F],
      let s := counted 15 l0
      classify s.path.straps s.line.matchTable (wordAddress (word a)) = .staging
        ∧ wordAddress (word a) < memorySize s.path.straps := by decide +kernel

/-- A cell of lot 5. -/
def cell : TrackCell :=
  { freshCell 5 0 with units := 2, blanchCredit := 7 }

/-- Section 0 with the cell given and its recipe's lot live. -/
def placed (c : Option TrackCell) (l : Line) : Line :=
  let l := lot id (track l)
  { l with track := { l.track with sections := l.track.sections.map fun f => { f with places := [c] } } }

theorem witness_ChannelWordRoundTrip :
    -(2 ^ 31 : Int) ≤ -(2 ^ 31) ∧ -(2 ^ 31 : Int) < 2 ^ 31 ∧ -(2 ^ 31 : Int) ≤ 2 ^ 31 - 1 ∧ (2 ^ 31 - 1 : Int) < 2 ^ 31 := by
  decide

theorem witness_InputAndPartOutputWrites :
    ∀ k ∈ [ChanKind.inputAnalog, .partOutput],
      let s := counted 15 (channels (channel k) (channel k) l0)
      (15#4 : BitVec 4) ≠ 0 ∧ s.path.arbiter < 16
        ∧ classify s.path.straps s.line.matchTable (wordAddress 0x40001) = .channel 0
        ∧ ((chan s.line 0).desc.kind.isInput = true ∨ (chan s.line 0).desc.kind = .partOutput) := by decide +kernel

/-- An output at 0x40000 of zone 0 in the state given, with an input as its loopback partner. -/
def output (st : ZoneState) (limit : LimitAction) : Line :=
  let c := channel .outputAnalog
  zones (zone .track st [] []) (off [] [])
    (channels { c with desc := { c.desc with limit := limit, partner := some 1 } } (channel .inputAnalog) l0)

theorem witness_OutputPartialWrite :
    let s := counted 15 (output .running .clamp)
    (14#4 : BitVec 4) ≠ 0 ∧ (14#4 : BitVec 4) ≠ 15 ∧ s.path.arbiter < 16
      ∧ classify s.path.straps s.line.matchTable (wordAddress 0x40000) = .channel 0
      ∧ (chan s.line 0).desc.kind.isOutput = true := by decide +kernel

theorem witness_PartAnsweredRead_views :
    let c := channel .inputAnalog
    let l := oneRecord (pallet id (placed (some cell) (zones (off [] []) (off [] []) (channels c (channel .event) l0))))
    let l := { l with pack := { l.pack with feed := [{ lot := 5, mass := 3, exit := 0 }] } }
    (chan l 0).desc.kind.isInput = true ∧ (chan l 1).desc.kind = .event
      ∧ (chan (output .running .clamp) 0).desc.kind.isOutput = true
      ∧ (zone? l 0).isSome = true ∧ zone? l 7 = none
      ∧ (l.track.sections.flatMap (·.places))[0]? = some (some cell)
      ∧ (l.track.lots.find? (·.pos == 0)).isSome = true ∧ (l.pack.feed[0]?).isSome = true
      ∧ (l.pack.pallets.find? (·.pos == 0)).isSome = true ∧ ((l.log.entries[0]?).join).isSome = true := by
  decide +kernel

theorem witness_PartAnsweredRead_sections :
    let l := placed (some cell) l0
    (l.track.sections[0]?).isSome = true ∧ l.track.sections.length ≤ 1 ∧ l.track.sections.length ≤ 11
      ∧ (l.pack.ring[0]?).isSome = true ∧ (l.pack.ring[63]?).isSome = true
      ∧ (recipeAt l 0).isSome = true ∧ (recipeAt l 31).isSome = true ∧ recipeAt l0 0 = none ∧ recipeAt l0 31 = none := by
  decide +kernel

theorem witness_OutputHostWrite :
    ∀ limit ∈ [LimitAction.clamp, .refuse], ∀ n ∈ [1000, 1001],
      let data := word n
      let s := counted 15 (output .running limit)
      let v := channelValue s.path.straps.ubo (chan s.line 0).desc.arrangement data
      classify s.path.straps s.line.matchTable (wordAddress 0x40000) = .channel 0
        ∧ (chan s.line 0).desc.kind.isOutput = true ∧ 0 < s.line.chans.length ∧ s.path.arbiter < 16
        ∧ ownerState s.line (chan s.line 0).desc ≠ some .simulate
        ∧ (decide ((v < (chan s.line 0).desc.engMin ∨ (chan s.line 0).desc.engMax < v)) = (n == 1001))
        ∧ (chan s.line 0).desc.limit = limit := by decide +kernel

theorem witness_Loopback :
    let s := counted 15 (output .simulate .refuse)
    let v := channelValue s.path.straps.ubo (chan s.line 0).desc.arrangement 1000
    classify s.path.straps s.line.matchTable (wordAddress 0x40000) = .channel 0
      ∧ (chan s.line 0).desc.kind.isOutput = true ∧ 1 < s.line.chans.length ∧ s.path.arbiter < 16
      ∧ ownerState s.line (chan s.line 0).desc = some .simulate ∧ (chan s.line 0).desc.partner = some 1
      ∧ (chan s.line 0).desc.engMin ≤ v ∧ v ≤ (chan s.line 0).desc.engMax := by decide +kernel

theorem witness_Loopback_clamped :
    ∀ n ∈ [0, 1000, 1001],
      let s := counted 15 (output .simulate .clamp)
      let d := (chan s.line 0).desc
      let v := channelValue s.path.straps.ubo d.arrangement (word n)
      d.limit = .clamp ∧ d.partner = some 1 ∧ v = n ∧ d.engMax = 1000
        ∧ (if v < d.engMin then d.engMin else if d.engMax < v then d.engMax else v) = min n 1000 := by decide +kernel

/-- An output in SIMULATE that is its own partner. -/
def ownPartner : Line :=
  let c := channel .outputAnalog
  zones (zone .track .simulate [] []) (off [] [])
    (channels { c with desc := { c.desc with partner := some 0 } } c l0)

theorem witness_Loopback_own :
    classify State.reset.path.straps ownPartner.matchTable (wordAddress 0x40000) = .channel 0
      ∧ (chan ownPartner 0).desc.kind.isOutput = true ∧ (chan ownPartner 0).desc.partner = some 0
      ∧ ownerState ownPartner (chan ownPartner 0).desc = some .simulate := by decide +kernel

theorem witness_Loopback_kinds :
    ∀ kind ∈ [ChanKind.inputAnalog, .inputCounter, .inputDiscrete], ∀ a ∈ [0, 3], ∀ b ∈ [0, 3],
      let c := channel .outputAnalog
      let e := channel kind
      let l := zones (zone .track .simulate [] []) (off [] [])
        (channels { c with desc := { c.desc with partner := some 1, decimals := a } }
          { e with desc := { e.desc with decimals := b } } l0)
      (chan l 0).desc.partner = some 1 ∧ (chan l 1).desc.kind = kind ∧ (chan l 0).desc.decimals = a
        ∧ (chan l 1).desc.decimals = b := by decide +kernel

theorem witness_AnalogSample :
    ∀ b ∈ [(⟨5, 5⟩ : RawRange), ⟨0, 4000⟩, ⟨60000, 10000⟩],
      let c := channel .inputAnalog
      let l := channels { c with run := { c.run with bound := some b } } c l0
      0 < l.chans.length ∧ (chan l 0).desc.kind = .inputAnalog ∧ (chan l 0).run.bound = some b := by decide +kernel

/-! ## Status block and slots -/

theorem witness_NoticeWord :
    (∀ n ∈ [Notice.reqDone, .stopInput], (upstreamOrder false n.mask.toNat).getLsbD n.bit = true)
      ∧ (1#4 : BitVec 4) ≠ 0 ∧ (1#4 : BitVec 4) ≠ 15
      ∧ classify State.reset.path.straps l0.matchTable (wordAddress 0) = .part 0x00
      ∧ classify State.reset.path.straps l0.matchTable (wordAddress 7) = .part 0x04 := by decide +kernel

theorem witness_Heartbeat :
    l0.status.watchdog = .stopped
      ∧ ({ l0 with status := { l0.status with watchdog := .expired } } : Line).status.watchdog ≠ .stopped := by decide

/-- A full log. -/
def fullLog : Line := { l0 with log := { l0.log with full := true } }

theorem witness_LogRelease_sound : logSound (oneRecord l0) ∧ logSound fullLog ∧ usedCount fullLog.log = 1024 := by
  refine ⟨by unfold logSound; decide +kernel, by unfold logSound; decide +kernel, by decide +kernel⟩

theorem witness_LogRelease_distances :
    releaseDistance (oneRecord l0).log 1 = 1 ∧ releaseValid (oneRecord l0).log 1 = true
      ∧ releaseValid (oneRecord l0).log 0 = false ∧ releaseValid (oneRecord l0).log 2 = false
      ∧ releaseDistance fullLog.log 0 = 1024 ∧ releaseValid fullLog.log 0 = true
      ∧ releaseValid fullLog.log 1024 = false := by decide +kernel

theorem witness_LogRelease_opens :
    ∀ room ∈ [0, 1, 2],
      let l := { behind with log := { behind.log with reserved := 1024 - room } }
      bagRunning l = true ∧ freeUnreserved l.log = room ∧ bagRunning l0 = false
        ∧ ([Lane.release, .hold].filter fun x => (openPallet l x).isNone).length = 2
        ∧ l.pack.pallets = [] ∧ l.pack.palletCounter < 65535 ∧ l.pack.baggerHold = false := by decide +kernel

theorem witness_ArgumentWrite :
    ∀ st ∈ [SlotState.free, .done, .submitted, .taken],
      (slotIn st l0).request.slots.length = 16 ∧ (slotAt (slotIn st l0) 3).state = st
        ∧ 1 ≤ (1#4 : BitVec 4).toNat ∧ (7#4 : BitVec 4).toNat ≤ 7 := by decide +kernel

theorem witness_SubmissionAndFree :
    ∀ st ∈ [SlotState.free, .done, .submitted, .taken],
      (slotIn st l0).request.slots.length = 16 ∧ (slotAt (slotIn st l0) (3#4 : BitVec 4).toNat).state = st := by
  decide +kernel

theorem witness_SlotFree_otherValues :
    15 < 16 ∧ classify State.reset.path.straps l0.matchTable (wordAddress 0x4C0) = .part (0x100 + 64 * 15)
      ∧ upstreamOrder State.reset.path.straps.ubo 2 ≠ 0 ∧ upstreamOrder State.reset.path.straps.ubo 2 ≠ 1 := by
  decide +kernel

theorem witness_DiscardedWrite :
    ∀ a ∈ [(0x00, 14), (0x10, 15), (0xFC, 15), (0x120, 15), (0x4FC, 15), (0x500, 15), (0x1FFFC, 15)],
      let off := a.1
      let be := BitVec.ofNat 4 a.2
      be ≠ 0 ∧ classify State.reset.path.straps l0.matchTable (wordAddress (word off)) = .part off
        ∧ (be ≠ 15 ∨ (0x0C < off ∧ off < 0x100) ∨ (0x100 ≤ off ∧ off < 0x500 ∧ 32 ≤ (off - 0x100) % 64)
          ∨ 0x500 ≤ off) := by decide +kernel

/-! ## Takings -/

theorem witness_UnknownRequest :
    ∀ k ∈ [0, 20], headSlot (ask (word k) 0 0 0 l0) = some 0 ∧ 0 < (ask (word k) 0 0 0 l0).request.slots.length
      ∧ RequestKind.ofCode (slotAt (ask (word k) 0 0 0 l0) 0).kind.toNat = none := by decide +kernel

theorem witness_ConflictingRequests :
    ∀ k ∈ [(1, RequestKind.commitFull), (3, .reinit), (4, .discover), (5, .linkStart), (9, .zoneStart),
        (10, .zoneRun), (11, .zoneStop), (12, .zoneReset), (14, .lotOpen), (2, .commitRecipe)],
      HeadIs (committing [] (ask (word k.1) 0 0 0 l0)) 0 k.2
        ∧ (committing [] (ask (word k.1) 0 0 0 l0)).request.commit.isSome = true := by
  unfold HeadIs; decide +kernel

theorem witness_ConflictingRequests_simulate :
    ∀ a3 ∈ [0, 1],
      let l := ask 13 0 (word a3) 0 { l0 with request := { l0.request with reinit := some 2 } }
      HeadIs l 0 .zoneSimulate ∧ decide ((slotAt l 0).arg3 = 0) = (a3 == 0) ∧ l.request.reinit.isSome = true := by
  unfold HeadIs; decide +kernel

/-- A link with a DISCOVER or a LINK_HALT in flight, and the one-shots given in its queue. -/
def busyLink (discovery : Option Discovery) (halt : Option Nat) (queue : List OneShot) (l : Line) : Line :=
  { l with link := { l.link with discovery := discovery, halt := halt, oneShots := queue } }

theorem witness_ConflictingRequests_discover :
    ∀ k ∈ [(1, RequestKind.commitFull), (3, .reinit), (4, .discover), (7, .nodeRead), (8, .nodeWrite)],
      let l := busyLink (some { slot := 2, addr := 1, page := 0, pages := [], built := [] }) none []
        (ask (word k.1) 0 0 0 l0)
      HeadIs l 0 k.2 ∧ l.link.discovery.isSome = true := by unfold HeadIs; decide +kernel

theorem witness_ConflictingRequests_oneShots :
    ∀ k ∈ [(3, RequestKind.reinit), (4, .discover)],
      let l := busyLink none none [oneShot] (ask (word k.1) 0 0 0 l0)
      let x := awaiting .pget (.oneShot oneShot) true
      HeadIs l 0 k.2 ∧ l.link.oneShots ≠ [] ∧ (waiting x l).link.busy = .waiting x ∧ x.job = .oneShot oneShot := by
  unfold HeadIs; decide +kernel

theorem witness_ConflictingRequests_halt :
    ∀ k ∈ [(6, RequestKind.linkHalt), (7, .nodeRead), (8, .nodeWrite)],
      let l := busyLink none (some 2) [oneShot, oneShot, oneShot, oneShot] (ask (word k.1) 0 0 0 l0)
      HeadIs l 0 k.2 ∧ l.link.halt.isSome = true ∧ 4 ≤ l.link.oneShots.length := by unfold HeadIs; decide +kernel

theorem witness_CommitFull_starts :
    let l := ask 1 0 0 0 (zones (off [] []) (off [] []) l0)
    HeadIs l 0 .commitFull ∧ l.request.commit = none ∧ l.request.reinit = none ∧ l.link.discovery = none
      ∧ (∀ z ∈ l.zones, ∀ zone ∈ z, zone.run.state = .off) ∧ l.link.state = .idle ∧ l.track.lots = []
      ∧ l.pack.pallets = [] := by
  unfold HeadIs; decide +kernel

theorem witness_CommitFull_reads :
    (committing (List.replicate 3230 0) l0).request.commit = some { slot := 2, words := List.replicate 3230 0 }
      ∧ (List.replicate 3230 (0 : Word)).length + 1 < Config.commitWords := by decide +kernel

/-- The words of a commit whose general block is empty. -/
def emptyWords : List Word := List.replicate 3231 0

theorem witness_FailedCommit :
    let s := on (committing emptyWords l0)
    s.line.request.commit = some { slot := 2, words := emptyWords } ∧ emptyWords.length + 1 = Config.commitWords
      ∧ 2 < s.line.request.slots.length ∧ s.path.touch = false
      ∧ validate { straps := s.path.straps, nodes := s.line.link.nodes }
          (Shadow.ofWords (emptyWords ++ [upstreamOrder s.path.straps.ubo
            (memoryWord s.path.straps s.mem s.path.freeReads (stagingBase s.path.straps + commitOffset emptyWords.length))]))
          = some { table := 0, index := 0, reason := 1 } := by decide +kernel

theorem witness_TouchedCommit :
    let s := on (committing emptyWords l0)
    ({ s with path := { s.path with touch := true } } : State).path.touch = true := by decide

/-- A configuration that passes: a general block, one FREEZE section, a TRACK zone, a counter and an analog channel. -/
def goodShadow : Shadow where
  general := [10, 500, 0, 20, 60, 1024, 4] ++ List.replicate 57 0
  sections := [0x200, 1, 0, 1, 1, 10, 0, 0] :: List.replicate 11 (List.replicate 8 0)
  zones := ([1, 0x00FFFFFF] ++ List.replicate 62 0) :: List.replicate 7 (List.replicate 64 0)
  recipes := List.replicate 32 (List.replicate 16 0)
  channels :=
    [0x00FF0002, 0x40000, 1, 0, 65535, 0, 10, 0] :: [0x00FF0001, 0x40004, 0x0101, 0, 100, 0, 10, 0]
      :: List.replicate 254 (List.replicate 8 0)

/-- A shadow configuration's words in reading order. -/
def shadowWords (s : Shadow) : List Word :=
  s.general ++ (s.sections.flatten ++ (s.zones.flatten ++ (s.recipes.flatten ++ s.channels.flatten)))

/-- All words but the last, which is memory's. -/
def goodWords : List Word := (shadowWords goodShadow).take 3231

/-- Descriptors of one size laid one after another are read back. -/
theorem descriptors_flatten (pre post : List Word) (size : Nat) (ds : List (List Word)) (h : ∀ d ∈ ds, d.length = size) :
    descriptors (pre ++ (ds.flatten ++ post)) pre.length size ds.length = ds := by
  have one : ∀ (ds : List (List Word)), (∀ d ∈ ds, d.length = size) → ∀ i (hi : i < ds.length),
      ((ds.flatten ++ post).drop (size * i)).take size = ds[i] := by
    intro ds
    induction ds with
    | nil => intro _ i hi; simp at hi
    | cons d ds ih =>
      intro h i hi
      have hd : d.length = size := h d (List.mem_cons_self)
      cases i with
      | zero => simp [← hd]
      | succ i =>
        have hi' : i < ds.length := by simpa using hi
        have key : (((d :: ds).flatten ++ post).drop (size * (i + 1))) = (ds.flatten ++ post).drop (size * i) := by
          rw [List.flatten_cons, List.append_assoc, Nat.mul_succ, Nat.add_comm, ← List.drop_drop, ← hd,
            List.drop_left]
        rw [key, ih (fun x hx => h x (List.mem_cons_of_mem _ hx)) i hi']
        rfl
  apply List.ext_getElem
  · simp [descriptors]
  · intro i h₁ h₂
    simp only [descriptors, List.getElem_map, List.getElem_range]
    rw [← List.drop_drop, List.drop_left]
    exact one ds h i h₂

/-- The good configuration is read back from its words. -/
theorem goodShadow_read : Shadow.ofWords (shadowWords goodShadow) = goodShadow := by
  have hs : ∀ d ∈ goodShadow.sections, d.length = 8 := by decide +kernel
  have hz : ∀ d ∈ goodShadow.zones, d.length = 64 := by decide +kernel
  have hr : ∀ d ∈ goodShadow.recipes, d.length = 16 := by decide +kernel
  have hc : ∀ d ∈ goodShadow.channels, d.length = 8 := by decide +kernel
  have s := descriptors_flatten goodShadow.general
    (goodShadow.zones.flatten ++ (goodShadow.recipes.flatten ++ goodShadow.channels.flatten)) 8 goodShadow.sections hs
  have z := descriptors_flatten (goodShadow.general ++ goodShadow.sections.flatten)
    (goodShadow.recipes.flatten ++ goodShadow.channels.flatten) 64 goodShadow.zones hz
  have r := descriptors_flatten (goodShadow.general ++ goodShadow.sections.flatten ++ goodShadow.zones.flatten)
    goodShadow.channels.flatten 16 goodShadow.recipes hr
  have c := descriptors_flatten (goodShadow.general ++ goodShadow.sections.flatten ++ goodShadow.zones.flatten
    ++ goodShadow.recipes.flatten) [] 8 goodShadow.channels hc
  rw [show goodShadow.general.length = 64 by decide +kernel,
    show goodShadow.sections.length = 12 by decide +kernel] at s
  rw [show (goodShadow.general ++ goodShadow.sections.flatten).length = 160 by decide +kernel,
    show goodShadow.zones.length = 8 by decide +kernel] at z
  rw [show (goodShadow.general ++ goodShadow.sections.flatten ++ goodShadow.zones.flatten).length = 672 by decide +kernel,
    show goodShadow.recipes.length = 32 by decide +kernel] at r
  rw [show (goodShadow.general ++ goodShadow.sections.flatten ++ goodShadow.zones.flatten
      ++ goodShadow.recipes.flatten).length = 1184 by decide +kernel,
    show goodShadow.channels.length = 256 by decide +kernel, List.append_nil] at c
  simp only [List.append_assoc] at s z r c
  have g : (shadowWords goodShadow).take 64 = goodShadow.general := by decide +kernel
  show Shadow.mk _ _ _ _ _ = Shadow.mk _ _ _ _ _
  rw [g]
  simp only [shadowWords, s, z, r, c]
  rfl

theorem goodWords_last : goodWords ++ [0] = shadowWords goodShadow := by
  have h : (shadowWords goodShadow).drop 3231 = [0] := by decide +kernel
  rw [goodWords, ← h, List.take_append_drop]

theorem goodShadow_valid :
    validate { straps := State.reset.path.straps, nodes := l0.link.nodes } goodShadow = none := by decide +kernel

theorem on_path (l : Line) : (on l).path = State.reset.path := rfl
theorem on_mem (l : Line) : (on l).mem = State.reset.mem := rfl
theorem on_nodes (ws : List Word) : (on (committing ws l0)).line.link.nodes = l0.link.nodes := rfl

theorem witness_GoodCommit :
    let s := on (committing goodWords l0)
    s.line.request.commit = some { slot := 2, words := goodWords } ∧ goodWords.length + 1 = Config.commitWords
      ∧ 2 < s.line.request.slots.length ∧ s.path.touch = false
      ∧ validate { straps := s.path.straps, nodes := s.line.link.nodes }
          (Shadow.ofWords (goodWords ++ [upstreamOrder s.path.straps.ubo
            (memoryWord s.path.straps s.mem s.path.freeReads (stagingBase s.path.straps + commitOffset goodWords.length))]))
          = none := by
  have hl : goodWords.length = 3231 := by decide +kernel
  have hw : upstreamOrder State.reset.path.straps.ubo
      (memoryWord State.reset.path.straps State.reset.mem State.reset.path.freeReads
        (stagingBase State.reset.path.straps + commitOffset 3231)) = 0 := by decide +kernel
  have hv := goodShadow_valid
  rw [← goodShadow_read, ← goodWords_last, ← hw, ← hl] at hv
  refine ⟨rfl, congrArg (· + 1) hl, by decide +kernel, rfl, ?_⟩
  simp only [on_path, on_mem, on_nodes]
  exact hv

theorem witness_CommitRecipe_starts :
    let l := active (ask 2 31 0 0 (lot id l0))
    HeadIs l 0 .commitRecipe ∧ l.request.commit = none ∧ l.request.reinit = none ∧ (slotAt l 0).arg2.toNat < 32
      ∧ l.active.isSome = true ∧ (∀ x ∈ l.track.lots, x.recipe ≠ (slotAt l 0).arg2.toNat) := by
  unfold HeadIs; decide +kernel

theorem witness_CommitRecipe_ends :
    let s := on (recipeReading (List.replicate 15 0) l0)
    s.line.request.commit = none
      ∧ s.line.request.recipeJob = some { slot := 2, index := 31, words := List.replicate 15 0 }
      ∧ 2 < s.line.request.slots.length
      ∧ checkRecipe (List.replicate 15 0 ++ [upstreamOrder s.path.straps.ubo
          (memoryWord s.path.straps s.mem s.path.freeReads (stagingBase s.path.straps + (0x0C00 + 64 * 31 + 4 * 15)))])
          = none := by decide +kernel

theorem witness_Reinit :
    let l := ask 3 0 0 0 (active (zones (off [] []) (off [] []) l0))
    HeadIs l 0 .reinit ∧ busyReinit l = false ∧ (∀ z ∈ l.zones, ∀ zone ∈ z, zone.run.state = .off)
      ∧ l.link.state = .idle ∧ l.track.lots = [] ∧ l.pack.pallets = [] := by
  unfold HeadIs; decide +kernel

theorem witness_ReinitCompletion :
    let l := { l0 with request := { l0.request with reinit := some 15 } }
    l.request.reinit = some 15 ∧ 15 < l.request.slots.length := by decide +kernel

/-! ## The zone link -/

theorem witness_Discover :
    let l := ask 4 0 0 0 l0
    HeadIs l 0 .discover ∧ busyReinit l = false ∧ l.link.state = .idle ∧ l.active = none ∧ l.link.busy = .quiet := by
  unfold HeadIs; decide +kernel

theorem witness_LinkStart :
    let l := ask 5 0 0 0 (active (nodeOne .bound [] l0))
    HeadIs l 0 .linkStart ∧ busyConfig l = false ∧ l.link.state = .idle ∧ l.active = some general
      ∧ (nodeAt l 1).state = .bound := by
  unfold HeadIs; decide +kernel

theorem witness_LinkHalt :
    ∀ cycle ∈ [none, some ({ rest := [2], turn := false } : Cycle)],
      let l := ask 6 0 0 0 (linkIn .scanning (zones (off [] []) (zone .bag .simulate [] []) l0))
      let l := { l with link := { l.link with cycle := cycle } }
      HeadIs l 0 .linkHalt ∧ l.link.halt = none ∧ l.link.state = .scanning
        ∧ (∀ z ∈ l.zones, ∀ zone ∈ z, zone.run.state = .off ∨ zone.run.state = .simulate) ∧ l.link.cycle = cycle := by
  unfold HeadIs; decide +kernel

theorem witness_LinkHalt_ends :
    ∀ queue ∈ [[], [oneShot]], ∀ st ∈ [NodeState.running, .faulted],
      let job := if queue = [] then ExchangeJob.scan else .oneShot oneShot
      let x := awaiting (if queue = [] then .scan else .pget) job true
      let l := waiting x (cycling .halting [] false queue (nodeOne st [] l0))
      let good := frameBytes x.kind 1 0x80 (if queue = [] then [0, 0] else [0, 1, 2])
      l.link.state = .halting ∧ l.link.busy = .waiting x ∧ l.link.halt = some 3 ∧ 3 < l.request.slots.length
        ∧ CycleEnds (x.job == .scan) l ∧ 1 ≤ x.addr ∧ oneShot.slot ≠ 3 ∧ x.job = job ∧ replyGood l x good = true
        ∧ x.retry = true ∧ replyGood l x [] = false ∧ (nodeAt l x.addr).state = st ∧ l.link.scanList = [1] := by
  intro queue hq st hs
  simp only [List.mem_cons, List.not_mem_nil, or_false] at hq hs
  rcases hq with rfl | rfl <;> rcases hs with rfl | rfl
  · refine ⟨rfl, rfl, rfl, by decide, ⟨_, rfl, rfl, Or.inl rfl⟩, ?_⟩; decide +kernel
  · refine ⟨rfl, rfl, rfl, by decide, ⟨_, rfl, rfl, Or.inl rfl⟩, ?_⟩; decide +kernel
  · refine ⟨rfl, rfl, rfl, by decide, ⟨_, rfl, rfl, Or.inr ⟨by decide, rfl⟩⟩, ?_⟩; decide +kernel
  · refine ⟨rfl, rfl, rfl, by decide, ⟨_, rfl, rfl, Or.inr ⟨by decide, rfl⟩⟩, ?_⟩; decide +kernel

theorem witness_OneShots :
    ∀ isSet ∈ [true, false], ∀ st ∈ [LinkState.idle, .scanning],
      let l := ask (if isSet then 8 else 7) 1 255 65535 (linkIn st (nodeOne .discovered [] l0))
      HeadIs l 0 (if isSet then .nodeWrite else .nodeRead) ∧ busyNode l = false ∧ 1 ≤ (slotAt l 0).arg2.toNat
        ∧ (slotAt l 0).arg2.toNat ≤ 16 ∧ (slotAt l 0).arg3.toNat ≤ 255 ∧ (slotAt l 0).arg4.toNat ≤ 65535
        ∧ (nodeAt l 1).state ≠ .absent ∧ l.link.busy = .quiet ∧ l.link.state = st ∧ l.link.oneShots = []
        ∧ l.link.cycle = none ∧ (waiting (awaiting .scan .scan false) l).link.busy ≠ .quiet := by
  unfold HeadIs; decide +kernel

theorem witness_ScanReply :
    ∀ st ∈ [NodeState.bound, .running],
      let x := awaiting .scan .scan false
      let l := waiting x (linkIn .scanning (nodeOne st [] l0))
      let chars := frameBytes .scan 1 0x80 [3, 0]
      l.link.busy = .waiting x ∧ 1 ≤ x.addr ∧ x.addr ≤ l.link.nodes.length ∧ replyGood l x chars = true
        ∧ (nodeAt l 1).state = st
        ∧ (replyPayload chars).length = 2 * (pointsOf (nodeAt l x.addr) .input).length + 2
        ∧ l.link.state = .scanning ∧ l.link.cycle = none ∧ l.link.oneShots = [] ∧ l.link.safeWaits = false := by
  decide +kernel

theorem witness_ScanReply_events :
    ∀ records ∈ [[], [(0 : Byte), 1, 0, 4, 0, 0], [0, 1, 0, 4, 0, 0, 0, 2, 0, 5, 0, 0]],
      let st := if records = [] then NodeState.faulted else .bound
      let x := awaiting .scan .scan false
      let l := waiting x (linkIn .scanning (nodeOne st [] l0))
      let chars := frameBytes .scan 1 0x80 ([3, 0] ++ records)
      l.link.busy = .waiting x ∧ replyGood l x chars = true ∧ (nodeAt l 1).state = st
        ∧ (replyPayload chars).length = 2 * (pointsOf (nodeAt l 1) .input).length + 2 + records.length
        ∧ pointsOf (nodeAt l 1) .input = [] := by decide +kernel

/-- An IN point of index 0. -/
def inPoint : Point :=
  { index := 0, direction := .input, ptype := 0, unitCode := 0, rawMin := 0, rawMax := 100, safeRaw := 0 }

/-- A HALTING link's cycle goes on to a node, or to a one-shot after a SCAN exchange or on its turn. -/
theorem witness_cycleGoesOn (l : Line) :
    CycleGoesOn true (cycling .scanning [] false [] l) ∧ CycleGoesOn true (cycling .halting [2] false [] l)
      ∧ CycleGoesOn true (cycling .halting [] false [oneShot] l)
      ∧ CycleGoesOn false (cycling .halting [2] false [] l)
      ∧ CycleGoesOn false (cycling .halting [] true [oneShot] l) :=
  ⟨fun h => by (nomatch h), fun _ => ⟨_, rfl, Or.inl (by decide)⟩, fun _ => ⟨_, rfl, Or.inr ⟨Or.inl rfl, List.cons_ne_nil _ _⟩⟩,
    fun _ => ⟨_, rfl, Or.inl (by decide)⟩, fun _ => ⟨_, rfl, Or.inr ⟨Or.inr rfl, List.cons_ne_nil _ _⟩⟩⟩

/-- A cycle ends with its last exchange, unless a one-shot may still go in it. -/
theorem witness_cycleEnds (l : Line) :
    CycleEnds true (cycling .scanning [] false [] l) ∧ CycleEnds false (cycling .scanning [] false [oneShot] l)
      ∧ ¬ CycleEnds true (cycling .scanning [2] false [] l) ∧ ¬ CycleEnds true (cycling .scanning [] false [oneShot] l)
      ∧ ¬ CycleEnds false (cycling .scanning [] true [oneShot] l) := by
  refine ⟨⟨_, rfl, rfl, .inl rfl⟩, ⟨_, rfl, rfl, .inr ⟨rfl, rfl⟩⟩, ?_, ?_, ?_⟩
  · rintro ⟨_, ⟨⟩, h, _⟩; cases h
  · rintro ⟨_, ⟨⟩, _, h | h⟩
    · cases h
    · cases h.1
  · rintro ⟨_, ⟨⟩, _, h | h⟩
    · cases h
    · cases h.2

/-- A SCANNING link on which the exchange of node 1 is judged, the cycle to go on as given. -/
def scanEnding (rest : List Nat) (queue : List OneShot) (owed safe : Bool) : Line :=
  let l := waiting (awaiting .scan .scan false) (cycling .scanning rest false queue (nodeOne .running [] l0))
  { l with link := { l.link with owed := owed, safeWaits := safe, halt := none, scanList := [1] } }

/-- What a meaning leaves on the link: nothing, or a frame's kind and address. -/
def onLink (o : Host.Outcome State Fault Refusal) : Option (FrameKind × Nat) :=
  match o with
  | .next t =>
    match t.line.link.busy with
    | .quiet => none
    | .waiting x => some (x.kind, x.addr)
    | .safe _ => some (.safe, 0)
  | _ => none

/-- The states of LinkGoesOn's cases, each with what its reply leaves on the link: the next node, the one-shot in its
turn, the owed cycle's first node, quiet, and SAFE before each of them. -/
theorem witness_LinkGoesOn :
    ∀ k ∈ [(([2] : List Nat), ([] : List OneShot), false, some (FrameKind.scan, 2)), ([2], [oneShot], false, some (.pget, 1)),
        ([], [oneShot], true, some (.pget, 1)), ([], [], true, some (.scan, 1)), ([], [], false, none)],
      ∀ safe ∈ [true, false],
      let l := scanEnding k.1 k.2.1 k.2.2.1 safe
      let x := awaiting .scan .scan false
      let chars := frameBytes .scan 1 0x80 [0, 0]
      l.link.busy = .waiting x ∧ replyGood l x chars = true ∧ l.link.state = .scanning
        ∧ l.link.cycle = some { rest := k.1, turn := false } ∧ l.link.owed = k.2.2.1 ∧ l.link.safeWaits = safe
        ∧ linkScans l = true ∧ l.link.scanList ≠ []
        ∧ onLink (exec (.scanReply chars) (on l)) = (if safe then some (.safe, 0) else k.2.2.2) := by decide +kernel

/-- After a one-shot, and after a SAFE, the next node goes even when more one-shots wait. -/
theorem test_nodeAfterOneShot :
    let x := awaiting .pget (.oneShot oneShot) false
    let l := scanEnding [2] [oneShot] false false
    onLink (exec (.oneShotReply (frameBytes .pget 1 0x80 [0, 1, 2])) (on (waiting x l))) = some (.scan, 2)
      ∧ onLink (exec .safeFrameSent (on { l with link := { l.link with busy := .safe none } })) = some (.scan, 2) := by
  decide +kernel

theorem witness_ScanReply_samples :
    ∀ st ∈ [NodeState.bound, .faulted], ∀ link ∈ [LinkState.scanning, .halting],
      ∀ records ∈ [[], [(0 : Byte), 1, 0, 4, 0, 0], [0, 1, 0, 4, 0, 0, 0, 2, 0, 5, 0, 0]],
      let x := awaiting .scan .scan false
      let c := channel .inputAnalog
      let c := { c with run := { c.run with bound := some ⟨0, 100⟩ } }
      let l := waiting x (cycling link [2] false [] (nodeOne st [inPoint] (channels c c l0)))
      let chars := frameBytes .scan 1 0x80 ([0, 7, 3, 0] ++ records)
      l.link.busy = .waiting x ∧ x.job = .scan ∧ 1 ≤ x.addr ∧ x.addr ≤ l.link.nodes.length
        ∧ replyGood l x chars = true ∧ (nodeAt l x.addr).state = st ∧ pointsOf (nodeAt l x.addr) .input = [inPoint]
        ∧ channelOn l ChanKind.isInput x.addr inPoint.index = some 0 ∧ halfAt (replyPayload chars) 0 = 7
        ∧ (replyPayload chars).length = 2 + 2 + records.length := by decide +kernel

theorem witness_ScanReply_record :
    ∀ f ∈ [ChanFunction.none, .bagDone, .storeDone], ∀ k ∈ [ChanKind.event, .inputCounter],
      let c := channel k
      let l := nodeOne .bound [] (channels
        { desc := { c.desc with func := f }, run := { c.run with bound := some ⟨0, 0⟩ } } Channel.unused l0)
      1 ≤ l.link.nodes.length ∧ (chan l 0).desc.func = f
        ∧ channelOn l (· == .event) 1 (([0, 4, 1, 0] : List Byte).getD 0 0).toNat
            = (if k = .event then some 0 else none) := by decide +kernel

theorem witness_ScanReply_taken :
    ∀ last ∈ [0, 3, 15], ∀ seq ∈ [0, 1, 4],
      (decide (1 ≤ seq ∧ (last = 0 ∨ seq = if last = 15 then 1 else last + 1)))
        = (seq != 0 && (last == 0 || last == 3 && seq == 4 || last == 15 && seq == 1)) := by decide

/-- A DISCOVER at address 1. -/
def discovery : Discovery := { slot := 2, addr := 1, page := 0, pages := [], built := [] }

theorem witness_EnumReply :
    ∀ addr ∈ [1, 15, 16], ∀ payload ∈ [[(9 : Byte), 0, 0, 0], [9, 9, 0, 0]],
      let x := { awaiting .enum (.enum 0) false with addr := addr }
      let d := { discovery with addr := addr }
      let l := waiting x (linkIn .discovering l0)
      let l := { l with link := { l.link with discovery := some d } }
      let chars := frameBytes .enum addr 0x80 payload
      l.link.busy = .waiting x ∧ l.link.discovery = some d ∧ x.job = .enum d.page
        ∧ l.link.state = .discovering ∧ l.link.safeWaits = false ∧ replyGood l x chars = true ∧ d.addr ≤ 16
        ∧ (decide (pageCount payload ≤ 32 ∧ d.page + 1 < pagesFor (pageCount payload)) = (payload.getD 1 0 == 9))
        ∧ d.slot < l.request.slots.length := by decide +kernel

theorem witness_OneShotReply :
    ∀ status ∈ [[(0 : Byte)], [1]],
      let x := awaiting .pget (.oneShot oneShot) false
      let l := waiting x l0
      let chars := frameBytes .pget 1 0x80 (status ++ [1, 2])
      l.link.busy = .waiting x ∧ x.job = .oneShot oneShot ∧ replyGood l x chars = true
        ∧ oneShot.slot < l.request.slots.length ∧ l.link.state = .idle := by decide +kernel

theorem witness_OneShots_cycling :
    ∀ queue ∈ [[], [oneShot]], ∀ retry ∈ [true, false],
      let x := awaiting .pget (.oneShot oneShot) retry
      let l := waiting x (cycling .halting (if queue = [] then [2] else []) true queue l0)
      l.link.busy = .waiting x ∧ x.job = .oneShot oneShot ∧ replyGood l x (frameBytes .pget 1 0x80 [0, 1, 2]) = true
        ∧ replyGood l x [] = false ∧ oneShot.slot < l.request.slots.length ∧ l.link.state = .halting := by
  decide +kernel

theorem witness_FailedExchange :
    ∀ retry ∈ [true, false], ∀ link ∈ [LinkState.scanning, .halting],
      let x := awaiting .pget (.oneShot oneShot) retry
      let y := awaiting .scan .scan retry
      (waiting x l0).link.busy = .waiting x ∧ replyGood (waiting x l0) x [] = false
        ∧ (waiting x l0).link.safeWaits = false ∧ oneShot.slot < l0.request.slots.length ∧ l0.link.state = .idle
        ∧ 1 ≤ y.addr ∧ y.addr ≤ l0.link.nodes.length ∧ (nodeAt (nodeOne .running [] l0) 1).state ≠ .faulted
        ∧ (nodeAt (nodeOne .running [] l0) 1).misses < 2
        ∧ (waiting y (cycling link [2] false [] l0)).link.state = link
        ∧ (waiting y (cycling link [2] false [] l0)).link.busy = .waiting y := by
  decide +kernel

theorem witness_FailedExchange_safe :
    ∀ link ∈ [LinkState.scanning, .halting],
      let x := awaiting .scan .scan false
      let l := waiting x (cycling link [2] false [] l0)
      let l := { l with link := { l.link with safeWaits := true } }
      l.link.busy = .waiting x ∧ x.retry = false ∧ l.link.safeWaits = true ∧ linkScans l = true
        ∧ replyGood l x [] = false := by decide +kernel

theorem witness_FailedExchange_third :
    ∀ st ∈ [NodeState.bound, .running], ∀ zoneState ∈ [ZoneState.running, .off],
      let x := awaiting .scan .scan true
      let c := channel .inputAnalog
      let c := { c with run := { c.run with bound := some ⟨0, 100⟩, quality := .good } }
      let z := zone .track zoneState [] []
      let z := { z with desc := { z.desc with nodeFaultTrips := true } }
      let l := waiting x (linkIn .scanning (nodeOne st [] (zones z (off [] []) (channels c c l0))))
      let l := { l with link := { l.link with nodes := l.link.nodes.map fun n => { n with misses := 2 } } }
      l.link.busy = .waiting x ∧ (nodeAt l 1).state = st ∧ (nodeAt l 1).misses = 2 ∧ l.link.state = .scanning
        ∧ l.zones.length = Config.zoneCount ∧ (chan l 0).desc.kind.isInput = true ∧ (chan l 0).desc.node = 1
        ∧ (chan l 0).run.bound.isSome = true ∧ (chan l 0).run.simFlag = false ∧ zone? l 0 = some z
        ∧ z.desc.nodeFaultTrips = true ∧ zoneUsesNode l 0 1 = true
        ∧ isActive l 0 = (zoneState == .running) ∧ isActive l 1 = false := by decide +kernel

theorem witness_FailedExchange_page :
    ∀ addr ∈ [1, 15, 16], ∀ page ∈ [0, 1],
      let x := { awaiting .enum (.enum page) true with addr := addr }
      let d := { discovery with addr := addr, page := page }
      let l := waiting x (linkIn .discovering l0)
      let l := { l with link := { l.link with discovery := some d } }
      l.link.busy = .waiting x ∧ x.retry = true ∧ x.job = .enum page ∧ l.link.discovery = some d
        ∧ l.link.state = .discovering ∧ l.link.safeWaits = false ∧ d.addr ≤ 16
        ∧ d.slot < l.request.slots.length := by decide +kernel

theorem witness_SafeSent :
    ∀ resume ∈ [none, some (awaiting .scan .scan true)], ∀ safe ∈ [true, false],
      ∀ cycle ∈ [none, some ({ rest := [2], turn := false } : Cycle)],
      let l := linkIn .scanning l0
      let l := { l with link := { l.link with busy := .safe resume, safeWaits := safe, cycle := cycle } }
      l.link.busy = .safe resume ∧ l.link.safeWaits = safe ∧ l.link.state = .scanning ∧ l.link.cycle = cycle
        ∧ linkScans l = true ∧ l.link.oneShots = [] := by decide +kernel

theorem witness_PeriodExpiry :
    let l := active (waiting (awaiting .scan .scan false) (linkIn .scanning l0))
    let l := { l with link := { l.link with period := some 0, scanList := [1] } }
    l.link.period = some 0 ∧ reached (now l) 0 = true ∧ l.active = some general ∧ l.link.cycle = none
      ∧ l.link.busy ≠ .quiet ∧ l.link.scanList ≠ []
      ∧ ({ l with link := { l.link with cycle := some { rest := [], turn := false } } } : Line).link.cycle ≠ none := by
  decide +kernel

theorem witness_PeriodExpiry_quiet :
    let l := active (linkIn .scanning (nodeOne .running [] l0))
    let l := { l with link := { l.link with period := some 0, scanList := [1] } }
    l.link.period = some 0 ∧ reached (now l) 0 = true ∧ l.active = some general ∧ l.link.cycle = none
      ∧ l.link.busy = .quiet ∧ l.link.scanList = 1 :: [] ∧ l.link.state = .scanning ∧ l.link.safeWaits = false := by
  decide +kernel

/-! ## Zones -/

theorem witness_ZoneUp :
    ∀ run ∈ [true, false],
      let l := ask (if run then 10 else 9) 0 0 0 (active (zones (off [.waitTime 5] []) (off [] []) l0))
      HeadIs l 0 (if run then .zoneRun else .zoneStart) ∧ busyConfig l = false ∧ (slotAt l 0).arg2.toNat = 0
        ∧ 0 < l.zones.length ∧ l.active.isSome = true ∧ zone? l 0 = some (off [.waitTime 5] [])
        ∧ (off [.waitTime 5] []).run.state = .off ∧ l.stopHigh = true ∧ startBlocked l 0 = false := by
  unfold HeadIs; decide +kernel

/-- Channel 0 an output of zone 0, channel 1 a GOOD input at 5. -/
def stepping (l : Line) : Line :=
  let c := channel .inputAnalog
  channels (channel .outputAnalog) { c with run := { c.run with quality := .good, eng := 5 } } l

/-- Steps that pass, their thresholds at the input's value, and then a step that does not. -/
def passing : List Machine.Step := [.set 0 2000, .waitUntil 1 .ge 5 9, .waitUntil 1 .le 5 9]

theorem witness_passing (l : Line) (h : l.chans = (stepping l0).chans) :
    (∀ step ∈ passing, Passes l step)
      ∧ ∀ next ∈ [Machine.Step.waitTime 5, .waitUntil 1 .ge 6 9, .waitUntil 0 .ge 5 9], ¬ Passes l next := by
  have hc : ∀ i, chan l i = chan (stepping l0) i := fun i => by unfold chan; rw [h]
  constructor
  · intro step hs
    simp only [passing, List.mem_cons, List.not_mem_nil, or_false] at hs
    rcases hs with rfl | rfl | rfl
    · trivial
    · rw [Passes, hc]; decide +kernel
    · rw [Passes, hc]; decide +kernel
  · intro next hn
    simp only [List.mem_cons, List.not_mem_nil, or_false] at hn
    rcases hn with rfl | rfl | rfl
    · exact id
    · rw [Passes, hc]; decide +kernel
    · rw [Passes, hc]; decide +kernel

theorem witness_ZoneUp_programs :
    ∀ run ∈ [true, false],
      ∀ rest ∈ [[], [Machine.Step.waitTime 5], [.waitUntil 1 .ge 6 9, .waitTime 5], [.waitUntil 0 .ge 5 9]],
      let z := off (passing ++ rest) []
      let l := ask (if run then 10 else 9) 0 0 0 (active (stepping (zones z (off [] []) l0)))
      HeadIs l 0 (if run then .zoneRun else .zoneStart) ∧ busyConfig l = false ∧ (slotAt l 0).arg2.toNat = 0
        ∧ 0 < l.zones.length ∧ l.active.isSome = true ∧ zone? l 0 = some z ∧ z.run.state = .off ∧ l.stopHigh = true
        ∧ startBlocked l 0 = false ∧ l.chans = (stepping l0).chans ∧ (chan l 0).desc.kind.isOutput = true
        ∧ (chan l 0).desc.owner = some 0 := by
  unfold HeadIs; decide +kernel

theorem witness_ZoneRun_ready :
    ∀ first ∈ [ZoneState.running, .off],
      let ready := zone .bag .ready [] []
      let second : Zone := { ready with desc := { ready.desc with prereqs := [0] } }
      let l := ask 10 1 0 0 (active (zones (zone .track first [] []) second l0))
      HeadIs l 0 .zoneRun ∧ busyConfig l = false ∧ (slotAt l 0).arg2.toNat = 1 ∧ 1 < l.zones.length
        ∧ l.active.isSome = true ∧ zone? l 1 = some second ∧ second.run.state = .ready ∧ l.stopHigh = true
        ∧ prereqsRun l 1 = (first == .running) := by
  unfold HeadIs; decide +kernel

theorem witness_ZoneStop :
    ∀ st ∈ [ZoneState.starting, .ready, .running], ∀ program ∈ [[], [Machine.Step.waitTime 5]],
      let z := zone .track st [] program
      let l := ask 11 0 0 0 (active (zones z (off [] []) l0))
      HeadIs l 0 .zoneStop ∧ busyConfig l = false ∧ (slotAt l 0).arg2.toNat = 0 ∧ 0 < l.zones.length
        ∧ l.active.isSome = true ∧ zone? l 0 = some z ∧ z.run.state = st ∧ z.desc.stopProgram = program := by
  unfold HeadIs; decide +kernel

theorem witness_ZoneStop_programs :
    ∀ st ∈ [ZoneState.starting, .ready, .running], ∀ rest ∈ [[], [Machine.Step.waitTime 5], [.waitUntil 1 .ge 6 9]],
      let z := zone .track st [] (passing ++ rest)
      let l := ask 11 0 0 0 (active (stepping (zones z (off [] []) l0)))
      HeadIs l 0 .zoneStop ∧ busyConfig l = false ∧ (slotAt l 0).arg2.toNat = 0 ∧ l.active.isSome = true
        ∧ zone? l 0 = some z ∧ z.run.state = st ∧ l.chans = (stepping l0).chans := by
  unfold HeadIs; decide +kernel

theorem witness_ZoneStop_leaves :
    ∀ z ∈ [0, 1], ∀ left ∈ [0, 1],
      let l := ask 11 (word z) 0 0 (active (leaving .running false left l0))
      HeadIs l 0 .zoneStop ∧ busyConfig l = false ∧ (slotAt l 0).arg2.toNat = z ∧ isRunning l z = true
        ∧ (l.track.sections[0]?).any (fun f => f.desc.zone == 0) = true ∧ zoneOfKind l .transfer = some 1
        ∧ (openLot l).any (fun x => !x.trial && x.verdict == .pending && decide (x.unevaluated = 0) == (left == 0)
            && l.track.lots.all fun y => y.number != x.number || y == x) = true
        ∧ (l.transfer.transit.any fun tr => (pallet? l tr.number).any (·.state == .inTransit)) = true := by
  unfold HeadIs; decide +kernel

/-- Zone 0 with no prerequisite, zone 1 behind it, and zone 2 behind both, all RUNNING. -/
def threeRunning (l : Line) : Line :=
  let first := zone .track .running [] []
  let second : Zone := { first with desc := { first.desc with prereqs := [0] } }
  let third : Zone := { first with desc := { first.desc with prereqs := [1, 0] } }
  { l with zones := [some first, some second, some third, none, none, none, none, none] }

theorem witness_ZoneStop_cascade :
    let l := ask 11 0 0 0 (active (threeRunning l0))
    HeadIs l 0 .zoneStop ∧ busyConfig l = false ∧ l.active.isSome = true ∧ isRunning l 0 = true
      ∧ ∀ w ∈ [1, 2], isRunning l w = true ∧ (zoneDesc l w).prereqs.contains 0 = true := by
  unfold HeadIs; decide +kernel

/-- A zone records the prerequisite that left first, not one that the cascade trips in turn (R98). -/
theorem test_cascade_detail :
    ∀ w ∈ [1, 2], (zone? (zoneStop 0 (threeRunning l0)) w).map (·.run.cause) = some (.prereqLost 0) := by
  decide +kernel

/-- An exchange keeps the reply limit that it started under when the configuration changes before its frame ends (R83). -/
theorem test_reply_limit_kept :
    (frameSent { sendScan 1 (active l0) with active := none }).link.replyDue = some 1
      ∧ (frameSent (sendScan 1 { active l0 with active := none })).link.replyDue = some 5 := by
  decide +kernel

theorem witness_ZoneReset :
    ∀ high ∈ [true, false],
      let tripped := zone .track .tripped [] []
      let z : Zone := { tripped with run := { tripped.run with cause := .stopInput } }
      let l := ask 12 0 0 0 (active (zones z (off [] []) { l0 with stopHigh := high }))
      HeadIs l 0 .zoneReset ∧ busyConfig l = false ∧ (slotAt l 0).arg2.toNat = 0 ∧ 0 < l.zones.length
        ∧ l.active.isSome = true ∧ zone? l 0 = some z ∧ z.run.state = .tripped
        ∧ causeActive l 0 z.run.cause = !high := by
  unfold HeadIs; decide +kernel

theorem witness_ZoneReset_causes :
    ∀ cmp ∈ [Comparison.ge, .le], ∀ q ∈ [Quality.good, .stale],
      let c := channel .inputAnalog
      let c := { c with run := { c.run with quality := q, eng := 5 } }
      let z := zone .track .tripped [] []
      let z : Zone := { z with desc := { z.desc with
        conditions := [{ channel := 0, cmp := cmp, limit := 5, tripOnLoss := true }] } }
      let l := zones z (off [] []) (channels c c l0)
      zone? l 0 = some z ∧ (z.desc.conditions[0]?).any (·.cmp == cmp) = true ∧ (chan l 0).run.quality = q
        ∧ causeActive l 0 (.condition 0) = (q == .good) ∧ causeActive l 0 (.conditionLost 0) = (q != .good) := by
  decide +kernel

theorem witness_ZoneSimulate :
    ∀ enter ∈ [true, false],
      let z := zone .track (if enter then .off else .simulate) [] []
      let l := ask 13 0 (if enter then 1 else 0) 0 (active (zones z (off [] []) l0))
      HeadIs l 0 .zoneSimulate ∧ busyConfig l = false ∧ (slotAt l 0).arg2.toNat = 0 ∧ 0 < l.zones.length
        ∧ l.active.isSome = true ∧ zone? l 0 = some z ∧ (slotAt l 0).arg3 = (if enter then 1 else 0)
        ∧ dependentActive l 0 = false := by
  unfold HeadIs; decide +kernel

theorem witness_ZoneSimulate_leaves :
    ∀ stop ∈ [true, false], ∀ left ∈ [0, 1],
      let l := ask (if stop then 11 else 13) 0 0 0 (active (leaving .simulate true left l0))
      HeadIs l 0 (if stop then .zoneStop else .zoneSimulate) ∧ busyConfig l = false ∧ (slotAt l 0).arg2.toNat = 0
        ∧ (slotAt l 0).arg3 = 0 ∧ l.active.isSome = true ∧ zoneState l 0 = some .simulate
        ∧ (l.track.sections[0]?).any (fun f => f.desc.zone == 0) = true
        ∧ (openLot l).any (fun x => x.trial && x.verdict == .pending && decide (x.unevaluated = 0) == (left == 0)
            && l.track.lots.all fun y => y.number != x.number || y == x) = true := by
  unfold HeadIs; decide +kernel

theorem witness_ZoneSimulate_inputs :
    ∀ bound ∈ [none, some (⟨0, 100⟩ : RawRange)], ∀ st ∈ [NodeState.faulted, .running], ∀ last ∈ [100, 101],
      let o := channel .outputAnalog
      let c := channel .inputAnalog
      let c := { c with run := { c.run with
        bound := bound, simFlag := true, simSource := some 0, lastSample := some 0 } }
      let l := ask 13 0 0 0 (active (atTime (word last) (nodeOne st []
        (zones (zone .track .simulate [] []) (off [] []) (channels o c l0)))))
      HeadIs l 0 .zoneSimulate ∧ (chan l 1).run.simFlag = true ∧ (chan l 1).run.simSource = some 0
        ∧ (chan l 0).desc.owner = some 0 ∧ (chan l 1).run.bound = bound ∧ (nodeAt l (chan l 1).desc.node).state = st
        ∧ decide ((now l - 0).toNat ≤ (chan l 1).desc.staleLimit) = (last == 100) := by
  unfold HeadIs; decide +kernel

/-! ## Lots, bags and pallets -/

theorem witness_LotOpen :
    ∀ trial ∈ [true, false],
      let z := zone .track (if trial then .simulate else .running) [] []
      let l := ask 14 31 (if trial then 1 else 0) 0 (active (track (zones z (off [] []) l0)))
      HeadIs l 0 .lotOpen ∧ busyConfig l = false ∧ refusal (lotOpenChecks (slotAt l 0) l) = none
        ∧ openLot l = none := by
  unfold HeadIs; decide +kernel

/-- A LOT_OPEN with lot 5 OPEN, beside a lot 1, whose counts are given, the counter at the number given. -/
def changeover (left live counter : Nat) : Line :=
  let x := { newLot 0 5 false 0 0 1 with unevaluated := word left, livePallets := live }
  let y := { newLot 1 1 false 0 0 1 with isOpen := false }
  let l := ask 14 31 0 0 (active (track (zones (zone .track .running [] []) (off [] []) l0)))
  { l with track := { l.track with lots := [x, y], lotCounter := counter } }

theorem witness_LotOpen_changeover :
    ∀ left ∈ [0, 1], ∀ live ∈ [0, 1], ∀ counter ∈ [2, 65534, 65535],
      let l := changeover left live counter
      HeadIs l 0 .lotOpen ∧ busyConfig l = false ∧ refusal (lotOpenChecks (slotAt l 0) l) = none
        ∧ (openLot l).any (fun x => x.verdict == .pending && x.unevaluated == word left && x.livePallets == live
            && decide (x.onTrack = 0) && l.track.lots.all fun y => y.number != x.number || y == x) = true
        ∧ l.pack.pallets = [] ∧ l.pack.feed = [] ∧ l.track.lotCounter ≤ 65535 := by
  unfold HeadIs; decide +kernel

/-- The closing of a changeover: the lot's end, and the counter that goes past 65 535 and past the number held. -/
theorem test_changeover :
    ∀ left ∈ [0, 1], ∀ live ∈ [0, 1], ∀ counter ∈ [(2, 3), (65534, 65535), (65535, 2)],
      let l := closeOpenLot (changeover left live counter.1)
      (lot? l 5).map (fun x => (x.isOpen, x.verdict)) =
          (if left = 1 then some (false, .pending) else if live = 1 then some (false, .empty) else none)
        ∧ nextNumber [1, counter.1] 64 counter.1 = counter.2 := by decide +kernel

theorem witness_LotClose :
    ∀ left ∈ [0, 1],
      let x := { newLot 0 5 false 0 0 1 with unevaluated := word left }
      let l := ask 15 0 0 0 (lot (fun _ => x) l0)
      let l := { l with log := { l.log with reserved := 2 } }
      HeadIs l 0 .lotClose ∧ openLot l = some x ∧ (∀ y ∈ l.track.lots, y.number = x.number → y = x)
        ∧ decide (x.unevaluated = 0) = (left == 0) ∧ x.verdict = .pending ∧ l.pack.pallets = [] ∧ 1 < l.log.reserved
        ∧ openLot (ask 15 0 0 0 l0) = none ∧ HeadIs (ask 15 0 0 0 l0) 0 .lotClose := by
  unfold HeadIs; decide +kernel

theorem witness_LotClose_retires :
    ∀ live ∈ [0, 1],
      let x := { newLot 0 5 false 0 0 1 with livePallets := live }
      let l := lot (fun _ => x) l0
      openLot l = some x ∧ x.onTrack = 0 ∧ l.pack.feed = [] ∧ x.livePallets = live := by decide +kernel

theorem witness_LotFlush :
    let x := { newLot 0 5 false 0 0 1 with isOpen := false, livePallets := 1 }
    let e : FeedEntry := { lot := 5, mass := 3, exit := 0 }
    let l := ask 16 5 0 0 (lot (fun _ => x) l0)
    let l := { l with pack := { l.pack with feed := [e] } }
    HeadIs l 0 .lotFlush ∧ (slotAt l 0).arg2.toNat = x.number ∧ (slotAt l 0).arg3 = 0 ∧ 1 ≤ x.number
      ∧ x.number ≤ 65535 ∧ lot? l x.number = some x ∧ x.isOpen = false ∧ x.onTrack = 0 ∧ x.livePallets ≠ 0
      ∧ l.pack.feed.find? (·.lot == x.number) = some e := by
  unfold HeadIs; decide +kernel

theorem witness_LotFlush_retires :
    ∀ feed ∈ [[], [({ lot := 5, mass := 3, exit := 0 } : FeedEntry)]],
      let x := { newLot 0 5 false 0 0 1 with isOpen := false, verdict := .released }
      let l := ask 16 5 0 0 (lot (fun _ => x) l0)
      let l := { l with pack := { l.pack with feed := feed }, log := { l.log with reserved := 1 } }
      HeadIs l 0 .lotFlush ∧ (slotAt l 0).arg2.toNat = x.number ∧ (slotAt l 0).arg3 = 0 ∧ 1 ≤ x.number
        ∧ x.number ≤ 65535 ∧ lot? l x.number = some x ∧ x.isOpen = false ∧ x.verdict ≠ .pending ∧ x.onTrack = 0
        ∧ x.livePallets = 0 ∧ 0 < l.log.reserved ∧ (l.pack.feed.find? (·.lot == x.number)) = feed.head? := by
  unfold HeadIs; decide +kernel

theorem witness_LotFlush_clears :
    ∀ verdict ∈ [Verdict.pending, .held], ∀ left ∈ [2, 3],
      let x := { newLot 0 5 false 0 0 1 with
        isOpen := false, verdict := verdict, livePallets := 1, onTrack := 2, unevaluated := word left }
      let l := placed (some cell) l0
      let l := ask 16 5 1 0 { l with track := { l.track with lots := [x] } }
      HeadIs l 0 .lotFlush ∧ (slotAt l 0).arg2.toNat = x.number ∧ (slotAt l 0).arg3 = 1
        ∧ lot? l x.number = some x ∧ x.isOpen = false ∧ x.livePallets ≠ 0 ∧ l.pack.pallets = []
        ∧ (l.track.sections[0]?).any (·.desc.criterion == .freeze) = true ∧ l.track.sections.length = 1
        ∧ decide (x.unevaluated = word cell.units) = (left == 2) := by
  unfold HeadIs; decide +kernel

theorem witness_InjectBag :
    ∀ feed ∈ [[], [({ lot := 5, mass := 3, exit := 0 } : FeedEntry)]],
      let l := ask 17 65535 0 0 (active (zones (off [] []) (zone .bag .simulate [] []) l0))
      let l := { l with pack := { l.pack with feed := feed } }
      HeadIs l 0 .injectBag ∧ (slotAt l 0).arg2.toNat ≤ 65535 ∧ l.active.isSome = true
        ∧ kindIn l .bag .simulate = true ∧ l.pack.feed = feed := by
  unfold HeadIs; decide +kernel

theorem witness_BagDone :
    ∀ st ∈ [ZoneState.running, .off], ∀ feed ∈ [[], [({ lot := 5, mass := 3, exit := 0 } : FeedEntry)]],
      let l := zones (off [] []) (zone .bag st [] []) (lot (fun x => { x with onTrack := 1 }) l0)
      let l := { l with pack := { l.pack with feed := feed } }
      bagRunning l = (st == .running) ∧ l.pack.feed = feed
        ∧ ((drawMass feed 65535).shares.all fun e => (lot? l e.lot).any (·.onTrack != 0)) = true
        ∧ ((drawMass feed 65535).shares.map (·.lot)).Nodup := by decide +kernel

/-- Feed entries of lots 5, 6 and 7 of 3 grams each. -/
def feedOfThree : List FeedEntry := [{ lot := 5, mass := 3, exit := 0 }, { lot := 6, mass := 3, exit := 0 },
  { lot := 7, mass := 3, exit := 0 }]

theorem witness_InjectBag_shares :
    ∀ w ∈ [(0, 1), (3, 1), (4, 2), (6, 2), (7, 3), (65535, 3)],
      (drawMass feedOfThree w.1).shares.length = w.2
        ∧ ((drawMass feedOfThree w.1).shares.map (·.lot)).Nodup := by decide +kernel

/-- Lots 5 and 6, with what tells the lane tests apart: a trial lot, its recipe's bag maximum, the second lot's recipe
and verdict. -/
def twoLots (trial : Bool) (bagMax other : Nat) (verdict : Verdict) (l : Line) : Line :=
  { l with
    track := { l.track with
      lots :=
        [{ newLot 0 5 trial 0 0 1 with onTrack := 1 }, { newLot 1 6 false other 0 2 with verdict := verdict, onTrack := 1 }]
      recipes := List.replicate 32 (some { recipe with bagMin := 0, bagMax := bagMax }) } }

theorem witness_InjectBag_tests :
    ∀ t ∈ [true, false], ∀ m ∈ [4, 3], ∀ other ∈ [0, 1], ∀ v ∈ [Verdict.held, .released],
      let l := twoLots t m other v l0
      let listed := ((drawMass feedOfThree 4).shares.map (·.lot)).take 2
      let lots := listed.filterMap (lot? l)
      listed = [5, 6] ∧ lots.any (·.trial) = t ∧ (lotRecipe l 5).any (fun r => r.bagMax < 4) = (m == 3)
        ∧ lots.any (fun x => lots.any fun y => x.recipe != y.recipe) = (other == 1)
        ∧ lots.any (·.verdict == .held) = (v == .held) ∧ lots.all (·.onTrack != 0) = true := by decide +kernel

theorem witness_InjectBag_pallet :
    ∀ n ∈ [6, 7],
      let others := (List.range n).map fun k => ({ lot := 10 + k, bags := 1, provisional := 0 } : PalletLot)
      let l := pallet (fun p => { p with lots := others }) l0
      (openPallet l .release).any (fun p => p.number == 4 && p.lots.length == n
          && ([5, 6].filter fun k => !p.lots.any (·.lot == k)).length == 2) = true
        ∧ (pallet? l 4).any (·.state == .opened) = true ∧ openPallet l .hold = none
        ∧ decide (n + 2 ≤ 8) = (n == 6) := by decide +kernel

theorem witness_InjectBag_reopens :
    ∀ room ∈ [0, 1], ∀ st ∈ [ZoneState.running, .off],
      let others := (List.range 8).map fun k => ({ lot := 10 + k, bags := 1, provisional := 0 } : PalletLot)
      let l := zones (off [] []) (zone .bag st [] []) (pallet (fun p => { p with lots := others }) l0)
      let p := l.pack.pallets ++ (l.pack.pallets.map fun p => { p with pos := 1, number := 5, lane := .hold })
      let l := { l with pack := { l.pack with pallets := p }, log := { l.log with reserved := 1024 - room } }
      bagRunning l = (st == .running) ∧ l.pack.pallets.length < 32 ∧ freeUnreserved l.log = room
        ∧ (openPallet l .release).any (·.lots.length == 8) = true ∧ (openPallet l .hold).isSome = true
        ∧ (l.pack.pallets.map (·.number)).Nodup ∧ l.pack.palletCounter = 1
        ∧ (l.pack.pallets.all fun q => q.number != 1 && (q.lane != .release || q.number == 4)) = true := by
  decide +kernel

/-- A bag of 4 grams from lots 5 and 6 joins pallet 4, which lists lot 5: its bags, exposure start and deadline given, the
path busy. -/
def joining (bags : Nat) (start deadline : Option Word) : Line :=
  atTime 2000 (active (transit 9 0 (pallet (fun p =>
    { p with bags := bags, exposureStart := start, deadline := deadline }) (twoLots false 9 0 .pending l0))))

theorem witness_PalletJoined :
    ∀ bags ∈ [18, 19], ∀ first ∈ [none, some 500, some 1500], ∀ due ∈ [none, some 1900, some 2500],
      let start := first.map word
      let deadline := due.map word
      let l := joining bags start deadline
      let p := (pallet? l 4).getD (newPallet 0 0 .hold)
      l.active = some general ∧ pallet? l 4 = some p ∧ p.number = 4 ∧ p.state = .opened ∧ p.bags = bags
        ∧ p.exposureStart = start ∧ p.deadline = deadline
        ∧ (lotRecipe l 5).map (·.exposureLimit) = some 1 ∧ (lotRecipe l 6).map (·.exposureLimit) = some 1
        ∧ decide (general.palletCapacity ≤ p.bags + 1) = (bags == 19) ∧ l.transfer.transit.isSome = true
        ∧ ([5, 6] : List Nat).Nodup ∧ (p.lots.map (·.lot)).Nodup ∧ ([5, 6].filter fun n => !p.lots.any (·.lot == n)) = [6]
        ∧ ([5, 6].all fun n => (lot? l n).any (·.onTrack != 0)) = true := by decide +kernel

/-- What such joins leave: the deadline is the earlier one, the pallet closes at its capacity, a deadline just set that
has passed runs out after the closing, and one that the pallet had before does not. -/
theorem test_joins :
    ∀ k ∈ [((18 : Nat), (none : Option Word), (1500 : Word), (2500 : Word), PalletState.opened, CloseReason.none, false),
        (19, none, 1500, 2500, .closed, .capacity, false), (19, none, 1000, 2000, .closed, .capacity, true), (18, some 1900, 1000, 1900, .opened, .none, false)],
      let l := joining k.1 none k.2.1
      let p := (pallet? l 4).getD (newPallet 0 0 .release)
      ∀ q ∈ pallet? (joinPallet p 4 [5, 6] k.2.2.1 true l) 4,
        q.deadline = some k.2.2.2.1 ∧ q.state = k.2.2.2.2.1 ∧ q.reason = k.2.2.2.2.2.1 ∧ q.exposed = k.2.2.2.2.2.2
          ∧ q.lots = [{ lot := 5, bags := 2, provisional := 1 }, { lot := 6, bags := 0, provisional := 0 }] := by
  decide +kernel

theorem witness_PalletClose :
    ∀ lane ∈ [Lane.release, .hold], ∀ bags ∈ [0, 1],
      let l := ask 18 (if lane = .release then 0 else 1) 0 0
        (transit 9 0 (pallet (fun p => { p with lane := lane, bags := bags }) l0))
      HeadIs l 0 .palletClose ∧ (slotAt l 0).arg2 = (if lane = .release then 0 else 1)
        ∧ (openPallet l lane).isSome = true ∧ bagRunning l = false ∧ (pallet? l 4).any (·.bags == bags) = true
        ∧ l.transfer.transit.isSome = true := by
  unfold HeadIs; decide +kernel

theorem witness_PalletConfirm :
    let l := ask 19 4 0 0 (lot id (pallet (fun p => { p with state := .unconfirmed }) l0))
    HeadIs l 0 .palletConfirm ∧ (slotAt l 0).arg2.toNat = 4 ∧ (pallet? l 4).any (·.state == .unconfirmed) = true
      ∧ (pallet? l 4).any (fun p => p.lots.any (fun e => (lot? l e.lot).any (·.verdict == .pending))) = true := by
  unfold HeadIs; decide +kernel

theorem witness_PalletConfirm_resolves :
    ∀ lane ∈ [Lane.release, .hold], ∀ exposed ∈ [true, false], ∀ v ∈ [Verdict.released, .held],
      let l := ask 19 4 0 0 (lot (fun x => { x with verdict := v, livePallets := 1 })
        (pallet (fun p => { p with state := .unconfirmed, lane := lane, exposed := exposed }) l0))
      let l := { l with
        pack := { l.pack with feed := [{ lot := 5, mass := 3, exit := 0 }] }, log := { l.log with reserved := 1 } }
      HeadIs l 0 .palletConfirm ∧ bagRunning l = false ∧ 0 < l.log.reserved
        ∧ (pallet? l 4).any (fun p => p.state == .unconfirmed && p.lane == lane && p.exposed == exposed
            && decide (p.lots.map (·.lot)).Nodup
            && p.lots.all fun e => (l.pack.feed.any (·.lot == e.lot))
                && (lot? l e.lot).any fun x => x.verdict == v && x.verdict != .pending) = true := by
  unfold HeadIs; decide +kernel

theorem witness_StoreConfirmation :
    ∀ v ∈ [Verdict.pending, .released], ∀ st ∈ [PalletState.inTransit, .unconfirmed, .closed], ∀ n ∈ [4, 9],
      let l := lot (fun x => { x with verdict := v }) (pallet (fun p => { p with state := st }) l0)
      let l := if n = 9 ∨ st = .inTransit then transit 4 9 l else l
      (pallet? l 4).any (fun p => p.state == st
          && (p.lots.any fun e => (lot? l e.lot).any (·.verdict == .pending)) == (v == .pending)) = true
        ∧ pallet? l 9 = none ∧ (l.transfer.transit.map (·.number)) = (if n = 9 ∨ st = .inTransit then some 4 else none) := by
  decide +kernel

theorem witness_ResolvePallet :
    ∀ live ∈ [0, 1],
      let l := lot (fun x => { x with isOpen := false, verdict := .released, livePallets := live }) (pallet id l0)
      let l := { l with log := { l.log with reserved := 1 } }
      0 < l.log.reserved ∧ (pallet? l 4).any (fun p => decide (p.lots.map (·.lot)).Nodup) = true
        ∧ (lot? l 5).any (fun x => !x.isOpen && x.verdict != .pending && x.onTrack == 0 && x.livePallets == live) = true
        ∧ l.pack.feed = [] := by decide +kernel

theorem witness_JudgeDispatch :
    ∀ st ∈ [ZoneState.running, .off], ∀ q ∈ [PalletState.closed, .stored],
      let l := active (zones (off [] []) (zone .transfer st [] []) (pallet (fun p => { p with state := q }) l0))
      l.active = some general ∧ l.transfer.transit = none ∧ kindIn l .transfer .running = (st == .running)
        ∧ (l.pack.pallets.any (·.state == .closed)) = (q == .closed) := by decide +kernel

/-! ## Timers -/

theorem witness_Quality :
    ∀ flag ∈ [true, false],
      let c := channel .inputAnalog
      let l := channels { c with run := { c.run with timer := .running 0, simFlag := flag } } c l0
      (0#8 : BitVec 8).toNat < l.chans.length ∧ (chan l 0).run.timer = .running 0 ∧ reached (now l) 0 = true
        ∧ (chan l 0).run.simFlag = flag := by decide +kernel

/-- Zone 0 in the state given, whose condition 0 looks at channel 1 and whose conditions 1 and 2 look at channel 0 from 5
up, the first of the two with the threshold given. -/
def judging (limit : Int) (loss : Bool) (l : Line) : Line :=
  let z := zone .track .running [] []
  let on_ (i : Nat) (limit : Int) (loss : Bool) : Condition :=
    { channel := i, cmp := .ge, limit := limit, tripOnLoss := loss }
  zones { z with desc := { z.desc with conditions := [on_ 1 0 true, on_ 0 limit loss, on_ 0 5 true] } } (off [] [])
    (channels { channel .inputAnalog with run := { (channel .inputAnalog).run with timer := .running 0 } }
      (channel .inputAnalog) l)

theorem witness_Quality_trips :
    ∀ limit ∈ [5, 6],
      let l := judging limit (limit == 5) l0
      let k := if limit = 5 then 1 else 2
      (zone? l 0).any (fun z => z.run.state.isActive
          && (z.desc.conditions[k]?).any (fun d => d.channel == 0 && meets d.cmp 5 d.limit && d.tripOnLoss)
          && (z.desc.conditions.take k).all fun e => e.channel != 0 || (!meets e.cmp 5 e.limit && !e.tripOnLoss)) = true
        ∧ (chan l 0).run.timer = .running 0 ∧ reached (now l) 0 = true ∧ 0 < l.chans.length
        ∧ (zone? (freshSample 0 5 l) 0).map (·.run.cause) = some (.condition k)
        ∧ (zone? (staleExpires 0 l) 0).map (·.run.cause) = some (.conditionLost k) := by decide +kernel

theorem witness_WatchdogExpiry :
    let l := atTime 100 (active behind)
    let l := { l with status := { l.status with watchdog := .running } }
    l.status.watchdog = .running ∧ l.active = some general ∧ l.zones.length = Config.zoneCount
      ∧ general.heartbeatLimit ≤ (now l - l.status.restart).toNat
      ∧ (zone? l 0).any (fun z => z.desc.guarded && z.run.state.isActive) = true := by decide +kernel

/-- A guarded zone, one that names it, one that names that one, and one apart, all RUNNING; the link in the state given,
quiet or with a one-shot on it; the OPEN lot given. -/
def guarding (link : LinkState) (quiet : Bool) (lots : List Lot) : Line :=
  let first := zone .track .running [] []
  let named (ws : List Nat) : Zone := { first with desc := { first.desc with prereqs := ws, guarded := false } }
  let l := if quiet then l0 else waiting (awaiting .pget (.oneShot oneShot) false) l0
  let l := atTime 100 (active (linkIn link { track l with
    zones := [some first, some (named [0]), some (named [1]), some (named []), none, none, none, none] }))
  { l with status := { l.status with watchdog := .running }, track := { l.track with lots := lots } }

theorem witness_WatchdogExpiry_effects :
    ∀ link ∈ [LinkState.idle, .scanning, .halting], ∀ quiet ∈ [true, false],
      ∀ lots ∈ [[], [{ newLot 0 5 false 0 0 1 with unevaluated := 1 }], [newLot 0 5 false 0 0 1]],
      let l := guarding link quiet lots
      l.status.watchdog = .running ∧ l.zones.length = Config.zoneCount ∧ linkScans l = (link != .idle)
        ∧ decide (l.link.busy = .quiet) = quiet ∧ general.heartbeatLimit ≤ (now l - l.status.restart).toNat
        ∧ (l.track.sections[0]?).any (fun f => isRunning l f.desc.zone) = true
        ∧ (openLot l).all (fun x => !x.trial && x.verdict == .pending
            && l.track.lots.all fun y => y.number != x.number || y == x) = true
        ∧ (openLot l).isNone = (lots == []) := by decide +kernel

/-- The guarded zone and those behind it trip, the one apart stays; WATCHDOG stands in the log before the trips. -/
theorem test_watchdogExpires :
    let l := watchdogExpires (guarding .scanning true [])
    (List.range 4).map (zoneState l) = [some .tripped, some .tripped, some .tripped, some .running]
      ∧ ((l.log.entries.take 5).map fun e => e.map (·.kind)) =
          [some .watchdog, some .zoneTrip, some .zoneTrip, some .zoneTrip, none]
      ∧ (l.log.entries.head?.bind id).map (·.payload) = some [7] ∧ l.link.busy = .safe none := by decide +kernel

/-- A sample of 5 on channel 0 trips zone 0 of `judging`; no section and no wait looks at the channel, and no lot is
OPEN. -/
theorem witness_Quality_records :
    let l := judging 5 true l0
    (l.track.sections.all fun f => f.desc.motion != 0 && (f.desc.criterion == .none || f.desc.criterionChan != 0)) = true
      ∧ ((List.range 8).all fun y => (currentStep l y).isNone) = true ∧ openLot l = none
      ∧ ((freshSample 0 5 l).log.entries.take 2).map (fun e => e.map (·.kind)) = [some .zoneTrip, none] := by
  decide +kernel

theorem witness_StepDeadlines_waitTime :
    ∀ p ∈ [Program.start, .stop], ∀ pending ∈ [true, false], ∀ before ∈ [[], passing],
      ∀ rest ∈ [[], [Machine.Step.waitTime 5], [.waitUntil 1 .ge 6 9]],
      let steps := before ++ ([Machine.Step.waitTime 5] ++ (passing ++ rest))
      let z := if p = .start then zone .track .starting steps [] else zone .track .stopping [] steps
      let k := before.length + 1
      let z := inProgram p k 5 { z with run := { z.run with runPending := pending } }
      let l := atTime 5 (stepping (zones z (off [] []) l0))
      zone? l 0 = some z ∧ z.run.program = some (p, k) ∧ 1 ≤ k
        ∧ steps = (if p = .start then z.desc.startProgram else z.desc.stopProgram)
        ∧ z.run.state = (if p = .start then .starting else .stopping)
        ∧ steps[k - 1]? = some (.waitTime 5) ∧ steps.drop k = passing ++ rest ∧ l.chans = (stepping l0).chans
        ∧ z.run.deadline = some 5 ∧ reached (now l) 5 = true ∧ z.run.runPending = pending
        ∧ prereqsRun l 0 = true := by decide +kernel

theorem witness_StepDeadlines_met :
    ∀ p ∈ [Program.start, .stop], ∀ rest ∈ [[], [Machine.Step.waitTime 5]],
      let steps := [Machine.Step.waitUntil 1 .ge 6 9] ++ ([.set 0 7] ++ rest)
      let z := if p = .start then zone .track .starting steps [] else zone .track .stopping [] steps
      let z := inProgram p 1 9 z
      let l := stepping (zones z (off [] []) l0)
      zone? l 0 = some z ∧ z.run.program = some (p, 1)
        ∧ steps = (if p = .start then z.desc.startProgram else z.desc.stopProgram)
        ∧ z.run.state = (if p = .start then .starting else .stopping)
        ∧ steps[0]? = some (.waitUntil 1 .ge 6 9) ∧ meets .ge 6 6 = true ∧ steps.drop 1 = [.set 0 7] ++ rest
        ∧ (l.zones.all fun y => y.all fun x => x.desc.conditions == []) = true
        ∧ ((List.range 8).all fun y => y == 0 || (currentStep l y).isNone) = true := by decide +kernel

theorem witness_StepDeadlines_waitUntil :
    let z := inProgram .stop 1 5 (zone .track .stopping [] [.waitUntil 0 .ge 3 5])
    let l := atTime 5 (zones z (off [] []) l0)
    0 < l.zones.length ∧ zone? l 0 = some z ∧ z.run.program = some (.stop, 1)
      ∧ currentStep l 0 = some (.waitUntil 0 .ge 3 5) ∧ z.run.deadline = some 5 ∧ reached (now l) 5 = true := by
  decide +kernel

theorem witness_ExposureExpiry :
    let l := lot id (pallet (fun p => { p with state := .closed, timer := .running, deadline := some 0 }) l0)
    (pallet? l (4#16 : BitVec 16).toNat).any
        (fun p => p.timer == .running && p.deadline == some 0 && p.state != .opened
          && p.lots.any fun e => (lot? l e.lot).isSome) = true
      ∧ reached (now l) 0 = true ∧ ([5] : List Nat).Nodup := by decide +kernel

theorem witness_ExposureExpiry_open :
    ∀ bag ∈ [ZoneState.running, .off], ∀ path ∈ [ZoneState.running, .off], ∀ queued ∈ [true, false],
      let l := lot id (pallet (fun p => { p with timer := .running, deadline := some 0 }) l0)
      let l := active (zones (zone .bag bag [] []) (zone .transfer path [] []) l)
      let others := l.pack.pallets.map fun p => { p with pos := 1, number := 5, lane := .hold }
      let waits := if queued then l.pack.pallets.map fun p => { p with pos := 2, number := 6, state := .closed } else []
      let l := { l with
        pack := { l.pack with pallets := l.pack.pallets ++ others ++ waits }, log := { l.log with reserved := 1018 } }
      (pallet? l (4#16 : BitVec 16).toNat).any
          (fun p => p.timer == .running && p.deadline == some 0 && p.state == .opened && p.lane == .release) = true
        ∧ reached (now l) 0 = true ∧ l.transfer.transit = none ∧ l.active = some general
        ∧ kindIn l .transfer .running = (path == .running) ∧ bagRunning l = (bag == .running)
        ∧ (l.pack.pallets.all (·.state != .closed)) = !queued ∧ l.pack.pallets.length < 32
        ∧ reserveFloor l + 2 = freeUnreserved l.log ∧ (openPallet l .hold).isSome = true
        ∧ (l.pack.pallets.all fun q => q.lane != .release || q.state != .opened || q.number == 4) = true
        ∧ (l.pack.pallets.map (·.number)).Nodup := by decide +kernel

theorem witness_TransitExpiry :
    let l := transit 4 0 (pallet (fun p => { p with state := .inTransit }) l0)
    l.transfer.transit = some { number := 4, deadline := 0 } ∧ reached (now l) 0 = true
      ∧ (pallet? l 4).any (·.state == .inTransit) = true ∧ transferQueue l = [] := by decide +kernel

theorem witness_TransitExpiry_dispatches :
    let p : Pallet :=
      { pos := 0, number := 4, lane := .release, state := .inTransit, bags := 1, mass := 10, lots := [],
        exposureStart := none, deadline := some 5, exposed := false, reason := .none, joinOrder := some 0, timer := .idle }
    let q := { p with pos := 1, number := 7, state := .closed, joinOrder := some 2 }
    let l := transit 4 0 (active (zones (off [] []) (zone .transfer .running [] []) l0))
    let l := { l with pack := { l.pack with pallets := [p, q, { q with pos := 2, number := 6, joinOrder := some 1 }] } }
    l.active = some general ∧ kindIn l .transfer .running = true ∧ pallet? l 4 = some p
      ∧ (∃ q ∈ l.pack.pallets, q.state = .closed)
      ∧ ∀ q ∈ l.pack.pallets, q.state = .closed → q.number ≠ 4 ∧ (orZero q.deadline - 0).toNat < 2 ^ 31
          ∧ (orZero q.joinOrder - 0).toNat < 2 ^ 31 := by decide +kernel

/-! ## The track's cells -/

/-- Channels 0 and 1 drive and judge section 0; no zone looks at them. -/
def tracked (c : Option TrackCell) (stored : Option StoredCount) : Line :=
  let a := channel .inputCounter
  let b := channel .inputAnalog
  let l := placed c (zones (off [] []) (off [] [])
    (channels { a with run := { a.run with timer := .running 0 } } { b with run := { b.run with timer := .running 0 } } l0))
  { l with track := { l.track with motion := stored :: List.replicate 255 none } }

theorem witness_Track_unwatched :
    ∀ i ∈ [0, 1], ∀ z ∈ [0, 1, 7, 8],
      let l := tracked (some cell) none
      i < l.chans.length ∧ (chan l i).run.simFlag = false ∧ (chan l i).run.timer = .running 0
        ∧ reached (now l) 0 = true ∧ (zone? l z).all (fun w => w.desc.conditions == []) = true
        ∧ currentStep l z = none := by decide +kernel

theorem witness_Track_motion :
    ∀ stored ∈ [none, some ({ count := 65535, simulated := true } : StoredCount),
        some { count := 65535, simulated := false }],
      let l := tracked (some cell) stored
      0 < l.track.motion.length ∧ l.track.motion[0]? = some stored ∧ (chan l 0).run.simFlag = false
        ∧ (l.track.sections.any fun f => f.desc.motion == 0) = true
        ∧ (l.track.sections.all fun f => f.desc.criterionChan != 0 && decide (0 < f.desc.countsPerCell)
            && decide ((2 + 65536 - 65535 + f.remainder) / f.desc.countsPerCell ≤ 3)) = true := by decide +kernel

theorem witness_Track_shift :
    ∀ c ∈ [none, some cell],
      let l := tracked c none
      let closed := { l with track := { l.track with lots := l.track.lots.map fun x => { x with isOpen := false } } }
      (l.track.sections[0]?).any (fun f => f.places == [c]) = true ∧ (openLot l).isSome = true
        ∧ openLot closed = none ∧ finalSection l = some 0 ∧ blanchSection l = none := by decide +kernel

theorem witness_Track_evaluation :
    ∀ isOpen ∈ [true, false],
      let l := placed (some cell) l0
      let x := { newLot 0 5 false 0 0 1 with isOpen := isOpen, unevaluated := 3, onTrack := 3 }
      let l := { l with track := { l.track with lots := [x] } }
      lotRecipe l cell.lot = some recipe ∧ lot? l cell.lot = some x ∧ x.unevaluated ≠ word cell.units
        ∧ ({ cell with overall := some .short } : TrackCell).overall = some .short ∧ l.pack.feed = [] := by
  decide +kernel

theorem witness_Track_feedTail :
    ([{ lot := 4, mass := 1, exit := 0 }, { lot := 5, mass := 3, exit := 0 }] : List FeedEntry) =
        [{ lot := 4, mass := 1, exit := 0 }] ++ [{ lot := 5, mass := 3, exit := 0 }]
      ∧ ({ lot := 5, mass := 3, exit := 0 } : FeedEntry).lot = cell.lot := by decide

theorem witness_Track_placement :
    ∀ number ∈ [5, 6],
      let c := { cell with lot := number, units := 65534 }
      let x := { newLot 0 5 false 0 0 1 with isOpen := false, unevaluated := 3 }
      let l := placed (some cell) l0
      let l := { l with track := { l.track with lots := [x, newLot 1 6 false 0 0 2] } }
      ((placed none l0).track.sections[0]?).any (fun f => f.places == [none]) = true
        ∧ (l.track.sections[0]?).any (fun f => f.places == [some cell]) = true ∧ pastFinal l 0 = false
        ∧ decide (c.lot = cell.lot) = (number == 5) ∧ lot? l cell.lot = some x ∧ x.verdict = .pending
        ∧ x.unevaluated ≠ word cell.units ∧ c.units + cell.units - 65535 = 1 := by decide +kernel

theorem witness_Track_criterion :
    ∀ decimals ∈ [0, 1, 2, 3],
      let l := tracked (some cell) none
      let l := { l with chans := l.chans.modify 1 fun c => { c with desc := { c.desc with decimals := decimals } } }
      (l.track.sections.all fun f => f.desc.motion != 1 && f.desc.criterionChan == 1) = true
        ∧ (chan l 1).desc.decimals = decimals := by decide +kernel

end Sys2Proof.Tests
end

section
/-! SUPPORT. The commands of the status block and of a slot's word 0, and the writes to the part-owned area: one
equation per command, and what a full-word and a partial write to a part-owned word do (R6, R7, R18 to R20, R26, R27). -/

namespace Sys2Proof.Machine

/-! ## The commands -/

theorem exec_noticeWordWrite (data : Word) (s : State) :
    exec (.noticeWordWrite data) s = .next (s.onLine (clearNotices (hostValue s data))) := rfl

theorem exec_noticeEnableWrite (data : Word) (s : State) :
    exec (.noticeEnableWrite data) s = .next (s.onLine (setEnables (hostValue s data))) := rfl

theorem exec_submission (slot : BitVec 4) (s : State) :
    exec (.submission slot) s =
      .next (s.onLine (slotWrite (slotAddress s.path.straps slot.toNat 0) slot.toNat 0 1)) := rfl

theorem exec_slotFree (slot : BitVec 4) (s : State) :
    exec (.slotFree slot) s =
      .next (s.onLine (slotWrite (slotAddress s.path.straps slot.toNat 0) slot.toNat 0 0)) := rfl

theorem exec_discardedWrite (addr : Word) (be : BitVec 4) (data : Word) (s : State) :
    exec (.discardedWrite addr be data) s = .next (hostWrite addr be data s) := rfl

/-! ## Writes to the part-owned area -/

theorem onLine_congr {s : State} {f g : Line → Line} (h : f s.line = g s.line) : s.onLine f = s.onLine g := by
  rw [State.onLine, State.onLine, h]

/-- A discarded write touches the last bad write address and the notices only (R7). -/
theorem onLine_badWrite (addr : Word) (s : State) :
    s.onLine (badWrite addr) =
      { s with
        line := { s.line with
          status := { s.line.status with
            lastBad := addr, notices := s.line.status.notices ||| Notice.badWrite.mask } } } := rfl

theorem hostWrite_part_partial {addr : Word} {be : BitVec 4} {s : State} {off : Nat} (data : Word) (h0 : be ≠ 0)
    (h15 : be ≠ 15) (hc : classify s.path.straps s.line.matchTable (wordAddress addr) = .part off) :
    hostWrite addr be data s = s.onLine (badWrite addr) := by
  have hp : fullWord be = false := by simpa [fullWord] using h15
  simp only [hostWrite, if_neg h0, hc, hp, Bool.false_eq_true, if_false]

theorem hostWrite_part_full {addr : Word} {s : State} {off : Nat} (data : Word)
    (hc : classify s.path.straps s.line.matchTable (wordAddress addr) = .part off) :
    hostWrite addr 15 data s = s.onLine (partWrite addr off (hostValue s data)) := by
  have hf : fullWord 15 = true := by decide
  have h0 : (15 : BitVec 4) ≠ 0 := by decide
  simp only [hostWrite, if_neg h0, hc, hf, if_true, hostValue]

/-- A partial write to a part-owned word is discarded (R6, R7). -/
theorem exec_discardedWrite_partial {addr : Word} {be : BitVec 4} {s : State} {off : Nat} (data : Word) (h0 : be ≠ 0)
    (h15 : be ≠ 15) (hc : classify s.path.straps s.line.matchTable (wordAddress addr) = .part off) :
    exec (.discardedWrite addr be data) s = .next (s.onLine (badWrite addr)) := by
  rw [exec_discardedWrite, hostWrite_part_partial data h0 h15 hc]

/-- The part-owned word at 0x100 + 64 i is word 0 of slot i (2.1). -/
theorem partWrite_slotState {i : Nat} (hi : i < 16) (addr v : Word) (l : Line) :
    partWrite addr (0x100 + 64 * i) v l = slotWrite addr i 0 v l := by
  have hslot : (0x100 + 64 * i - 0x100) / 64 = i := by omega
  have hword : (0x100 + 64 * i - 0x100) % 64 / 4 = 0 := by omega
  have hrange : 0x100 ≤ 0x100 + 64 * i ∧ 0x100 + 64 * i < 0x500 := by omega
  rw [partWrite, if_neg (by omega), if_neg (by omega), if_neg (by omega), if_neg (by omega), if_pos hrange, hslot,
    hword]

end Sys2Proof.Machine
end

section
/-! SUPPORT. The notices bit by bit (2.6): a notice is its bit of the notice word, and what a raising, a clearing and
the enables do to the bits (R26, R27). -/

namespace Sys2Proof.Machine

/-- Two bit vectors have a common bit exactly while their conjunction is not 0. -/
theorem and_bne_zero_iff {w : Nat} (x y : BitVec w) :
    (x &&& y != 0) = true ↔ ∃ k, k < w ∧ x.getLsbD k = true ∧ y.getLsbD k = true := by
  rw [bne_iff_ne]
  constructor
  · intro hne
    refine Classical.byContradiction fun hnone => hne (BitVec.eq_of_getLsbD_eq fun k hk => ?_)
    have hclear : (x.getLsbD k && y.getLsbD k) = false :=
      Bool.eq_false_iff.mpr fun hboth => hnone ⟨k, hk, Bool.and_eq_true_iff.mp hboth⟩
    rw [BitVec.getLsbD_and, hclear]
    exact BitVec.getLsbD_zero.symm
  · rintro ⟨k, -, hx, hy⟩ hzero
    have hbit : (x &&& y).getLsbD k = true := by rw [BitVec.getLsbD_and, hx, hy]; rfl
    rw [hzero] at hbit
    exact absurd (BitVec.getLsbD_zero.symm.trans hbit) Bool.false_ne_true

theorem Notice.bit_lt (n : Notice) : n.bit < 18 := by cases n <;> decide

theorem Notice.getLsbD_mask (n : Notice) (k : Nat) : n.mask.getLsbD k = decide (n.bit = k) := by
  have hpow : n.mask = BitVec.twoPow 18 n.bit := rfl
  rw [hpow, BitVec.getLsbD_twoPow, decide_eq_true n.bit_lt, Bool.true_and]

theorem noticeSet_eq_getLsbD (l : Line) (n : Notice) : noticeSet l n = l.status.notices.getLsbD n.bit := by
  rw [Bool.eq_iff_iff, noticeSet, and_bne_zero_iff]
  constructor
  · rintro ⟨k, -, hset, hmask⟩
    obtain rfl : n.bit = k := by simpa [n.getLsbD_mask] using hmask
    exact hset
  · exact fun hset => ⟨n.bit, n.bit_lt, hset, by simp [n.getLsbD_mask]⟩

theorem noticeSet_raise (n m : Notice) (l : Line) : noticeSet (raise n l) m = (noticeSet l m || decide (m = n)) := by
  by_cases h : m = n
  · subst h; simp [raise_noticeSet_self]
  · simp [noticeSet_raise_ne l h, h]

/-- A clearing bit by bit: bit k of the written value clears notice k, and the bits above the eighteen are ignored. -/
theorem getLsbD_clearNotices (v : Word) (l : Line) {k : Nat} (hk : k < 18) :
    (clearNotices v l).status.notices.getLsbD k = (l.status.notices.getLsbD k && !v.getLsbD k) := by
  simp [clearNotices, hk]

theorem noticeSet_clearNotices (v : Word) (l : Line) (n : Notice) :
    noticeSet (clearNotices v l) n = (noticeSet l n && !v.getLsbD n.bit) := by
  rw [noticeSet_eq_getLsbD, noticeSet_eq_getLsbD, getLsbD_clearNotices v l n.bit_lt]

theorem getLsbD_setEnables (v : Word) (l : Line) {k : Nat} (hk : k < 18) :
    (setEnables v l).status.enables.getLsbD k = v.getLsbD k := by
  simp [setEnables, hk]

theorem partWord_notices (st : Straps) (l : Line) : partWord st l 0x00 = l.status.notices.setWidth 32 := rfl

theorem partWord_enables (st : Straps) (l : Line) : partWord st l 0x04 = l.status.enables.setWidth 32 := rfl

/-- An eighteen-bit field shown in a word reads 0 above the eighteen. -/
theorem getLsbD_setWidth_word (x : BitVec 18) {k : Nat} (hk : k < 32) :
    (x.setWidth 32).getLsbD k = (decide (k < 18) && x.getLsbD k) := by
  by_cases h : k < 18
  · simp [h, hk]
  · simp [h, BitVec.getLsbD_of_ge x k (by omega)]

end Sys2Proof.Machine
end

section
/-! SUPPORT. Word 0 of a request slot: which write submits, which frees and which is discarded (R19, R20). -/

namespace Sys2Proof.Machine

theorem slotWrite_one_of_open {l : Line} {i : Nat} (addr : Word) (h : slotOpen (slotAt l i) = true) :
    slotWrite addr i 0 1 l = submitSlot i l := by
  simp [slotWrite, h]

theorem slotWrite_zero_of_done {l : Line} {i : Nat} (addr : Word) (h : (slotAt l i).state = .done) :
    slotWrite addr i 0 0 l = freeSlot i l := by
  simp [slotWrite, h]

theorem slotWrite_zero_of_not_done {l : Line} {i : Nat} (addr : Word) (h : (slotAt l i).state ≠ .done) :
    slotWrite addr i 0 0 l = badWrite addr l := by
  simp [slotWrite, h]

theorem slotWrite_other_value {v : Word} (h0 : v ≠ 0) (h1 : v ≠ 1) (addr : Word) (i : Nat) (l : Line) :
    slotWrite addr i 0 v l = badWrite addr l := by
  rw [slotWrite, if_pos rfl, if_neg (fun h => h1 h.1), if_neg (fun h => h0 h.1)]

theorem freeSlot_eq_set (i : Nat) (l : Line) :
    freeSlot i l =
      { l with request := { l.request with slots := l.request.slots.set i (clearResult .free (slotAt l i)) } } := by
  rw [freeSlot, changeSlot, change, modify_eq_set _ _ _ Slot.empty, slotAt]

theorem slotAt_submitSlot {l : Line} {i : Nat} (hi : i < l.request.slots.length) :
    slotAt (submitSlot i l) i = clearResult .submitted (slotAt l i) := by
  have hslot := slotAt_changeSlot i i (clearResult .submitted) l
  rwa [if_pos ⟨rfl, hi⟩] at hslot

end Sys2Proof.Machine
end

section
/-! The statements of the notices and the attention line (R26, R27), and of a slot's freeing (R20). -/

namespace Sys2Proof.Machine

/-- Settles O21: a notice is a bit of the notice word, and a raising and a clearing are read off bit by bit. -/
theorem noticeWordWriteClearsTheWrittenBits : Obligations.NoticeWordWriteClearsTheWrittenBits := by
  refine ⟨fun n m l => ⟨noticeSet_raise n m l, rfl, rfl⟩, fun data s => ?cleared,
    fun data s n hbit => ⟨?after, ?before⟩, fun addr be data s h0 h15 hc => ?partialWrite⟩
  case cleared =>
    exact ⟨_, exec_noticeWordWrite data s, fun k hk => getLsbD_clearNotices (hostValue s data) s.line hk⟩
  case after =>
    exact ⟨_, exec_noticeWordWrite data s, raise_noticeSet_self n _⟩
  case before =>
    have hv : (hostValue (s.onLine (raise n)) data).getLsbD n.bit = true := hbit
    refine ⟨_, exec_noticeWordWrite data _, ?_⟩
    rw [onLine_line, noticeSet_clearNotices, hv, Bool.not_true, Bool.and_false]
  case partialWrite =>
    rw [exec_discardedWrite_partial data h0 h15 hc, onLine_badWrite]

/-- Settles O22: ATTN is a bit common to the notices and the enables, and the writes and reads are read off bit by
bit. -/
theorem noticeEnableWriteReplacesTheEnables : Obligations.NoticeEnableWriteReplacesTheEnables := by
  refine ⟨fun l => and_bne_zero_iff _ _, fun data s => ?replaced, fun addr be data s h0 h15 hc => ?partialWrite,
    fun st l k hk => ⟨?enables, ?notices⟩⟩
  case replaced =>
    exact ⟨_, exec_noticeEnableWrite data s, fun k hk => getLsbD_setEnables (hostValue s data) s.line hk⟩
  case partialWrite =>
    rw [exec_discardedWrite_partial data h0 h15 hc, onLine_badWrite]
  case enables =>
    rw [partWord_enables, getLsbD_setWidth_word _ hk]
  case notices =>
    rw [partWord_notices, getLsbD_setWidth_word _ hk]

/-- Settles O27, by the state of the slot and the value written. -/
theorem slotFreeClearsADoneSlot : Obligations.SlotFreeClearsADoneSlot := by
  refine ⟨fun slot s hlen => ⟨fun hdone => ?freed, fun hnot => ?refused, fun hdone => ?resubmitted⟩,
    fun addr data s i hi hc h0 h1 => ?otherValue⟩
  case freed =>
    rw [exec_slotFree, onLine_congr (slotWrite_zero_of_done _ hdone), State.onLine, freeSlot_eq_set, clearResult]
  case refused =>
    rw [exec_slotFree, onLine_congr (slotWrite_zero_of_not_done _ hnot), onLine_badWrite]
  case resubmitted =>
    have hi : slot.toNat < s.line.request.slots.length := by rw [hlen]; exact slot.isLt
    have hopen : slotOpen (slotAt s.line slot.toNat) = true := by simp [slotOpen, hdone]
    refine ⟨_, exec_submission slot s, ?_⟩
    rw [onLine_line, slotWrite_one_of_open _ hopen, slotAt_submitSlot hi, clearResult]
  case otherValue =>
    have hdiscarded : partWrite addr (0x100 + 64 * i) (hostValue s data) s.line = badWrite addr s.line :=
      (partWrite_slotState hi addr _ s.line).trans (slotWrite_other_value h0 h1 addr i s.line)
    rw [exec_discardedWrite, hostWrite_part_full data hc, onLine_congr hdiscarded, onLine_badWrite]

end Sys2Proof.Machine
end

section
/-! SUPPORT. A field sample of an analog input (R35, R38): what it stores of the channel, and that the quotient the
conversion takes is the nearest integer. -/

namespace Sys2Proof.Machine

/-! ## Rounding -/

/-- Rounding half up on magnitudes: the multiple of d that the quotient names is at most half of d above n, or less than
half of d below it. -/
theorem roundedMultiple_bounds (n : Nat) {d : Nat} (hd : 0 < d) :
    2 * ((2 * n + d) / (2 * d) * d) ≤ 2 * n + d ∧ 2 * n < 2 * ((2 * n + d) / (2 * d) * d) + d := by
  have hdiv : 2 * d * ((2 * n + d) / (2 * d)) + (2 * n + d) % (2 * d) = 2 * n + d := Nat.div_add_mod _ _
  have hmod : (2 * n + d) % (2 * d) < 2 * d := Nat.mod_lt _ (Nat.mul_pos Nat.two_pos hd)
  rw [Nat.mul_assoc, Nat.mul_comm d] at hdiv
  omega

theorem roundQuotient_of_same_sign {num den : Int} (h : num < 0 ↔ den < 0) :
    roundQuotient num den = (((2 * num.natAbs + den.natAbs) / (2 * den.natAbs) : Nat) : Int) :=
  if_pos (beq_iff_eq.mpr (decide_eq_decide.mpr h))

theorem roundQuotient_of_opposite_sign {num den : Int} (h : ¬(num < 0 ↔ den < 0)) :
    roundQuotient num den = -(((2 * num.natAbs + den.natAbs) / (2 * den.natAbs) : Nat) : Int) :=
  if_neg fun heq => h (decide_eq_decide.mp (beq_iff_eq.mp heq))

/-- The rounded quotient times the divisor has the sign of the dividend, and its magnitude is the rounded multiple of
the divisor's. -/
theorem roundQuotient_mul (num den : Int) :
    roundQuotient num den * den =
      if num < 0 then -(((2 * num.natAbs + den.natAbs) / (2 * den.natAbs) * den.natAbs : Nat) : Int)
      else (((2 * num.natAbs + den.natAbs) / (2 * den.natAbs) * den.natAbs : Nat) : Int) := by
  rw [Int.natCast_mul]
  by_cases hden : den < 0
  · rw [Int.ofNat_natAbs_of_nonpos (Int.le_of_lt hden), Int.mul_neg, Int.neg_neg]
    by_cases hnum : num < 0
    · rw [roundQuotient_of_same_sign (iff_of_true hnum hden), if_pos hnum]
    · rw [roundQuotient_of_opposite_sign fun h => hnum (h.mpr hden), if_neg hnum, Int.neg_mul]
  · rw [Int.natAbs_of_nonneg (Int.not_lt.mp hden)]
    by_cases hnum : num < 0
    · rw [roundQuotient_of_opposite_sign fun h => hden (h.mp hnum), if_pos hnum, Int.neg_mul]
    · rw [roundQuotient_of_same_sign (iff_of_false hnum hden), if_neg hnum]

/-- The rounded quotient is the integer nearest to num / den, and of two equally near the one away from zero (R35). -/
theorem roundQuotient_nearest (num : Int) {den : Int} (hden : den ≠ 0) :
    2 * (roundQuotient num den * den - num).natAbs ≤ den.natAbs
      ∧ (2 * (roundQuotient num den * den - num).natAbs = den.natAbs →
          num.natAbs ≤ (roundQuotient num den * den).natAbs) := by
  obtain ⟨hupper, hlower⟩ := roundedMultiple_bounds num.natAbs (Int.natAbs_pos.mpr hden)
  rw [roundQuotient_mul]
  generalize (2 * num.natAbs + den.natAbs) / (2 * den.natAbs) * den.natAbs = p at hupper hlower ⊢
  split <;> omega

/-! ## The conversion of an analog sample -/

theorem engineering_inputAnalog {c : Channel} {b : RawRange} (hkind : c.desc.kind = .inputAnalog)
    (hbound : c.run.bound = some b) (raw : Half) :
    engineering c (rangeOf c) raw = analogEng c.desc b raw := by
  rw [engineering, hkind, rangeOf, hbound, Option.getD_some]

theorem analogEng_of_span_zero {b : RawRange} (h : (b.rawMax.toNat : Int) - (b.rawMin.toNat : Int) = 0) (d : ChanDesc)
    (raw : Half) : analogEng d b raw = d.engMin :=
  if_pos h

theorem analogEng_of_span_ne_zero {b : RawRange} (h : (b.rawMax.toNat : Int) - (b.rawMin.toNat : Int) ≠ 0)
    (d : ChanDesc) (raw : Half) :
    analogEng d b raw =
      clampInt d.engMin d.engMax
        (roundQuotient
          (d.engMin * ((b.rawMax.toNat : Int) - (b.rawMin.toNat : Int))
            + ((raw.toNat : Int) - (b.rawMin.toNat : Int)) * (d.engMax - d.engMin))
          ((b.rawMax.toNat : Int) - (b.rawMin.toNat : Int))) :=
  if_neg h

/-! ## What a field sample stores -/

theorem chan_changeRun_self {l : Line} {i : Nat} (hi : i < l.chans.length) (f : ChanRun → ChanRun) :
    chan (changeRun i f l) i = { chan l i with run := f (chan l i).run } := by
  rw [chan_changeRun, if_pos ⟨rfl, hi⟩]

/-- A field sample stores the raw value and its engineering value, whether or not the input is simulated (R38, R49): the
consumers of a fresh sample leave both. -/
theorem fieldSample_raw_eng {l : Line} {i : Nat} (hi : i < l.chans.length) (raw : Half) :
    (chan (fieldSample i raw l) i).run.raw = raw
      ∧ (chan (fieldSample i raw l) i).run.eng = engineering (chan l i) (rangeOf (chan l i)) raw := by
  simp only [fieldSample]
  split
  case isTrue => simp only [chan_changeRun_self hi, and_self]
  case isFalse =>
    obtain ⟨-, hraw, heng, -⟩ := Within.run (freshSample_within i _ _) i
    rw [hraw, heng, chan_changeRun_self ((changeRun_length i _ l).symm ▸ hi), chan_changeRun_self hi]
    exact ⟨rfl, rfl⟩

end Sys2Proof.Machine
end

section
/-! The statement of the analog inputs' conversion (R35). -/

namespace Sys2Proof.Machine

/-- Settles O20: a field sample stores the converted value, and the conversion rounds once, to the nearest integer. -/
theorem analogSampleIsRoundedOnceAndClamped : Obligations.AnalogSampleIsRoundedOnceAndClamped := by
  intro l i b raw hi hkind hbound
  obtain ⟨hraw, hstored⟩ := fieldSample_raw_eng hi raw
  have heng := hstored.trans (engineering_inputAnalog hkind hbound raw)
  refine ⟨hraw, fun hspan => heng.trans (analogEng_of_span_zero hspan _ raw), fun hspan => ?_⟩
  obtain ⟨hnear, htie⟩ := roundQuotient_nearest _ hspan
  exact ⟨_, hnear, htie, heng.trans (analogEng_of_span_ne_zero hspan _ raw)⟩

end Sys2Proof.Machine
end

section
/-! SUPPORT. Facts about lists and words that core Lean does not state: the package is built on core Lean alone. -/

namespace Sys2Proof.Machine

theorem getD_of_lt {α : Type} (xs : List α) (d : α) {i : Nat} (h : i < xs.length) : xs.getD i d = xs[i] := by
  rw [List.getD_eq_getElem?_getD, List.getElem?_eq_getElem h, Option.getD_some]

theorem getD_of_ge {α : Type} (xs : List α) (d : α) {i : Nat} (h : xs.length ≤ i) : xs.getD i d = d := by
  rw [List.getD_eq_getElem?_getD, List.getElem?_eq_none h, Option.getD_none]

theorem getD_append_left {α : Type} (xs ys : List α) (d : α) {i : Nat} (h : i < xs.length) :
    (xs ++ ys).getD i d = xs.getD i d := by
  rw [List.getD_eq_getElem?_getD, List.getElem?_append_left h, List.getD_eq_getElem?_getD]

theorem getD_append_right {α : Type} (xs ys : List α) (d : α) {i : Nat} (h : xs.length ≤ i) :
    (xs ++ ys).getD i d = ys.getD (i - xs.length) d := by
  rw [List.getD_eq_getElem?_getD, List.getElem?_append_right h, List.getD_eq_getElem?_getD]

theorem filter_never {α : Type} (xs : List α) : xs.filter (fun _ => false) = [] :=
  List.filter_eq_nil_iff.mpr fun _ _ h => nomatch h

/-- Entries whose images are distinct are told apart by their images. -/
theorem eq_of_nodup_map {α β : Type} {f : α → β} {xs : List α} (h : (xs.map f).Nodup) {x y : α} (hx : x ∈ xs) (hy : y ∈ xs)
    (hxy : f x = f y) : x = y := by
  induction xs with
  | nil => cases hx
  | cons z zs ih =>
    rw [List.map_cons, List.nodup_cons] at h
    obtain ⟨hfresh, hrest⟩ := h
    rcases List.mem_cons.mp hx with rfl | hx'
    · rcases List.mem_cons.mp hy with rfl | hy'
      · rfl
      · exact absurd (hxy ▸ List.mem_map_of_mem hy') hfresh
    · rcases List.mem_cons.mp hy with rfl | hy'
      · exact absurd (hxy ▸ List.mem_map_of_mem hx') hfresh
      · exact ih hrest hx' hy'

/-- Two words are equal when their difference is zero. -/
theorem word_sub_eq_zero {a b : Word} : a - b = 0 ↔ a = b :=
  ⟨fun h => by bv_omega, fun h => by bv_omega⟩

end Sys2Proof.Machine
end

section
/-! SUPPORT. What a step can do to the machine: it answers a next state, and only pin reset, the host's accesses and the
grants of staging reads reach past the blocks behind the path unit (1.1, R9, R21). -/

namespace Sys2Proof.Machine

/-! ## The memory port -/

@[simp] theorem portRead_line (w : Nat) (s : State) : (portRead w s).2.line = s.line := by
  unfold portRead; split <;> rfl

@[simp] theorem portRead_mem (w : Nat) (s : State) : (portRead w s).2.mem = s.mem := by
  unfold portRead; split <;> rfl

@[simp] theorem portRead_pending (w : Nat) (s : State) : (portRead w s).2.pending = s.pending := by
  unfold portRead; split <;> rfl

@[simp] theorem portRead_straps (w : Nat) (s : State) : (portRead w s).2.path.straps = s.path.straps := by
  unfold portRead; split <;> rfl

@[simp] theorem portRead_touch (w : Nat) (s : State) : (portRead w s).2.path.touch = s.path.touch := by
  unfold portRead; split <;> rfl

/-- With no staging read waiting nothing is granted (R9). -/
theorem grantStagingRead_none {s : State} (h : waitingOffset s.line = none) : grantStagingRead s = s := by
  rw [grantStagingRead, h]

/-- The waiting staging read is granted: the count returns to 0, and its word is handed to the reader (R9, R10). -/
theorem grantStagingRead_some {s : State} {off : Nat} (h : waitingOffset s.line = some off) :
    ∃ w, w = stagingBase s.path.straps + off ∧ grantStagingRead s =
      { (portRead w s).2 with
        path := { (portRead w s).2.path with arbiter := 0 }
        line := takeStagingWord s.path.straps s.path.touch (upstreamOrder s.path.straps.ubo (portRead w s).1) s.line } := by
  refine ⟨_, rfl, ?_⟩
  simp only [grantStagingRead, h, portRead_line, portRead_straps, portRead_touch]

theorem grantStagingRead_cases (s : State) :
    grantStagingRead s = s ∨ ∃ w, grantStagingRead s =
      { (portRead w s).2 with
        path := { (portRead w s).2.path with arbiter := 0 }
        line := takeStagingWord s.path.straps s.path.touch (upstreamOrder s.path.straps.ubo (portRead w s).1) s.line } := by
  cases h : waitingOffset s.line with
  | none => exact .inl (grantStagingRead_none h)
  | some off =>
    obtain ⟨w, -, e⟩ := grantStagingRead_some h
    exact .inr ⟨w, e⟩

@[simp] theorem grantStagingRead_mem (s : State) : (grantStagingRead s).mem = s.mem := by
  obtain e | ⟨w, e⟩ := grantStagingRead_cases s <;> rw [e]
  exact portRead_mem w s

@[simp] theorem grantStagingRead_pending (s : State) : (grantStagingRead s).pending = s.pending := by
  obtain e | ⟨w, e⟩ := grantStagingRead_cases s <;> rw [e]
  exact portRead_pending w s

/-- A granted staging read hands at most one word to its reader (R10). -/
theorem grantStagingRead_line (s : State) :
    (grantStagingRead s).line = s.line
      ∨ ∃ w, (grantStagingRead s).line = takeStagingWord s.path.straps s.path.touch w s.line := by
  obtain e | ⟨w, e⟩ := grantStagingRead_cases s <;> rw [e]
  · exact .inl rfl
  · exact .inr ⟨_, rfl⟩

@[simp] theorem grantUpstream_line (s : State) : (grantUpstream s).line = s.line := by
  unfold grantUpstream; split <;> rfl

@[simp] theorem grantUpstream_mem (s : State) : (grantUpstream s).mem = s.mem := by
  unfold grantUpstream; split <;> rfl

@[simp] theorem grantUpstream_pending (s : State) : (grantUpstream s).pending = s.pending := by
  unfold grantUpstream; split <;> rfl

@[simp] theorem claimPort_mem (s : State) : (claimPort s).mem = s.mem := by
  unfold claimPort; split <;> simp

@[simp] theorem claimPort_pending (s : State) : (claimPort s).pending = s.pending := by
  unfold claimPort; split <;> simp

theorem claimPort_line (s : State) : (claimPort s).line = s.line ∨ (claimPort s).line = (grantStagingRead s).line := by
  unfold claimPort
  split
  · exact .inr (grantUpstream_line _)
  · exact .inl (grantUpstream_line _)

/-- Below the arbiter's limit an access that claims the port only raises the count (R9). -/
theorem claimPort_below {s : State} (h : s.path.arbiter < 16) :
    claimPort s = { s with path := { s.path with
      arbiter := if (waitingOffset s.line).isSome then s.path.arbiter + 1 else s.path.arbiter } } := by
  have hlimit : ¬ ((waitingOffset s.line).isSome = true ∧ Config.arbiterLimit ≤ s.path.arbiter) := by
    simp only [Config.arbiterLimit]; omega
  rw [claimPort, if_neg hlimit, grantUpstream]
  split <;> rfl

@[simp] theorem memoryWrite_line (w : Nat) (be : BitVec 4) (d : Word) (s : State) :
    (memoryWrite w be d s).line = (claimPort s).line := rfl

@[simp] theorem memoryWrite_pending (w : Nat) (be : BitVec 4) (d : Word) (s : State) :
    (memoryWrite w be d s).pending = s.pending := claimPort_pending s

theorem memoryWrite_wf (w : Nat) (be : BitVec 4) (d : Word) {s : State} (h : s.mem.wf = true) :
    (memoryWrite w be d s).mem.wf = true := by
  refine writeLanes_wf _ _ w be d ?_
  rw [claimPort_mem]
  exact h

/-! ## Host accesses -/

/-- What a host write may do to the blocks behind the path unit (R6, R14, R15). -/
inductive WriteEffect (l : Line) : Line → Prop
  | part (addr : Word) (off : Nat) (v : Word) : WriteEffect l (partWrite addr off v l)
  | bad (addr : Word) : WriteEffect l (badWrite addr l)
  | capture (ubo : Bool) (addr : Word) (be : BitVec 4) (data : Word) (i : Nat) :
      WriteEffect l (captureWrite ubo addr be data i l)
  | none : WriteEffect l l

/-- A host access left the queue alone and memory in its canonical form; it acted on the blocks as a write may, and
then perhaps granted the staging read that waits (R9). -/
def HostEffect (s t : State) : Prop :=
  t.pending = s.pending ∧ (s.mem.wf = true → t.mem.wf = true)
    ∧ ∃ m : State, WriteEffect s.line m.line ∧ (t.line = m.line ∨ t.line = (grantStagingRead m).line)

theorem HostEffect.of_read {s t : State} (hp : t.pending = s.pending) (hm : t.mem = s.mem)
    (hl : t.line = s.line ∨ t.line = (grantStagingRead s).line) : HostEffect s t :=
  ⟨hp, fun w => by rw [hm]; exact w, s, .none, hl⟩

theorem HostEffect.of_onLine {s : State} {f : Line → Line} (e : WriteEffect s.line (f s.line)) :
    HostEffect s (s.onLine f) := ⟨rfl, id, s.onLine f, e, .inl rfl⟩

theorem HostEffect.of_memoryWrite {s m : State} (w : Nat) (be : BitVec 4) (d : Word) (hp : m.pending = s.pending)
    (hm : m.mem = s.mem) (e : WriteEffect s.line m.line) : HostEffect s (memoryWrite w be d m) :=
  ⟨by rw [memoryWrite_pending, hp], fun h => memoryWrite_wf w be d (by rw [hm]; exact h), m, e, claimPort_line m⟩

theorem channelWrite_effect (addr : Word) (be : BitVec 4) (data : Word) (i : Nat) (s : State) :
    HostEffect s (channelWrite addr be data i s) := by
  simp only [channelWrite]
  split
  · exact .of_onLine (.capture _ _ _ _ _)
  · exact .of_memoryWrite _ _ _ (onLine_pending s _) (onLine_mem s _) (.capture _ _ _ _ _)

theorem hostWrite_effect (addr : Word) (be : BitVec 4) (data : Word) (s : State) :
    HostEffect s (hostWrite addr be data s) := by
  simp only [hostWrite]
  split
  · exact .of_read rfl rfl (.inl rfl)
  · split
    · split
      · exact .of_onLine (.part _ _ _)
      · exact .of_onLine (.bad _)
    · simp only [stagingRegionWrite]
      exact .of_memoryWrite _ _ _ rfl rfl .none
    · exact channelWrite_effect addr be data _ s
    · exact .of_memoryWrite _ _ _ rfl rfl .none

@[simp] theorem answer_pending (w : Word) (s : State) : (answer w s).pending = s.pending := rfl
@[simp] theorem answer_mem (w : Word) (s : State) : (answer w s).mem = s.mem := rfl
@[simp] theorem answer_line (w : Word) (s : State) : (answer w s).line = s.line := rfl

theorem HostEffect.of_answer (w : Word) (s : State) : HostEffect s (answer w s) := .of_read rfl rfl (.inl rfl)

theorem HostEffect.of_memoryRead (v : Word) (w : Nat) (s : State) :
    HostEffect s (answer v (portRead w (claimPort s)).2) :=
  .of_read (by simp) (by simp) (by simpa using claimPort_line s)

theorem channelRead_effect (addr : Word) (be : BitVec 4) (i : Nat) (s : State) :
    HostEffect s (channelRead addr be i s) := by
  simp only [channelRead]
  split
  · exact .of_answer _ s
  · split
    · exact .of_answer _ s
    · exact .of_memoryRead _ _ s

theorem hostRead_effect (addr : Word) (be : BitVec 4) (s : State) : HostEffect s (hostRead addr be s) := by
  simp only [hostRead]
  split
  · exact .of_answer _ s
  · split
    · exact .of_answer _ s
    · exact .of_memoryRead _ _ s
    · exact channelRead_effect addr be _ s
    · exact .of_memoryRead _ _ s

theorem hostAccess_effect (a : Access) (s : State) : HostEffect s (hostAccess a s) := by
  simp only [hostAccess]
  split
  · exact hostWrite_effect a.addr a.be a.data s
  · exact hostRead_effect a.addr a.be s

/-! ## Commands and steps -/

/-- Every command answers a next state. It leaves the queue and memory alone but for a host access (R4). -/
theorem exec_shape (c : Instr) (s : State) :
    ∃ t, exec c s = .next t ∧ (t.pending = s.pending ∧ t.mem = s.mem ∨ HostEffect s t) := by
  cases c with
  | stagingWrite offset be data => exact ⟨_, rfl, .inr (hostWrite_effect _ be data s)⟩
  | inputChannelWrite addr be data => exact ⟨_, rfl, .inr (hostWrite_effect addr be data s)⟩
  | partOutputWrite addr be data => exact ⟨_, rfl, .inr (hostWrite_effect addr be data s)⟩
  | outputHostWrite addr data => exact ⟨_, rfl, .inr (hostWrite_effect addr 15 data s)⟩
  | outputPartialWrite addr be data => exact ⟨_, rfl, .inr (hostWrite_effect addr be data s)⟩
  | discardedWrite addr be data => exact ⟨_, rfl, .inr (hostWrite_effect addr be data s)⟩
  | passThroughAccess access => exact ⟨_, rfl, .inr (hostAccess_effect access s)⟩
  | stagingRead => exact ⟨_, rfl, .inl ⟨grantStagingRead_pending s, grantStagingRead_mem s⟩⟩
  | _ => exact ⟨_, rfl, .inl ⟨rfl, rfl⟩⟩

theorem exec_pending_mem (c : Instr) (s : State) :
    ∃ t, exec c s = .next t ∧ t.pending = s.pending ∧ (s.mem.wf = true → t.mem.wf = true) := by
  obtain ⟨t, hexec, ⟨hpending, hmem⟩ | ⟨hpending, hwf, -⟩⟩ := exec_shape c s
  · exact ⟨t, hexec, hpending, fun w => by rw [hmem]; exact w⟩
  · exact ⟨t, hexec, hpending, hwf⟩

theorem step_cons {c : Instr} {rest : List Instr} {s : State} (h : s.pending = c :: rest) :
    step s = exec c { s with pending := rest } := by
  rw [step, h]

theorem step_nil {s : State} (h : s.pending = []) : step s = .next (idle s) := by
  rw [step, h]

/-- What an idle step is: a taking, a timer that runs out, or a millisecond in which the background work goes on (R21,
R31). -/
theorem idle_cases (s : State) :
    (∃ i, headSlot s.line = some i ∧ idle s = afterTaking takeAny s)
      ∨ (∃ l, headSlot s.line = none ∧ dueTimer s.line = some l ∧ idle s = { s with line := l })
      ∨ (headSlot s.line = none ∧ dueTimer s.line = none ∧ idle s = (background s).onLine tick) := by
  unfold idle
  cases hhead : headSlot s.line with
  | some i => exact .inl ⟨i, rfl, rfl⟩
  | none =>
    cases hdue : dueTimer s.line with
    | some l => exact .inr (.inl ⟨l, rfl, rfl, rfl⟩)
    | none => exact .inr (.inr ⟨rfl, rfl, rfl⟩)

@[simp] theorem background_mem (s : State) : (background s).mem = s.mem := by
  unfold background; split <;> simp

@[simp] theorem idle_mem (s : State) : (idle s).mem = s.mem := by
  obtain ⟨i, -, e⟩ | ⟨l, -, -, e⟩ | ⟨-, -, e⟩ := idle_cases s
  · rw [e]; rfl
  · rw [e]
  · rw [e, onLine_mem, background_mem]

end Sys2Proof.Machine
end

section
/-! The statements of the machine's steps (R21, R31) and of process memory's canonical form. -/

namespace Sys2Proof.Machine

/-- Settles O1. -/
theorem stepRunsTheFrontCommand : Obligations.StepRunsTheFrontCommand := fun _ _ _ h => step_cons h

/-- Settles O3, by the shape of a command's outcome. -/
theorem everyCommandKeepsTheQueue : Obligations.EveryCommandKeepsTheQueue := fun c s => by
  obtain ⟨t, hexec, hpending, -⟩ := exec_pending_mem c s
  exact ⟨t, hexec, hpending⟩

/-- Settles O6: only a host access writes memory, lane by lane, and each byte written keeps the canonical form. -/
theorem stepKeepsMemoryCanonical : Obligations.StepKeepsMemoryCanonical := by
  intro s t sound hstep
  cases hpending : s.pending with
  | nil =>
    rw [step_nil hpending] at hstep
    cases hstep
    rw [memorySound, idle_mem]
    exact sound
  | cons c rest =>
    rw [step_cons hpending] at hstep
    obtain ⟨t', hexec, -, hwf⟩ := exec_pending_mem c { s with pending := rest }
    cases hexec.symm.trans hstep
    exact hwf sound

end Sys2Proof.Machine
end

section
/-! SUPPORT. What every step keeps of the blocks: the record log's bound (R171), the running zones' prerequisites (R95) and
the outputs' applied values (R45). One lemma per operation of the model, for the three at once. -/

namespace Sys2Proof.Machine

/-! ## The relation -/

/-- From l to l' each of the three bounds has been kept. -/
structure Keeps (l l' : Line) : Prop where
  log     : logSound l → logSound l'
  zones   : zonesSound l → zonesSound l'
  outputs : outputsSound l → outputsSound l'

theorem Keeps.refl (l : Line) : Keeps l l := ⟨id, id, id⟩

theorem Keeps.trans {a b c : Line} (x : Keeps a b) (y : Keeps b c) : Keeps a c :=
  ⟨fun h => y.log (x.log h), fun h => y.zones (x.zones h), fun h => y.outputs (x.outputs h)⟩

theorem Keeps.ite {c : Prop} [Decidable c] {l a b : Line} (ha : Keeps l a) (hb : Keeps l b) :
    Keeps l (if c then a else b) := by
  split <;> assumption

theorem Keeps.foldl {α : Type} {f : Line → α → Line} (h : ∀ l a, Keeps l (f l a)) :
    ∀ (xs : List α) (l : Line), Keeps l (xs.foldl f l)
  | [], l => .refl l
  | x :: xs, l => (h l x).trans (Keeps.foldl h xs (f l x))

theorem Keeps.of_blocks {l l' : Line} (hlog : l'.log = l.log) (hzones : l'.zones = l.zones) (hchans : l'.chans = l.chans) :
    Keeps l l' :=
  ⟨logSound_congr hlog, zonesSound_congr hzones, fun h c hc hd => by
    have hstate : zoneState l' = zoneState l := by funext z; simp only [zoneState, zone?, hzones]
    rw [ownerState, hstate]
    exact h c (hchans ▸ hc) hd⟩

theorem Still.keeps {l l' : Line} (h : Still l l') : Keeps l l' := ⟨h.within.log, h.zonesSound, h.within.outputs⟩

theorem Within.keeps {l l' : Line} (h : Within l l') (z : zonesSound l → zonesSound l') : Keeps l l' :=
  ⟨h.log, z, h.outputs⟩

theorem Sends.keeps {l l' : Line} (h : Sends l l') : Keeps l l' := by
  have e := h.others
  exact .of_blocks (congrArg (·.log) e) (congrArg (·.zones) e) (congrArg (·.chans) e)

theorem raise_keeps (n : Notice) (l : Line) : Keeps l (raise n l) := (raise_still n l).keeps

theorem changeSlot_keeps (i : Nat) (f : Slot → Slot) (l : Line) : Keeps l (changeSlot i f l) := .of_blocks rfl rfl rfl

theorem complete_keeps (i : Nat) (r : Reply) (l : Line) : Keeps l (complete i r l) := .of_blocks rfl rfl rfl

theorem changeLink_keeps (f : Link → Link) (l : Line) : Keeps l (changeLink f l) := .of_blocks rfl rfl rfl

theorem changeNode_keeps (n : Nat) (f : Node → Node) (l : Line) : Keeps l (changeNode n f l) := .of_blocks rfl rfl rfl

theorem badWrite_keeps (a : Word) (l : Line) : Keeps l (badWrite a l) := .of_blocks rfl rfl rfl

/-! ## Channels -/

/-- A change of the channels under which each stays settled. -/
theorem chans_keeps {l : Line} {cs : List Channel}
    (h : outputsSound l → ∀ c ∈ cs, c.Settled (ownerState l c.desc)) : Keeps l { l with chans := cs } :=
  ⟨fun h => h, fun h => zonesSound_congr (l := l) rfl h, fun s => (outputsSound_iff _).mpr (h s)⟩

/-- A change of one channel's runtime state that no applied value depends on. -/
theorem changeRun_keeps (i : Nat) (f : ChanRun → ChanRun) (l : Line)
    (hf : ∀ (st : Option ZoneState) (c : Channel), c.Settled st → Channel.Settled st { c with run := f c.run } := by
      intro _ _ h; exact h) : Keeps l (changeRun i f l) := by
  refine chans_keeps fun s c hc => ?_
  rw [change] at hc
  obtain ⟨k, hk, rfl⟩ := List.getElem_of_mem hc
  rw [List.getElem_modify]
  have settled : ∀ x ∈ l.chans, x.Settled (ownerState l x.desc) := (outputsSound_iff l).mp s
  have hk' : k < l.chans.length := by rw [List.length_modify] at hk; exact hk
  split
  · exact hf _ _ (settled _ (List.getElem_mem hk'))
  · exact settled _ (List.getElem_mem hk')

/-- A change of channels, one by one, that no applied value depends on. -/
theorem map_keeps {f : Channel → Channel} (hf : ∀ (st : Option ZoneState) (c : Channel), c.Settled st → (f c).Settled st)
    (hd : ∀ c, (f c).desc = c.desc) (l : Line) : Keeps l { l with chans := l.chans.map f } :=
  chans_keeps (map_settled f fun c hc => by rw [hd]; exact hf _ c hc)

theorem faultChannels_keeps (n : Nat) (l : Line) : Keeps l (faultChannels n l) :=
  map_keeps (fun st c hc => by split <;> exact hc) (fun c => by split <;> rfl) l

/-- A refreshed channel has its applied value again, whatever of its runtime state was changed before. -/
theorem refreshChannel_changeRun_keeps (i : Nat) (f : ChanRun → ChanRun) (l : Line) :
    Keeps l (refreshChannel i (changeRun i f l)) := by
  have e : refreshChannel i (changeRun i f l) =
      { l with chans := l.chans.modify i fun c => refresh (ownerState l c.desc) { c with run := f c.run } } := by
    simp only [refreshChannel, changeRun, change, List.modify_modify_eq]
    rfl
  rw [e]
  exact chans_keeps (modify_settled i _ fun c => by
    rw [refresh_desc]
    exact refresh_settled _ _)

/-! ## Samples and losses -/

theorem freshSample_keeps (i : Nat) (v : Int) (l : Line) : Keeps l (freshSample i v l) :=
  (freshSample_within i v l).keeps (freshSample_sound i v l)

theorem fieldSample_keeps (i : Nat) (raw : Half) (l : Line) : Keeps l (fieldSample i raw l) := by
  simp only [fieldSample]
  refine .ite (changeRun_keeps i _ l) ?_
  exact ((changeRun_keeps i _ l).trans (changeRun_keeps i _ _)).trans (freshSample_keeps _ _ _)

theorem deliverSamples_keeps (n : Nat) (payload : List Byte) :
    ∀ (ps : List Point) (k : Nat) (l : Line), Keeps l (deliverSamples n payload k ps l)
  | [], _, l => .refl l
  | p :: ps, k, l => by
    simp only [deliverSamples]
    refine Keeps.trans ?_ (deliverSamples_keeps n payload ps (k + 1) _)
    split
    · exact fieldSample_keeps _ _ l
    · exact .refl l

theorem loopback_keeps (source : Nat) (v : Int) (l : Line) : Keeps l (loopback source v l) := by
  simp only [loopback]
  split
  · exact .refl l
  · exact (changeRun_keeps _ _ l).trans (freshSample_keeps _ _ _)

theorem loseGood_keeps (i : Nat) (l : Line) : Keeps l (loseGood i l) :=
  (loseGood_within i l).keeps (loseGood_sound i l)

/-- An event of trips keeps the three bounds (R97, R98). -/
theorem tripEvent_keeps {lead : List Nat → Line → Line} (hl : ∀ zs l, Still l (lead zs l)) (causes : Line → Nat → List TripCause)
    (l : Line) : Keeps l (zoneEvent lead (fun l => tripOwn (causes l) l) l) :=
  (zoneEvent_within hl (fun l => tripOwn_within (causes l) l) l).keeps fun h =>
    zoneEvent_cut hl _ l h (tripOwn_cut (causes l) l)

theorem declareFault_keeps (n : Nat) (l : Line) : Keeps l (declareFault n l) := by
  simp only [declareFault]
  refine Keeps.trans ?_ (tripEvent_keeps (fun _ m => offer_still _ _ m) (fun m => faultCauses m n _) _)
  exact ((changeNode_keeps n _ l).trans (raise_keeps _ _)).trans
    ((faultChannels_keeps n _).trans (trackLosses_still _ _).keeps)

theorem missNode_keeps (n : Nat) (l : Line) : Keeps l (missNode n l) := by
  simp only [missNode]
  refine .ite (.refl l) ?_
  exact .ite ((changeNode_keeps n _ l).trans (declareFault_keeps n _)) (changeNode_keeps n _ l)

/-! ## Events of a node -/

theorem routeEvent_keeps (n point : Nat) (data : Half) (l : Line) : Keeps l (routeEvent n point data l) := by
  simp only [routeEvent]
  split
  · exact changeNode_keeps n _ l
  · split
    · exact (changeRun_keeps _ _ l).trans (judgeBag_still false _ _).keeps
    · exact (changeRun_keeps _ _ l).trans (storeConfirmation_still _ _).keeps
    · exact changeRun_keeps _ _ l

theorem takeEvent_keeps (n : Nat) (record : List Byte) (l : Line) : Keeps l (takeEvent n record l) := by
  simp only [takeEvent]
  exact .ite ((changeNode_keeps n _ l).trans (routeEvent_keeps _ _ _ _)) (changeNode_keeps n _ l)

theorem takeEvents_keeps (n : Nat) (records : List Byte) (l : Line) : Keeps l (takeEvents n records l) := by
  simp only [takeEvents]
  refine Keeps.trans (b := if 6 ≤ records.length then takeEvent n (records.take 6) l else l) ?_ ?_
  · exact .ite (takeEvent_keeps n _ l) (.refl l)
  · exact .ite (takeEvent_keeps n _ _) (.refl _)

theorem scanGood_keeps (n : Nat) (payload : List Byte) (l : Line) : Keeps l (scanGood n payload l) := by
  simp only [scanGood]
  refine Keeps.trans ?_ ((deliverSamples_keeps n payload _ _ _).trans (takeEvents_keeps n _ _))
  exact (changeNode_keeps n _ l).trans (.ite (offer_still _ _ _).keeps (.refl _))

/-! ## The link -/

theorem startCycle_keeps (l : Line) : Keeps l (startCycle l) := changeLink_keeps _ l

theorem endHalt_keeps (l : Line) : Keeps l (endHalt l) := by
  simp only [endHalt]
  have parts := ((Keeps.foldl (fun l n => changeNode_keeps n (fun nd => { nd with misses := 0 }) l) l.link.scanList l).trans
    (changeLink_keeps (fun k =>
      { k with
        state := .idle,
        nodes := k.nodes.map fun nd =>
          if nd.state = .running ∨ nd.state = .faulted then { nd with state := .bound } else nd,
        period := none, owed := false, cycle := none, scanList := [], safeWaits := false, halt := none }) _)).trans
    (raise_keeps .linkHalted _)
  split
  · exact parts.trans (complete_keeps _ _ _)
  · exact parts

theorem settleCycle_keeps (l : Line) : Keeps l (settleCycle l) := by
  simp only [settleCycle]
  split
  · refine .ite (.refl l) ((changeLink_keeps _ l).trans (.ite (endHalt_keeps _) ?_))
    exact .ite ((changeLink_keeps _ _).trans (startCycle_keeps _)) (.refl _)
  · exact .refl l

theorem pump_keeps (l : Line) : Keeps l (pump l) := by
  simp only [pump]
  split
  · refine .ite ?_ ((settleCycle_keeps l).trans (.ite (sendSafe_sends _ _).keeps (sendNext_sends _).keeps))
    split
    · exact (sendNew_sends _ _ _ _ l).keeps
    · exact .refl l
  · exact .refl l

theorem exchangeEnded_keeps (job : ExchangeJob) (l : Line) : Keeps l (exchangeEnded job l) := by
  simp only [exchangeEnded]
  refine Keeps.trans ?_ (pump_keeps _)
  split
  · exact (releaseLink_sends l).keeps.trans (changeLink_keeps _ _)
  · exact (releaseLink_sends l).keeps

theorem finishAddress_keeps (d : Discovery) (nd : Node) (l : Line) : Keeps l (finishAddress d nd l) :=
  .ite ((changeLink_keeps _ l).trans (complete_keeps _ _ _)) (changeLink_keeps _ l)

theorem enumGood_keeps (payload : List Byte) (l : Line) : Keeps l (enumGood payload l) := by
  simp only [enumGood]
  split
  · exact .refl l
  · exact .ite (changeLink_keeps _ l) (finishAddress_keeps _ _ l)

theorem enumFailed_keeps (l : Line) : Keeps l (enumFailed l) := by
  simp only [enumFailed]
  split
  · exact .refl l
  · exact finishAddress_keeps _ _ l

theorem oneShotGood_keeps (o : OneShot) (payload : List Byte) (l : Line) : Keeps l (oneShotGood o payload l) :=
  .ite (complete_keeps _ _ l) (complete_keeps _ _ l)

theorem exchangeGood_keeps (x : Exchange) (payload : List Byte) (l : Line) : Keeps l (exchangeGood x payload l) := by
  simp only [exchangeGood]
  refine Keeps.trans ?_ (exchangeEnded_keeps _ _)
  split
  · exact scanGood_keeps _ _ l
  · exact enumGood_keeps _ l
  · exact oneShotGood_keeps _ _ l

theorem exchangeLost_keeps (x : Exchange) (l : Line) : Keeps l (exchangeLost x l) := by
  simp only [exchangeLost]
  refine Keeps.trans ?_ (exchangeEnded_keeps _ _)
  split
  · exact missNode_keeps _ l
  · exact enumFailed_keeps l
  · exact complete_keeps _ _ l

theorem exchangeFailed_keeps (x : Exchange) (l : Line) : Keeps l (exchangeFailed x l) :=
  .ite (exchangeLost_keeps x l) (.ite (sendSafe_sends _ l).keeps (sendExchange_sends _ l).keeps)

theorem failAwaited_keeps (l : Line) : Keeps l (failAwaited l) := by
  unfold failAwaited
  split
  · exact exchangeFailed_keeps _ l
  · exact .refl l

theorem replyArrives_keeps (chars : List Byte) (l : Line) : Keeps l (replyArrives chars l) := by
  unfold replyArrives
  split
  · exact .ite (exchangeGood_keeps _ _ l) (exchangeFailed_keeps _ l)
  · exact .refl l

theorem safeSent_keeps (l : Line) : Keeps l (safeSent l) := by
  simp only [safeSent]
  split
  · have released : Keeps l (releaseLink (changeLink (fun k => { k with safeCount := k.safeCount + 1 }) l)) :=
      (changeLink_keeps _ l).trans (releaseLink_sends _).keeps
    refine released.trans ?_
    split
    · exact pump_keeps _
    · exact .ite (sendSafe_sends _ _).keeps (sendExchange_sends _ _).keeps
  · exact .refl l

theorem frameSent_keeps (l : Line) : Keeps l (frameSent l) := by
  unfold frameSent
  split
  · exact safeSent_keeps l
  · exact changeLink_keeps _ l
  · exact (releaseLink_sends l).keeps

theorem periodExpires_keeps (dl : Word) (l : Line) : Keeps l (periodExpires dl l) := by
  simp only [periodExpires]
  refine (changeLink_keeps _ l).trans (.ite (changeLink_keeps _ _) ?_)
  exact (startCycle_keeps _).trans (pump_keeps _)

/-! ## Timers and pins -/

theorem stopFalls_keeps (l : Line) : Keeps l (stopFalls l) := by
  unfold stopFalls
  refine Keeps.trans ?_ (tripEvent_keeps (fun _ l => .refl l) (fun _ => stopCauses) _)
  have low : Keeps l { l with stopHigh := false } := .of_blocks rfl rfl rfl
  exact (low.trans (raise_keeps _ _)).trans (askSafe_sends _).keeps

theorem staleExpires_keeps (i : Nat) (l : Line) : Keeps l (staleExpires i l) :=
  .ite (((changeRun_keeps i _ l).trans (raise_keeps _ _)).trans (loseGood_keeps i _)) (.refl l)

theorem watchdogExpires_keeps (l : Line) : Keeps l (watchdogExpires l) := by
  unfold watchdogExpires
  refine .ite ?_ (.refl l)
  refine Keeps.trans ?_ (tripEvent_keeps (fun _ m => offer_still _ _ m) watchdogCauses _)
  have expired : Keeps l { l with status := { l.status with watchdog := .expired } } := .of_blocks rfl rfl rfl
  exact (expired.trans (raise_keeps _ _)).trans (askSafe_sends _).keeps

theorem periodTimerExpires_keeps (l : Line) : Keeps l (periodTimerExpires l) := by
  unfold periodTimerExpires
  split
  · exact .ite (periodExpires_keeps _ l) (.refl l)
  · exact .refl l

theorem waitTimeExpires_keeps (z : Nat) (l : Line) : Keeps l (waitTimeExpires z l) := by
  unfold waitTimeExpires
  split
  · refine .ite ((plainEvent_within (advanceProgram_within z) l).keeps fun h => ?_) (.refl l)
    have a := advanceProgram_advances z l h
    exact (plainEvent_up _ l a.sound a.descs).1
  · exact .refl l

/-- A zone with a current step is in a state of its program's, and may trip. -/
theorem isActive_of_currentStep {l : Line} {z : Nat} {step : Step} (h : zonesSound l) (hs : currentStep l z = some step) :
    isActive l z = true := by
  unfold currentStep at hs
  split at hs
  · cases hs
  · rename_i p k hprog
    obtain ⟨zone, hzone, hrun⟩ := Option.bind_eq_some_iff.mp hprog
    have hstate := h.2.2 z zone p k hzone hrun
    refine (isActive_iff l z).mpr ⟨zone, hzone, ?_⟩
    rw [hstate]
    cases p <;> rfl

theorem waitUntilExpires_keeps (z : Nat) (l : Line) : Keeps l (waitUntilExpires z l) := by
  unfold waitUntilExpires
  split
  · rename_i hstep
    refine .ite ((plainEvent_within (fun l => tripZone_within z (timeoutCause l z) l) l).keeps fun h => ?_) (.refl l)
    exact plainEvent_cut _ l h (tripZone_cut z _ l (isActive_of_currentStep h hstep))
  · exact .refl l

theorem exposureExpires_keeps (n : Nat) (l : Line) : Keeps l (exposureExpires n l) := by
  unfold exposureExpires
  split
  · exact .ite (exposePallet_still n l).keeps (.refl l)
  · exact .refl l

theorem transitExpires_keeps (l : Line) : Keeps l (transitExpires l) :=
  .ite (((abandonTransit_still l).trans (transfer_still _ _)).trans (judgeDispatch_still _)).keeps (.refl l)

theorem dueTimer_keeps {l l' : Line} (h : dueTimer l = some l') : Keeps l l' := by
  unfold dueTimer at h
  split at h
  · cases h; exact watchdogExpires_keeps l
  split at h
  · cases h; exact periodTimerExpires_keeps l
  split at h
  · cases h; exact staleExpires_keeps _ l
  split at h
  · cases h; exact (waitTimeExpires_keeps _ l).trans (waitUntilExpires_keeps _ _)
  split at h
  · cases h; exact exposureExpires_keeps _ l
  split at h
  · cases h; exact transitExpires_keeps l
  split at h
  · cases h; exact frameSent_keeps l
  split at h
  · cases h; exact failAwaited_keeps l
  · cases h

/-! ## Host writes -/

theorem slotWrite_keeps (addr : Word) (i k : Nat) (v : Word) (l : Line) : Keeps l (slotWrite addr i k v l) := by
  have submit : Keeps l (submitSlot i l) := .of_blocks rfl rfl rfl
  exact .ite (.ite submit (.ite (changeSlot_keeps _ _ l) (badWrite_keeps _ l)))
    (.ite (changeSlot_keeps _ _ l) (badWrite_keeps _ l))

theorem heartbeatWrite_keeps (l : Line) : Keeps l (heartbeatWrite l) := by
  unfold heartbeatWrite
  exact .ite (.of_blocks rfl rfl rfl) (.of_blocks rfl rfl rfl)

theorem releaseWrite_keeps (addr v : Word) (l : Line) : Keeps l (releaseWrite addr v l) := by
  unfold releaseWrite
  split
  · rename_i hvalid
    refine Keeps.trans ⟨fun h => release_sound l _ h hvalid, fun h => zonesSound_congr (l := l) rfl h, fun h => h⟩ ?_
    exact (openPallets_still _).keeps
  · exact badWrite_keeps _ l

theorem partWrite_keeps (addr : Word) (off : Nat) (v : Word) (l : Line) : Keeps l (partWrite addr off v l) := by
  unfold partWrite
  exact .ite (.of_blocks rfl rfl rfl) (.ite (.of_blocks rfl rfl rfl) (.ite (heartbeatWrite_keeps l)
    (.ite (releaseWrite_keeps _ _ l) (.ite (slotWrite_keeps _ _ _ _ l) (badWrite_keeps _ l)))))

theorem acceptHostValue_keeps (i : Nat) (v : Int) (l : Line) : Keeps l (acceptHostValue i v l) := by
  simp only [acceptHostValue]
  exact .ite ((refreshChannel_changeRun_keeps i _ l).trans (loopback_keeps _ _ _)) (refreshChannel_changeRun_keeps i _ l)

theorem hostValueWrite_keeps (i : Nat) (v : Int) (l : Line) : Keeps l (hostValueWrite i v l) := by
  simp only [hostValueWrite]
  refine .ite ((changeRun_keeps i _ l).trans (acceptHostValue_keeps _ _ _)) ?_
  split
  · exact (changeRun_keeps i _ l).trans (acceptHostValue_keeps _ _ _)
  · exact ((changeRun_keeps i _ l).trans (changeRun_keeps i _ _)).trans (raise_keeps _ _)

theorem captureWrite_keeps (ubo : Bool) (addr : Word) (be : BitVec 4) (data : Word) (i : Nat) (l : Line) :
    Keeps l (captureWrite ubo addr be data i l) := by
  simp only [captureWrite]
  refine .ite (.ite (hostValueWrite_keeps _ _ l) ?_) (badWrite_keeps _ l)
  exact (changeRun_keeps i _ l).trans (badWrite_keeps _ _)

theorem WriteEffect.keeps {l l' : Line} (h : WriteEffect l l') : Keeps l l' := by
  cases h with
  | part addr off v => exact partWrite_keeps addr off v l
  | bad addr => exact badWrite_keeps addr l
  | capture ubo addr be data i => exact captureWrite_keeps ubo addr be data i l
  | none => exact .refl l

end Sys2Proof.Machine
end

section
/-! SUPPORT. What the takings of requests and the ends of COMMIT_FULL, COMMIT_RECIPE and REINIT keep of the three bounds
(R21, R83, R85, R86), and with them every step. -/

namespace Sys2Proof.Machine

/-! ## The shape of a taking -/

/-- Every check holds exactly when none refuses (R21). -/
theorem refusal_none_iff (cs : List (Bool × ResultCode)) : refusal cs = none ↔ ∀ c ∈ cs, c.1 = true := by
  induction cs with
  | nil => simp [refusal]
  | cons c cs ih =>
    obtain ⟨holds, code⟩ := c
    cases holds <;> simp [refusal, ih]

theorem leaveQueue_keeps (l : Line) : Keeps l (leaveQueue l) := .of_blocks rfl rfl rfl

theorem take_keeps {p : Slot → Bool} {f : Nat → Slot → Line → Line} (h : ∀ i a l, Keeps l (f i a l)) (l : Line) :
    Keeps l (take p f l) := by
  unfold take
  split
  · exact .ite ((leaveQueue_keeps l).trans (h _ _ _)) (.refl l)
  · exact .refl l

theorem immediate_keeps {busy : Line → Bool} {checks : Slot → Line → List (Bool × ResultCode)}
    {act : Slot → Line → Reply × Line} (h : ∀ a l, refusal (checks a l) = none → Keeps l (act a l).2) (i : Nat) (a : Slot)
    (l : Line) : Keeps l (immediate busy checks act i a l) := by
  unfold immediate
  split
  · exact complete_keeps _ _ l
  · rename_i hpass
    have hchecks : refusal (checks a l) = none := by
      rw [refusal_none_iff] at hpass ⊢
      exact fun c hc => hpass c (List.mem_cons_of_mem _ hc)
    exact (h a l hchecks).trans (complete_keeps _ _ _)

theorem long_keeps {busy : Line → Bool} {checks : Slot → Line → List (Bool × ResultCode)}
    {start : Nat → Slot → Line → Line} (h : ∀ i a l, Keeps l (start i a l)) (i : Nat) (a : Slot) (l : Line) :
    Keeps l (long busy checks start i a l) := by
  unfold long
  split
  · exact complete_keeps _ _ l
  · have taken : Keeps l (markTaken i l) := changeSlot_keeps i _ l
    exact taken.trans (h _ _ _)

/-! ## Configuration -/

/-- A line whose outputs are all at rest and whose zones are all OFF or absent keeps the bounds of zones and outputs. -/
theorem zonesSound_of_off {l : Line} (hlen : l.zones.length = Config.zoneCount)
    (hoff : ∀ z zone, zone? l z = some zone → zone.run.state = .off ∧ zone.run.program = none) : zonesSound l := by
  refine ⟨hlen, fun z _ hrun => ?_, fun z zone p k hz hp => ?_⟩
  · obtain ⟨zone, hz, hstate⟩ := (isRunning_iff l z).mp hrun
    rw [(hoff z zone hz).1] at hstate
    cases hstate
  · rw [(hoff z zone hz).2] at hp
    cases hp

/-- No owner zone and an owner zone in OFF give an output the same value (R45). -/
theorem Channel.Settled.of_none {c : Channel} (h : c.Settled none) {st : Option ZoneState}
    (hst : ∀ k, st = some k → k = .off) : c.Settled st := by
  cases st with
  | none => exact h
  | some k => cases hst k rfl; exact h

theorem freshChannel_settled (nodes : List Node) (d : ChanDesc) : (freshChannel nodes d).Settled none := by
  simp only [freshChannel]
  split
  · exact fun hdrives => by cases hdrives
  · exact refresh_settled _ _

theorem zoneOf_off {t : Word} {d : Words} {zone : Zone} (h : zoneOf t d = some zone) :
    zone.run.state = .off ∧ zone.run.program = none := by
  simp only [zoneOf] at h
  split at h <;> cases h <;> exact ⟨rfl, rfl⟩

theorem swapBlocks_zone {s : Shadow} {l : Line} {z : Nat} {zone : Zone} (h : zone? (swapBlocks s l) z = some zone) :
    zone.run.state = .off ∧ zone.run.program = none := by
  have hz : (s.zones.map (zoneOf (now l))).getD z none = some zone := h
  rw [List.getD_eq_getElem?_getD, List.getElem?_map] at hz
  cases hs : s.zones[z]? with
  | none => rw [hs] at hz; cases hz
  | some d => rw [hs] at hz; exact zoneOf_off hz

theorem swapBlocks_keeps (s : Shadow) (l : Line) (hlen : s.zones.length = Config.zoneCount) : Keeps l (swapBlocks s l) := by
  refine ⟨id, fun _ => zonesSound_of_off ?_ fun z zone h => swapBlocks_zone h, fun _ => (outputsSound_iff _).mpr ?_⟩
  · exact (List.length_map _).trans hlen
  · intro c hc
    obtain ⟨d, -, rfl⟩ := List.mem_map.mp (show c ∈ (s.channels.map channelDesc).map (freshChannel l.link.nodes) from hc)
    refine (freshChannel_settled _ d).of_none fun k hk => ?_
    obtain ⟨z, -, hz⟩ := Option.bind_eq_some_iff.mp hk
    obtain ⟨zone, hzone, hstate⟩ := Option.map_eq_some_iff.mp hz
    rw [← hstate]
    exact (swapBlocks_zone hzone).1

theorem completeCommit_keeps (st : Straps) (touched : Bool) (job : CommitJob) (l : Line) :
    Keeps l (completeCommit st touched job l) := by
  have ended : Keeps l { l with request := { l.request with commit := none } } := .of_blocks rfl rfl rfl
  simp only [completeCommit]
  refine .ite (ended.trans (complete_keeps _ _ _)) ?_
  split
  · exact ended.trans (complete_keeps _ _ _)
  · refine (ended.trans ?_).trans (complete_keeps _ _ _)
    refine ((swapBlocks_keeps _ _ ?_).trans (judgeThreshold_still _).keeps).trans (offer_still _ _ _).keeps
    simp [Shadow.ofWords, descriptors, Config.zoneCount]

theorem completeRecipe_keeps (job : RecipeJob) (l : Line) : Keeps l (completeRecipe job l) := by
  have ended : Keeps l { l with request := { l.request with recipeJob := none } } := .of_blocks rfl rfl rfl
  simp only [completeRecipe]
  split
  · exact ended.trans (complete_keeps _ _ _)
  · exact (ended.trans (track_still _ _).keeps).trans (complete_keeps _ _ _)

theorem takeStagingWord_keeps (st : Straps) (touched : Bool) (w : Word) (l : Line) :
    Keeps l (takeStagingWord st touched w l) := by
  simp only [takeStagingWord]
  split
  · exact .ite (.of_blocks rfl rfl rfl) (completeCommit_keeps _ _ _ l)
  · split
    · exact .refl l
    · exact .ite (.of_blocks rfl rfl rfl) (completeRecipe_keeps _ l)

theorem grantStagingRead_keeps (s : State) : Keeps s.line (grantStagingRead s).line := by
  obtain e | ⟨w, e⟩ := grantStagingRead_line s <;> rw [e]
  · exact .refl _
  · exact takeStagingWord_keeps _ _ w _

theorem HostEffect.keeps {s t : State} (h : HostEffect s t) : Keeps s.line t.line := by
  obtain ⟨-, -, m, heffect, hline | hline⟩ := h <;> rw [hline]
  · exact heffect.keeps
  · exact heffect.keeps.trans (grantStagingRead_keeps m)

theorem clearBlocks_keeps (l : Line) : Keeps l (clearBlocks l) := by
  have absent : ∀ z, zone? (clearBlocks l) z = none := fun z => by
    simp only [zone?, clearBlocks, List.getD_eq_getElem?_getD, List.getElem?_replicate]
    split <;> rfl
  refine ⟨id, fun _ => zonesSound_of_off rfl fun z zone h => ?_, fun _ c hc hdrives => ?_⟩
  · rw [absent z] at h; cases h
  · rw [List.eq_of_mem_replicate (show c ∈ List.replicate Config.channelCount Channel.unused from hc)] at hdrives
    cases hdrives

theorem finishReinit_keeps (l : Line) : Keeps l (finishReinit l) := by
  unfold finishReinit
  split
  · exact .of_blocks rfl rfl rfl
  · exact .refl l

/-! ## Zone requests -/

theorem zoneState_eq_some_iff (l : Line) (z : Nat) (st : ZoneState) :
    zoneState l z = some st ↔ ∃ x, zone? l z = some x ∧ x.run.state = st := by
  simp [zoneState, Option.map_eq_some_iff]

theorem zoneStart_keeps (z : Nat) (l : Line) : Keeps l (zoneStart z l) := by
  unfold zoneStart
  split
  · rename_i hoff
    obtain ⟨x, hx, hs⟩ := (zoneState_eq_some_iff l z _).mp hoff
    refine (plainEvent_within (startZone_within z false) l).keeps fun h => ?_
    have a := startZone_advances z false l x hx hs h
    exact (plainEvent_up _ l a.sound a.descs).1
  · exact .refl l

/-- Run pending set in STARTING or READY keeps the bound (R95). -/
theorem setRunPending_advances {z : Nat} {l : Line} {x : Zone} (hx : zone? l z = some x) (hs : x.run.state ≠ .running)
    (h : zonesSound l) : Advances l (changeZone z (fun r => { r with runPending := true }) l)
      ∧ zone? (changeZone z (fun r => { r with runPending := true }) l) z
        = some { x with run := { x.run with runPending := true } } := by
  have hz : zone? (changeZone z (fun r => { r with runPending := true }) l) z
      = some { x with run := { x.run with runPending := true } } := by
    rw [zone?_changeZone, if_pos rfl, hx]
    rfl
  refine ⟨(changeZone_only z _ l).advances h (not_running hx hs) (not_running hz hs) fun y p k hy hp => ?_, hz⟩
  rw [hz] at hy
  cases hy
  exact h.2.2 z x p k hx hp

theorem zoneRun_keeps (z : Nat) (l : Line) : Keeps l (zoneRun z l) := by
  unfold zoneRun
  split
  · rename_i hoff
    obtain ⟨x, hx, hs⟩ := (zoneState_eq_some_iff l z _).mp hoff
    refine (plainEvent_within (startZone_within z true) l).keeps fun h => ?_
    have a := startZone_advances z true l x hx hs h
    exact (plainEvent_up _ l a.sound a.descs).1
  · rename_i hstarting
    obtain ⟨x, hx, hs⟩ := (zoneState_eq_some_iff l z _).mp hstarting
    exact (changeZone_within z _ l).keeps fun h => (setRunPending_advances hx (by rw [hs]; decide) h).1.sound
  · rename_i hready
    obtain ⟨x, hx, hs⟩ := (zoneState_eq_some_iff l z _).mp hready
    refine (plainEvent_within (fun l => (changeZone_within z _ l).trans (ite_within (enterRunning_within _ z _) (.refl _)))
      l).keeps fun h => ?_
    obtain ⟨a, hz⟩ := setRunPending_advances hx (by rw [hs]; decide) h
    have runs : Advances l (if prereqsRun (changeZone z (fun r => { r with runPending := true }) l) z then
        enterRunning Config.zoneCount z (changeZone z (fun r => { r with runPending := true }) l)
        else changeZone z (fun r => { r with runPending := true }) l) := by
      split
      · rename_i hprereqs
        obtain ⟨sound, descs, mono, -⟩ := enterRunning_ready 7 z _ _ hz hs hprereqs a.sound
        exact a.trans ⟨sound, descs, mono⟩
      · exact a
    exact (plainEvent_up _ l runs.sound runs.descs).1
  · exact .refl l

/-- Outputs brought to their safe values settle as their zone enters its state (R46, R50). -/
theorem enterState_safeOutputs_outputs (z : Nat) {l : Line} (h : outputsSound l) :
    outputsSound (enterState z .off (safeOutputs z l)) := by
  rw [outputsSound_iff] at h ⊢
  have before : outputsSound (enterState z .off l) := (enterState_within z .off l).outputs ((outputsSound_iff l).mpr h)
  have owners : ∀ d, ownerState (enterState z .off (safeOutputs z l)) d = ownerState (enterState z .off l) d := fun _ => rfl
  intro c hc
  obtain ⟨y, hy, rfl⟩ := List.mem_map.mp
    (show c ∈ ((safeOutputs z l).chans.map fun c => if c.desc.owner = some z then
      refresh (zoneState (enterState z .off (safeOutputs z l)) z) c else c) from hc)
  obtain ⟨x, hx, rfl⟩ := List.mem_map.mp (show y ∈ (l.chans.map _) from hy)
  by_cases howner : x.desc.owner = some z
  · have hy : (if x.desc.owner = some z ∧ x.desc.kind.isOutput = true then
        { x with run := { x.run with hostValue := x.desc.safe, programValue := x.desc.safe } } else x).desc = x.desc := by
      split <;> rfl
    rw [hy, if_pos howner, refresh_desc, hy, ownerState, howner]
    exact refresh_settled _ _
  · have hy : ¬ (x.desc.owner = some z ∧ x.desc.kind.isOutput = true) := fun c => howner c.1
    rw [if_neg hy, if_neg howner, owners]
    refine (outputsSound_iff _).mp before x ?_
    exact List.mem_map.mpr ⟨x, hx, if_neg howner⟩

/-- What leaving SIMULATE does before any trip: simulations ended, the zone's outputs safe, the zone OFF, and the
losses at the track (R50, R104). -/
def leftSimulate (z : Nat) (l : Line) : Line :=
  let ended := { l with chans := l.chans.map fun c => if simulatedBy l z c then endSimulation l c else c }
  let stale := l.chans.any fun c => simulatedBy l z c && (fieldQuality l c).1 == .stale
  trackLosses (simulationLosses l z)
    (enterState z .off (safeOutputs z (if stale then raise .channelStale ended else ended)))

/-- An event is what its changes make of the line it begins in. -/
theorem plainEvent_congr {f g : Line → Line} {l : Line} (h : f l = g l) : plainEvent f l = plainEvent g l := by
  simp only [plainEvent, zoneEvent, h]

theorem leaveSimulate_eq (z : Nat) (l : Line) :
    leaveSimulate z l =
      plainEvent (fun _ => tripOwn (lossCauses (leftSimulate z l) (simulationLosses l z)) (leftSimulate z l)) l := by
  simp only [leaveSimulate]
  exact plainEvent_congr rfl

/-- What `leftSimulate` does to the zones: zone z is in OFF (R104). -/
theorem leftSimulate_only (z : Nat) (l : Line) :
    OnlyZone z l (leftSimulate z l) ∧ ∀ x, zone? l z = some x →
      zone? (leftSimulate z l) z = some { x with run := { x.run with state := .off, entryTime := now l } } := by
  have parts : ∀ m : Line, m.zones = l.zones → now m = now l →
      OnlyZone z l (trackLosses (simulationLosses l z) (enterState z .off (safeOutputs z m)))
        ∧ ∀ x, zone? l z = some x →
          zone? (trackLosses (simulationLosses l z) (enterState z .off (safeOutputs z m))) z
            = some { x with run := { x.run with state := .off, entryTime := now l } } := by
    intro m hz hn
    have losses := trackLosses_still (simulationLosses l z) (enterState z .off (safeOutputs z m))
    refine ⟨((OnlyZone.of_zones (l' := safeOutputs z m) hz hn).trans (enterState_only z .off _)).trans
      (.of_zones losses.zones losses.within.now), fun x hx => ?_⟩
    rw [zone?_congr losses.zones, zone?_enterState, if_pos rfl, zone?_congr (l := l) (l' := safeOutputs z m) hz, hx,
      show now (safeOutputs z m) = now l from hn]
    rfl
  simp only [leftSimulate]
  split
  · exact parts _ rfl rfl
  · exact parts _ rfl rfl

theorem leftSimulate_advances {z : Nat} {l : Line} {x : Zone} (hx : zone? l z = some x) (hs : x.run.state = .simulate)
    (h : zonesSound l) : Advances l (leftSimulate z l) := by
  obtain ⟨only, hzone⟩ := leftSimulate_only z l
  have hz := hzone x hx
  refine only.advances h (not_running hx (by rw [hs]; decide)) (not_running hz (fun c => by cases c)) fun y p k hy hp => ?_
  rw [hz] at hy
  cases hy
  rw [show x.run.program = none from program_none h hx (by rw [hs]; decide) (by rw [hs]; decide)] at hp
  cases hp

theorem leftSimulate_log_outputs (z : Nat) (l : Line) :
    (logSound l → logSound (leftSimulate z l)) ∧ (outputsSound l → outputsSound (leftSimulate z l)) := by
  have parts : ∀ m : Line, Keeps l m →
      (logSound l → logSound (trackLosses (simulationLosses l z) (enterState z .off (safeOutputs z m))))
        ∧ (outputsSound l → outputsSound (trackLosses (simulationLosses l z) (enterState z .off (safeOutputs z m)))) := by
    intro m hm
    have losses := (trackLosses_still (simulationLosses l z) (enterState z .off (safeOutputs z m))).within
    refine ⟨fun h => losses.log ((enterState_within z .off _).log ?_), fun h => losses.outputs ?_⟩
    · exact logSound_congr (l := m) rfl (hm.log h)
    · exact enterState_safeOutputs_outputs z (hm.outputs h)
  have ended : Keeps l { l with chans := l.chans.map fun c => if simulatedBy l z c then endSimulation l c else c } :=
    map_keeps (fun st c hc => by split <;> exact hc) (fun c => by split <;> rfl) l
  simp only [leftSimulate]
  split
  · exact parts _ (ended.trans (raise_keeps _ _))
  · exact parts _ ended

theorem leaveSimulate_keeps {z : Nat} {l : Line} (hz : zoneState l z = some .simulate) : Keeps l (leaveSimulate z l) := by
  obtain ⟨x, hx, hs⟩ := (zoneState_eq_some_iff l z _).mp hz
  obtain ⟨hlog, houtputs⟩ := leftSimulate_log_outputs z l
  let causes := lossCauses (leftSimulate z l) (simulationLosses l z)
  have trips := tripOwn_within causes (leftSimulate z l)
  have settle := cascade_within l (tripOwn causes (leftSimulate z l))
  have after := plainEvent_after (fun _ => tripOwn causes (leftSimulate z l)) l
  have cut := tripOwn_cut causes (leftSimulate z l)
  rw [leaveSimulate_eq]
  refine ⟨fun h => after.within.log (settle.log (trips.log (hlog h))), fun h => ?_,
    fun h => after.within.outputs (settle.outputs (trips.outputs (houtputs h)))⟩
  have a := leftSimulate_advances hx hs h
  refine zoneEvent_down (fun _ l => .refl l) (fun _ => tripOwn causes (leftSimulate z l)) l h (a.descs.trans cut.descs)
    (cut.length.trans a.sound.1) (cut.programsFit a.sound.2.2) fun w hw => ?_
  have hran := (cut.ran w hw).1
  by_cases hwz : w = z
  · subst hwz
    obtain ⟨y, hy, hrun⟩ := (isRunning_iff _ _).mp hran
    rw [(leftSimulate_only w l).2 x hx] at hy
    cases hy
    cases hrun
  · rw [isRunning, zoneState, (leftSimulate_only z l).1.others w hwz] at hran
    exact hran

theorem zoneStop_keeps (z : Nat) (l : Line) : Keeps l (zoneStop z l) := by
  have stops : ∀ st, zoneState l z = some st → Keeps l (plainEvent (stopZone z) l) := fun st hst => by
    obtain ⟨x, hx, -⟩ := (zoneState_eq_some_iff l z _).mp hst
    exact (plainEvent_within (stopZone_within z) l).keeps (stopZone_sound z l x hx)
  unfold zoneStop
  split
  · rename_i h; exact stops _ h
  · rename_i h; exact stops _ h
  · rename_i h; exact stops _ h
  · rename_i h; exact leaveSimulate_keeps h
  · exact .refl l

theorem zoneReset_keeps (z : Nat) (l : Line) : Keeps l (zoneReset z l) := by
  unfold zoneReset
  split
  · rename_i htripped
    obtain ⟨x, hx, hs⟩ := (zoneState_eq_some_iff l z _).mp htripped
    refine (plainEvent_within (fun l => (changeZone_within z _ l).trans (enterState_within z .off _)) l).keeps fun h => ?_
    have a := enterState_advances z .off (fun r => { r with cause := .none }) l x hx h (by rw [hs]; decide)
      (by rw [hs]; decide) (by rw [hs]; decide) (by decide) rfl
    exact (plainEvent_up _ l a.sound a.descs).1
  · exact .refl l

theorem simulateEnter_keeps (z : Nat) (l : Line) : Keeps l (simulateEnter z l) := by
  unfold simulateEnter
  split
  · rename_i hoff
    obtain ⟨x, hx, hs⟩ := (zoneState_eq_some_iff l z _).mp hoff
    refine (plainEvent_within (fun l => enterState_within z .simulate l) l).keeps fun h => ?_
    have hz : zone? (enterState z .simulate l) z
        = some { x with run := { x.run with state := .simulate, entryTime := now l } } := by
      rw [zone?_enterState, if_pos rfl, hx]
      rfl
    have a : Advances l (enterState z .simulate l) :=
      (enterState_only z .simulate l).advances h (not_running hx (by rw [hs]; decide))
        (not_running hz (fun c => by cases c)) fun y p k hy hp => by
          rw [hz] at hy
          cases hy
          rw [show x.run.program = none from program_none h hx (by rw [hs]; decide) (by rw [hs]; decide)] at hp
          cases hp
    exact (plainEvent_up _ l a.sound a.descs).1
  · exact .refl l

theorem simulateLeave_keeps (z : Nat) (l : Line) : Keeps l (simulateLeave z l) := by
  unfold simulateLeave
  split
  · rename_i h; exact leaveSimulate_keeps h
  · exact .refl l

/-! ## Lots, bags and pallets -/

theorem closeOpenLot_still (l : Line) : Still l (closeOpenLot l) := by
  unfold closeOpenLot
  split
  · exact closeLot_still _ l
  · exact .refl l

theorem admitLot_still (trial : Bool) (recipe : Nat) (l : Line) : Still l (admitLot trial recipe l).2 :=
  (pickOne_still _ l).trans (track_still _ _)

/-- LOT_OPEN's checks grant its three reservations (R119, R171). -/
theorem canGrant_of_lotOpenChecks {a : Slot} {l : Line} (h : refusal (lotOpenChecks a l) = none) : canGrant l 3 = true :=
  (refusal_none_iff _).mp h (canGrant l 3, .noLogSpace) (by simp [lotOpenChecks])

theorem actLotOpen_keeps (a : Slot) (l : Line) (h : refusal (lotOpenChecks a l) = none) : Keeps l (actLotOpen a l).2 :=
  ((((grant_still 3 l (canGrant_of_lotOpenChecks h)).trans (closeOpenLot_still _)).trans (admitLot_still _ _ _)).trans
    (writeReserved_still _ _ _)).keeps

theorem clearFromTrack_still (n : Nat) (l : Line) : Still l (clearFromTrack n l).2 := by
  have cleared : Still l (emptyCells n l) := track_still l _
  simp only [clearFromTrack]
  exact ite_still ((cleared.trans (changeLot_still n _ _)).trans (judgeVerdict_still n _))
    (cleared.trans (changeLot_still n _ _))

theorem retireLotFeed_still (n : Nat) (l : Line) : Still l (retireLotFeed n l).2 := by
  unfold retireLotFeed
  split
  · exact (setFeed_still _ l).trans (retireFeed_still _ _)
  · exact judgeRetirement_still n l

theorem actLotFlush_still (a : Slot) (l : Line) : Still l (actLotFlush a l).2 := by
  simp only [actLotFlush]
  split
  · exact (clearFromTrack_still _ l).trans (retireLotFeed_still _ _)
  · exact retireLotFeed_still _ l

theorem actPalletClose_still (a : Slot) (l : Line) : Still l (actPalletClose a l).2 := by
  unfold actPalletClose
  split
  · exact .refl l
  · split
    · exact ((pack_still l _).trans (returnReservation_still _)).trans (openPallets_still _)
    · exact closePallet_still _ _ l

theorem actConfirm_still (a : Slot) (l : Line) : Still l (actConfirm a l).2 :=
  (storePallet_still _ l).trans (judgeResolution_still _ _)

/-! ## Takings -/

theorem takeUnknown_keeps (l : Line) : Keeps l (takeUnknown l) := take_keeps (fun _ _ l => complete_keeps _ _ l) l

theorem startCommit_keeps (i : Nat) (a : Slot) (l : Line) : Keeps l (startCommit i a l) := .of_blocks rfl rfl rfl

theorem startReinit_keeps (i : Nat) (a : Slot) (l : Line) : Keeps l (startReinit i a l) :=
  (clearBlocks_keeps l).trans (.of_blocks rfl rfl rfl)

theorem takeCommit_keeps (l : Line) : Keeps l (takeCommit l) := take_keeps (long_keeps startCommit_keeps) l

theorem takeRecipe_keeps (l : Line) : Keeps l (takeRecipe l) :=
  take_keeps (fun i a l => by
    split
    · exact complete_keeps _ _ l
    · exact .of_blocks rfl rfl rfl) l

theorem takeReinit_keeps (l : Line) : Keeps l (takeReinit l) := take_keeps (long_keeps startReinit_keeps) l

theorem takeDiscover_keeps (l : Line) : Keeps l (takeDiscover l) :=
  take_keeps (long_keeps fun _ _ l => (changeLink_keeps _ l).trans (pump_keeps _)) l

theorem takeLinkStart_keeps (l : Line) : Keeps l (takeLinkStart l) :=
  take_keeps (immediate_keeps fun _ l _ => ((changeLink_keeps _ l).trans (startCycle_keeps _)).trans (pump_keeps _)) l

theorem takeLinkHalt_keeps (l : Line) : Keeps l (takeLinkHalt l) :=
  take_keeps (long_keeps fun _ _ l =>
    .ite (((changeLink_keeps _ l).trans (endHalt_keeps _)).trans (pump_keeps _)) (changeLink_keeps _ l)) l

theorem takeNodeRead_keeps (l : Line) : Keeps l (takeNodeRead l) :=
  take_keeps (long_keeps fun _ _ l => (changeLink_keeps _ l).trans (pump_keeps _)) l

theorem takeNodeWrite_keeps (l : Line) : Keeps l (takeNodeWrite l) :=
  take_keeps (long_keeps fun _ _ l => (changeLink_keeps _ l).trans (pump_keeps _)) l

theorem takeZoneStart_keeps (l : Line) : Keeps l (takeZoneStart l) :=
  take_keeps (immediate_keeps fun _ l _ => zoneStart_keeps _ l) l

theorem takeZoneRun_keeps (l : Line) : Keeps l (takeZoneRun l) :=
  take_keeps (immediate_keeps fun _ l _ => zoneRun_keeps _ l) l

theorem takeZoneStop_keeps (l : Line) : Keeps l (takeZoneStop l) :=
  take_keeps (immediate_keeps fun _ l _ => zoneStop_keeps _ l) l

theorem takeZoneReset_keeps (l : Line) : Keeps l (takeZoneReset l) :=
  take_keeps (immediate_keeps fun _ l _ => zoneReset_keeps _ l) l

theorem takeSimulateEnter_keeps (l : Line) : Keeps l (takeSimulateEnter l) :=
  take_keeps (immediate_keeps fun _ l _ => simulateEnter_keeps _ l) l

theorem takeSimulateLeave_keeps (l : Line) : Keeps l (takeSimulateLeave l) :=
  take_keeps (immediate_keeps fun _ l _ => simulateLeave_keeps _ l) l

theorem takeLotOpen_keeps (l : Line) : Keeps l (takeLotOpen l) := take_keeps (immediate_keeps actLotOpen_keeps) l

theorem takeLotClose_keeps (l : Line) : Keeps l (takeLotClose l) :=
  take_keeps (immediate_keeps fun _ l _ => (closeOpenLot_still l).keeps) l

theorem takeLotFlush_keeps (l : Line) : Keeps l (takeLotFlush l) :=
  take_keeps (immediate_keeps fun a l _ => (actLotFlush_still a l).keeps) l

theorem takeInject_keeps (l : Line) : Keeps l (takeInject l) :=
  take_keeps (immediate_keeps fun _ l _ => (judgeBag_still true _ l).keeps) l

theorem takePalletClose_keeps (l : Line) : Keeps l (takePalletClose l) :=
  take_keeps (immediate_keeps fun a l _ => (actPalletClose_still a l).keeps) l

theorem takeConfirm_keeps (l : Line) : Keeps l (takeConfirm l) :=
  take_keeps (immediate_keeps fun a l _ => (actConfirm_still a l).keeps) l

theorem takeAny_keeps (l : Line) : Keeps l (takeAny l) := by
  unfold takeAny
  split
  · exact .refl l
  split
  · exact takeUnknown_keeps l
  · exact takeCommit_keeps l
  · exact takeRecipe_keeps l
  · exact takeReinit_keeps l
  · exact takeDiscover_keeps l
  · exact takeLinkStart_keeps l
  · exact takeLinkHalt_keeps l
  · exact takeNodeRead_keeps l
  · exact takeNodeWrite_keeps l
  · exact takeZoneStart_keeps l
  · exact takeZoneRun_keeps l
  · exact takeZoneStop_keeps l
  · exact takeZoneReset_keeps l
  · exact .ite (takeSimulateLeave_keeps l) (takeSimulateEnter_keeps l)
  · exact takeLotOpen_keeps l
  · exact takeLotClose_keeps l
  · exact takeLotFlush_keeps l
  · exact takeInject_keeps l
  · exact takePalletClose_keeps l
  · exact takeConfirm_keeps l

/-! ## Commands and steps -/

theorem reset_logSound : logSound Line.reset :=
  ⟨by decide, by decide, fun _ => rfl, by decide⟩

theorem reset_zone (z : Nat) : zone? Line.reset z = none := by
  simp only [zone?, Line.reset, List.getD_eq_getElem?_getD, List.getElem?_replicate]
  split <;> rfl

theorem reset_zonesSound : zonesSound Line.reset :=
  zonesSound_of_off rfl fun z zone h => by rw [reset_zone] at h; cases h

theorem reset_outputsSound : outputsSound Line.reset := fun c hc hdrives => by
  rw [List.eq_of_mem_replicate (show c ∈ List.replicate Config.channelCount Channel.unused from hc)] at hdrives
  cases hdrives

/-- A pin reset establishes the three bounds whatever they were before (R17, R175). -/
theorem pinReset_keeps (straps : Straps) (high : Bool) (during : List Access) (s : State) :
    Keeps s.line (pinReset straps high during s).line := by
  have same : Keeps Line.reset (pinReset straps high during s).line := .of_blocks rfl rfl rfl
  exact ⟨fun _ => same.log reset_logSound, fun _ => same.zones reset_zonesSound, fun _ => same.outputs reset_outputsSound⟩

theorem exec_keeps {c : Instr} {s t : State} (h : exec c s = .next t) : Keeps s.line t.line := by
  cases c with
  | pinReset straps high during => cases h; exact pinReset_keeps straps high during s
  | stopNFallingEdge => cases h; exact stopFalls_keeps _
  | stopNRisingEdge => cases h; exact .of_blocks rfl rfl rfl
  | stagingWrite offset be data => cases h; exact (hostWrite_effect _ be data s).keeps
  | stagingRead => cases h; exact grantStagingRead_keeps s
  | inputChannelWrite addr be data => cases h; exact (hostWrite_effect addr be data s).keeps
  | partOutputWrite addr be data => cases h; exact (hostWrite_effect addr be data s).keeps
  | outputHostWrite addr data => cases h; exact (hostWrite_effect addr 15 data s).keeps
  | outputPartialWrite addr be data => cases h; exact (hostWrite_effect addr be data s).keeps
  | noticeWordWrite data => cases h; exact .of_blocks rfl rfl rfl
  | noticeEnableWrite data => cases h; exact .of_blocks rfl rfl rfl
  | heartbeat data => cases h; exact heartbeatWrite_keeps _
  | logRelease data => cases h; exact releaseWrite_keeps _ _ _
  | requestArgumentWrite slot k data => cases h; exact slotWrite_keeps _ _ _ _ _
  | submission slot => cases h; exact slotWrite_keeps _ slot.toNat 0 1 _
  | slotFree slot => cases h; exact slotWrite_keeps _ slot.toNat 0 0 _
  | discardedWrite addr be data => cases h; exact (hostWrite_effect addr be data s).keeps
  | requestUnknownKind => cases h; exact takeUnknown_keeps _
  | commitFull => cases h; exact takeCommit_keeps _
  | commitRecipe => cases h; exact takeRecipe_keeps _
  | reinit => cases h; exact takeReinit_keeps _
  | reinitCompletion => cases h; exact finishReinit_keeps _
  | discover => cases h; exact takeDiscover_keeps _
  | linkStart => cases h; exact takeLinkStart_keeps _
  | linkHalt => cases h; exact takeLinkHalt_keeps _
  | nodeRead => cases h; exact takeNodeRead_keeps _
  | nodeWrite => cases h; exact takeNodeWrite_keeps _
  | zoneStart => cases h; exact takeZoneStart_keeps _
  | zoneRun => cases h; exact takeZoneRun_keeps _
  | zoneStop => cases h; exact takeZoneStop_keeps _
  | zoneReset => cases h; exact takeZoneReset_keeps _
  | zoneSimulateEnter => cases h; exact takeSimulateEnter_keeps _
  | zoneSimulateLeave => cases h; exact takeSimulateLeave_keeps _
  | lotOpen => cases h; exact takeLotOpen_keeps _
  | lotClose => cases h; exact takeLotClose_keeps _
  | lotFlush => cases h; exact takeLotFlush_keeps _
  | injectBag => cases h; exact takeInject_keeps _
  | palletClose => cases h; exact takePalletClose_keeps _
  | palletConfirm => cases h; exact takeConfirm_keeps _
  | scanReply chars => cases h; exact replyArrives_keeps _ _
  | enumReply chars => cases h; exact replyArrives_keeps _ _
  | oneShotReply chars => cases h; exact replyArrives_keeps _ _
  | replyLimitExpiry => cases h; exact failAwaited_keeps _
  | replyCharacterGap => cases h; exact failAwaited_keeps _
  | safeFrameSent => cases h; exact safeSent_keeps _
  | periodTimerExpiry => cases h; exact periodTimerExpires_keeps _
  | staleTimerExpiry channel => cases h; exact staleExpires_keeps _ _
  | watchdogExpiry => cases h; exact watchdogExpires_keeps _
  | waitTimeExpiry zone => cases h; exact waitTimeExpires_keeps _ _
  | waitUntilTimeout zone => cases h; exact waitUntilExpires_keeps _ _
  | exposureTimerExpiry pallet => cases h; exact exposureExpires_keeps _ _
  | transitTimerExpiry => cases h; exact transitExpires_keeps _
  | replyCheckFailure chars => cases h; exact replyArrives_keeps _ _
  | passThroughAccess access => cases h; exact (hostAccess_effect access s).keeps

theorem background_keeps (s : State) : Keeps s.line (background s).line := by
  unfold background
  split
  · exact finishReinit_keeps _
  · exact grantStagingRead_keeps s

theorem idle_keeps (s : State) : Keeps s.line (idle s).line := by
  obtain ⟨i, -, e⟩ | ⟨l, -, hdue, e⟩ | ⟨-, -, e⟩ := idle_cases s <;> rw [e]
  · exact takeAny_keeps _
  · exact dueTimer_keeps hdue
  · exact (background_keeps s).trans (.of_blocks rfl rfl rfl)

theorem step_keeps {s t : State} (h : step s = .next t) : Keeps s.line t.line := by
  cases hpending : s.pending with
  | nil =>
    rw [step_nil hpending] at h
    cases h
    exact idle_keeps s
  | cons c rest =>
    rw [step_cons hpending] at h
    exact exec_keeps (s := { s with pending := rest }) h

end Sys2Proof.Machine
end

section
/-! The statements of what every step keeps (R37, R45, R91, R95, R171), and that reset meets it. -/

namespace Sys2Proof.Machine

/-- Settles O7: every operation on the log grants, writes and offers within its free entries. -/
theorem stepKeepsTheLogWithinItsBound : Obligations.StepKeepsTheLogWithinItsBound :=
  fun _ _ sound hstep => (step_keeps hstep).log sound

/-- Settles O8: zones enter RUNNING behind running prerequisites only, and what leaves RUNNING takes its dependents with
it in the cascade of the event. -/
theorem stepKeepsRunningZonesBehindRunningPrerequisites : Obligations.StepKeepsRunningZonesBehindRunningPrerequisites :=
  fun _ _ sound hstep => (step_keeps hstep).zones sound

/-- Settles O9: whatever changes a value that an output's applied value depends on refreshes the output in the same
event. -/
theorem stepKeepsEveryOutputAtItsZonesValue : Obligations.StepKeepsEveryOutputAtItsZonesValue :=
  fun _ _ sound hstep => (step_keeps hstep).outputs sound

/-- Settles O5, bound by bound. -/
theorem resetIsSound : Obligations.ResetIsSound := ⟨rfl, reset_logSound, reset_zonesSound, reset_outputsSound⟩

end Sys2Proof.Machine
end

section
/-! SUPPORT. The pins, reset, the watchdog's heartbeat and the idle step's takings (1.1, R1, R21, R29, R31). -/

namespace Sys2Proof.Machine

/-! ## Reset -/

theorem getD_replicate_self {α : Type} (n i : Nat) (a : α) : (List.replicate n a).getD i a = a := by
  rw [List.getD_eq_getElem?_getD, List.getElem?_replicate]
  split <;> rfl

/-! ## Takings by kind -/

/-- The taking of the row that a request kind belongs to (Table 2-1). -/
def takeOfKind (k : RequestKind) (a : Slot) : Line → Line :=
  match k with
  | .commitFull => takeCommit
  | .commitRecipe => takeRecipe
  | .reinit => takeReinit
  | .discover => takeDiscover
  | .linkStart => takeLinkStart
  | .linkHalt => takeLinkHalt
  | .nodeRead => takeNodeRead
  | .nodeWrite => takeNodeWrite
  | .zoneStart => takeZoneStart
  | .zoneRun => takeZoneRun
  | .zoneStop => takeZoneStop
  | .zoneReset => takeZoneReset
  | .zoneSimulate => if a.arg3 = 0 then takeSimulateLeave else takeSimulateEnter
  | .lotOpen => takeLotOpen
  | .lotClose => takeLotClose
  | .lotFlush => takeLotFlush
  | .injectBag => takeInject
  | .palletClose => takePalletClose
  | .palletConfirm => takeConfirm

/-- The row that takes a request of a kind. -/
def rowOfKind (k : RequestKind) (a : Slot) : Instr :=
  match k with
  | .commitFull => .commitFull
  | .commitRecipe => .commitRecipe
  | .reinit => .reinit
  | .discover => .discover
  | .linkStart => .linkStart
  | .linkHalt => .linkHalt
  | .nodeRead => .nodeRead
  | .nodeWrite => .nodeWrite
  | .zoneStart => .zoneStart
  | .zoneRun => .zoneRun
  | .zoneStop => .zoneStop
  | .zoneReset => .zoneReset
  | .zoneSimulate => if a.arg3 = 0 then .zoneSimulateLeave else .zoneSimulateEnter
  | .lotOpen => .lotOpen
  | .lotClose => .lotClose
  | .lotFlush => .lotFlush
  | .injectBag => .injectBag
  | .palletClose => .palletClose
  | .palletConfirm => .palletConfirm

/-- COMMIT_FULL's row also clears the staging-touch flag; the others act on the blocks only (R8). -/
theorem exec_rowOfKind (k : RequestKind) (a : Slot) (s : State) :
    exec (rowOfKind k a) s =
      .next (if k = .commitFull then afterTaking takeCommit s else s.onLine (takeOfKind k a)) := by
  cases k with
  | zoneSimulate => simp only [rowOfKind, takeOfKind]; split <;> rfl
  | _ => rfl

theorem ofKind_iff (k : RequestKind) (a : Slot) : ofKind k a = true ↔ RequestKind.ofCode a.kind.toNat = some k := by
  simp [ofKind]

theorem takeAny_of_kind {l : Line} {i : Nat} {k : RequestKind} (hhead : headSlot l = some i)
    (hk : RequestKind.ofCode (slotAt l i).kind.toNat = some k) : takeAny l = takeOfKind k (slotAt l i) l := by
  simp only [takeAny, hhead, hk]
  cases k with
  | zoneSimulate => simp only [takeOfKind]; split <;> rfl
  | _ => rfl

theorem takeAny_of_unknown {l : Line} {i : Nat} (hhead : headSlot l = some i)
    (hk : RequestKind.ofCode (slotAt l i).kind.toNat = none) : takeAny l = takeUnknown l := by
  simp only [takeAny, hhead, hk]

/-- A taking that leaves the commit in flight as it was acts on the blocks only (R8). -/
theorem afterTaking_of_kind {s : State} {i : Nat} {k : RequestKind} (hhead : headSlot s.line = some i)
    (hk : RequestKind.ofCode (slotAt s.line i).kind.toNat = some k) (hne : k ≠ .commitFull) :
    afterTaking takeAny s = s.onLine (takeOfKind k (slotAt s.line i)) := by
  rw [afterTaking_sameCommit s takeAny (takeAny_sameCommit s.line k hne i hhead hk), State.onLine,
    takeAny_of_kind hhead hk, State.onLine]

theorem afterTaking_of_unknown {s : State} {i : Nat} (hhead : headSlot s.line = some i)
    (hk : RequestKind.ofCode (slotAt s.line i).kind.toNat = none) : afterTaking takeAny s = s.onLine takeUnknown := by
  have same : SameCommit s.line (takeAny s.line) := by
    rw [takeAny_of_unknown hhead hk]
    exact take_sameCommit _ _ (fun i _ l => complete_sameCommit i _ l) _
  rw [afterTaking_sameCommit s takeAny same, State.onLine, takeAny_of_unknown hhead hk, State.onLine]

/-! ## Line time through the background work -/

theorem completeCommit_now (st : Straps) (touched : Bool) (job : CommitJob) (l : Line) :
    now (completeCommit st touched job l) = now l := by
  simp only [completeCommit]
  split
  · rfl
  · split
    · rfl
    · exact (offer_still _ _ _).within.now.trans (judgeThreshold_still _).within.now

theorem completeRecipe_now (job : RecipeJob) (l : Line) : now (completeRecipe job l) = now l := by
  simp only [completeRecipe]
  split <;> rfl

theorem takeStagingWord_now (st : Straps) (touched : Bool) (w : Word) (l : Line) :
    now (takeStagingWord st touched w l) = now l := by
  simp only [takeStagingWord]
  split
  · split
    · rfl
    · exact completeCommit_now _ _ _ l
  · split
    · rfl
    · split
      · rfl
      · exact completeRecipe_now _ l

theorem grantStagingRead_now (s : State) : now (grantStagingRead s).line = now s.line := by
  obtain e | ⟨w, e⟩ := grantStagingRead_line s <;> rw [e]
  exact takeStagingWord_now _ _ w _

theorem finishReinit_now (l : Line) : now (finishReinit l) = now l := by
  unfold finishReinit
  split <;> rfl

end Sys2Proof.Machine
end

section
/-! The statements of reset and the pins (R1, R17), the heartbeat (R29) and the idle step (R21, R31). -/

namespace Sys2Proof.Machine

/-- Settles O4: each field of `Line.reset`, read off. -/
theorem resetHoldsThePinResetValues : Obligations.ResetHoldsThePinResetValues := by
  have unused : ∀ i, chan Line.reset i = Channel.unused := fun i => getD_replicate_self _ i _
  have recipes : ∀ i, recipeAt Line.reset i = none := fun i => getD_replicate_self _ i _
  have ring : ∀ k, k < 64 → Line.reset.pack.ring[k]? = some RingEntry.zero := fun k hk => by
    simp only [Line.reset, List.getElem?_replicate, Config.ringCount, if_pos hk]
  have entries : ∀ k, k < 1024 → Line.reset.log.entries[k]? = some none := fun k hk => by
    simp only [Line.reset, List.getElem?_replicate, Config.logCount, if_pos hk]
  exact ⟨rfl, rfl, rfl, rfl, rfl, rfl, fun i => getD_replicate_self _ i _, rfl, rfl, rfl, rfl, rfl, rfl, rfl, rfl, rfl,
    fun i => congrArg (·.desc.kind) (unused i), rfl, fun n => getD_replicate_self _ (n - 1) _,
    fun n => getD_replicate_self _ (n - 1) _, rfl, rfl, rfl, rfl, rfl, rfl, rfl, reset_zone, rfl, rfl, rfl, rfl, recipes,
    rfl, rfl, rfl, rfl, rfl, ring, rfl, rfl, rfl, rfl, rfl, rfl, rfl, rfl, rfl, entries, rfl, rfl, rfl, rfl, rfl, rfl,
    rfl, rfl⟩

/-- Settles O10. -/
theorem pinResetRestoresEveryBlock : Obligations.PinResetRestoresEveryBlock := fun _ _ _ _ => rfl

theorem exec_heartbeat (data : Word) (s : State) : exec (.heartbeat data) s = .next (s.onLine heartbeatWrite) := rfl

/-- Settles O23, by the watchdog's state. -/
theorem heartbeatRestartsTheWatchdog : Obligations.HeartbeatRestartsTheWatchdog := by
  refine fun data s => ⟨fun hstopped => ?stopped, fun hruns => ?restarted⟩
  case stopped => rw [exec_heartbeat, State.onLine, heartbeatWrite, if_pos hstopped, now]
  case restarted => rw [exec_heartbeat, State.onLine, heartbeatWrite, if_neg hruns, now]

/-- Settles O2: the idle step's three cases, and one taking per row. -/
theorem idleStepTakesARequestOrLetsTimePass : Obligations.IdleStepTakesARequestOrLetsTimePass := by
  refine ⟨fun s hpending => ⟨fun i hhead => ?taking, fun hhead hreinit hdue hwait => ?tick, fun hhead hdue => ?works⟩,
    fun s i hhead => ⟨fun hk => ?unknown, fun k c hk hrow => ?known⟩⟩
  case taking =>
    rw [step_nil hpending, idle, hhead]
    rfl
  case tick =>
    have hback : background s = s := by
      rw [background, reinitInFlight, hreinit]
      exact grantStagingRead_none hwait
    rw [step_nil hpending, idle, hhead, hdue]
    simp only [hback]
    rfl
  case works =>
    have hstep : step s = .next ((background s).onLine tick) := by
      rw [step_nil hpending, idle, hhead, hdue]
      rfl
    refine ⟨background s, ?_, ?_, hstep⟩
    · unfold background reinitInFlight
      split <;> rfl
    · unfold background
      split
      · exact finishReinit_now s.line
      · exact grantStagingRead_now s
  case unknown =>
    rw [afterTaking_of_unknown hhead hk]
    rfl
  case known =>
    have hcode := (ofKind_iff k _).mp hk
    have hc : c = rowOfKind k (slotAt s.line i) := by
      cases k <;> simpa [rowOfKind] using hrow
    rw [hc, exec_rowOfKind]
    split
    · rename_i hcommit
      subst hcommit
      simp only [afterTaking, takeAny_of_kind hhead hcode, takeOfKind]
    · rename_i hne
      rw [afterTaking_of_kind hhead hcode hne]

end Sys2Proof.Machine
end

section
/-! SUPPORT. The bit fields of words (R176): a word made of fields that stand in ascending order and do not overlap gives
each field back. -/

namespace Sys2Proof.Machine

/-- The number a list of fields (bit position, width, value) adds up to. -/
def fieldSum : List (Nat × Nat × Nat) → Nat
  | [] => 0
  | (lo, len, v) :: rest => v % 2 ^ len * 2 ^ lo + fieldSum rest

/-- From bit `k` on the fields ascend without overlap, inside a word. -/
def ascends : Nat → List (Nat × Nat × Nat) → Bool
  | k, [] => decide (k ≤ 32)
  | k, (lo, len, _) :: rest => decide (k ≤ lo) && ascends (lo + len) rest

theorem fields_eq_ofNat (fs : List (Nat × Nat × Nat)) : fields fs = BitVec.ofNat 32 (fieldSum fs) := by
  have hfold : ∀ (fs : List (Nat × Nat × Nat)) (acc : Nat),
      fs.foldl (fun acc f => acc + (f.2.2 % 2 ^ f.2.1) * 2 ^ f.1) acc = acc + fieldSum fs := by
    intro fs
    induction fs with
    | nil => exact fun _ => rfl
    | cons f fs ih =>
      intro acc
      obtain ⟨lo, len, v⟩ := f
      rw [List.foldl_cons, ih, fieldSum, Nat.add_assoc]
  rw [fields, hfold, Nat.zero_add]

theorem ascends_le_32 : ∀ {fs : List (Nat × Nat × Nat)} {k : Nat}, ascends k fs = true → k ≤ 32
  | [], _, h => of_decide_eq_true h
  | (lo, len, v) :: rest, k, h => by
    obtain ⟨hk, hrest⟩ := Bool.and_eq_true_iff.mp h
    have := of_decide_eq_true hk
    have := ascends_le_32 hrest
    omega

theorem ascends_le_of_mem : ∀ {fs : List (Nat × Nat × Nat)} {k : Nat}, ascends k fs = true →
    ∀ {lo len v : Nat}, (lo, len, v) ∈ fs → k ≤ lo
  | (a, b, c) :: rest, k, h, lo, len, v, hm => by
    obtain ⟨hk, hrest⟩ := Bool.and_eq_true_iff.mp h
    have hk := of_decide_eq_true hk
    rcases List.mem_cons.mp hm with e | hm
    · cases e; exact hk
    · have := ascends_le_of_mem hrest hm
      omega

theorem fieldSum_dvd : ∀ {fs : List (Nat × Nat × Nat)} {k : Nat}, ascends k fs = true → 2 ^ k ∣ fieldSum fs
  | [], _, _ => Nat.dvd_zero _
  | (lo, len, v) :: rest, k, h => by
    obtain ⟨hk, hrest⟩ := Bool.and_eq_true_iff.mp h
    have hk := of_decide_eq_true hk
    refine Nat.dvd_add ?_ ?_
    · exact Nat.dvd_mul_left_of_dvd (Nat.pow_dvd_pow 2 hk) _
    · exact Nat.dvd_trans (Nat.pow_dvd_pow 2 (by omega)) (fieldSum_dvd hrest)

/-- A field's value stays below the bit after it. -/
theorem field_lt (lo len v : Nat) : v % 2 ^ len * 2 ^ lo < 2 ^ (lo + len) := by
  rw [Nat.pow_add, Nat.mul_comm (2 ^ lo)]
  exact Nat.mul_lt_mul_of_pos_right (Nat.mod_lt _ (Nat.two_pow_pos len)) (Nat.two_pow_pos lo)

theorem fieldSum_lt : ∀ {fs : List (Nat × Nat × Nat)} {k : Nat}, ascends k fs = true → fieldSum fs < 2 ^ 32
  | [], _, _ => Nat.two_pow_pos 32
  | (lo, len, v) :: rest, k, h => by
    obtain ⟨-, hrest⟩ := Bool.and_eq_true_iff.mp h
    obtain ⟨q, hq⟩ := fieldSum_dvd hrest
    have hlt := fieldSum_lt hrest
    have hend : 2 ^ (lo + len) * 2 ^ (32 - (lo + len)) = 2 ^ 32 := by
      rw [← Nat.pow_add, Nat.add_sub_cancel' (ascends_le_32 hrest)]
    have hq' : q + 1 ≤ 2 ^ (32 - (lo + len)) := by
      rw [hq, ← hend] at hlt
      exact Nat.lt_of_mul_lt_mul_left hlt
    calc fieldSum ((lo, len, v) :: rest) = v % 2 ^ len * 2 ^ lo + 2 ^ (lo + len) * q := by rw [fieldSum, hq]
      _ < 2 ^ (lo + len) + 2 ^ (lo + len) * q := Nat.add_lt_add_right (field_lt lo len v) _
      _ = 2 ^ (lo + len) * (q + 1) := by rw [Nat.mul_add, Nat.mul_one, Nat.add_comm]
      _ ≤ 2 ^ (lo + len) * 2 ^ (32 - (lo + len)) := Nat.mul_le_mul_left _ hq'
      _ = 2 ^ 32 := hend

/-- What stands below bit `k` does not reach the bits from `lo` on, `k` being at most `lo`. -/
theorem div_pow_of_below {y r k lo : Nat} (hy : y < 2 ^ k) (hr : 2 ^ k ∣ r) (hk : k ≤ lo) :
    (y + r) / 2 ^ lo = r / 2 ^ lo := by
  obtain ⟨q, rfl⟩ := hr
  have hpow : 2 ^ lo = 2 ^ k * 2 ^ (lo - k) := by rw [← Nat.pow_add, Nat.add_sub_cancel' hk]
  rw [hpow, ← Nat.div_div_eq_div_mul, ← Nat.div_div_eq_div_mul, Nat.add_mul_div_left _ _ (Nat.two_pow_pos k),
    Nat.div_eq_of_lt hy, Nat.zero_add, Nat.mul_div_cancel_left _ (Nat.two_pow_pos k)]

theorem fieldSum_bits : ∀ {fs : List (Nat × Nat × Nat)} {k : Nat}, ascends k fs = true →
    ∀ {lo len v : Nat}, (lo, len, v) ∈ fs → fieldSum fs / 2 ^ lo % 2 ^ len = v % 2 ^ len
  | (a, b, c) :: rest, k, h, lo, len, v, hm => by
    obtain ⟨-, hrest⟩ := Bool.and_eq_true_iff.mp h
    have hdvd := fieldSum_dvd hrest
    rcases List.mem_cons.mp hm with e | hm
    · cases e
      obtain ⟨q, hq⟩ := hdvd
      rw [fieldSum, hq, Nat.pow_add, Nat.mul_assoc, Nat.mul_comm (_ % _), ← Nat.mul_add,
        Nat.mul_div_cancel_left _ (Nat.two_pow_pos _), Nat.add_mul_mod_self_left, Nat.mod_mod]
    · rw [fieldSum, div_pow_of_below (field_lt a b c) hdvd (ascends_le_of_mem hrest hm)]
      exact fieldSum_bits hrest hm

theorem toNat_fields {fs : List (Nat × Nat × Nat)} (h : ascends 0 fs = true) : (fields fs).toNat = fieldSum fs := by
  rw [fields_eq_ofNat, BitVec.toNat_ofNat, Nat.mod_eq_of_lt (fieldSum_lt h)]

/-- A field of a word reads back the value given to it (R176). -/
theorem bits_fields {fs : List (Nat × Nat × Nat)} (j : Nat) {lo len v : Nat} (h : ascends 0 fs = true)
    (hj : fs[j]? = some (lo, len, v)) : bits (fields fs) lo len = v % 2 ^ len := by
  rw [bits, toNat_fields h, fieldSum_bits h (List.mem_of_getElem? hj)]

theorem bits_lt (w : Word) (lo len : Nat) : bits w lo len < 2 ^ len := Nat.mod_lt _ (Nat.two_pow_pos len)

theorem bits_mod (w : Word) (lo len : Nat) : bits w lo len % 2 ^ len = bits w lo len := Nat.mod_eq_of_lt (bits_lt w lo len)

/-! ## Bytes and halves of a word -/

theorem fields_bytes (w : Word) :
    fields [(0, 8, bits w 0 8), (8, 8, bits w 8 8), (16, 8, bits w 16 8), (24, 8, bits w 24 8)] = w := by
  have hlt := w.isLt
  refine BitVec.eq_of_toNat_eq ?_
  rw [toNat_fields rfl]
  simp only [fieldSum, bits, Nat.reducePow] at hlt ⊢
  omega

theorem fields_halves (w : Word) : fields [(0, 16, bits w 0 16), (16, 16, bits w 16 16)] = w := by
  have hlt := w.isLt
  refine BitVec.eq_of_toNat_eq ?_
  rw [toNat_fields rfl]
  simp only [fieldSum, bits, Nat.reducePow] at hlt ⊢
  omega

/-- The byte orders are their own inverses (R12). -/
theorem reverseBytes_reverseBytes (w : Word) : reverseBytes (reverseBytes w) = w := by
  have h0 : bits (reverseBytes w) 0 8 = bits w 24 8 := (bits_fields 0 rfl rfl).trans (bits_mod w 24 8)
  have h8 : bits (reverseBytes w) 8 8 = bits w 16 8 := (bits_fields 1 rfl rfl).trans (bits_mod w 16 8)
  have h16 : bits (reverseBytes w) 16 8 = bits w 8 8 := (bits_fields 2 rfl rfl).trans (bits_mod w 8 8)
  have h24 : bits (reverseBytes w) 24 8 = bits w 0 8 := (bits_fields 3 rfl rfl).trans (bits_mod w 0 8)
  rw [reverseBytes, h0, h8, h16, h24, fields_bytes]

theorem upstreamOrder_upstreamOrder (ubo : Bool) (w : Word) : upstreamOrder ubo (upstreamOrder ubo w) = w := by
  cases ubo
  · rfl
  · exact reverseBytes_reverseBytes w

theorem swapBytes_swapBytes (w : Word) : arrange .swapBytes (arrange .swapBytes w) = w := by
  have h0 : bits (arrange .swapBytes w) 0 8 = bits w 8 8 := (bits_fields 0 rfl rfl).trans (bits_mod w 8 8)
  have h8 : bits (arrange .swapBytes w) 8 8 = bits w 0 8 := (bits_fields 1 rfl rfl).trans (bits_mod w 0 8)
  have h16 : bits (arrange .swapBytes w) 16 8 = bits w 24 8 := (bits_fields 2 rfl rfl).trans (bits_mod w 24 8)
  have h24 : bits (arrange .swapBytes w) 24 8 = bits w 16 8 := (bits_fields 3 rfl rfl).trans (bits_mod w 16 8)
  rw [arrange, h0, h8, h16, h24, fields_bytes]

theorem swapHalves_swapHalves (w : Word) : arrange .swapHalves (arrange .swapHalves w) = w := by
  have h0 : bits (arrange .swapHalves w) 0 16 = bits w 16 16 := (bits_fields 0 rfl rfl).trans (bits_mod w 16 16)
  have h16 : bits (arrange .swapHalves w) 16 16 = bits w 0 16 := (bits_fields 1 rfl rfl).trans (bits_mod w 0 16)
  rw [arrange, h0, h16, fields_halves]

theorem arrange_arrange (a : Arrangement) (w : Word) : arrange a (arrange a w) = w := by
  cases a with
  | asIs => rfl
  | swapBytes => exact swapBytes_swapBytes w
  | swapHalves => exact swapHalves_swapHalves w
  | swapBoth => exact reverseBytes_reverseBytes w

end Sys2Proof.Machine
end

section
/-! SUPPORT. Accesses that reach memory (R4, R8, R9), and signed values as words (R12). -/

namespace Sys2Proof.Machine

/-! ## Access classes -/

/-- The count after an access that claims the port below the arbiter's limit (R9). -/
theorem memoryWrite_below {s : State} (w : Nat) (be : BitVec 4) (d : Word) (h : s.path.arbiter < 16) :
    memoryWrite w be d s =
      { s with
        mem := writeLanes s.path.straps s.mem w be d
        path := { s.path with
          arbiter := if (waitingOffset s.line).isSome then s.path.arbiter + 1 else s.path.arbiter } } := by
  rw [memoryWrite, claimPort_below h, portWrite]

theorem hostWrite_staging {addr : Word} {be : BitVec 4} {s : State} (data : Word) (h0 : be ≠ 0)
    (hc : classify s.path.straps s.line.matchTable (wordAddress addr) = .staging) :
    hostWrite addr be data s = stagingRegionWrite (wordAddress addr) be data s := by
  simp only [hostWrite, if_neg h0, hc]

theorem hostWrite_channel {addr : Word} {be : BitVec 4} {s : State} {i : Nat} (data : Word) (h0 : be ≠ 0)
    (hc : classify s.path.straps s.line.matchTable (wordAddress addr) = .channel i) :
    hostWrite addr be data s = channelWrite addr be data i s := by
  simp only [hostWrite, if_neg h0, hc]

theorem hostWrite_passThrough {addr : Word} {be : BitVec 4} {s : State} (data : Word) (h0 : be ≠ 0)
    (hc : classify s.path.straps s.line.matchTable (wordAddress addr) = .passThrough) :
    hostWrite addr be data s = memoryWrite (wordAddress addr) be data s := by
  simp only [hostWrite, if_neg h0, hc]

theorem hostRead_memory {addr : Word} {be : BitVec 4} {s : State} (h0 : be ≠ 0)
    (hc : classify s.path.straps s.line.matchTable (wordAddress addr) = .passThrough
      ∨ classify s.path.straps s.line.matchTable (wordAddress addr) = .staging) :
    hostRead addr be s = memoryRead (wordAddress addr) s := by
  rcases hc with hc | hc <;> simp only [hostRead, if_neg h0, hc]

/-- A word address inside the staging region is of the staging class (R3, Table 1-2). -/
theorem classify_staging {st : Straps} (table : List (Word × Nat)) {k : Nat} (hk : k < 0x10000) :
    classify st table (stagingBase st + k) = .staging := by
  have hrange : controlBase st ≤ stagingBase st + k ∧ stagingBase st + k ≤ controlBase st + 0x2FFFF := by
    simp only [stagingBase]; omega
  have hoffset : ¬ stagingBase st + k - controlBase st < 0x20000 := by
    simp only [stagingBase]; omega
  rw [classify, if_pos hrange, if_neg hoffset]

/-- The word address of a byte address in the staging region. -/
theorem wordAddress_staging (st : Straps) (offset : BitVec 16) :
    wordAddress (word (stagingBase st + offset.toNat)) = stagingBase st + (offset.toNat - offset.toNat % 4) := by
  have hbase := controlBase_le st
  have hlt := offset.isLt
  have hmod : controlBase st % 4 = 0 := by simp only [controlBase]; omega
  simp only [wordAddress, word, BitVec.toNat_ofNat, stagingBase]
  omega

/-! ## Memory below and beyond its size -/

theorem wordAddress_mod (a : Word) : wordAddress a % 4 = 0 := by
  simp only [wordAddress]; omega

theorem memorySize_mod (st : Straps) : memorySize st % 4 = 0 := by
  rw [memorySize, show 20 + st.ms.toNat = 2 + (18 + st.ms.toNat) by omega, Nat.pow_add]
  omega

/-- A word whose address is inside memory is inside memory with all its bytes. -/
theorem word_inside {st : Straps} {a : Word} (h : wordAddress a < memorySize st) :
    wordAddress a + 3 < memorySize st := by
  have hword := wordAddress_mod a
  have hsize := memorySize_mod st
  omega

/-- A byte written where the memory keeps it elsewhere, or nowhere, leaves another byte as it was (R4). -/
theorem memoryByte_writeByte_other {st : Straps} {m : Memory} (hwf : m.wf = true) (n : Nat) {a x : Nat} (b : Byte)
    (hx : x < memorySize st) (hplace : memoryPlace st a ≠ some x) :
    memoryByte st (writeByte st m a b) n x = memoryByte st m n x := by
  have hkept : memoryPlace st x = some x := if_pos hx
  simp only [writeByte, memoryByte, hkept]
  cases hp : memoryPlace st a with
  | none => rfl
  | some p =>
    have hne : x ≠ p := fun e => hplace (by rw [hp, e])
    simp only
    rw [Memory.read_write m hwf, if_neg hne]

/-- A lane written, if it is enabled, leaves a byte that is not its own as it was. -/
theorem memoryByte_lane_other {st : Straps} {m : Memory} (hwf : m.wf = true) (n : Nat) {be : BitVec 4} {k a x : Nat} (b : Byte)
    (hx : x < memorySize st) (hother : enabled be k = true → memoryPlace st a ≠ some x) :
    (if enabled be k then writeByte st m a b else m).wf = true
      ∧ memoryByte st (if enabled be k then writeByte st m a b else m) n x = memoryByte st m n x := by
  split
  · rename_i hen
    exact ⟨writeByte_wf st m a b hwf, memoryByte_writeByte_other hwf n b hx (hother hen)⟩
  · exact ⟨hwf, rfl⟩

theorem memoryByte_writeLanes_other {st : Straps} {m : Memory} (hwf : m.wf = true) (n w x : Nat) (be : BitVec 4) (d : Word)
    (hx : x < memorySize st) (hother : ∀ k, k < 4 → enabled be k = true → memoryPlace st (w + k) ≠ some x) :
    memoryByte st (writeLanes st m w be d) n x = memoryByte st m n x := by
  obtain ⟨hwf0, h0⟩ := memoryByte_lane_other hwf n (lane d 0) hx (hother 0 (by omega))
  obtain ⟨hwf1, h1⟩ := memoryByte_lane_other hwf0 n (lane d 1) hx (hother 1 (by omega))
  obtain ⟨hwf2, h2⟩ := memoryByte_lane_other hwf1 n (lane d 2) hx (hother 2 (by omega))
  obtain ⟨-, h3⟩ := memoryByte_lane_other hwf2 n (lane d 3) hx (hother 3 (by omega))
  rw [writeLanes_eq]
  exact ((h3.trans h2).trans h1).trans h0

theorem portRead_inside {w : Nat} {s : State} (h : w < memorySize s.path.straps) :
    portRead w s = (memoryWord s.path.straps s.mem s.path.freeReads w, s) := by
  rw [portRead, if_pos h]

theorem portRead_beyond {w : Nat} {s : State} (h : memorySize s.path.straps ≤ w) :
    portRead w s = (memoryWord s.path.straps s.mem s.path.freeReads w,
      { s with path := { s.path with freeReads := s.path.freeReads + 1 } }) := by
  rw [portRead, if_neg (by omega)]

@[simp] theorem portRead_readData (w : Nat) (s : State) : (portRead w s).2.path.readData = s.path.readData := by
  unfold portRead; split <;> rfl

/-! ## Signed values -/

theorem toInt_signedWord {v : Int} (hlo : -(2 ^ 31 : Int) ≤ v) (hhi : v < 2 ^ 31) : (signedWord v).toInt = v := by
  rw [signedWord, BitVec.toInt_ofInt]
  exact Int.bmod_eq_of_le (by omega) (by omega)

end Sys2Proof.Machine
end

section
/-! The statements of the accesses that reach memory (R4, R8 to R10) and of channel words (R12). -/

namespace Sys2Proof.Machine

theorem exec_stagingWrite (offset : BitVec 16) (be : BitVec 4) (data : Word) (s : State) :
    exec (.stagingWrite offset be data) s =
      .next (hostWrite (word (stagingBase s.path.straps + offset.toNat)) be data s) := rfl

theorem exec_passThroughAccess (a : Access) (s : State) : exec (.passThroughAccess a) s = .next (hostAccess a s) := rfl

theorem exec_stagingRead (s : State) : exec .stagingRead s = .next (grantStagingRead s) := rfl

/-- Settles O12. -/
theorem stagingWriteReachesMemoryAndSetsTouch : Obligations.StagingWriteReachesMemoryAndSetsTouch := by
  intro offset be data s h0 hbelow
  have hlt := offset.isLt
  have hc : classify s.path.straps s.line.matchTable (wordAddress (word (stagingBase s.path.straps + offset.toNat)))
      = .staging := by
    rw [wordAddress_staging]
    exact classify_staging _ (by omega)
  rw [exec_stagingWrite, hostWrite_staging data h0 hc, stagingRegionWrite, memoryWrite_below _ be data (by exact hbelow),
    wordAddress_staging]

theorem hostAccess_write {a : Access} (h : a.write = true) (s : State) :
    hostAccess a s = hostWrite a.addr a.be a.data s := by
  rw [hostAccess, if_pos h]

theorem hostAccess_read {a : Access} (h : a.write = false) (s : State) : hostAccess a s = hostRead a.addr a.be s := by
  rw [hostAccess, h, if_neg Bool.false_ne_true]

/-- Settles O13: below the arbiter's limit by the claim's own count, at the limit by the grant that goes first. -/
theorem passThroughAccessReachesOnlyMemory : Obligations.PassThroughAccessReachesOnlyMemory := by
  refine ⟨fun a s h0 hc hin hbelow => ?inside, fun a s h0 hc hbeyond hbelow => ?beyond,
    fun a s h0 harb hwait hc hin => ?sixteenth⟩
  case inside =>
    cases hw : a.write with
    | true =>
      refine ⟨writeLanes s.path.straps s.mem (wordAddress a.addr) a.be a.data, ?_, nofun,
        fun _ => ⟨rfl, fun hwf n x hx => ?_⟩⟩
      · rw [exec_passThroughAccess, hostAccess_write hw, hostWrite_passThrough _ h0 hc, memoryWrite_below _ _ _ hbelow]
        rfl
      · exact memoryByte_writeLanes _ _ hwf n _ x _ _ (word_inside hin) hx
    | false =>
      refine ⟨s.mem, ?_, fun _ => rfl, nofun⟩
      rw [exec_passThroughAccess, hostAccess_read hw, hostRead_memory h0 (.inl hc), memoryRead, claimPort_below hbelow,
        portRead_inside (by exact hin)]
      rfl
  case beyond =>
    cases hw : a.write with
    | true =>
      refine ⟨writeLanes s.path.straps s.mem (wordAddress a.addr) a.be a.data, ?_, nofun, fun _ hwf n x hx hother => ?_⟩
      · rw [exec_passThroughAccess, hostAccess_write hw, hostWrite_passThrough _ h0 hc, memoryWrite_below _ _ _ hbelow]
        rfl
      · exact memoryByte_writeLanes_other hwf n (wordAddress a.addr) x a.be a.data hx hother
    | false =>
      refine ⟨s.mem, ?_, fun _ => rfl, nofun⟩
      rw [exec_passThroughAccess, hostAccess_read hw, hostRead_memory h0 (.inl hc), memoryRead, claimPort_below hbelow,
        portRead_beyond (by exact hbeyond)]
      rfl
  case sixteenth =>
    obtain ⟨off, hoff⟩ := Option.isSome_iff_exists.mp hwait
    obtain ⟨w, -, hgrant⟩ := grantStagingRead_some hoff
    have hstraps : (grantStagingRead s).path.straps = s.path.straps := by rw [hgrant]; exact portRead_straps w s
    have harbiter : (grantStagingRead s).path.arbiter = 0 := by rw [hgrant]
    have hdata : (grantStagingRead s).path.readData = s.path.readData := by rw [hgrant]; exact portRead_readData w s
    have hclaim : claimPort s = { grantStagingRead s with
        path := { (grantStagingRead s).path with
          arbiter := if (waitingOffset (grantStagingRead s).line).isSome then 1 else 0 } } := by
      rw [claimPort, if_pos ⟨hwait, by rw [harb]; exact Nat.le_refl 16⟩, grantUpstream, harbiter]
      split
      · rfl
      · rw [← harbiter]
    refine ⟨grantStagingRead s, exec_stagingRead s, harbiter, grantStagingRead_mem s, fun job hjob hmore => ?_, ?_⟩
    · have hline : (grantStagingRead s).line = takeStagingWord s.path.straps s.path.touch
          (upstreamOrder s.path.straps.ubo (portRead w s).1) s.line := by rw [hgrant]
      rw [hline, takeStagingWord, hjob]
      simp only [List.length_append, List.length_singleton]
      rw [if_pos hmore]
      rfl
    · cases hw : a.write with
      | true =>
        rw [exec_passThroughAccess, hostAccess_write hw, hostWrite_passThrough _ h0 hc, memoryWrite, portWrite, hclaim,
          grantStagingRead_mem]
        simp only [hstraps, if_true, ← hdata]
      | false =>
        have hin' : wordAddress a.addr < memorySize (claimPort s).path.straps := by rw [hclaim]; simpa only [hstraps] using hin
        rw [exec_passThroughAccess, hostAccess_read hw, hostRead_memory h0 (.inl hc), memoryRead, portRead_inside hin']
        simp only [answer, hclaim, hstraps, grantStagingRead_mem, Bool.false_eq_true, if_false]

/-- Settles O15: the byte orders and the arrangements undo themselves. -/
theorem channelWordRoundTrip : Obligations.ChannelWordRoundTrip := by
  intro ubo a v hlo hhi
  rw [channelValue, channelLanes, upstreamOrder_upstreamOrder, arrange_arrange, toInt_signedWord hlo hhi]

end Sys2Proof.Machine
end

section
/-! SUPPORT. Host writes to channel words (R14, R15, R43, R48): what each does to its channel and to the others. -/

namespace Sys2Proof.Machine

theorem exec_inputChannelWrite (addr : Word) (be : BitVec 4) (data : Word) (s : State) :
    exec (.inputChannelWrite addr be data) s = .next (hostWrite addr be data s) := rfl

theorem exec_partOutputWrite (addr : Word) (be : BitVec 4) (data : Word) (s : State) :
    exec (.partOutputWrite addr be data) s = .next (hostWrite addr be data s) := rfl

theorem exec_outputHostWrite (addr data : Word) (s : State) :
    exec (.outputHostWrite addr data) s = .next (hostWrite addr 15 data s) := rfl

theorem exec_outputPartialWrite (addr : Word) (be : BitVec 4) (data : Word) (s : State) :
    exec (.outputPartialWrite addr be data) s = .next (hostWrite addr be data s) := rfl

/-! ## The capture of a channel's word -/

theorem ChanKind.isOutput_of_isInput {k : ChanKind} (h : k.isInput = true) : k.isOutput = false := by
  revert h; cases k <;> decide

theorem ChanKind.isInput_of_isOutput {k : ChanKind} (h : k.isOutput = true) : k.isInput = false := by
  revert h; cases k <;> decide

theorem captureWrite_refused {l : Line} {i : Nat} (ubo : Bool) (addr : Word) (be : BitVec 4) (data : Word)
    (h : (chan l i).desc.kind.isOutput = false) : captureWrite ubo addr be data i l = badWrite addr l := by
  simp only [captureWrite, h, Bool.false_eq_true, if_false]

theorem captureWrite_full {l : Line} {i : Nat} (ubo : Bool) (addr data : Word)
    (h : (chan l i).desc.kind.isOutput = true) :
    captureWrite ubo addr 15 data i l = hostValueWrite i (channelValue ubo (chan l i).desc.arrangement data) l := by
  have hfull : fullWord 15 = true := rfl
  simp only [captureWrite, h, if_true, hfull]

theorem captureWrite_partial {l : Line} {i : Nat} {be : BitVec 4} (ubo : Bool) (addr data : Word)
    (h : (chan l i).desc.kind.isOutput = true) (h15 : be ≠ 15) :
    captureWrite ubo addr be data i l = partialOutputWrite addr i l := by
  have hpart : fullWord be = false := by simpa [fullWord] using h15
  simp only [captureWrite, h, if_true, hpart, Bool.false_eq_true, if_false]

/-- No capture touches the readers of staging, so the claim of the port that follows counts as before. -/
theorem waitingOffset_congr {l l' : Line} (h : l'.request = l.request) : waitingOffset l' = waitingOffset l := by
  rw [waitingOffset, waitingOffset, h]

/-- A write to the word of a channel that is no input reaches memory (R14, R15). -/
theorem channelWrite_below {s : State} {i : Nat} {be : BitVec 4} {addr data : Word} {f : Line → Line}
    (hin : (chan s.line i).desc.kind.isInput = false) (hbelow : s.path.arbiter < 16)
    (hf : captureWrite s.path.straps.ubo addr be data i s.line = f s.line)
    (hrequest : (f s.line).request = s.line.request) :
    channelWrite addr be data i s =
      { s with
        mem := writeLanes s.path.straps s.mem (wordAddress addr) be data
        path := { s.path with
          arbiter := if (waitingOffset s.line).isSome then s.path.arbiter + 1 else s.path.arbiter }
        line := f s.line } := by
  have hclaim := memoryWrite_below (s := s.onLine (captureWrite s.path.straps.ubo addr be data i)) (wordAddress addr) be
    data hbelow
  simp only [channelWrite, hin, Bool.false_eq_true, if_false]
  rw [hclaim]
  simp only [State.onLine, hf, waitingOffset_congr hrequest]

/-! ## Accepted and refused values -/

theorem acceptHostValue_eq {l : Line} {i : Nat} (v : Int) (h : ownerState l (chan l i).desc ≠ some .simulate) :
    acceptHostValue i v l =
      refreshChannel i (changeRun i (fun r => { r with hostValue := v, limitRefused := false }) l) := by
  have howner : ownerState (refreshChannel i (changeRun i (fun r => { r with hostValue := v, limitRefused := false }) l))
      (chan (refreshChannel i (changeRun i (fun r => { r with hostValue := v, limitRefused := false }) l)) i).desc
      = ownerState l (chan l i).desc := by
    have hdesc : (chan (refreshChannel i (changeRun i (fun r => { r with hostValue := v, limitRefused := false }) l)) i).desc
        = (chan l i).desc := by
      rw [chan_refreshChannel, chan_changeRun]
      split <;> split <;> simp [refresh_desc]
    rw [hdesc]
    rfl
  simp only [acceptHostValue, howner, if_neg h]

/-- What a channel holds once a value is accepted: the host value, LIMIT_REFUSED clear, and the applied value of its
owner zone's state (R43, R45). -/
theorem chan_accepted {l : Line} {i : Nat} (hi : i < l.chans.length) (v : Int) :
    chan (refreshChannel i (changeRun i (fun r => { r with hostValue := v, limitRefused := false }) l)) i
      = refresh (ownerState l (chan l i).desc)
          { chan l i with run := { (chan l i).run with hostValue := v, limitRefused := false } } := by
  rw [chan_refreshChannel, if_pos ⟨rfl, by rw [changeRun_length]; exact hi⟩, chan_changeRun_self hi]
  rfl

theorem refresh_applied {st : Option ZoneState} {c : Channel} (h : c.desc.kind.isOutput = true) :
    refresh st c = { c with run := { c.run with applied := appliedValue st c, appliedRaw := rawOfApplied c (appliedValue st c) } } := by
  have hdrives : c.desc.kind.drives = true := by rw [ChanKind.drives, h, Bool.true_or]
  rw [refresh, if_pos hdrives]

theorem chan_accepted_other (l : Line) {i j : Nat} (h : j ≠ i) (f : ChanRun → ChanRun) :
    chan (refreshChannel i (changeRun i f l)) j = chan l j := by
  rw [chan_refreshChannel, if_neg (fun c => h c.1.symm), chan_changeRun, if_neg (fun c => h c.1.symm)]

theorem chan_changeRun_other (l : Line) {i j : Nat} (h : j ≠ i) (f : ChanRun → ChanRun) :
    chan (changeRun i f l) j = chan l j := by
  rw [chan_changeRun, if_neg (fun c => h c.1.symm)]

theorem inRange_iff (d : ChanDesc) (v : Int) : inRange d v = true ↔ d.engMin ≤ v ∧ v ≤ d.engMax := by
  simp [inRange]

theorem clampInt_of_inRange {d : ChanDesc} {v : Int} (h : inRange d v = true) : clampInt d.engMin d.engMax v = v := by
  obtain ⟨hlo, hhi⟩ := (inRange_iff d v).mp h
  rw [clampInt, if_neg (by omega), if_neg (by omega)]

/-- The limit action accepts the value, clamped into the range, unless it refuses it (R43). -/
theorem hostValueWrite_accepted {l : Line} {i : Nat} {v : Int}
    (h : inRange (chan l i).desc v = true ∨ (chan l i).desc.limit = .clamp) :
    hostValueWrite i v l =
      acceptHostValue i (clampInt (chan l i).desc.engMin (chan l i).desc.engMax v)
        (changeRun i (fun r => { r with partialWrite := false }) l) := by
  simp only [hostValueWrite]
  by_cases hin : inRange (chan l i).desc v = true
  · rw [if_pos hin, clampInt_of_inRange hin]
  · rw [if_neg hin, h.resolve_left hin]

theorem hostValueWrite_refused {l : Line} {i : Nat} {v : Int} (hout : inRange (chan l i).desc v = false)
    (h : (chan l i).desc.limit = .refuse) :
    hostValueWrite i v l =
      raise .limitRefused (changeRun i (fun r => { r with limitRefused := true })
        (changeRun i (fun r => { r with partialWrite := false }) l)) := by
  simp only [hostValueWrite, hout, h, Bool.false_eq_true, if_false]

/-! ## What a host value write leaves alone -/

theorem loopback_within (source : Nat) (v : Int) (l : Line) :
    loopback source v l = l ∨ ∃ p f, Within (changeRun p f l) (loopback source v l) := by
  simp only [loopback]
  split
  · exact .inl rfl
  · exact .inr ⟨_, _, freshSample_within _ _ _⟩

theorem acceptHostValue_request (i : Nat) (v : Int) (l : Line) : (acceptHostValue i v l).request = l.request := by
  simp only [acceptHostValue]
  split
  · obtain e | ⟨p, f, w⟩ := loopback_within i v
        (refreshChannel i (changeRun i (fun r => { r with hostValue := v, limitRefused := false }) l))
    · rw [e]; rfl
    · rw [w.request]; rfl
  · rfl

theorem hostValueWrite_request (i : Nat) (v : Int) (l : Line) : (hostValueWrite i v l).request = l.request := by
  simp only [hostValueWrite]
  split
  · exact acceptHostValue_request _ _ _
  · split
    · exact acceptHostValue_request _ _ _
    · rfl

/-- A full-word write to an output's word (R15, R43). -/
theorem exec_outputHostWrite_below {addr data : Word} {s : State} {i : Nat}
    (hc : classify s.path.straps s.line.matchTable (wordAddress addr) = .channel i)
    (hout : (chan s.line i).desc.kind.isOutput = true) (hbelow : s.path.arbiter < 16) :
    exec (.outputHostWrite addr data) s = .next
      { s with
        mem := writeLanes s.path.straps s.mem (wordAddress addr) 15 data
        path := { s.path with
          arbiter := if (waitingOffset s.line).isSome then s.path.arbiter + 1 else s.path.arbiter }
        line := hostValueWrite i (channelValue s.path.straps.ubo (chan s.line i).desc.arrangement data) s.line } := by
  rw [exec_outputHostWrite, hostWrite_channel data (by decide) hc,
    channelWrite_below (ChanKind.isInput_of_isOutput hout) hbelow (captureWrite_full _ addr data hout)
      (hostValueWrite_request _ _ _)]

theorem lt_of_isOutput {l : Line} {i : Nat} (h : (chan l i).desc.kind.isOutput = true) : i < l.chans.length := by
  refine Classical.byContradiction fun hge => ?_
  rw [chan_unused l i (Nat.not_lt.mp hge)] at h
  cases h

end Sys2Proof.Machine
end

section
/-! The statements of host writes to channel words (R14, R15, R43, R48). -/

namespace Sys2Proof.Machine

/-- Settles O16. -/
theorem inputAndPartOutputWritesAreRefused : Obligations.InputAndPartOutputWritesAreRefused := by
  refine fun addr be data s i h0 hc => ⟨fun hinput => ?input, fun hpart hbelow => ?part⟩
  case input =>
    rw [exec_inputChannelWrite, hostWrite_channel data h0 hc]
    simp only [channelWrite, hinput, if_true, State.onLine,
      captureWrite_refused _ addr be data (ChanKind.isOutput_of_isInput hinput)]
    rfl
  case part =>
    rw [exec_partOutputWrite, hostWrite_channel data h0 hc, channelWrite_below (f := badWrite addr) (by rw [hpart]; rfl) hbelow
      (captureWrite_refused _ addr be data (by rw [hpart]; rfl)) rfl]
    rfl

/-- Settles O17. -/
theorem outputPartialWriteSetsPartialWrite : Obligations.OutputPartialWriteSetsPartialWrite := by
  intro addr be data s i h0 h15 hc hout hbelow
  rw [exec_outputPartialWrite, hostWrite_channel data h0 hc,
    channelWrite_below (f := partialOutputWrite addr i) (ChanKind.isInput_of_isOutput hout) hbelow
      (captureWrite_partial _ addr data hout h15) rfl]
  rfl

/-- Settles O18: an accepted value refreshes its own channel, a refused one sets LIMIT_REFUSED. -/
theorem outputHostWriteIsJudgedByTheLimitAction : Obligations.OutputHostWriteIsJudgedByTheLimitAction := by
  intro addr data s i v hc hout hi hbelow howner hv d refused
  let l1 := changeRun i (fun r => { r with partialWrite := false }) s.line
  have hchan1 : chan l1 i = { chan s.line i with run := { (chan s.line i).run with partialWrite := false } } :=
    chan_changeRun_self hi _
  have hlen1 : i < l1.chans.length := (changeRun_length i _ s.line).symm ▸ hi
  have hother1 : ∀ j, j ≠ i → chan l1 j = chan s.line j := fun j hj => chan_changeRun_other s.line hj _
  rw [exec_outputHostWrite_below hc hout hbelow, ← hv]
  refine ⟨_, rfl, rfl, rfl, rfl, ?_⟩
  by_cases hrefused : refused
  · obtain ⟨hout_of_range, hlimit⟩ := hrefused
    have hnot : inRange d v = false := by
      rw [Bool.eq_false_iff, Ne, inRange_iff]
      omega
    simp only [hostValueWrite_refused hnot hlimit]
    have hchan : chan (changeRun i (fun r => { r with limitRefused := true }) l1) i
        = { chan l1 i with run := { (chan l1 i).run with limitRefused := true } } := chan_changeRun_self hlen1 _
    refine ⟨?_, ?_, fun _ => ⟨?_, ?_, raise_noticeSet_self _ _⟩, fun h => absurd ⟨hout_of_range, hlimit⟩ h, fun j hj => ?_,
      rfl, rfl, rfl, rfl, rfl⟩
    · rw [chan_raise, hchan, hchan1]
    · rw [chan_raise, hchan, hchan1]
    · rw [chan_raise, hchan, hchan1]
    · rw [chan_raise, hchan]
    · rw [chan_raise, chan_changeRun_other _ hj, hother1 j hj]
  · have haccept : inRange (chan s.line i).desc v = true ∨ (chan s.line i).desc.limit = .clamp := by
      rw [inRange_iff]
      by_cases hlimit : (chan s.line i).desc.limit = .clamp
      · exact .inr hlimit
      · have hrefuse : d.limit = .refuse := by
          cases hl : d.limit with
          | clamp => exact absurd hl hlimit
          | refuse => rfl
        refine .inl ?_
        refine Classical.byContradiction fun hin => ?_
        have hrange : ¬ (d.engMin ≤ v ∧ v ≤ d.engMax) := hin
        rw [Decidable.not_and_iff_or_not, Int.not_le, Int.not_le] at hrange
        exact hrefused ⟨hrange, hrefuse⟩
    have howner1 : ownerState l1 (chan l1 i).desc ≠ some .simulate := by rw [hchan1]; exact howner
    have hchan := chan_accepted hlen1 (clampInt d.engMin d.engMax v)
    rw [refresh_applied (by rw [hchan1]; exact hout), hchan1] at hchan
    simp only [hostValueWrite_accepted haccept]
    rw [acceptHostValue_eq _ howner1]
    refine ⟨?_, ?_, fun h => absurd h hrefused, fun _ => ⟨?_, ?_, rfl, ?_⟩, fun j hj => ?_, rfl, rfl, rfl, rfl, rfl⟩
    · rw [hchan]
    · rw [hchan]
    · rw [hchan]
    · rw [hchan]
    · rw [hchan]; rfl
    · rw [chan_accepted_other _ hj, hother1 j hj]

/-- What a loopback sets in the run part of its partner. -/
def partnerTakes (i : Nat) (value : Int) (r : ChanRun) : ChanRun :=
  { r with simValue := value, simFlag := true, simSource := some i, quality := .good, timer := .suspended }

theorem loopback_partner {l : Line} {i p : Nat} (v : Int) (hpartner : (chan l i).desc.partner = some p) :
    loopback i v l
      = freshSample p (loopbackValue (chan l i).desc (chan l p).desc v)
          (changeRun p (partnerTakes i (loopbackValue (chan l i).desc (chan l p).desc v)) l) := by
  simp only [loopback, hpartner]
  rfl

/-- The line after output i took the value v, before any loopback. -/
def accepted (i : Nat) (v : Int) (l : Line) : Line :=
  refreshChannel i (changeRun i (fun r => { r with hostValue := v, limitRefused := false }) l)

theorem acceptHostValue_simulate {l : Line} {i p : Nat} (v : Int)
    (howner : ownerState (accepted i v l) (chan (accepted i v l) i).desc = some .simulate)
    (hpartner : (chan (accepted i v l) i).desc.partner = some p) :
    acceptHostValue i v l
      = freshSample p (loopbackValue (chan (accepted i v l) i).desc (chan (accepted i v l) p).desc v)
          (changeRun p
            (partnerTakes i (loopbackValue (chan (accepted i v l) i).desc (chan (accepted i v l) p).desc v))
            (accepted i v l)) := by
  rw [← loopback_partner v hpartner, acceptHostValue]
  exact if_pos howner

theorem accepted_self {l : Line} {i : Nat} (hi : i < l.chans.length) (hout : (chan l i).desc.kind.isOutput = true)
    (v : Int) :
    (chan (accepted i v l) i).desc = (chan l i).desc ∧ (chan (accepted i v l) i).run.eng = (chan l i).run.eng
      ∧ (chan (accepted i v l) i).run.hostValue = v := by
  have hchan : chan (accepted i v l) i = _ := chan_accepted hi v
  rw [refresh_applied (by exact hout)] at hchan
  rw [hchan]
  exact ⟨rfl, rfl, rfl⟩

theorem accepted_other {i j : Nat} (hj : j ≠ i) (v : Int) (l : Line) : chan (accepted i v l) j = chan l j :=
  chan_accepted_other l hj _

@[simp] theorem accepted_length (i : Nat) (v : Int) (l : Line) :
    (accepted i v l).chans.length = l.chans.length := by
  simp [accepted, refreshChannel, change]

/-- Output i takes the value and its partner the simulated value, whatever the fresh sample's event then does. -/
theorem acceptHostValue_loopback {l : Line} {i p : Nat} {v : Int} (hp : p < l.chans.length)
    (hout : (chan l i).desc.kind.isOutput = true) (howner : ownerState l (chan l i).desc = some .simulate)
    (hpartner : (chan l i).desc.partner = some p) :
    (chan (acceptHostValue i v l) i).run.hostValue = v
      ∧ (chan (acceptHostValue i v l) p).run.simFlag = true
      ∧ (chan (acceptHostValue i v l) p).run.simSource = some i
      ∧ (chan (acceptHostValue i v l) p).run.simValue = loopbackValue (chan l i).desc (chan l p).desc v
      ∧ (chan (acceptHostValue i v l) p).run.quality = .good
      ∧ (chan (acceptHostValue i v l) p).run.timer = .suspended
      ∧ (chan (acceptHostValue i v l) p).run.eng = (chan l p).run.eng := by
  obtain ⟨hdesc, hengi, hhost⟩ := accepted_self (lt_of_isOutput hout) hout v
  have hpart : (chan (accepted i v l) p).desc = (chan l p).desc
      ∧ (chan (accepted i v l) p).run.eng = (chan l p).run.eng := by
    by_cases hj : p = i
    · rw [hj]; exact ⟨hdesc, hengi⟩
    · rw [accepted_other hj]; exact ⟨rfl, rfl⟩
  obtain ⟨hdescp, hengp⟩ := hpart
  have hstate : ownerState (accepted i v l) (chan (accepted i v l) i).desc = some .simulate := by
    rw [hdesc]; exact howner
  rw [acceptHostValue_simulate v hstate (by rw [hdesc]; exact hpartner), hdesc, hdescp]
  generalize loopbackValue (chan l i).desc (chan l p).desc v = value
  have within := freshSample_within p value (changeRun p (partnerTakes i value) (accepted i v l))
  have htaken : chan (changeRun p (partnerTakes i value) (accepted i v l)) p
      = { chan (accepted i v l) p with run := partnerTakes i value (chan (accepted i v l) p).run } :=
    chan_changeRun_self (by rw [accepted_length]; exact hp) _
  have hheld : (chan (changeRun p (partnerTakes i value) (accepted i v l)) i).run.hostValue = v := by
    by_cases hj : i = p
    · rw [← hj] at htaken ⊢; rw [htaken]; exact hhost
    · rw [chan_changeRun_other _ hj]; exact hhost
  obtain ⟨-, -, -, -, -, -, -, -, hhost', -⟩ := within.run i
  obtain ⟨hquality, -, heng, -, htimer, hsim, hflag, hsource, -⟩ := within.run p
  rw [hhost', hquality, heng, htimer, hsim, hflag, hsource, htaken]
  exact ⟨hheld, rfl, rfl, rfl, rfl, rfl, hengp⟩

/-- Settles O19: the accepted value is held, and the partner's simulated value survives the fresh sample's event. -/
theorem loopbackGivesThePartnerASimulatedValue : Obligations.LoopbackGivesThePartnerASimulatedValue := by
  intro addr data s i p v h hc hout hp hbelow howner hpartner hv d e hlimit hh
  have hi := lt_of_isOutput hout
  let l1 := changeRun i (fun r => { r with partialWrite := false }) s.line
  have hchan1 : chan l1 i = { chan s.line i with run := { (chan s.line i).run with partialWrite := false } } :=
    chan_changeRun_self hi _
  have hdesci : (chan l1 i).desc = d := by rw [hchan1]
  have hpart : (chan l1 p).desc = e ∧ (chan l1 p).run.eng = (chan s.line p).run.eng := by
    by_cases hj : p = i
    · subst hj; rw [hchan1]; exact ⟨rfl, rfl⟩
    · rw [show chan l1 p = _ from chan_changeRun_other s.line hj _]; exact ⟨rfl, rfl⟩
  obtain ⟨hdescp, hengp⟩ := hpart
  have haccept : inRange (chan s.line i).desc v = true ∨ (chan s.line i).desc.limit = .clamp := by
    rw [inRange_iff]; exact hlimit
  have hclamp : clampInt d.engMin d.engMax v = h := hh.symm
  obtain ⟨hhost, hflag, hsource, hsim, hquality, htimer, heng⟩ := acceptHostValue_loopback (l := l1) (i := i) (p := p)
    (v := h) (by rw [changeRun_length]; exact hp) (by rw [hdesci]; exact hout) (by rw [hdesci]; exact howner)
    (by rw [hdesci]; exact hpartner)
  rw [hdesci, hdescp] at hsim
  rw [exec_outputHostWrite_below hc hout hbelow, ← hv]
  simp only [hostValueWrite_accepted haccept]
  rw [hclamp]
  have hanalog : e.kind = .inputAnalog →
      loopbackValue d e h = clampInt e.engMin e.engMax (carryDecimals d.decimals e.decimals h) :=
    fun hk => by rw [loopbackValue, hk]
  refine ⟨_, rfl, hhost, hflag, hsource, hsim, fun hk hle => ?finer, fun hk hlt => ?coarser, fun hk => ?counter,
    fun hk => ?discrete, hquality, htimer, heng.trans hengp⟩
  case finer => exact hsim.trans (by rw [hanalog hk, carryDecimals, if_pos hle])
  case coarser =>
    have hden : (10 : Int) ^ (d.decimals - e.decimals) ≠ 0 := Int.pow_ne_zero (by decide)
    obtain ⟨hnear, htie⟩ := roundQuotient_nearest h hden
    exact ⟨_, hnear, htie, hsim.trans (by rw [hanalog hk, carryDecimals, if_neg (by omega)])⟩
  case counter => exact hsim.trans (by rw [loopbackValue, hk])
  case discrete => exact hsim.trans (by rw [loopbackValue, hk])

end Sys2Proof.Machine
end

section
/-! SUPPORT. The words of a request slot under a host write, and the writes that the part-owned area discards (R7, R18,
R19). -/

namespace Sys2Proof.Machine

theorem exec_requestArgumentWrite (slot k : BitVec 4) (data : Word) (s : State) :
    exec (.requestArgumentWrite slot k data) s =
      .next (s.onLine (slotWrite (slotAddress s.path.straps slot.toNat k.toNat) slot.toNat k.toNat
        (hostValue s data))) := rfl

theorem exec_logRelease (data : Word) (s : State) :
    exec (.logRelease data) s = .next (s.onLine (releaseWrite (statusAddress s 0x0C) (hostValue s data))) := rfl

theorem badWrite_eq (addr : Word) (l : Line) :
    badWrite addr l = { l with status := { l.status with lastBad := addr, notices := l.status.notices ||| Notice.badWrite.mask } } :=
  rfl

theorem slotOpen_iff (s : Slot) : slotOpen s = true ↔ s.state = .free ∨ s.state = .done := by
  simp [slotOpen]

theorem slotOpen_eq_false {s : Slot} (h : s.state = .submitted ∨ s.state = .taken) : slotOpen s = false := by
  rcases h with h | h <;> simp [slotOpen, h]

theorem slotWrite_argument {l : Line} {i k : Nat} (addr v : Word) (h1 : 1 ≤ k) (h7 : k ≤ 7)
    (hopen : slotOpen (slotAt l i) = true) : slotWrite addr i k v l = changeSlot i (setArgument k v) l := by
  rw [slotWrite, if_neg (by omega), if_pos ⟨h7, hopen⟩]

theorem slotWrite_of_closed {l : Line} {i : Nat} (addr v : Word) (k : Nat) (hclosed : slotOpen (slotAt l i) = false) :
    slotWrite addr i k v l = badWrite addr l := by
  have hdone : (slotAt l i).state ≠ .done := fun h => by simp [slotOpen, h] at hclosed
  simp [slotWrite, hclosed, hdone]

theorem slotWrite_beyond {k : Nat} (addr v : Word) (i : Nat) (l : Line) (hk : 7 < k) :
    slotWrite addr i k v l = badWrite addr l := by
  rw [slotWrite, if_neg (by omega), if_neg (fun h => absurd h.1 (by omega))]

theorem slotWords_setArgument {k : Nat} (v : Word) (s : Slot) (h1 : 1 ≤ k) (h7 : k ≤ 7) :
    slotWords (setArgument k v s) = (slotWords s).set k v := by
  match k, h1, h7 with
  | 1, _, _ => rfl
  | 2, _, _ => rfl
  | 3, _, _ => rfl
  | 4, _, _ => rfl
  | 5, _, _ => rfl
  | 6, _, _ => rfl
  | 7, _, _ => rfl

theorem recordWord_set {ws : List Word} {k : Nat} (hk : k < ws.length) (v : Word) (m : Nat) :
    recordWord (ws.set k v) m = if m = k then v else recordWord ws m := by
  simp only [recordWord, List.getD_eq_getElem?_getD, List.getElem?_set]
  by_cases h : m = k
  · rw [if_pos h.symm, if_pos hk, if_pos h, Option.getD_some]
  · rw [if_neg (fun e => h e.symm), if_neg h]

theorem slotWords_length (s : Slot) : (slotWords s).length = 13 := rfl

/-- Outside the status block's four words and the slots' words 0 to 7 a full-word write is discarded (R7). -/
theorem partWrite_discarded {off : Nat} (addr v : Word) (l : Line)
    (h : (0x0C < off ∧ off < 0x100) ∨ (0x100 ≤ off ∧ off < 0x500 ∧ 32 ≤ (off - 0x100) % 64) ∨ 0x500 ≤ off) :
    partWrite addr off v l = badWrite addr l := by
  rw [partWrite, if_neg (by omega), if_neg (by omega), if_neg (by omega), if_neg (by omega)]
  by_cases hslot : 0x100 ≤ off ∧ off < 0x500
  · rw [if_pos hslot, slotWrite_beyond addr v _ l (by omega)]
  · rw [if_neg hslot]

end Sys2Proof.Machine
end

section
/-! The statements of the argument words and the submission of a slot (R18, R19), and of the discarded writes (R7). -/

namespace Sys2Proof.Machine

/-- Settles O25, by the state of the slot. -/
theorem argumentWriteIsAcceptedByState : Obligations.ArgumentWriteIsAcceptedByState := by
  intro slot k data s h1 h7 hlen i old open_
  have hi : i < s.line.request.slots.length := by rw [hlen]; exact slot.isLt
  refine ⟨_, exec_requestArgumentWrite slot k data s, ⟨rfl, rfl, rfl⟩, fun hopen => ?stored, fun hclosed => ?discarded⟩
  case stored =>
    rw [onLine_line, slotWrite_argument _ _ h1 h7 ((slotOpen_iff _).mpr hopen)]
    refine ⟨rfl, rfl, rfl, fun j hj => ?_, fun m => ?_⟩
    · rw [slotAt_changeSlot, if_neg (fun h => hj h.1.symm)]
    · rw [slotAt_changeSlot, if_pos ⟨rfl, hi⟩, slotWords_setArgument _ _ h1 h7,
        recordWord_set (by rw [slotWords_length]; omega)]
      rfl
  case discarded =>
    have hshut : slotOpen (slotAt s.line i) = false := by rw [Bool.eq_false_iff, Ne, slotOpen_iff]; exact hclosed
    rw [onLine_line, slotWrite_of_closed _ _ _ hshut, badWrite_eq]

/-- Settles O26, by the state of the slot. -/
theorem submissionQueuesTheSlot : Obligations.SubmissionQueuesTheSlot := by
  intro slot s hlen i old
  refine ⟨fun hopen => ?queued, fun hclosed => ?discarded⟩
  case queued =>
    rw [exec_submission, onLine_congr (slotWrite_one_of_open _ ((slotOpen_iff _).mpr hopen)), State.onLine, submitSlot,
      changeSlot, change, modify_eq_set _ _ _ Slot.empty]
    rfl
  case discarded =>
    rw [exec_submission, onLine_congr (slotWrite_of_closed _ _ _ (slotOpen_eq_false hclosed)), onLine_badWrite]

/-- Settles O28: a partial write is discarded by its enables, a full one by its offset. -/
theorem discardedWriteRecordsItsAddress : Obligations.DiscardedWriteRecordsItsAddress := by
  intro addr be data s off h0 hc hwhy
  by_cases h15 : be = 15
  · subst h15
    have hoff := hwhy.resolve_left (fun h => h rfl)
    rw [exec_discardedWrite, hostWrite_part_full data hc, onLine_congr (partWrite_discarded addr _ _ hoff),
      onLine_badWrite]
  · rw [exec_discardedWrite_partial data h0 h15 hc, onLine_badWrite]

end Sys2Proof.Machine
end

section
/-! SUPPORT. The opening of pallets over both lanes (R149, R154): which lanes get one, their places and numbers, and
what BAGGER_HOLD is afterwards. -/

namespace Sys2Proof.Machine

/-- `l'` is `l` with the pallets `news` opened, one reservation each (R149). -/
structure PalletsOpened (l l' : Line) (news : List Pallet) : Prop where
  pallets : l'.pack.pallets = l.pack.pallets ++ news
  fresh   : ∀ k q, news[k]? = some q → q = newPallet q.pos q.number q.lane ∧ q.pos < 32
              ∧ ∀ r ∈ l.pack.pallets ++ news.take k, r.pos ≠ q.pos
  log     : l'.log = { l.log with reserved := l.log.reserved + news.length }
  notices : ∀ m : Notice, m ≠ .logThreshold → noticeSet l' m = noticeSet l m
  pack    : { l'.pack with pallets := l.pack.pallets, palletCounter := l.pack.palletCounter } = l.pack
  rest    : { l' with pack := l.pack, log := l.log, choices := l.choices, status := l.status } = l
  status  : { l'.status with notices := l.status.notices } = l.status

theorem PalletsOpened.refl (l : Line) : PalletsOpened l l [] :=
  ⟨(List.append_nil _).symm, fun _ _ h => by simp at h, rfl, fun _ _ => rfl, rfl, rfl, rfl⟩

theorem PalletsOpened.trans {a b c : Line} {xs ys : List Pallet} (x : PalletsOpened a b xs)
    (y : PalletsOpened b c ys) : PalletsOpened a c (xs ++ ys) where
  pallets := by rw [y.pallets, x.pallets, List.append_assoc]
  fresh k q h := by
    by_cases hk : k < xs.length
    · rw [List.getElem?_append_left hk] at h
      rw [List.take_append_of_le_length (Nat.le_of_lt hk)]
      exact x.fresh k q h
    · rw [List.getElem?_append_right (Nat.le_of_not_lt hk)] at h
      obtain ⟨hnew, hpos, hfree⟩ := y.fresh _ q h
      rw [x.pallets] at hfree
      rw [List.take_append, List.take_of_length_le (Nat.le_of_not_lt hk), ← List.append_assoc]
      exact ⟨hnew, hpos, hfree⟩
  log := by rw [y.log, x.log, List.length_append, Nat.add_assoc]
  notices m h := (y.notices m h).trans (x.notices m h)
  pack := (congrArg (fun p : Pack =>
    { p with pallets := a.pack.pallets, palletCounter := a.pack.palletCounter }) y.pack).trans x.pack
  rest := (congrArg (fun l : Line =>
    { l with pack := a.pack, log := a.log, choices := a.choices, status := a.status }) y.rest).trans x.rest
  status := (congrArg (fun s : Status => { s with notices := a.status.notices }) y.status).trans x.status

section
variable {l l' : Line} {news : List Pallet} (h : PalletsOpened l l' news)
include h

theorem PalletsOpened.baggerHold : l'.pack.baggerHold = l.pack.baggerHold := by
  have hold := congrArg Pack.baggerHold h.pack
  exact hold

theorem PalletsOpened.zones : l'.zones = l.zones := by
  have rest := congrArg Line.zones h.rest
  exact rest

theorem PalletsOpened.chan (j : Nat) : Machine.chan l' j = Machine.chan l j := by
  have rest := congrArg Line.chans h.rest
  exact congrArg (·.getD j Channel.unused) rest

theorem PalletsOpened.packRest :
    { l'.pack with
      pallets := l.pack.pallets, palletCounter := l.pack.palletCounter, baggerHold := l.pack.baggerHold } = l.pack :=
  (congrArg (fun p : Pack => { p with baggerHold := l.pack.baggerHold }) h.pack)

end

/-- Whether an attempt opens a pallet for the lane (R149). -/
def opensFor (x : Lane) (l : Line) : Bool :=
  bagRunning l && (openPallet l x).isNone && decide (1 ≤ min (32 - l.pack.pallets.length) (freeUnreserved l.log))

theorem tryOpen_opened (x : Lane) (l : Line) :
    ∃ news, PalletsOpened l (tryOpen x l) news ∧ news.map (·.lane) = (if opensFor x l then [x] else [])
      ∧ (∀ q ∈ news, q.number = l.pack.palletCounter)
      ∧ (tryOpen x l).pack.palletCounter =
          if opensFor x l then nextNumber ((tryOpen x l).pack.pallets.map (·.number)) 64 l.pack.palletCounter
          else l.pack.palletCounter := by
  obtain ⟨hclosed, hopens⟩ := tryOpen_spec x l
  by_cases h : opensFor x l = true
  case pos =>
    have hopen : bagRunning l = true ∧ openPallet l x = none ∧ l.pack.pallets.length < 32 ∧ 1 ≤ freeUnreserved l.log := by
      simp only [opensFor, Bool.and_eq_true, decide_eq_true_eq, Option.isNone_iff_eq_none] at h
      obtain ⟨⟨hrunning, hnone⟩, hroom⟩ := h
      exact ⟨hrunning, hnone, by omega, by omega⟩
    obtain ⟨pos, choices, notices, heq, hpos, hfree, hnotices⟩ := hopens hopen
    rw [if_pos h, if_pos h]
    refine ⟨[newPallet pos l.pack.palletCounter x], ⟨by rw [heq], fun k q hk => ?_, by rw [heq]; rfl, hnotices, by rw [heq],
      by rw [heq], by rw [heq]⟩, rfl, fun q hq => ?_, by rw [heq]⟩
    · obtain ⟨rfl, rfl⟩ : k = 0 ∧ newPallet pos l.pack.palletCounter x = q := by simpa [List.getElem?_singleton] using hk
      exact ⟨rfl, hpos, by rwa [List.take_zero, List.append_nil]⟩
    · rw [List.mem_singleton.mp hq]; rfl
  case neg =>
    have hstay : tryOpen x l = l := hclosed fun hopen => h (by
      obtain ⟨hrunning, hnone, hroom, hfree⟩ := hopen
      simp only [opensFor, hrunning, hnone, Bool.true_and, Option.isNone_none, decide_eq_true_eq]
      omega)
    rw [hstay, if_neg h, if_neg h]
    exact ⟨[], .refl l, rfl, fun q hq => absurd hq (List.not_mem_nil), rfl⟩

theorem PalletsOpened.bagRunning {l l' : Line} {news : List Pallet} (h : PalletsOpened l l' news) :
    Machine.bagRunning l' = Machine.bagRunning l := by
  simp only [Machine.bagRunning, kindIn, zoneOfKind, zoneState, zone?, h.zones]

theorem PalletsOpened.isNone {l l' : Line} {news : List Pallet} (h : PalletsOpened l l' news) (x : Lane) :
    (openPallet l' x).isNone = ((openPallet l x).isNone && !(news.map (·.lane)).contains x) := by
  have hopened : ∀ q ∈ news, q.state = .opened := fun q hq => by
    obtain ⟨k, hk⟩ := List.mem_iff_getElem?.mp hq
    rw [(h.fresh k q hk).1]
    rfl
  rw [openPallet, openPallet, h.pallets, List.find?_append]
  have hnews : (news.find? fun p => p.lane == x && p.state == .opened).isNone = !(news.map (·.lane)).contains x := by
    rw [Bool.eq_iff_iff]
    simp only [Option.isNone_iff_eq_none, List.find?_eq_none, Bool.not_eq_true', List.contains_eq_mem, List.mem_map,
      decide_eq_false_iff_not, Bool.and_eq_true, beq_iff_eq]
    exact ⟨fun hno ⟨q, hq, hlane⟩ => hno q hq ⟨hlane, hopened q hq⟩, fun hno q hq hc => hno ⟨q, hq, hc.1⟩⟩
  rw [← hnews]
  simp only [Option.isNone_or]

theorem PalletsOpened.room {l l' : Line} {news : List Pallet} (h : PalletsOpened l l' news) :
    min (32 - l'.pack.pallets.length) (freeUnreserved l'.log)
      = min (32 - l.pack.pallets.length) (freeUnreserved l.log) - news.length := by
  rw [h.pallets, h.log, List.length_append]
  simp only [freeUnreserved, usedCount]
  omega

theorem nextNumber_succ {held : List Nat} {n : Nat} (hn : n < 65535) (hfree : n + 1 ∉ held) :
    nextNumber held 64 n = n + 1 := by
  have hsucc : (if n = 65535 then 1 else n + 1) = n + 1 := if_neg (Nat.ne_of_lt hn)
  simp only [nextNumber, hsucc]
  exact if_neg (by simpa using hfree)

/-- The lanes that two attempts open, the release lane first, are the first wanting ones that there is room for; a lane
still wants a pallet exactly when the room did not suffice (R149, R154). -/
theorem lanes_opened (running : Bool) (wants : Lane → Bool) (room : Nat) :
    let first := running && wants .release && decide (1 ≤ room)
    let second := running && wants .hold && decide (1 ≤ room - (if first then [Lane.release] else []).length)
    let lanes := (if first then [Lane.release] else []) ++ (if second then [Lane.hold] else [])
    let wanting := [Lane.release, .hold].filter wants
    let n := if running = true then min wanting.length room else 0
    lanes = wanting.take n ∧ n ≤ wanting.length
      ∧ ((running && ((wants .release && !lanes.contains .release) || (wants .hold && !lanes.contains .hold))) = true
          ↔ running = true ∧ n < wanting.length) := by
  cases running with
  | false => simp
  | true =>
    cases hr : wants .release <;> cases hh : wants .hold <;> rcases room with _ | _ | room <;> simp [hr, hh]

/-- What both attempts do together (R149, R154). -/
theorem tryOpen_both (l : Line) :
    let l' := tryOpen .hold (tryOpen .release l)
    let wanting := [Lane.release, .hold].filter fun x => (openPallet l x).isNone
    let n := if bagRunning l = true then
        min wanting.length (min (32 - l.pack.pallets.length) (freeUnreserved l.log)) else 0
    ∃ news, PalletsOpened l l' news ∧ news.map (·.lane) = wanting.take n ∧ news.length = n
      ∧ (∀ q, news[0]? = some q → q.number = l.pack.palletCounter)
      ∧ (∀ q, news[1]? = some q → l.pack.palletCounter < 65535 →
          (∀ r ∈ l.pack.pallets, r.number ≠ l.pack.palletCounter + 1) → q.number = l.pack.palletCounter + 1)
      ∧ (holdWanted l' = true ↔ bagRunning l = true ∧ n < wanting.length) := by
  intro l' wanting n
  obtain ⟨first, hfirst, hlane1, hnumber1, hcounter1⟩ := tryOpen_opened .release l
  obtain ⟨second, hsecond, hlane2, hnumber2, -⟩ := tryOpen_opened .hold (tryOpen .release l)
  have hboth := hfirst.trans hsecond
  have hlength1 : first.length = (if opensFor .release l then [Lane.release] else []).length := by
    rw [← hlane1, List.length_map]
  have hopens2 : opensFor .hold (tryOpen .release l) = (bagRunning l && (openPallet l .hold).isNone
      && decide (1 ≤ min (32 - l.pack.pallets.length) (freeUnreserved l.log)
        - (if opensFor .release l then [Lane.release] else []).length)) := by
    rw [opensFor, hfirst.bagRunning, hfirst.isNone, hfirst.room, hlane1, hlength1]
    cases opensFor .release l <;> simp
  obtain ⟨hlanes, hle, hhold⟩ := lanes_opened (bagRunning l) (fun x => (openPallet l x).isNone)
    (min (32 - l.pack.pallets.length) (freeUnreserved l.log))
  have hmap : (first ++ second).map (·.lane) = wanting.take n := by
    rw [List.map_append, hlane1, hlane2, hopens2]
    exact hlanes
  have hshort1 : first.length ≤ 1 := by rw [hlength1]; split <;> simp
  refine ⟨first ++ second, hboth, hmap, ?length, fun q hq => ?number, fun q hq hlt hfree => ?next, ?hold⟩
  case length => rw [← List.length_map (f := (·.lane)), hmap, List.length_take, Nat.min_eq_left hle]
  case number =>
    by_cases hopen : opensFor .release l = true
    · rw [if_pos hopen] at hlength1
      rw [List.getElem?_append_left (by rw [hlength1]; decide)] at hq
      exact hnumber1 q (List.mem_of_getElem? hq)
    · rw [if_neg hopen] at hlength1 hcounter1
      rw [List.getElem?_append_right (by rw [hlength1]; decide)] at hq
      rw [hnumber2 q (List.mem_of_getElem? hq), hcounter1]
  case next =>
    rw [List.getElem?_append_right hshort1] at hq
    have hq2 : q ∈ second := List.mem_of_getElem? hq
    have hopen : opensFor .release l = true := by
      refine Classical.byContradiction fun hno => ?_
      have hshort2 : second.length ≤ 1 := by
        rw [← List.length_map (f := (·.lane)), hlane2]
        split <;> simp
      rw [if_neg hno, List.length_nil] at hlength1
      rw [hlength1] at hq
      have hone : 1 < second.length := (List.getElem?_eq_some_iff.mp hq).1
      omega
    rw [hnumber2 q hq2, hcounter1, if_pos hopen]
    refine nextNumber_succ hlt fun hmem => ?_
    obtain ⟨r, hr, hnumber⟩ := List.mem_map.mp hmem
    rw [hfirst.pallets] at hr
    rcases List.mem_append.mp hr with hold | hnew
    · exact hfree r hold hnumber
    · have := hnumber1 r hnew
      omega
  case hold =>
    rw [holdWanted, hboth.bagRunning, hboth.isNone, hboth.isNone, hmap]
    rw [show wanting.take n = _ from hlanes.symm]
    exact hhold

theorem flag_eq_one {b : Bool} (h : b = true) : flag b = 1 := by rw [h]; rfl

theorem flag_eq_zero {b : Bool} (h : ¬ b = true) : flag b = 0 := by rw [Bool.not_eq_true] at h; rw [h]; rfl

end Sys2Proof.Machine
end

section
/-! The statement of the log's release (R149, R154, R171, R173). -/

namespace Sys2Proof.Machine

/-- Settles O24: the release by its distance, the pallets by the two attempts and the judgment after them. -/
theorem logReleaseMovesTheConsumerIndex : Obligations.LogReleaseMovesTheConsumerIndex := by
  refine ⟨fun data s v d hsound hv hd => ?release, fun l => ?opening⟩
  case release =>
    have hdistance : releaseDistance s.line.log v = d := hd.symm
    have hvalid : releaseValid s.line.log v = true ↔ v < 1024 ∧ 1 ≤ d ∧ d ≤ usedCount s.line.log := by
      rw [releaseValid_iff, hdistance]
      rfl
    have hvalue : (hostValue s data).toNat = v := hv.symm
    refine ⟨fun h => ⟨?_, ?_⟩, fun h => ?_⟩
    · rw [exec_logRelease, State.onLine, releaseWrite, hvalue, if_pos (hvalid.mpr h)]
    · rw [release_used _ _ hsound (hvalid.mpr h), hdistance]
    · rw [exec_logRelease, State.onLine, releaseWrite, hvalue, if_neg (mt hvalid.mp h), badWrite_eq, statusAddress]
  case opening =>
    obtain ⟨news, opened, hlanes, hlength, hfirst, hsecond, hhold⟩ := tryOpen_both l
    obtain ⟨hpack, hlog, hfunction, hchan, hrise, hnotices, hrest, hstatus⟩ :=
      judgeHold_spec (tryOpen .hold (tryOpen .release l))
    have hbefore : (tryOpen .hold (tryOpen .release l)).pack.baggerHold = l.pack.baggerHold := opened.baggerHold
    have hsame : ∀ j, chan (tryOpen .hold (tryOpen .release l)) j = chan l j := opened.chan
    refine ⟨⟨news, ?_, hlanes, opened.fresh, hfirst, hsecond⟩, ?_, ?_, fun j hk hf => ⟨fun h => ?_, fun h => ?_⟩,
      fun j hj => ?_, fun h hb => ?_, fun m hm ht => ?_, ?_, ?_, ?_⟩
    · exact (congrArg Pack.pallets hpack).trans opened.pallets
    · exact hlog.trans (opened.log.trans (by rw [hlength]))
    · exact (Bool.eq_iff_iff.mp (congrArg Pack.baggerHold hpack)).trans hhold
    · exact (hfunction j hk hf).trans (congrArg Nat.cast (flag_eq_one (hhold.mpr h)))
    · exact (hfunction j hk hf).trans (congrArg Nat.cast (flag_eq_zero (mt hhold.mp h)))
    · exact (hchan j (by rw [hsame]; exact hj)).trans (hsame j)
    · exact hrise (hhold.mpr h) (hbefore.trans hb)
    · exact (hnotices m hm).trans (opened.notices m ht)
    · have hclose := congrArg (fun p : Pack =>
        { p with pallets := l.pack.pallets, palletCounter := l.pack.palletCounter, baggerHold := l.pack.baggerHold })
        hpack
      exact hclose.trans opened.packRest
    · have hclose := congrArg (fun x : Line =>
        { x with pack := l.pack, log := l.log, chans := l.chans, choices := l.choices, status := l.status }) hrest
      exact hclose.trans (congrArg (fun x : Line => { x with chans := l.chans }) opened.rest)
    · have hclose := congrArg (fun x : Status => { x with notices := l.status.notices }) hstatus
      exact hclose.trans opened.status

end Sys2Proof.Machine
end

section
/-! SUPPORT. The conflicts of Table 2-2 at a taking, and the granted staging reads of a COMMIT_FULL and a COMMIT_RECIPE
(R10, R21, R23, R76, R85). -/

namespace Sys2Proof.Machine

/-! ## Conflicts -/

/-- The condition of Table 2-2 for a kind of request. -/
def busyOf : RequestKind → Line → Bool
  | .commitFull => busyCommit
  | .reinit | .discover => busyReinit
  | .linkHalt => haltInFlight
  | .nodeRead | .nodeWrite => busyNode
  | .commitRecipe | .linkStart | .zoneStart | .zoneRun | .zoneStop | .zoneReset | .zoneSimulate | .lotOpen => busyConfig
  | .lotClose | .lotFlush | .injectBag | .palletClose | .palletConfirm => neverBusy

theorem busyOf_leaveQueue (k : RequestKind) (l : Line) : busyOf k (leaveQueue l) = busyOf k l := by
  cases k <;> rfl

theorem refusal_busy {b : Bool} (hb : b = true) (rest : List (Bool × ResultCode)) :
    refusal ((!b, .busy) :: rest) = some .busy := by
  simp [refusal, hb]

theorem takeRecipe_refused {l : Line} {i : Nat} {code : ResultCode} (h : HeadIs l i .commitRecipe)
    (hc : refusal ((!busyConfig (leaveQueue l), .busy) :: recipeChecks (slotAt l i) (leaveQueue l)) = some code) :
    takeRecipe l = refuse i code (leaveQueue l) := by
  rw [takeRecipe, take_headIs h, hc]

theorem takeRecipe_taken {l : Line} {i : Nat} (h : HeadIs l i .commitRecipe)
    (hc : refusal ((!busyConfig (leaveQueue l), .busy) :: recipeChecks (slotAt l i) (leaveQueue l)) = none) :
    takeRecipe l = { leaveQueue l with
      request := { (leaveQueue l).request with
        recipeJob := some { slot := i, index := (slotAt l i).arg2.toNat, words := [] } } } := by
  rw [takeRecipe, take_headIs h, hc]

/-- A request in conflict is refused BUSY, whatever its owner would have checked (R23). -/
theorem takeOfKind_busy {l : Line} {i : Nat} {k : RequestKind} (h : HeadIs l i k) (hb : busyOf k (leaveQueue l) = true) :
    takeOfKind k (slotAt l i) l = refuse i .busy (leaveQueue l) := by
  obtain ⟨hhead, hi, hk⟩ := h
  have hany : ∀ {p : Slot → Bool} {f : Nat → Slot → Line → Line}, p (slotAt l i) = true →
      f i (slotAt l i) (leaveQueue l) = refuse i .busy (leaveQueue l) → take p f l = refuse i .busy (leaveQueue l) :=
    fun hp hf => (take_head hhead hp).trans hf
  cases k with
  | commitFull | reinit | discover | linkHalt | nodeRead | nodeWrite =>
    exact hany hk (long_refused (refusal_busy hb _))
  | linkStart | zoneStart | zoneRun | zoneStop | zoneReset | lotOpen =>
    exact hany hk (immediate_refused (refusal_busy hb _))
  | commitRecipe =>
    exact takeRecipe_refused ⟨hhead, hi, hk⟩ (refusal_busy hb _)
  | zoneSimulate =>
    by_cases h0 : (slotAt l i).arg3 = 0
    · simp only [takeOfKind, if_pos h0]
      exact hany (by simp [simulateLeaves, hk, h0]) (immediate_refused (refusal_busy hb _))
    · simp only [takeOfKind, if_neg h0]
      exact hany (by rw [simulateEnters, hk, decide_eq_true h0]; rfl) (immediate_refused (refusal_busy hb _))
  | lotClose | lotFlush | injectBag | palletClose | palletConfirm => exact absurd hb (by simp [busyOf, neverBusy])

theorem oneShotInFlight_of {l : Line} (h : l.link.oneShots ≠ []
      ∨ ∃ x o, (l.link.busy = .waiting x ∨ l.link.busy = .safe (some x)) ∧ x.job = .oneShot o) :
    oneShotInFlight l = true := by
  rcases h with hqueue | ⟨x, o, hbusy, hjob⟩
  · cases hq : l.link.oneShots with
    | nil => exact absurd hq hqueue
    | cons => simp [oneShotInFlight, hq]
  · have hshot : x.isOneShot = true := by rw [Exchange.isOneShot, hjob]
    rcases hbusy with hbusy | hbusy <;> simp [oneShotInFlight, oneShotOnLink, hbusy, hshot]

theorem refuse_completed {l : Line} {i : Nat} (hi : i < l.request.slots.length) (code : ResultCode) :
    Completed l (refuse i code (leaveQueue l)) i { code := code }
      ∧ { refuse i code (leaveQueue l) with request := l.request } = raise .reqDone l :=
  ⟨completed_of hi rfl, rfl⟩

/-- A row of Table 2-2, in its kind's own row, answers BUSY. -/
theorem exec_busy {s : State} {i : Nat} {k : RequestKind} (h : HeadIs s.line i k)
    (hb : busyOf k s.line = true) :
    exec (rowOfKind k (slotAt s.line i)) s = .next (s.onLine fun l => refuse i .busy (leaveQueue l)) := by
  have htake := takeOfKind_busy h (by rwa [busyOf_leaveQueue])
  rw [exec_rowOfKind]
  by_cases hk : k = .commitFull
  · subst hk
    have hcommit : takeCommit s.line = refuse i .busy (leaveQueue s.line) := htake
    rw [if_pos rfl, afterTaking_sameCommit s takeCommit (by rw [hcommit]; exact complete_sameCommit i _ _),
      onLine_congr (g := fun l => refuse i .busy (leaveQueue l)) hcommit]
  · rw [if_neg hk, onLine_congr (g := fun l => refuse i .busy (leaveQueue l)) htake]

theorem mem_rows {ks : List RequestKind} {a : Slot} {k : RequestKind} {c : Instr}
    (h : (k, c) ∈ ks.map fun k => (k, rowOfKind k a)) : k ∈ ks ∧ c = rowOfKind k a := by
  obtain ⟨k', hk', he⟩ := List.mem_map.mp h
  obtain ⟨rfl, rfl⟩ := Prod.mk.inj he
  exact ⟨hk', rfl⟩

/-- The kinds that Table 2-2 lists under a COMMIT_FULL or a REINIT in flight, a DISCOVER in flight, a one-shot waiting or
on the link, a LINK_HALT in flight and a full one-shot queue. -/
def configKinds : List RequestKind :=
  [.commitFull, .reinit, .discover, .linkStart, .zoneStart, .zoneRun, .zoneStop, .zoneReset, .zoneSimulate, .lotOpen,
    .commitRecipe]
def discoverKinds : List RequestKind := [.commitFull, .reinit, .discover, .nodeRead, .nodeWrite]
def oneShotKinds : List RequestKind := [.reinit, .discover]
def haltKinds : List RequestKind := [.linkHalt, .nodeRead, .nodeWrite]
def fullKinds : List RequestKind := [.nodeRead, .nodeWrite]

/-- Each kind that Table 2-2 lists under an owner's work in flight is in conflict during it. -/
theorem busyOf_config {l : Line} (h : l.request.commit.isSome = true ∨ l.request.reinit.isSome = true) :
    ∀ k ∈ configKinds, busyOf k l = true := by
  have hconfig : busyConfig l = true := by simpa [busyConfig, commitInFlight, reinitInFlight] using h
  have hcommit : busyCommit l = true := by rw [busyCommit, show (commitInFlight l || reinitInFlight l) = true from hconfig]; rfl
  have hreinit : busyReinit l = true := by rw [busyReinit, hcommit]; rfl
  simp [configKinds, busyOf, hconfig, hcommit, hreinit]

theorem busyOf_discover {l : Line} (h : l.link.discovery.isSome = true) :
    ∀ k ∈ discoverKinds, busyOf k l = true := by
  simp [discoverKinds, busyOf, busyCommit, busyReinit, busyNode, discoverInFlight, h]

theorem busyOf_oneShot {l : Line} (h : oneShotInFlight l = true) :
    ∀ k ∈ oneShotKinds, busyOf k l = true := by
  simp [oneShotKinds, busyOf, busyReinit, h]

theorem busyOf_halt {l : Line} (h : l.link.halt.isSome = true) :
    ∀ k ∈ haltKinds, busyOf k l = true := by
  simp [haltKinds, busyOf, busyNode, haltInFlight, h]

theorem busyOf_full {l : Line} (h : 4 ≤ l.link.oneShots.length) :
    ∀ k ∈ fullKinds, busyOf k l = true := by
  simp [fullKinds, busyOf, busyNode, Config.oneShotCount, h]

/-! ## Staging reads -/

theorem stagingBase_inside (st : Straps) {off : Nat} (h : off < 0x20000) : stagingBase st + off < memorySize st := by
  have := controlBase_le st
  have := memorySize_ge st
  rw [stagingBase]
  omega

/-- The offsets of the staging region are inside memory, so a granted read uses up no free byte (R10). -/
theorem grantStagingRead_inside {s : State} {off : Nat} (h : waitingOffset s.line = some off) (hoff : off < 0x20000) :
    grantStagingRead s =
      { s with
        path := { s.path with arbiter := 0 }
        line := takeStagingWord s.path.straps s.path.touch (upstreamOrder s.path.straps.ubo
          (memoryWord s.path.straps s.mem s.path.freeReads (stagingBase s.path.straps + off))) s.line } := by
  obtain ⟨w, rfl, hgrant⟩ := grantStagingRead_some h
  rw [hgrant, portRead_inside (stagingBase_inside _ hoff)]

theorem commitOffset_lt {n : Nat} (h : n < Config.commitWords) : commitOffset n < 0x20000 := by
  have : n < 3232 := h
  rw [commitOffset]
  split <;> omega

theorem waitingOffset_commit {l : Line} {job : CommitJob} (h : l.request.commit = some job) :
    waitingOffset l = some (commitOffset job.words.length) := by
  rw [waitingOffset, h]

theorem takeStagingWord_more {l : Line} {job : CommitJob} (h : l.request.commit = some job)
    (hmore : job.words.length + 1 < Config.commitWords) (st : Straps) (touched : Bool) (w : Word) :
    takeStagingWord st touched w l
      = { l with request := { l.request with commit := some { job with words := job.words ++ [w] } } } := by
  simp only [takeStagingWord, h, List.length_append, List.length_singleton, if_pos hmore]

theorem takeStagingWord_last {l : Line} {job : CommitJob} (h : l.request.commit = some job)
    (hlast : job.words.length + 1 = Config.commitWords) (st : Straps) (touched : Bool) (w : Word) :
    takeStagingWord st touched w l = completeCommit st touched { job with words := job.words ++ [w] } l := by
  simp only [takeStagingWord, h, List.length_append, List.length_singleton, hlast, Nat.lt_irrefl, if_false]

/-! ## The outcomes of a COMMIT_FULL -/

theorem commitChecks_pass {l : Line} {a : Slot} (hoff : ∀ z ∈ l.zones, ∀ zone ∈ z, zone.run.state = .off)
    (hidle : l.link.state = .idle) (hlots : l.track.lots = []) (hpallets : l.pack.pallets = []) :
    refusal (commitChecks a l) = none := by
  have hzones : (l.zones.all fun o => o.all fun z => z.run.state == .off) = true := by
    simpa [List.all_eq_true, Option.all_eq_true] using hoff
  simp only [commitChecks, refusal, hzones, hidle, hlots, hpallets, if_true]
  rfl

theorem completeCommit_touched {touched : Bool} (h : touched = true) (st : Straps) (job : CommitJob) (l : Line) :
    completeCommit st touched job l
      = complete job.slot { code := .stagingChanged } { l with request := { l.request with commit := none } } := by
  simp only [completeCommit, h, if_true]

theorem completeCommit_failed {touched : Bool} (h : touched = false) {st : Straps} {job : CommitJob} {l : Line}
    {f : Failure} (hf : validate { straps := st, nodes := l.link.nodes } (Shadow.ofWords job.words) = some f) :
    completeCommit st touched job l
      = complete job.slot { code := .configInvalid, v9 := word f.table, v10 := word f.index, v11 := word f.reason }
          { l with request := { l.request with commit := none } } := by
  simp only [completeCommit, h, hf, Bool.false_eq_true, if_false]

end Sys2Proof.Machine
end

section
/-! The statements of the refusals at a taking (R21, R23) and of a COMMIT_FULL's reading and failing (R10, R75, R76,
R82). -/

namespace Sys2Proof.Machine

/-- Settles O29: a conflict refuses before the owner's checks, in the row of the kind. -/
theorem unknownAndConflictingRequestsAreRefused : Obligations.UnknownAndConflictingRequestsAreRefused := by
  refine ⟨fun s i hhead hi hkind => ?unknown, fun s i k c hhead hconflict => ?conflict⟩
  case unknown =>
    have htake : takeUnknown s.line = refuse i .badRequest (leaveQueue s.line) :=
      take_head hhead (by simp [unknownKind, hkind])
    obtain ⟨hcompleted, honly⟩ := refuse_completed hi .badRequest
    refine ⟨s.onLine takeUnknown, rfl, ⟨rfl, rfl, rfl⟩, ?_, ?_⟩
    · rw [onLine_line, htake]; exact hcompleted
    · rw [onLine_line, htake]; exact honly
  case conflict =>
    have busy : c = rowOfKind k (slotAt s.line i) ∧ busyOf k s.line = true := by
      rcases hconflict with ⟨hwhy, hrow⟩ | ⟨hwhy, hrow⟩ | ⟨hwhy, hrow⟩ | ⟨hwhy, hrow⟩ | ⟨hwhy, hrow⟩
      · obtain ⟨hk, hc⟩ := mem_rows (ks := configKinds) hrow
        exact ⟨hc, busyOf_config hwhy k hk⟩
      · obtain ⟨hk, hc⟩ := mem_rows (ks := discoverKinds) hrow
        exact ⟨hc, busyOf_discover hwhy k hk⟩
      · obtain ⟨hk, hc⟩ := mem_rows (ks := oneShotKinds) hrow
        exact ⟨hc, busyOf_oneShot (oneShotInFlight_of hwhy) k hk⟩
      · obtain ⟨hk, hc⟩ := mem_rows (ks := haltKinds) hrow
        exact ⟨hc, busyOf_halt hwhy k hk⟩
      · obtain ⟨hk, hc⟩ := mem_rows (ks := fullKinds) hrow
        exact ⟨hc, busyOf_full hwhy k hk⟩
    obtain ⟨hrow, hbusy⟩ := busy
    obtain ⟨hcompleted, honly⟩ := refuse_completed hhead.2.1 .busy
    rw [hrow, exec_busy hhead hbusy]
    exact ⟨_, rfl, ⟨rfl, rfl, rfl⟩, hcompleted, honly⟩

/-- Settles O30. -/
theorem commitFullReadsStagingWordByWord : Obligations.CommitFullReadsStagingWordByWord := by
  refine ⟨fun s i hhead hcommit hreinit hdiscover hoff hidle hlots hpallets => ?taken, fun s job hjob hmore => ?read⟩
  case taken =>
    have hbusy : busyCommit (leaveQueue s.line) = false := by
      simp [busyCommit, commitInFlight, reinitInFlight, discoverInFlight, leaveQueue, hcommit, hreinit, hdiscover]
    have hchecks : refusal (commitChecks (slotAt s.line i) (leaveQueue s.line)) = none := commitChecks_pass hoff hidle hlots hpallets
    have htake : takeCommit s.line = startCommit i (slotAt s.line i) (markTaken i (leaveQueue s.line)) :=
      (take_headIs hhead).trans (long_taken hbusy hchecks)
    have htouch : touchAfter s (takeCommit s.line) = false := by
      rw [htake, touchAfter, hcommit]
      rfl
    refine ⟨afterTaking takeCommit s, rfl, rfl, rfl, ?_, ?_, ?_, ?_⟩
    · rw [afterTaking, htouch]
    · rw [afterTaking, htake]
      exact nowTaken_of hhead.2.1 rfl rfl
    · rw [afterTaking, htake]
      rfl
    · rw [afterTaking, htake]
      rfl
  case read =>
    rw [exec_stagingRead, grantStagingRead_inside (waitingOffset_commit hjob) (commitOffset_lt (by omega)),
      takeStagingWord_more hjob hmore]

/-- Settles O31. -/
theorem failedCommitChangesNothing : Obligations.FailedCommitChangesNothing := by
  intro s job ws hjob hlast hws r hr
  rw [exec_stagingRead, grantStagingRead_inside (waitingOffset_commit hjob) (commitOffset_lt (by omega)),
    takeStagingWord_last hjob hlast, ← hws]
  rcases hr with ⟨htouch, rfl⟩ | ⟨htouch, f, hf, rfl⟩
  · rw [completeCommit_touched htouch]
    rfl
  · rw [completeCommit_failed (l := s.line) (job := { job with words := ws }) htouch hf]
    rfl

end Sys2Proof.Machine
end

section
/-! SUPPORT. The swap of a COMMIT_FULL (R61, R83): which blocks it sets, and the record it offers. -/

namespace Sys2Proof.Machine

theorem zoneOf_run {t : Word} {d : Words} {z : Zone} (h : zoneOf t d = some z) :
    z.run.state = .off ∧ z.run.runPending = false ∧ z.run.cause = .none ∧ z.run.program = none := by
  unfold zoneOf at h
  split at h <;> cases h <;> exact ⟨rfl, rfl, rfl, rfl⟩

/-- What the log does at the swap changes the log and notices only (R83, R175). -/
theorem swap_blocks (w : Shadow) (l : Line) :
    { swap w l with log := l.log, status := { (swap w l).status with notices := l.status.notices } }
      = swapBlocks w l := by
  obtain ⟨-, hoffer, -⟩ := offer_spec .configCommitted [word (activeChannels (judgeThreshold (swapBlocks w l))),
    word (boundChannels (judgeThreshold (swapBlocks w l))), word (boundNodes (judgeThreshold (swapBlocks w l)))]
    (judgeThreshold (swapBlocks w l))
  have hjudge : { judgeThreshold (swapBlocks w l) with
      log := l.log, status := { (judgeThreshold (swapBlocks w l)).status with notices := l.status.notices } }
        = swapBlocks w l := by
    rw [judgeThreshold]
    split <;> rfl
  have houter := congrArg (fun x : Line =>
    { x with log := l.log, status := { x.status with notices := l.status.notices } }) hoffer
  exact houter.trans hjudge

theorem swap_offers (w : Shadow) (l : Line) :
    Offered l.log (generalOf w.general).reserveFloor (now l) .configCommitted
      [word (activeChannels (swapBlocks w l)), word (boundChannels (swapBlocks w l)),
        word (boundNodes (swapBlocks w l))] (swap w l) := by
  have hjudge : (judgeThreshold (swapBlocks w l)).log = l.log ∧ reserveFloor (judgeThreshold (swapBlocks w l))
      = (generalOf w.general).reserveFloor ∧ now (judgeThreshold (swapBlocks w l)) = now l
      ∧ activeChannels (judgeThreshold (swapBlocks w l)) = activeChannels (swapBlocks w l)
      ∧ boundChannels (judgeThreshold (swapBlocks w l)) = boundChannels (swapBlocks w l)
      ∧ boundNodes (judgeThreshold (swapBlocks w l)) = boundNodes (swapBlocks w l) := by
    rw [judgeThreshold]
    split <;> exact ⟨rfl, rfl, rfl, rfl, rfl, rfl⟩
  obtain ⟨hlog, hfloor, hnow, hactive, hbound, hnodes⟩ := hjudge
  obtain ⟨hoffered, -, -⟩ := offer_spec .configCommitted [word (activeChannels (judgeThreshold (swapBlocks w l))),
    word (boundChannels (judgeThreshold (swapBlocks w l))), word (boundNodes (judgeThreshold (swapBlocks w l)))]
    (judgeThreshold (swapBlocks w l))
  rw [hlog, hfloor, hnow] at hoffered
  rw [← hactive, ← hbound, ← hnodes]
  exact hoffered

theorem swap_eq (w : Shadow) (l : Line) :
    ∃ g n, swap w l = { swapBlocks w l with
      log := g, status := { (swapBlocks w l).status with notices := n } } :=
  ⟨(swap w l).log, (swap w l).status.notices,
    congrArg (fun x : Line =>
      { x with log := (swap w l).log, status := { x.status with notices := (swap w l).status.notices } })
      (swap_blocks w l)⟩

theorem completeCommit_good {touched : Bool} (h : touched = false) {st : Straps} {job : CommitJob} {l : Line}
    (hv : validate { straps := st, nodes := l.link.nodes } (Shadow.ofWords job.words) = none) :
    completeCommit st touched job l
      = complete job.slot
          (swapReply (swap (Shadow.ofWords job.words) { l with request := { l.request with commit := none } }))
          (swap (Shadow.ofWords job.words) { l with request := { l.request with commit := none } }) := by
  simp only [completeCommit, h, hv, Bool.false_eq_true, if_false]

theorem slotAt_complete_self {l : Line} {i : Nat} {r : Reply} (hi : i < l.request.slots.length) :
    slotAt (complete i r l) i =
      { slotAt l i with
        state := .done, result := word r.code.code, val9 := r.v9, val10 := r.v10, val11 := r.v11, val12 := r.v12 } := by
  rw [slotAt_complete, if_pos ⟨rfl, hi⟩]

theorem swapBlocks_matchTable (w : Shadow) (l : Line) :
    (swapBlocks w l).matchTable = matchTableOf (swapBlocks w l).chans := by
  simp only [swapBlocks, startWatchdog]

theorem swapBlocks_run {w : Shadow} {l : Line} {z : Nat} {zone : Zone} (h : zone? (swapBlocks w l) z = some zone) :
    zone.run.state = .off ∧ zone.run.runPending = false ∧ zone.run.cause = .none ∧ zone.run.program = none := by
  have hz : (w.zones.map (zoneOf (now l))).getD z none = some zone := h
  rw [List.getD_eq_getElem?_getD, List.getElem?_map] at hz
  cases hd : w.zones[z]? with
  | none => rw [hd] at hz; cases hz
  | some d => rw [hd] at hz; exact zoneOf_run hz

theorem namesNode_iff (chans : List Channel) (n : Nat) :
    namesNode chans n = true ↔ ∃ c ∈ chans, c.desc.kind ≠ .unused ∧ c.desc.node = n := by
  simp [namesNode]

theorem getD_mapIdx {α : Type} (xs : List α) (f : Nat → α → α) {k : Nat} (hk : k < xs.length) (d : α) :
    (xs.mapIdx f).getD k d = f k (xs.getD k d) := by
  simp [List.getD_eq_getElem?_getD, List.getElem?_mapIdx, List.getElem?_eq_getElem hk]

end Sys2Proof.Machine
end

section
/-! The statement of a COMMIT_FULL that passes its checks (R11, R61, R83, R172). -/

namespace Sys2Proof.Machine

/-- Settles O32: every block as the swap sets it; the log's part after it touches the log and the notices only. -/
theorem goodCommitSwapsTheConfiguration : Obligations.GoodCommitSwapsTheConfiguration := by
  intro s job ws hjob hlast hslot htouch hws hvalid w
  obtain ⟨g, n, hswap⟩ := swap_eq w { s.line with request := { s.line.request with commit := none } }
  have hoffered := swap_offers w { s.line with request := { s.line.request with commit := none } }
  rw [exec_stagingRead, grantStagingRead_inside (waitingOffset_commit hjob) (commitOffset_lt (by omega)),
    takeStagingWord_last hjob hlast, ← hws, completeCommit_good (job := { job with words := ws }) htouch hvalid]
  rw [hswap] at hoffered ⊢
  have hdone := fun r m (hm : m.request.slots = s.line.request.slots) => slotAt_complete_self (r := r) (l := m) (hm ▸ hslot)
  refine ⟨_, rfl, rfl, rfl, rfl, rfl, ?table, fun z zone hz => ?zones, fun x hx c hc => ?places,
    fun i => ?motion, rfl, rfl, rfl, rfl, rfl, rfl, fun k h1 hk => ?nodes, ⟨?channels, ?bound, ?boundNodes, ?offered⟩, ?state, ?result, complete_noticeSet _ _ _⟩
  case table =>
    simp only [complete, changeSlot, raise]
    exact swapBlocks_matchTable w _
  case zones => exact swapBlocks_run hz
  case places =>
    obtain ⟨d, -, rfl⟩ := List.mem_map.mp (show x ∈ (w.sections.filter scUsed).map sectionOf from hx)
    exact List.eq_of_mem_replicate hc
  case motion => exact getD_replicate_self _ i none
  case nodes =>
    have hnode := getD_mapIdx s.line.link.nodes
      (fun k nd => swapNode ((w.channels.map channelDesc).map (freshChannel s.line.link.nodes)) (k + 1) nd)
      (k := k - 1) (by omega) Node.absent
    refine hnode.trans ?_
    simp only [swapNode, Nat.sub_add_cancel h1, namesNode_iff]
    rfl
  case channels | bound | boundNodes | state | result =>
    exact congrArg _ (hdone _ _ rfl)
  case offered =>
    exact ⟨fun h => hoffered.1 h, fun h => ⟨(hoffered.2 h).1, complete_notices _ _ _ _ (hoffered.2 h).2⟩⟩

end Sys2Proof.Machine
end

section
/-! SUPPORT. A COMMIT_RECIPE's taking and its last word (R85). -/

namespace Sys2Proof.Machine

theorem recipeChecks_pass {l : Line} {a : Slot} (hb : busyConfig l = false) (hindex : a.arg2.toNat < 32)
    (hactive : l.active.isSome = true) (hfree : ∀ x ∈ l.track.lots, x.recipe ≠ a.arg2.toNat) :
    refusal ((!busyConfig l, .busy) :: recipeChecks a l) = none := by
  have hunused : recipeInUse l a.arg2.toNat = false := by simpa [recipeInUse, List.any_eq_false] using hfree
  simp [refusal, recipeChecks, hb, Config.recipeCount, hindex, hactive, hunused]

theorem waitingOffset_recipe {l : Line} {job : RecipeJob} (hcommit : l.request.commit = none)
    (h : l.request.recipeJob = some job) :
    waitingOffset l = some (0x0C00 + 64 * job.index + 4 * job.words.length) := by
  rw [waitingOffset, hcommit, h]
  rfl

theorem takeStagingWord_recipe {l : Line} {job : RecipeJob} (hcommit : l.request.commit = none)
    (h : l.request.recipeJob = some job) (hlast : job.words.length + 1 = 16) (st : Straps) (touched : Bool) (w : Word) :
    takeStagingWord st touched w l = completeRecipe { job with words := job.words ++ [w] } l := by
  have hall : ¬ job.words.length + 1 < Config.recipeWords := by rw [hlast]; decide
  simp only [takeStagingWord, hcommit, h, List.length_append, List.length_singleton, if_neg hall]

theorem completeRecipe_good {job : RecipeJob} (h : checkRecipe job.words = none) (l : Line) :
    completeRecipe job l = complete job.slot { code := .ok }
      { l with
        request := { l.request with recipeJob := none }
        track := { l.track with recipes := change l.track.recipes job.index fun _ => recipeOf job.words } } := by
  simp only [completeRecipe, h]

end Sys2Proof.Machine
end

section
/-! The statements of COMMIT_RECIPE (R85) and REINIT (R86). -/

namespace Sys2Proof.Machine

/-- Settles O33. -/
theorem commitRecipeReplacesTheEntry : Obligations.CommitRecipeReplacesTheEntry := by
  refine ⟨fun s i hhead hcommit hreinit hindex hactive hfree => ?taken, fun s job ws hcommit hjob hlast hindex hslot hws
    hgood => ?last⟩
  case taken =>
    have hbusy : busyConfig (leaveQueue s.line) = false := by
      simp [busyConfig, commitInFlight, reinitInFlight, leaveQueue, hcommit, hreinit]
    have htake := takeRecipe_taken hhead (recipeChecks_pass hbusy hindex hactive hfree)
    have hexec : exec .commitRecipe s = .next (s.onLine takeRecipe) := rfl
    rw [hexec, State.onLine, htake]
    rfl
  case last =>
    rw [exec_stagingRead, grantStagingRead_inside (waitingOffset_recipe hcommit hjob) (by omega),
      takeStagingWord_recipe hcommit hjob hlast, ← hws, completeRecipe_good (job := { job with words := ws }) hgood]
    have hdone := fun r m (hm : m.request.slots = s.line.request.slots) =>
      slotAt_complete_self (i := job.slot) (r := r) (l := m) (hm ▸ hslot)
    exact ⟨_, rfl, rfl, rfl, congrArg Slot.state (hdone _ _ rfl), congrArg Slot.result (hdone _ _ rfl),
      complete_noticeSet _ _ _, rfl, rfl, rfl⟩

/-- Settles O34. -/
theorem reinitGivesUpTheConfiguration : Obligations.ReinitGivesUpTheConfiguration := by
  refine ⟨fun s i hhead hbusy hoff hidle hlots hpallets => ?taken, fun s i hjob hi => ?completed⟩
  case taken =>
    have htake : takeReinit s.line = startReinit i (slotAt s.line i) (markTaken i (leaveQueue s.line)) :=
      (take_headIs hhead).trans (long_taken hbusy (commitChecks_pass hoff hidle hlots hpallets))
    refine ⟨s.onLine takeReinit, rfl, ⟨rfl, rfl, rfl⟩, ?_⟩
    rw [onLine_line, htake]
    exact ⟨nowTaken_of hhead.2.1 rfl rfl, rfl, rfl, rfl,
      fun j => congrArg (fun c : Channel => c.desc.kind) (getD_replicate_self _ j Channel.unused),
      fun z => getD_replicate_self _ z none, rfl, fun j => getD_replicate_self _ j none,
      fun n => getD_replicate_self _ (n - 1) Node.absent, hidle, rfl, rfl, rfl, rfl, rfl, rfl, rfl, rfl, rfl, rfl, rfl, rfl,
      rfl⟩
  case completed =>
    have hfinish : finishReinit s.line = complete i { code := .ok }
        { s.line with request := { s.line.request with reinit := none } } := by rw [finishReinit, hjob]
    refine ⟨s.onLine finishReinit, rfl, ⟨rfl, rfl, rfl⟩, ?_⟩
    rw [onLine_line, hfinish]
    exact ⟨rfl, slotAt_complete_self hi, complete_noticeSet _ _ _, rfl⟩

end Sys2Proof.Machine
end

section
/-! SUPPORT. What a quiet link sends next, frame by frame, and the link's own rows (R53, R58, R62, R63, R69, R70, R72). -/

namespace Sys2Proof.Machine

/-! ## The rows -/

theorem exec_discover (s : State) : exec .discover s = .next (s.onLine takeDiscover) := rfl
theorem exec_linkStart (s : State) : exec .linkStart s = .next (s.onLine takeLinkStart) := rfl
theorem exec_safeFrameSent (s : State) : exec .safeFrameSent s = .next (s.onLine safeSent) := rfl
theorem exec_periodTimerExpiry (s : State) : exec .periodTimerExpiry s = .next (s.onLine periodTimerExpires) := rfl

theorem exec_oneShotRow (isSet : Bool) (s : State) :
    exec (if isSet then .nodeWrite else .nodeRead) s
      = .next (s.onLine (take (ofKind (if isSet then .nodeWrite else .nodeRead))
          (long busyNode (nodeChecks isSet) (startOneShot isSet)))) := by
  cases isSet <;> rfl

/-! ## The end of a halt -/

/-- The node table with the miss counts of the scanned nodes cleared (R66, R71). -/
def missesCleared (scanned : List Nat) (nodes : List Node) : List Node :=
  scanned.foldl (fun ns n => change ns (n - 1) fun nd => { nd with misses := 0 }) nodes

/-- A node as the end of a halt leaves it: BOUND if it was scanned (R71). -/
def backToBound (nd : Node) : Node :=
  if nd.state = .running ∨ nd.state = .faulted then { nd with state := .bound } else nd

/-- The link controller after the end of a halt (R71). -/
def haltedLink (k : Link) : Link :=
  { k with
    state := .idle, nodes := (missesCleared k.scanList k.nodes).map backToBound, period := none, owed := false,
    cycle := none, scanList := [], safeWaits := false, halt := none }

theorem foldl_changeNode (f : Node → Node) : ∀ (scanned : List Nat) (l : Line),
    scanned.foldl (fun l n => changeNode n f l) l
      = { l with link := { l.link with nodes := scanned.foldl (fun ns n => change ns (n - 1) f) l.link.nodes } }
  | [], _ => rfl
  | n :: rest, l => by rw [List.foldl_cons, foldl_changeNode f rest]; rfl

theorem endHalt_none {l : Line} (h : l.link.halt = none) :
    endHalt l = raise .linkHalted (changeLink haltedLink l) := by
  simp only [endHalt, h, foldl_changeNode]
  rfl

theorem endHalt_some {l : Line} {i : Nat} (h : l.link.halt = some i) :
    endHalt l = complete i { code := .ok } (raise .linkHalted (changeLink haltedLink l)) := by
  simp only [endHalt, h, foldl_changeNode]
  rfl

/-- With no LINK_HALT in flight nothing that a quiet link does next touches the requests (R71). -/
theorem settleCycle_request {l : Line} (h : l.link.halt = none) : (settleCycle l).request = l.request := by
  have ended : ∀ m : Line, m.link.halt = none → m.request = l.request →
      (if m.link.state = .halting then endHalt m
        else if m.link.owed then startCycle (changeLink (fun k => { k with owed := false }) m) else m).request
        = l.request := by
    intro m hm hsame
    split
    · rw [endHalt_none hm]; exact hsame
    · split <;> exact hsame
  unfold settleCycle
  split
  · split
    · rfl
    · exact ended _ h rfl
  · rfl

theorem pump_request {l : Line} (h : l.link.halt = none) : (pump l).request = l.request := by
  unfold pump
  split
  · split
    · split <;> rfl
    · dsimp only
      split
      · exact settleCycle_request h
      · exact (sendNext_sends _).request.trans (settleCycle_request h)
  · rfl

/-! ## What a quiet link sends -/

theorem pump_discovering {l : Line} {d : Discovery} (hq : l.link.busy = .quiet) (hs : l.link.state = .discovering)
    (hd : l.link.discovery = some d) : pump l = sendEnum d l := by
  simp only [pump, hq, hs, hd, if_true]

/-- Outside DISCOVERING, with no cycle to settle and no SAFE to send, the next frame goes (R63, R70, R72). -/
theorem pump_next {l : Line} (hq : l.link.busy = .quiet) (hd : l.link.state ≠ .discovering)
    (hstay : ¬ CycleEnds false l) (hsafe : (l.link.safeWaits && linkScans l) = false) : pump l = sendNext l := by
  simp only [pump, hq, if_neg hd, settleCycle_stays l hstay, hsafe, Bool.false_eq_true, if_false]

theorem startDiscover_eq {l : Line} (hq : l.link.busy = .quiet) (i : Nat) (a : Slot) :
    startDiscover i a l = sendEnum { slot := i, addr := 1, page := 0, pages := [], built := [] }
      (changeLink (fun k =>
        { k with
          state := .discovering
          discovery := some { slot := i, addr := 1, page := 0, pages := [], built := [] } }) l) :=
  pump_discovering hq rfl rfl

theorem not_cycleEnds_of_none {l : Line} (h : l.link.cycle = none) (scan : Bool) : ¬ CycleEnds scan l := by
  rintro ⟨c, hc, -⟩
  rw [h] at hc
  cases hc

theorem not_cycleEnds_of_rest {l : Line} {c : Cycle} (h : l.link.cycle = some c) (hrest : c.rest ≠ []) (scan : Bool) :
    ¬ CycleEnds scan l := by
  rintro ⟨c', hc', hempty, -⟩
  rw [h] at hc'
  cases hc'
  exact hrest hempty

theorem sendNext_oneShot {l : Line} {o : OneShot} {rest : List OneShot} (hc : l.link.cycle = none)
    (ho : l.link.oneShots = o :: rest) :
    sendNext l = sendNew (if o.isSet then .pset else .pget) o.node (oneShotPayload o) (.oneShot o)
      (changeLink (fun k => { k with oneShots := rest }) l) := by
  simp only [sendNext, hc, sendOneShot, ho]

theorem sendNext_scan {l : Line} {n : Nat} {rest : List Nat}
    (hc : l.link.cycle = some { rest := n :: rest, turn := false }) :
    sendNext l = sendScan n (changeLink (fun k => { k with cycle := some { rest := rest, turn := false } }) l) := by
  simp only [sendNext, hc, Bool.false_and, Bool.false_eq_true, if_false]

theorem sendNew_newFrame (k : FrameKind) (n : Nat) (p : List Byte) (j : ExchangeJob) (l : Line) :
    NewFrame l (sendNew k n p j l) k n p j :=
  ⟨rfl, rfl, rfl, rfl, rfl, rfl⟩

/-- The line as the end of a SAFE leaves it before anything follows (R72). -/
def safeEnded (l : Line) : Line := releaseLink (changeLink (fun k => { k with safeCount := k.safeCount + 1 }) l)

theorem safeSent_retry {l : Line} {resume : Option Exchange} {x : Exchange} (h : l.link.busy = .safe resume)
    (hx : resume = some x) (hwaits : l.link.safeWaits = false) : safeSent l = sendExchange x (safeEnded l) := by
  have hnone : ((safeEnded l).link.safeWaits && linkScans (safeEnded l)) = false := by
    rw [show (safeEnded l).link.safeWaits = false from hwaits]
    rfl
  simp only [safeSent, h, hx]
  exact if_neg (by rw [← safeEnded, hnone]; decide)

theorem safeSent_again {l : Line} {resume : Option Exchange} {x : Exchange} (h : l.link.busy = .safe resume)
    (hx : resume = some x) (hwaits : l.link.safeWaits = true) (hscans : linkScans l = true) :
    safeSent l = sendSafe (some x) (safeEnded l) := by
  have hboth : ((safeEnded l).link.safeWaits && linkScans (safeEnded l)) = true := by
    rw [show (safeEnded l).link.safeWaits = true from hwaits, show linkScans (safeEnded l) = true from hscans]
    rfl
  simp only [safeSent, h, hx]
  exact if_pos hboth

/-- With no retry waiting the link goes on as after any exchange that is not a SCAN (R72). -/
theorem safeSent_next {l : Line} {resume : Option Exchange} (h : l.link.busy = .safe resume) (hx : resume = none) :
    safeSent l = exchangeEnded (.enum 0) (changeLink (fun k => { k with safeCount := k.safeCount + 1 }) l) := by
  simp only [safeSent, h, hx]
  rfl

/-- The line as LINK_START leaves it before its first cycle (R62). -/
def scanStarted (l : Line) : Line :=
  changeLink (fun k =>
    { k with
      state := .scanning, scanList := boundList l, overrun := 0, period := some (after (now l) (scanPeriod l)) }) l

theorem actLinkStart_eq (a : Slot) (l : Line) :
    actLinkStart a l = ({ code := .ok, v9 := word (boundList l).length }, pump (startCycle (scanStarted l))) := rfl

/-- An expiry during a cycle owes one (R63). -/
theorem periodExpires_owes {l : Line} (h : l.link.cycle ≠ none) (deadline : Word) :
    periodExpires deadline l = { l with link := { l.link with
      period := some (after deadline (scanPeriod l)), overrun := l.link.overrun + 1, owed := true } } :=
  if_pos (Option.isSome_iff_ne_none.mpr h)

/-- The line as an expiry leaves it that starts a cycle, before its first frame (R63). -/
def cycleStarted (deadline : Word) (l : Line) : Line :=
  { l with link := { l.link with
    period := some (after deadline (scanPeriod l)), cycle := some { rest := l.link.scanList, turn := false } } }

theorem periodExpires_starts {l : Line} (h : l.link.cycle = none) (hlist : l.link.scanList ≠ []) (deadline : Word) :
    periodExpires deadline l = pump (cycleStarted deadline l) := by
  have hcons : l.link.scanList.isEmpty = false := by simpa using hlist
  simp only [periodExpires, startCycle, changeLink, h, hcons, Option.isSome_none, Bool.false_eq_true, if_false]
  rfl

theorem mem_indicesWhere {α : Type} (p : α → Bool) (xs : List α) (i : Nat) :
    i ∈ indicesWhere p xs ↔ ∃ x, xs[i]? = some x ∧ p x = true := by
  simp only [indicesWhere, List.mem_filter, List.mem_range, Option.any_eq_true]
  exact ⟨fun h => h.2, fun h => ⟨(List.getElem?_eq_some_iff.mp h.choose_spec.1).1, h⟩⟩

/-- The scan list holds the addresses of the BOUND nodes (R62). -/
theorem mem_boundList (l : Line) (n : Nat) :
    n ∈ boundList l ↔ 1 ≤ n ∧ n ≤ l.link.nodes.length ∧ (nodeAt l n).state = .bound := by
  simp only [boundList, List.mem_map, mem_indicesWhere, beq_iff_eq]
  constructor
  · rintro ⟨k, ⟨nd, hnd, hbound⟩, rfl⟩
    have hk : k < l.link.nodes.length := (List.getElem?_eq_some_iff.mp hnd).1
    refine ⟨by omega, by omega, ?_⟩
    rw [nodeAt, List.getD_eq_getElem?_getD, Nat.add_sub_cancel, hnd]
    exact hbound
  · rintro ⟨h1, hn, hbound⟩
    have hk : n - 1 < l.link.nodes.length := by omega
    refine ⟨n - 1, ⟨l.link.nodes[n - 1], List.getElem?_eq_getElem hk, ?_⟩, by omega⟩
    rwa [nodeAt, List.getD_eq_getElem?_getD, List.getElem?_eq_getElem hk] at hbound

end Sys2Proof.Machine
end

section
/-! The statements of DISCOVER (R58), LINK_START (R62), the one-shots (R69, R70), the end of SAFE (R72) and the period
timer (R63). -/

namespace Sys2Proof.Machine

/-- Settles O35. -/
theorem discoverStartsAtAddressOne : Obligations.DiscoverStartsAtAddressOne := by
  intro s i hhead hbusy hidle hactive hquiet
  have hchecks : refusal (discoverChecks (slotAt s.line i) (leaveQueue s.line)) = none := by
    simp [refusal, discoverChecks, leaveQueue, hidle, hactive]
  have htake : takeDiscover s.line = startDiscover i (slotAt s.line i) (markTaken i (leaveQueue s.line)) :=
    (take_headIs hhead).trans (long_taken hbusy hchecks)
  refine ⟨_, exec_discover s, ⟨rfl, rfl, rfl⟩, ?_⟩
  rw [onLine_line, htake, startDiscover_eq (l := markTaken i (leaveQueue s.line)) hquiet]
  exact ⟨nowTaken_of hhead.2.1 rfl rfl, rfl, rfl, rfl, rfl, rfl, rfl⟩

/-- Settles O36: what the first cycle sends changes neither the scan list nor the period. -/
theorem linkStartBuildsTheScanList : Obligations.LinkStartBuildsTheScanList := by
  intro s i g hhead hbusy hidle hactive
  have hchecks : refusal (linkStartChecks (slotAt s.line i) (leaveQueue s.line)) = none := by
    simp [refusal, linkStartChecks, leaveQueue, hidle, hactive]
  have htake : takeLinkStart s.line = complete i (actLinkStart (slotAt s.line i) (leaveQueue s.line)).1
      (actLinkStart (slotAt s.line i) (leaveQueue s.line)).2 :=
    (take_headIs hhead).trans (immediate_done hbusy hchecks)
  let m := scanStarted (leaveQueue s.line)
  have sends : Sends m (pump (startCycle m)) := (startCycle_sends m).trans (pump_sends (startCycle m) (fun h => by cases h))
  have hlist : (pump (startCycle m)).link.scanList = boundList s.line := sends.scanList
  have hline : { pump (startCycle m) with request := s.line.request, link := s.line.link } = s.line :=
    congrArg (fun x : Line => { x with request := s.line.request, link := s.line.link }) sends.others
  have hperiod : after (now s.line) (scanPeriod s.line) = now s.line + word g.scanPeriod := by
    rw [after, scanPeriod, hactive]
    rfl
  refine ⟨_, exec_linkStart s, ⟨rfl, rfl, rfl⟩, ?_⟩
  rw [onLine_line, htake, actLinkStart_eq]
  refine ⟨?done, sends.state, sends.overrun, sends.period.trans (congrArg some hperiod), fun n => ?list, sends.nodes, ?rest⟩
  case done =>
    have hcount : (complete i { code := .ok, v9 := word (boundList (leaveQueue s.line)).length }
        (pump (startCycle m))).link.scanList = boundList (leaveQueue s.line) := hlist
    rw [hcount]
    exact completed_of hhead.2.1 sends.request
  case list =>
    rw [← mem_boundList s.line n, ← hlist]
    rfl
  case rest => exact congrArg (raise .reqDone) hline

/-- Settles O38: a busy link keeps the one-shot queued, a quiet one sends it at once. -/
theorem oneShotsJoinTheQueue : Obligations.OneShotsJoinTheQueue := by
  intro s i isSet hhead hbusy a o h1 h16 h255 hvalue hfound
  have hchecks : refusal (nodeChecks isSet a (leaveQueue s.line)) = none := by
    have hfound' : ((nodeAt (leaveQueue s.line) a.arg2.toNat).state != .absent) = true := bne_iff_ne.mpr hfound
    have hlarge : (!isSet || decide (a.arg4.toNat ≤ 65535)) = true := by
      cases isSet with
      | false => rfl
      | true => exact decide_eq_true (hvalue rfl)
    simp [refusal, nodeChecks, within, Config.nodeCount, h1, h16, h255, hfound', hlarge]
  let m := changeLink (fun k => { k with oneShots := k.oneShots ++ [o] }) (markTaken i (leaveQueue s.line))
  have htake : take (ofKind (if isSet then .nodeWrite else .nodeRead))
      (long busyNode (nodeChecks isSet) (startOneShot isSet)) s.line = pump m :=
    (take_headIs hhead).trans (long_taken hbusy hchecks)
  refine ⟨_, exec_oneShotRow isSet s, ⟨rfl, rfl, rfl⟩, ?_⟩
  rw [onLine_line, htake]
  have hhalt : m.link.halt = none := by
    cases hb : m.link.halt with
    | none => rfl
    | some j => simp [busyNode, haltInFlight, show s.line.link.halt = some j from hb] at hbusy
  have hrequest : (pump m).request = m.request := pump_request hhalt
  refine ⟨nowTaken_of hhead.2.1 (congrArg RequestUnit.slots hrequest) (congrArg RequestUnit.queue hrequest), fun hsent => ?queued,
    fun hquiet hstate hempty hcycle => ?sent, fun hstate => ?rest⟩
  case queued =>
    rw [pump_busy m hsent]
    rfl
  case sent =>
    have hstill : (m.link.safeWaits && linkScans m) = false := by
      rcases hstate with hidle | ⟨-, hnone⟩
      · rw [Bool.and_eq_false_iff]
        exact .inr (by rw [linkScans, show m.link.state = .idle from hidle]; rfl)
      · rw [show m.link.safeWaits = false from hnone, Bool.false_and]
    have hdiscovering : m.link.state ≠ .discovering := by
      rcases hstate with h | ⟨h, -⟩ <;> rw [show m.link.state = _ from h] <;> decide
    have hqueue : m.link.oneShots = o :: [] := by
      rw [show m.link.oneShots = s.line.link.oneShots ++ [o] from rfl, hempty]
      rfl
    rw [pump_next (l := m) hquiet hdiscovering (not_cycleEnds_of_none (l := m) hcycle false) hstill, sendNext_oneShot (l := m) hcycle hqueue]
    exact ⟨rfl, hcycle, rfl, sendNew_newFrame _ _ _ _ _⟩
  case rest =>
    exact congrArg (fun x : Line => { x with request := s.line.request, link := s.line.link }) (pump_sends m hstate).others

/-- Settles O43. -/
theorem safeSentCountsAndGoesOn : Obligations.SafeSentCountsAndGoesOn := by
  intro s resume hsafe
  rw [exec_safeFrameSent]
  refine ⟨fun x hx hnone => ?retry, fun x hx hwaits hscans => ?again, fun hresume hstate hgoes => ?next⟩
  case retry =>
    rw [State.onLine, safeSent_retry hsafe hx hnone]
    rfl
  case again =>
    rw [State.onLine, safeSent_again hsafe hx hwaits hscans]
    rfl
  case next =>
    let m := changeLink (fun k => { k with safeCount := k.safeCount + 1 }) s.line
    have sends : Sends m (exchangeEnded (.enum 0) m) := exchangeEnded_goesOn (.enum 0) m hgoes
    refine ⟨_, rfl, ⟨rfl, rfl, rfl⟩, ?_⟩
    rw [onLine_line, safeSent_next hsafe hresume]
    exact ⟨sends.safeCount, sends.nodes, congrArg (fun x : Line => { x with link := s.line.link }) sends.others,
      (exchangeEnded_spec (.enum 0) m hstate hgoes).congr rfl⟩

/-- Settles O44. -/
theorem periodExpiryStartsOrOwesACycle : Obligations.PeriodExpiryStartsOrOwesACycle := by
  intro s deadline g hperiod hreached hactive
  rw [exec_periodTimerExpiry]
  have hdue : periodTimerExpires s.line = periodExpires deadline s.line := by
    rw [periodTimerExpires, hperiod]
    exact if_pos hreached
  have hafter : after deadline (scanPeriod s.line) = deadline + word g.scanPeriod := by
    rw [after, scanPeriod, hactive]
    rfl
  refine ⟨fun hcycle => ?owed, fun hcycle hbusy hlist => ?waiting, fun n rest hcycle hquiet hlist hstate hsafe => ?sent⟩
  case owed =>
    rw [State.onLine, hdue, periodExpires_owes hcycle, hafter]
  case waiting =>
    rw [State.onLine, hdue, periodExpires_starts hcycle hlist, pump_busy (cycleStarted deadline s.line) hbusy,
      cycleStarted, hafter]
  case sent =>
    rw [State.onLine, hdue, periodExpires_starts hcycle (by rw [hlist]; exact List.cons_ne_nil _ _)]
    have hcycle' : (cycleStarted deadline s.line).link.cycle = some { rest := n :: rest, turn := false } := by
      rw [cycleStarted, hlist]
    have hstill : ((cycleStarted deadline s.line).link.safeWaits && linkScans (cycleStarted deadline s.line)) = false := by
      rw [show (cycleStarted deadline s.line).link.safeWaits = false from hsafe, Bool.false_and]
    have hscanning : (cycleStarted deadline s.line).link.state ≠ .discovering := by
      rw [show (cycleStarted deadline s.line).link.state = .scanning from hstate]
      decide
    rw [pump_next (l := cycleStarted deadline s.line) hquiet hscanning
      (not_cycleEnds_of_rest hcycle' (List.cons_ne_nil _ _) false) hstill, sendNext_scan hcycle', cycleStarted, hafter]
    rfl

end Sys2Proof.Machine
end

section
/-! SUPPORT. The ends of an exchange (R54, R55, R66, R69 to R71): the rows that end one, what the ends of a one-shot and
of a page do, and the last exchange of a halt. -/

namespace Sys2Proof.Machine

/-! ## The rows -/

theorem exec_scanReply (chars : List Byte) (s : State) :
    exec (.scanReply chars) s = .next (s.onLine (replyArrives chars)) := rfl
theorem exec_enumReply (chars : List Byte) (s : State) :
    exec (.enumReply chars) s = .next (s.onLine (replyArrives chars)) := rfl
theorem exec_oneShotReply (chars : List Byte) (s : State) :
    exec (.oneShotReply chars) s = .next (s.onLine (replyArrives chars)) := rfl
theorem exec_replyCheckFailure (chars : List Byte) (s : State) :
    exec (.replyCheckFailure chars) s = .next (s.onLine (replyArrives chars)) := rfl
theorem exec_replyLimitExpiry (s : State) : exec .replyLimitExpiry s = .next (s.onLine failAwaited) := rfl
theorem exec_replyCharacterGap (s : State) : exec .replyCharacterGap s = .next (s.onLine failAwaited) := rfl
theorem exec_linkHalt (s : State) : exec .linkHalt s = .next (s.onLine takeLinkHalt) := rfl

theorem replyArrives_good {l : Line} {x : Exchange} {chars : List Byte} (hb : l.link.busy = .waiting x)
    (hg : replyGood l x chars = true) : replyArrives chars l = exchangeGood x (replyPayload chars) l := by
  simp only [replyArrives, hb, hg, if_true]

theorem replyArrives_failed {l : Line} {x : Exchange} {chars : List Byte} (hb : l.link.busy = .waiting x)
    (hg : replyGood l x chars = false) : replyArrives chars l = exchangeFailed x l := by
  simp only [replyArrives, hb, hg, Bool.false_eq_true, if_false]

theorem failAwaited_eq {l : Line} {x : Exchange} (hb : l.link.busy = .waiting x) :
    failAwaited l = exchangeFailed x l := by
  simp only [failAwaited, hb]

/-- The three rows by which the awaited reply fails act alike (R54, R55). -/
theorem exec_failed {s : State} {x : Exchange} {c : Instr} (hb : s.line.link.busy = .waiting x)
    (hc : c = .replyLimitExpiry ∨ c = .replyCharacterGap
      ∨ ∃ chars, c = .replyCheckFailure chars ∧ replyGood s.line x chars = false) :
    exec c s = .next { s with line := exchangeFailed x s.line } := by
  rcases hc with rfl | rfl | ⟨chars, rfl, hg⟩
  · rw [exec_replyLimitExpiry, State.onLine, failAwaited_eq hb]
  · rw [exec_replyCharacterGap, State.onLine, failAwaited_eq hb]
  · rw [exec_replyCheckFailure, State.onLine, replyArrives_failed hb hg]

theorem exchangeFailed_retried {x : Exchange} (h : x.retry = true) (l : Line) :
    exchangeFailed x l = exchangeLost x l := by
  rw [exchangeFailed, if_pos h]

/-! ## The end of a one-shot (R69, R70) -/

/-- A one-shot's end completes its request and lets the link go on. -/
theorem oneShot_ends {l : Line} {o : OneShot} (r : Reply) (hslot : o.slot < l.request.slots.length)
    (hgoes : CycleGoesOn false l) :
    let l' := exchangeEnded (.oneShot o) (complete o.slot r l)
    slotAt l' o.slot =
        { slotAt l o.slot with
          state := .done, result := word r.code.code, val9 := r.v9, val10 := r.v10, val11 := r.v11, val12 := r.v12 }
      ∧ { l'.request with slots := l.request.slots } = l.request
      ∧ (∀ j, j ≠ o.slot → slotAt l' j = slotAt l j)
      ∧ noticeSet l' .reqDone = true ∧ l'.link.nodes = l.link.nodes
      ∧ { l' with link := l.link, request := l.request } = raise .reqDone l
      ∧ (l.link.state ≠ .discovering → LinkGoesOn false l l' ∧ l'.link.safeCount = l.link.safeCount) := by
  intro l'
  have sends : Sends (complete o.slot r l) l' := exchangeEnded_goesOn (.oneShot o) _ hgoes
  refine ⟨?done, ?queue, fun j hj => ?other, ?notice, sends.nodes, ?rest, fun hstate => ⟨?goes, sends.safeCount⟩⟩
  case done => rw [sends.slotAt, slotAt_complete_self hslot]
  case queue =>
    rw [sends.request]
    rfl
  case other => rw [sends.slotAt, slotAt_complete, if_neg (fun h => hj h.1.symm)]
  case notice => rw [sends.noticeSet, complete_noticeSet]
  case rest =>
    exact congrArg (fun x : Line => { x with link := l.link, request := l.request }) sends.others
  case goes => exact (exchangeEnded_spec (.oneShot o) (complete o.slot r l) hstate hgoes).congr rfl

theorem exchangeGood_oneShot {x : Exchange} {o : OneShot} (hjob : x.job = .oneShot o) (payload : List Byte) (l : Line) :
    exchangeGood x payload l = exchangeEnded (.oneShot o) (complete o.slot
      (if payload.getD 0 0 = 0 then { code := .ok, v9 := word (halfAt payload 1).toNat } else { code := .nodeError }) l) := by
  rw [exchangeGood, hjob]
  simp only [oneShotGood]
  split <;> rfl

theorem exchangeLost_oneShot {x : Exchange} {o : OneShot} (hjob : x.job = .oneShot o) (l : Line) :
    exchangeLost x l = exchangeEnded (.oneShot o) (complete o.slot { code := .timeout } l) := by
  rw [exchangeLost, hjob]

/-! ## The end of a page or of an address (R58 to R60) -/

/-- After a page the link asks for the page then due. -/
theorem exchangeEnded_asks {l : Line} {d : Discovery} (hs : l.link.state = .discovering)
    (hd : l.link.discovery = some d) (p : Nat) : exchangeEnded (.enum p) l = sendEnum d (releaseLink l) :=
  pump_discovering (l := releaseLink l) rfl hs hd

theorem finishAddress_last {d : Discovery} (h : d.addr = 16) (nd : Node) (l : Line) :
    finishAddress d nd l = endDiscovery d.slot (d.built ++ [nd]) l := by
  rw [finishAddress, if_pos (by rw [h]; decide)]

theorem finishAddress_next {d : Discovery} (h : d.addr < 16) (nd : Node) (l : Line) :
    finishAddress d nd l = changeLink (fun k =>
      { k with discovery := some { d with addr := d.addr + 1, page := 0, pages := [], built := d.built ++ [nd] } }) l := by
  have hmore : ¬ Config.nodeCount ≤ d.addr := Nat.not_le.mpr h
  rw [finishAddress, if_neg hmore]

/-- The last address finished, DISCOVER completes in that event (R60). -/
theorem discovery_ends {l : Line} {slot : Nat} (p : Nat) (built : List Node) (hslot : slot < l.request.slots.length) :
    let l' := exchangeEnded (.enum p) (endDiscovery slot built l)
    l'.link.discovery = none ∧ l'.link.nodes = built ∧ l'.link.state = .idle
      ∧ slotAt l' slot =
          { slotAt l slot with
            state := .done, result := word ResultCode.ok.code
            val9 := word (built.filter (·.state == .discovered)).length, val10 := 0, val11 := 0, val12 := 0 }
      ∧ l'.link.overrun = l.link.overrun ∧ l'.link.safeCount = l.link.safeCount
      ∧ { l' with link := l.link, request := l.request } = raise .reqDone l := by
  intro l'
  have sends : Sends (endDiscovery slot built l) l' := exchangeEnded_sends (.enum p) _ (fun h => by cases h)
  refine ⟨sends.discovery, sends.nodes, sends.state, ?done, sends.overrun, sends.safeCount, ?rest⟩
  case done =>
    rw [sends.slotAt, endDiscovery, slotAt_complete_self (by exact hslot)]
    rfl
  case rest =>
    exact congrArg (fun x : Line => { x with link := l.link, request := l.request }) sends.others

/-- Before the last address is finished DISCOVER asks on. -/
theorem discovery_asks {l : Line} (d : Discovery) (hs : l.link.state = .discovering) (p : Nat) :
    let l' := exchangeEnded (.enum p) (changeLink (fun k => { k with discovery := some d }) l)
    l'.link.discovery = some d ∧ l'.link.nodes = l.link.nodes
      ∧ l'.link.sent =
          frameBytes .enum d.addr (controlByte (nodeAt l d.addr).lastTaken (!seqBit l d.addr)) [BitVec.ofNat 8 d.page]
      ∧ { l' with link := l.link } = l := by
  intro l'
  have hasks := exchangeEnded_asks (l := changeLink (fun k => { k with discovery := some d }) l) hs rfl p
  have sends : Sends (changeLink (fun k => { k with discovery := some d }) l) l' :=
    exchangeEnded_sends (.enum p) _ (by rw [show (changeLink _ l).link.state = l.link.state from rfl, hs]; decide)
  refine ⟨sends.discovery, sends.nodes, ?sent, congrArg (fun x : Line => { x with link := l.link }) sends.others⟩
  rw [show l' = _ from hasks]
  rfl

end Sys2Proof.Machine
end

section
/-! The statements of the replies to ENUM (R58 to R60) and to one-shots (R69, R70). -/

namespace Sys2Proof.Machine

/-- Settles O40: the page is kept, or finishes its address. -/
theorem enumReplyAsksForTheNextPageOrAddress : Obligations.EnumReplyAsksForTheNextPageOrAddress := by
  intro s x d chars hb hjob hd hstate hsafe hgood haddr pages total more built next
  have hgood' : exchangeGood x (replyPayload chars) s.line = exchangeEnded (.enum d.page) (enumGood (replyPayload chars) s.line) := by
    rw [exchangeGood, hjob]
  have hfinish : ¬ more → enumGood (replyPayload chars) s.line
      = finishAddress d ((judgePages pages).getD { Node.absent with outcome := .badPoints }) s.line := fun hmore => by
    simp only [enumGood, hd]
    exact if_neg hmore
  refine ⟨fun hgoes => ?asks, fun hmore hlast hslot => ?ends⟩
  case asks =>
    have hnext : enumGood (replyPayload chars) s.line = changeLink (fun k => { k with discovery := some next }) s.line := by
      by_cases hmore : more
      · simp only [enumGood, hd, next, if_pos hmore]
        exact if_pos hmore
      · rw [hfinish hmore, finishAddress_next (hgoes.resolve_left hmore)]
        simp only [next, if_neg hmore, built]
    obtain ⟨hdiscovery, hnodes, hsent, hrest⟩ := discovery_asks next hstate d.page
    refine ⟨_, exec_enumReply chars s, ⟨rfl, rfl, rfl⟩, ?_⟩
    rw [onLine_line, replyArrives_good hb hgood, hgood', hnext]
    exact ⟨hdiscovery, hnodes, hsent, hrest⟩
  case ends =>
    obtain ⟨hdiscovery, hnodes, hidle, hslot', hoverrun, hcount, hrest⟩ := discovery_ends d.page built hslot
    refine ⟨_, exec_enumReply chars s, ⟨rfl, rfl, rfl⟩, ?_⟩
    rw [onLine_line, replyArrives_good hb hgood, hgood', hfinish hmore, finishAddress_last hlast]
    exact ⟨hdiscovery, hnodes, hidle, hslot', hoverrun, hcount, hrest⟩

/-- Settles O41. -/
theorem oneShotReplyCompletesTheRequest : Obligations.OneShotReplyCompletesTheRequest := by
  intro s x o chars hb hjob hgood hslot hgoes payload r
  refine ⟨_, exec_oneShotReply chars s, ⟨rfl, rfl, rfl⟩, ?_⟩
  rw [onLine_line, replyArrives_good hb hgood, exchangeGood_oneShot hjob]
  exact oneShot_ends r hslot hgoes

end Sys2Proof.Machine
end

section
/-! SUPPORT. What a SCAN reply and a missed SCAN do to the link controller (R65 to R68): of the link they change only the
record of the node they come from. -/

namespace Sys2Proof.Machine

/-! ## Lines that differ off the link, or in one node -/

/-- Requests, configuration and link are the same. -/
structure OffLink (l l' : Line) : Prop where
  request : l'.request = l.request
  active  : l'.active = l.active
  link    : l'.link = l.link

theorem OffLink.refl (l : Line) : OffLink l l := ⟨rfl, rfl, rfl⟩

theorem OffLink.trans {a b c : Line} (x : OffLink a b) (y : OffLink b c) : OffLink a c :=
  ⟨y.request.trans x.request, y.active.trans x.active, y.link.trans x.link⟩

theorem Within.offLink {l l' : Line} (h : Within l l') : OffLink l l' := ⟨h.request, h.active, h.link⟩

theorem changeRun_offLink (i : Nat) (f : ChanRun → ChanRun) (l : Line) : OffLink l (changeRun i f l) := ⟨rfl, rfl, rfl⟩

/-- A node that the scan cycle reaches: BOUND, RUNNING or FAULTED. -/
def Node.scanned (nd : Node) : Prop := nd.state = .bound ∨ nd.state = .running ∨ nd.state = .faulted

/-- Requests and configuration are the same, and of the link all but the record of node n; a scanned node is still
one. -/
structure NodeOnly (n : Nat) (l l' : Line) : Prop where
  request : l'.request = l.request
  active  : l'.active = l.active
  link    : { l'.link with nodes := l.link.nodes } = l.link
  others  : ∀ m, m - 1 ≠ n - 1 → nodeAt l' m = nodeAt l m
  scanned : ∀ m, (nodeAt l m).scanned → (nodeAt l' m).scanned

theorem OffLink.nodeAt {l l' : Line} (h : OffLink l l') (m : Nat) : nodeAt l' m = Machine.nodeAt l m := by
  rw [Machine.nodeAt, h.link, Machine.nodeAt]

theorem OffLink.nodeOnly {l l' : Line} (h : OffLink l l') (n : Nat) : NodeOnly n l l' :=
  ⟨h.request, h.active, by rw [h.link], fun m _ => h.nodeAt m, fun m => by rw [h.nodeAt]; exact id⟩

theorem NodeOnly.refl (n : Nat) (l : Line) : NodeOnly n l l := (OffLink.refl l).nodeOnly n

theorem NodeOnly.trans {n : Nat} {a b c : Line} (x : NodeOnly n a b) (y : NodeOnly n b c) : NodeOnly n a c where
  request := y.request.trans x.request
  active := y.active.trans x.active
  link := (congrArg (fun k : Link => { k with nodes := a.link.nodes }) y.link).trans x.link
  others m h := (y.others m h).trans (x.others m h)
  scanned m h := y.scanned m (x.scanned m h)

theorem NodeOnly.ite {p : Prop} [Decidable p] {n : Nat} {l a b : Line} (ha : NodeOnly n l a) (hb : NodeOnly n l b) :
    NodeOnly n l (if p then a else b) := by
  split
  · exact ha
  · exact hb

theorem changeNode_nodeOnly (n : Nat) (f : Node → Node) (l : Line)
    (hf : ∀ nd : Node, nd.scanned → (f nd).scanned := by intro nd h; exact h) : NodeOnly n l (changeNode n f l) := by
  refine ⟨rfl, rfl, rfl, fun m h => ?_, fun m h => ?_⟩
  · rw [nodeAt_changeNode, if_neg (fun c => h c.1.symm)]
  · rw [nodeAt_changeNode]
    split
    · exact hf _ h
    · exact h

theorem nodeAt_changeNode_self {l : Line} {n : Nat} (h1 : 1 ≤ n) (hn : n ≤ l.link.nodes.length) (f : Node → Node) :
    nodeAt (changeNode n f l) n = f (nodeAt l n) := by
  rw [nodeAt_changeNode, if_pos ⟨rfl, by omega⟩]

/-- Of the link only the node table differs, which decides nothing of what goes on the link next. -/
theorem NodeOnly.sameQueue {n : Nat} {l l' : Line} (h : NodeOnly n l l') : SameQueue l l' := by
  have e := congrArg (fun k : Link =>
    { k with
      nodes := l'.link.nodes, busy := l'.link.busy, sent := l'.link.sent, driving := l'.link.driving
      limit := l'.link.limit, replyDue := l'.link.replyDue, safeCount := l'.link.safeCount }) h.link
  exact e.symm

section
variable {n : Nat} {l l' : Line} (h : NodeOnly n l l')
include h

theorem NodeOnly.state : l'.link.state = l.link.state := by
  have e := congrArg Link.state h.link
  exact e

theorem NodeOnly.cycle : l'.link.cycle = l.link.cycle := by
  have e := congrArg Link.cycle h.link
  exact e

theorem NodeOnly.oneShots : l'.link.oneShots = l.link.oneShots := by
  have e := congrArg Link.oneShots h.link
  exact e

theorem NodeOnly.safeCount : l'.link.safeCount = l.link.safeCount := by
  have e := congrArg Link.safeCount h.link
  exact e

theorem NodeOnly.halt : l'.link.halt = l.link.halt := by
  have e := congrArg Link.halt h.link
  exact e

theorem NodeOnly.scanList : l'.link.scanList = l.link.scanList := by
  have e := congrArg Link.scanList h.link
  exact e

theorem NodeOnly.seqBits : l'.link.seqBits = l.link.seqBits := by
  have e := congrArg Link.seqBits h.link
  exact e

theorem NodeOnly.cycleGoesOn (scan : Bool) (g : CycleGoesOn scan l) : CycleGoesOn scan l' :=
  g.congr h.state h.cycle h.oneShots

end

/-- A SCAN exchange that ends with only its node's record changed lets the link go on (R63, R70, R72). -/
theorem scan_ends {n : Nat} {l m : Line} (h : NodeOnly n l m) (hgoes : CycleGoesOn true l) :
    Sends m (exchangeEnded .scan m) ∧ (l.link.state ≠ .discovering →
      LinkGoesOn true l (exchangeEnded .scan m) ∧ (exchangeEnded .scan m).link.safeCount = l.link.safeCount) := by
  have sends : Sends m (exchangeEnded .scan m) := exchangeEnded_goesOn .scan m (h.cycleGoesOn true hgoes)
  refine ⟨sends, fun hstate => ⟨?_, sends.safeCount.trans h.safeCount⟩⟩
  exact (exchangeEnded_spec .scan m (by rw [h.state]; exact hstate) (h.cycleGoesOn true hgoes)).congr h.sameQueue

/-! ## Samples of a reply -/

theorem fieldSample_offLink (i : Nat) (raw : Half) (l : Line) : OffLink l (fieldSample i raw l) := by
  simp only [fieldSample]
  split
  · exact changeRun_offLink i _ l
  · exact ((changeRun_offLink i _ l).trans (changeRun_offLink i _ _)).trans (freshSample_within i _ _).offLink

theorem deliverSamples_offLink (n : Nat) (payload : List Byte) :
    ∀ (ps : List Point) (k : Nat) (l : Line), OffLink l (deliverSamples n payload k ps l)
  | [], _, l => .refl l
  | p :: ps, k, l => by
    simp only [deliverSamples]
    refine OffLink.trans ?_ (deliverSamples_offLink n payload ps (k + 1) _)
    split
    · exact fieldSample_offLink _ _ l
    · exact .refl l

/-- The samples of a reply as one pass over the node's IN points, each with its place in the payload (R65). -/
theorem deliverSamples_eq (n : Nat) (payload : List Byte) :
    ∀ (ps : List Point) (k : Nat) (l : Line), deliverSamples n payload k ps l
      = (ps.zipIdx k).foldl (fun l q =>
          match channelOn l ChanKind.isInput n q.1.index with
          | some i => fieldSample i (halfAt payload (2 * q.2)) l
          | none => l) l
  | [], _, _ => rfl
  | p :: ps, k, l => by
    rw [List.zipIdx_cons, List.foldl_cons, ← deliverSamples_eq n payload ps (k + 1)]
    rfl

/-! ## Event records -/

theorem takeEvent_nodeOnly (n : Nat) (record : List Byte) (l : Line) : NodeOnly n l (takeEvent n record l) := by
  have routed : ∀ (point : Nat) (data : Half) (l : Line), NodeOnly n l (routeEvent n point data l) := fun point data l => by
    simp only [routeEvent]
    split
    · exact changeNode_nodeOnly n _ l
    · split
      · exact ((changeRun_offLink _ _ l).trans (judgeBag_still false _ _).within.offLink).nodeOnly n
      · exact ((changeRun_offLink _ _ l).trans (storeConfirmation_still _ _).within.offLink).nodeOnly n
      · exact (changeRun_offLink _ _ l).nodeOnly n
  simp only [takeEvent]
  exact .ite ((changeNode_nodeOnly n _ l).trans (routed _ _ _)) (changeNode_nodeOnly n _ l)

theorem takeEvents_nodeOnly (n : Nat) (records : List Byte) (l : Line) : NodeOnly n l (takeEvents n records l) := by
  simp only [takeEvents]
  refine NodeOnly.trans (b := if 6 ≤ records.length then takeEvent n (records.take 6) l else l) ?_ ?_
  · exact .ite (takeEvent_nodeOnly n _ l) (.refl n l)
  · exact .ite (takeEvent_nodeOnly n _ _) (.refl n _)

theorem takeEvents_none {records : List Byte} (h : records.length = 0) (n : Nat) (l : Line) :
    takeEvents n records l = l := by
  simp only [takeEvents]
  rw [if_neg (by omega), if_neg (by omega)]

theorem takeEvents_one {records : List Byte} (h : records.length = 6) (n : Nat) (l : Line) :
    takeEvents n records l = takeEvent n records l := by
  simp only [takeEvents]
  rw [if_neg (by omega), if_pos (by omega), List.take_of_length_le (by omega)]

theorem takeEvents_two {records : List Byte} (h : records.length = 12) (n : Nat) (l : Line) :
    takeEvents n records l = takeEvent n (records.drop 6) (takeEvent n (records.take 6) l) := by
  simp only [takeEvents]
  rw [if_pos (by omega), if_pos (by omega)]

/-! ## A good SCAN reply -/

/-- A node as a good SCAN reply with the payload given leaves its record (R65). -/
def answered (payload : List Byte) (nd : Node) : Node :=
  { nd with
    state := .running, misses := 0
    status := payload.getD (2 * (pointsOf nd .input).length) 0
    pendingEvents := payload.getD (2 * (pointsOf nd .input).length + 1) 0 }

/-- The line with node n's record as a good SCAN reply leaves it (R65). -/
def foundNode (n : Nat) (payload : List Byte) (l : Line) : Line :=
  { l with link := { l.link with nodes := l.link.nodes.modify (n - 1) fun _ => answered payload (nodeAt l n) } }

/-- The line when the samples of the reply are given: of a FAULTED node NODE_RECOVERED has been offered (R65). -/
def recoveredNode (n : Nat) (payload : List Byte) (l : Line) : Line :=
  if (nodeAt l n).state = .faulted then
    offer .nodeRecovered [word n, word (nodeAt l n).kindCode.toNat] (foundNode n payload l)
  else foundNode n payload l

theorem nodeAt_foundNode {l : Line} {n : Nat} (h1 : 1 ≤ n) (hn : n ≤ l.link.nodes.length) (payload : List Byte) :
    nodeAt (foundNode n payload l) n = answered payload (nodeAt l n) :=
  nodeAt_changeNode_self h1 hn fun _ => answered payload (nodeAt l n)

theorem changeNode_congr {l : Line} {n : Nat} {f g : Node → Node} (h : f (nodeAt l n) = g (nodeAt l n)) :
    changeNode n f l = changeNode n g l := by
  have hset : l.link.nodes.modify (n - 1) f = l.link.nodes.modify (n - 1) g := by
    rw [modify_eq_set _ _ f Node.absent, modify_eq_set _ _ g Node.absent]
    exact congrArg _ h
  rw [changeNode, change, hset]
  rfl

/-- A good SCAN reply of a scanned node in its parts: the record, the samples, the events (R65). -/
theorem scanGood_eq {n : Nat} {l : Line} (h1 : 1 ≤ n) (hn : n ≤ l.link.nodes.length) (hs : (nodeAt l n).scanned)
    (payload : List Byte) :
    scanGood n payload l = takeEvents n (payload.drop (2 * (pointsOf (nodeAt l n) .input).length + 2))
      (deliverSamples n payload 0 (pointsOf (nodeAt l n) .input) (recoveredNode n payload l)) := by
  have hrecord : changeNode n (fun nd =>
      { nd with
        misses := 0
        status := (payload.drop (2 * (pointsOf (nodeAt l n) .input).length)).getD 0 0
        pendingEvents := (payload.drop (2 * (pointsOf (nodeAt l n) .input).length)).getD 1 0
        state := if nd.state = .bound ∨ nd.state = .faulted then .running else nd.state }) l
      = foundNode n payload l := by
    have hstate : (if (nodeAt l n).state = .bound ∨ (nodeAt l n).state = .faulted then NodeState.running
        else (nodeAt l n).state) = .running := by
      rcases hs with h | h | h <;> simp [h]
    refine changeNode_congr (g := fun _ => answered payload (nodeAt l n)) ?_
    simp [answered, hstate, List.getD_eq_getElem?_getD, List.getElem?_drop]
  have hkind : nodePayload (foundNode n payload l) n = [word n, word (nodeAt l n).kindCode.toNat] := by
    rw [nodePayload, nodeAt_foundNode h1 hn]
    rfl
  simp only [scanGood, hrecord, hkind, List.drop_drop, recoveredNode]

theorem scanGood_nodeOnly (n : Nat) (payload : List Byte) (l : Line) : NodeOnly n l (scanGood n payload l) := by
  simp only [scanGood]
  refine NodeOnly.trans ?_ (((deliverSamples_offLink n payload _ _ _).nodeOnly n).trans (takeEvents_nodeOnly n _ _))
  refine (changeNode_nodeOnly n _ l fun nd h => ?_).trans
    (.ite ((offer_still _ _ _).within.offLink.nodeOnly n) (.refl n _))
  rcases h with h | h | h <;> simp [Node.scanned, h]

/-! ## A missed SCAN -/

theorem faultChannels_offLink (n : Nat) (l : Line) : OffLink l (faultChannels n l) := ⟨rfl, rfl, rfl⟩

theorem declareFault_nodeOnly (n : Nat) (l : Line) : NodeOnly n l (declareFault n l) := by
  simp only [declareFault]
  refine (changeNode_nodeOnly n (fun nd => { nd with state := .faulted }) l fun _ _ => .inr (.inr rfl)).trans
    (OffLink.nodeOnly ?_ n)
  refine OffLink.trans ?_ (zoneEvent_within (fun _ m => offer_still _ _ m) (fun m => tripOwn_within _ m) _).offLink
  exact ((raise_within _ _).offLink.trans (faultChannels_offLink n _)).trans (trackLosses_still _ _).within.offLink

theorem missNode_nodeOnly (n : Nat) (l : Line) : NodeOnly n l (missNode n l) := by
  simp only [missNode]
  refine .ite (.refl n l) ?_
  exact .ite ((changeNode_nodeOnly n _ l).trans (declareFault_nodeOnly n _)) (changeNode_nodeOnly n _ l)

end Sys2Proof.Machine
end

section
/-! The statement of a good SCAN reply (R65, R67, R68). -/

namespace Sys2Proof.Machine

theorem exchangeGood_scan {x : Exchange} (hjob : x.job = .scan) (payload : List Byte) (l : Line) :
    exchangeGood x payload l = exchangeEnded .scan (scanGood x.addr payload l) := by
  rw [exchangeGood, hjob]

theorem eventIsNext_iff (lastTaken seq : Nat) (hseq : seq < 16) :
    eventIsNext lastTaken seq = true ↔ 1 ≤ seq ∧ (lastTaken = 0 ∨ seq = if lastTaken = 15 then 1 else lastTaken + 1) := by
  simp only [eventIsNext, Bool.and_eq_true, decide_eq_true_eq, Bool.or_eq_true, beq_iff_eq]
  omega

theorem changeNode_changeNode (n : Nat) (f g : Node → Node) (l : Line) :
    changeNode n g (changeNode n f l) = changeNode n (fun nd => g (f nd)) l := by
  simp only [changeNode, change, List.modify_modify_eq]
  rfl

theorem routeEvent_unbound {l : Line} {n point : Nat} (h : channelOn l (· == .event) n point = none) (data : Half) :
    routeEvent n point data l = changeNode n (fun nd => { nd with unbound := nd.unbound + 1 }) l := by
  simp only [routeEvent, h]

/-- A taken event of a bound point is counted and goes on by the function of its channel (R51, R68). -/
theorem routeEvent_bound {l : Line} {n point i : Nat} (h : channelOn l (· == .event) n point = some i) (data : Half) :
    let counted := changeRun i (fun r => { r with events := r.events + 1 }) l
    ((chan l i).desc.func = .bagDone → routeEvent n point data l = (judgeBag false data.toNat counted).2)
      ∧ ((chan l i).desc.func = .storeDone → routeEvent n point data l = storeConfirmation data.toNat counted)
      ∧ ((chan l i).desc.func ≠ .bagDone → (chan l i).desc.func ≠ .storeDone → routeEvent n point data l = counted) := by
  intro counted
  have hfunc : (chan counted i).desc.func = (chan l i).desc.func := by
    rw [chan_changeRun]
    split <;> rfl
  have hroute : routeEvent n point data l =
      match (chan counted i).desc.func with
      | .bagDone => (judgeBag false data.toNat counted).2
      | .storeDone => storeConfirmation data.toNat counted
      | _ => counted := by
    simp only [routeEvent, h]
    rfl
  rw [hroute, hfunc]
  refine ⟨fun e => by rw [e], fun e => by rw [e], fun hbag hstore => ?_⟩
  cases e : (chan l i).desc.func with
  | bagDone => exact absurd e hbag
  | storeDone => exact absurd e hstore
  | _ => rfl

/-- Settles O39: the reply in its parts, and the link after them. -/
theorem scanReplyClearsTheMissCount : Obligations.ScanReplyClearsTheMissCount := by
  refine ⟨?plain, ?parts, ?records⟩
  case plain =>
    intro s x chars hb hjob h1 hn hgood hstate base hlen hscanning
    have hscanned : (nodeAt s.line x.addr).scanned := hstate.imp_right .inl
    have hgoes : CycleGoesOn true s.line := fun h => by rw [hscanning] at h; cases h
    have hparts := scanGood_eq h1 hn hscanned (replyPayload chars)
    have hnone : ((replyPayload chars).drop (2 * (pointsOf (nodeAt s.line x.addr) .input).length + 2)).length = 0 := by
      rw [List.length_drop, hlen, Nat.sub_self]
    have hquiet : recoveredNode x.addr (replyPayload chars) s.line = foundNode x.addr (replyPayload chars) s.line :=
      if_neg (fun h => by rcases hstate with e | e <;> rw [h] at e <;> cases e)
    rw [takeEvents_none hnone, hquiet] at hparts
    have off := deliverSamples_offLink x.addr (replyPayload chars) (pointsOf (nodeAt s.line x.addr) .input) 0
      (foundNode x.addr (replyPayload chars) s.line)
    have only := scanGood_nodeOnly x.addr (replyPayload chars) s.line
    obtain ⟨sends, hlink⟩ := scan_ends only hgoes
    have hnode : nodeAt (exchangeEnded .scan (scanGood x.addr (replyPayload chars) s.line)) x.addr
        = answered (replyPayload chars) (nodeAt s.line x.addr) := by
      rw [sends.nodeAt, hparts, off.nodeAt, nodeAt_foundNode h1 hn]
    refine ⟨_, exec_scanReply chars s, ⟨rfl, rfl, rfl⟩, ?_⟩
    rw [onLine_line, replyArrives_good hb hgood, exchangeGood_scan hjob, hnode]
    refine ⟨rfl, rfl, rfl, rfl, fun n hne hpos => ?_, (hlink (by rw [hscanning]; decide)).1, sends.request.trans only.request, ?_⟩
    · rw [sends.nodeAt, only.others n (by omega)]
    · have hactive := congrArg Line.active sends.others
      exact Eq.trans hactive only.active
  case parts =>
    intro s x chars hb hjob h1 hn hgood hgoes nd ins payload base tail hscanned found sampled
    have only := scanGood_nodeOnly x.addr payload s.line
    obtain ⟨sends, hlink⟩ := scan_ends only hgoes
    have hsampled : sampled (recoveredNode x.addr payload s.line)
        = deliverSamples x.addr payload 0 ins (recoveredNode x.addr payload s.line) :=
      (deliverSamples_eq x.addr payload ins 0 _).symm
    have htail : tail.length = payload.length - (base + 2) := List.length_drop
    obtain ⟨hoffered, hrest, hnotices⟩ := offer_spec .nodeRecovered [word x.addr, word nd.kindCode.toNat]
      (foundNode x.addr payload s.line)
    refine ⟨_, recoveredNode x.addr payload s.line, scanGood x.addr payload s.line, exec_scanReply chars s,
      ⟨rfl, rfl, rfl⟩, fun hne => if_neg hne, fun hfaulted => ?recovered, fun hlen => ?noEvent, fun hlen => ?oneEvent,
      fun hlen => ?twoEvents, ?_⟩
    case recovered =>
      rw [recoveredNode, if_pos hfaulted]
      exact ⟨hoffered, hrest, hnotices⟩
    case noEvent =>
      rw [scanGood_eq h1 hn hscanned, takeEvents_none (by rw [htail, hlen, Nat.sub_self]), hsampled]
    case oneEvent =>
      rw [scanGood_eq h1 hn hscanned, takeEvents_one (by rw [htail, hlen]; omega), hsampled]
    case twoEvents =>
      rw [scanGood_eq h1 hn hscanned, takeEvents_two (by rw [htail, hlen]; omega), hsampled]
    rw [onLine_line, replyArrives_good hb hgood, exchangeGood_scan hjob]
    exact ⟨sends.nodes, sends.others, hlink⟩
  case records =>
    intro l n record h1 hn nd seq taken event data record'
    have htaken : eventIsNext (nodeAt l n).lastTaken seq = true ↔ taken :=
      eventIsNext_iff _ _ (Nat.mod_lt _ (by decide))
    have hrecord : ∀ {f : Node → Node} {r : Node}, f nd = r → changeNode n f l = record' r :=
      fun {f r} h => changeNode_congr (g := fun _ => r) h
    have hnext : taken → takeEvent n record l = routeEvent n (record.getD 0 0).toNat (halfAt record 2)
        (changeNode n (fun nd => { nd with lastTaken := seq }) l) := fun h => if_pos (htaken.mpr h)
    refine ⟨fun h => ?repeated, fun h he => ?unbound, fun i h he => ?bound⟩
    case repeated => exact (if_neg (mt htaken.mp h)).trans (hrecord rfl)
    case unbound =>
      rw [hnext h, routeEvent_unbound (by exact he), changeNode_changeNode]
      exact hrecord rfl
    case bound =>
      rw [hnext h, hrecord (f := fun nd => { nd with lastTaken := seq }) rfl]
      exact routeEvent_bound (l := record' { nd with lastTaken := seq }) he (halfAt record 2)

end Sys2Proof.Machine
end

section
/-! SUPPORT. The halt of the link (R71): what its end leaves of the nodes, and the last exchange of its cycle. -/

namespace Sys2Proof.Machine

/-! ## The nodes at the end of a halt -/

theorem missesCleared_state (k : Nat) : ∀ (scanned : List Nat) (nodes : List Node),
    ((missesCleared scanned nodes).getD k Node.absent).state = (nodes.getD k Node.absent).state
  | [], _ => rfl
  | n :: rest, nodes => by
    rw [missesCleared, List.foldl_cons]
    refine (missesCleared_state k rest _).trans ?_
    rw [change, getD_modify]
    split <;> rfl

theorem missesCleared_keeps_cleared (k : Nat) : ∀ (scanned : List Nat) (nodes : List Node),
    (nodes.getD k Node.absent).misses = 0 → ((missesCleared scanned nodes).getD k Node.absent).misses = 0
  | [], _, h => h
  | n :: rest, nodes, h => by
    rw [missesCleared, List.foldl_cons]
    refine missesCleared_keeps_cleared k rest _ ?_
    rw [change, getD_modify]
    split
    · rfl
    · exact h

theorem missesCleared_misses {n : Nat} : ∀ (scanned : List Nat) (nodes : List Node), n ∈ scanned →
    ((missesCleared scanned nodes).getD (n - 1) Node.absent).misses = 0
  | [], _, h => absurd h List.not_mem_nil
  | m :: rest, nodes, h => by
    rw [missesCleared, List.foldl_cons]
    by_cases hm : n = m
    · refine missesCleared_keeps_cleared _ rest _ ?_
      rw [change, getD_modify, hm]
      by_cases hlen : m - 1 < nodes.length
      · rw [if_pos ⟨rfl, hlen⟩]
      · rw [if_neg (fun c => hlen c.2), getD_of_ge _ _ (Nat.le_of_not_lt hlen)]
        rfl
    · exact missesCleared_misses rest _ ((List.mem_cons.mp h).resolve_left hm)

theorem getD_map_backToBound (nodes : List Node) (k : Nat) :
    (nodes.map backToBound).getD k Node.absent = backToBound (nodes.getD k Node.absent) := by
  simp only [List.getD_eq_getElem?_getD, List.getElem?_map]
  cases nodes[k]? <;> rfl

theorem backToBound_state (nd : Node) :
    (backToBound nd).state = if nd.state = .running ∨ nd.state = .faulted then .bound else nd.state := by
  rw [backToBound]
  split <;> rfl

theorem backToBound_misses (nd : Node) : (backToBound nd).misses = nd.misses := by
  rw [backToBound]
  split <;> rfl

/-- A node after the end of a halt has its state of before but for the scan cycle (R71). -/
theorem nodeAt_halted_state {l l' : Line} (h : l'.link.nodes = (haltedLink l.link).nodes) (n : Nat) :
    (nodeAt l' n).state =
      if (nodeAt l n).state = .running ∨ (nodeAt l n).state = .faulted then .bound else (nodeAt l n).state := by
  rw [nodeAt, h, haltedLink, getD_map_backToBound, backToBound_state, missesCleared_state]
  rfl

theorem nodeAt_halted_misses {l l' : Line} (h : l'.link.nodes = (haltedLink l.link).nodes) {n : Nat}
    (hn : n ∈ l.link.scanList) : (nodeAt l' n).misses = 0 := by
  rw [nodeAt, h, haltedLink, getD_map_backToBound, backToBound_misses, missesCleared_misses _ _ hn]

/-! ## The taking of a LINK_HALT -/

theorem completed_of_taken {l m : Line} {i : Nat} {r : Reply} (hi : i < l.request.slots.length)
    (hm : m.request = (markTaken i (leaveQueue l)).request) : Completed l (complete i r m) i r := by
  have hslot : ∀ j, slotAt m j = slotAt (markTaken i (leaveQueue l)) j := fun j => slotAt_congr hm j
  have hlen : i < m.request.slots.length := by
    rw [hm]
    simpa [markTaken, changeSlot, change, leaveQueue] using hi
  obtain ⟨htaken, -, hothers⟩ := nowTaken_of (m := markTaken i (leaveQueue l)) hi rfl rfl
  refine ⟨?_, complete_noticeSet _ _ _, congrArg RequestUnit.queue hm, fun j hj => ?_⟩
  · rw [slotAt_complete_self hlen, hslot, htaken]
  · rw [slotAt_complete, if_neg (fun h => hj h.1.symm), hslot, hothers j hj]

theorem Completed.of_sends {l m m' : Line} {i : Nat} {r : Reply} (h : Completed l m i r) (s : Sends m m') :
    Completed l m' i r := by
  obtain ⟨hslot, hnotice, hqueue, hothers⟩ := h
  exact ⟨(s.slotAt i).trans hslot, (s.noticeSet _).trans hnotice, (congrArg RequestUnit.queue s.request).trans hqueue,
    fun j hj => (s.slotAt j).trans (hothers j hj)⟩

/-- A link with no cycle and no SAFE waiting sends a one-shot or nothing (R63, R70). -/
theorem pump_oneShot {l : Line} (hd : l.link.state ≠ .discovering) (hc : l.link.cycle = none)
    (hs : l.link.safeWaits = false) : pump l = l ∨ pump l = sendOneShot l := by
  by_cases hq : l.link.busy = .quiet
  · refine .inr ((pump_next hq hd (not_cycleEnds_of_none hc false) (by rw [hs]; rfl)).trans ?_)
    rw [sendNext, hc]
  · exact .inl (pump_busy l hq)

theorem linkHaltChecks_pass {l : Line} {a : Slot} (hs : l.link.state = .scanning)
    (hz : ∀ z ∈ l.zones, ∀ zone ∈ z, zone.run.state = .off ∨ zone.run.state = .simulate) :
    refusal (linkHaltChecks a l) = none := by
  have hzones : (l.zones.all fun o => o.all fun z => z.run.state == .off || z.run.state == .simulate) = true := by
    simpa [List.all_eq_true, Option.all_eq_true] using hz
  simp [linkHaltChecks, refusal, hzones, hs]

/-! ## The last exchange of a halt -/

/-- The line as the end of a halt for slot h leaves it before a one-shot goes (R71). -/
def haltEnded (h : Nat) (l : Line) : Line :=
  complete h { code := .ok } (raise .linkHalted (changeLink haltedLink l))

theorem slotAt_haltEnded {l : Line} {h : Nat} (hslot : h < l.request.slots.length) :
    slotAt (haltEnded h l) h =
      { slotAt l h with
        state := .done, result := word ResultCode.ok.code, val9 := 0, val10 := 0, val11 := 0, val12 := 0 } :=
  slotAt_complete_self (l := raise .linkHalted (changeLink haltedLink l)) hslot

theorem settleCycle_halts {l : Line} {h : Nat} (hs : l.link.state = .halting) (hh : l.link.halt = some h)
    (he : CycleEnds false l) : settleCycle l = haltEnded h l := by
  obtain ⟨⟨rest, turn⟩, hc, hr, ho⟩ := he
  dsimp only at hr ho
  subst hr
  have hnone : (turn && !l.link.oneShots.isEmpty) = false := by
    rcases ho with ho | ⟨-, ho⟩ <;> simp [ho]
  have hstate : (changeLink (fun k => { k with cycle := none }) l).link.state = .halting := hs
  have hhalt : (changeLink (fun k => { k with cycle := none }) l).link.halt = some h := hh
  simp only [settleCycle, hc, hnone, Bool.false_eq_true, if_false, if_pos hstate]
  rw [endHalt_some hhalt]
  rfl

/-- The last exchange of a halting link's cycle ends the halt, and a one-shot still queued goes at once (R70, R71). -/
theorem exchangeEnded_halts {job : ExchangeJob} {l : Line} {h : Nat} (hs : l.link.state = .halting)
    (hh : l.link.halt = some h) (he : CycleEnds (job == .scan) l) :
    exchangeEnded job l = sendOneShot (haltEnded h (releaseLink l)) := by
  have pumped : ∀ m : Line, m.link.busy = .quiet → m.link.state = .halting → m.link.halt = some h → CycleEnds false m →
      pump m = sendOneShot (haltEnded h m) := by
    intro m hq ms mh me
    have hd : m.link.state ≠ .discovering := by rw [ms]; decide
    simp only [pump, hq, if_neg hd, settleCycle_halts ms mh me]
    rfl
  by_cases hj : job = .scan
  · subst hj
    let m := changeLink (fun k => { k with cycle := k.cycle.map fun c => { c with turn := true } }) (releaseLink l)
    have hends : CycleEnds false m := by
      obtain ⟨c, hc, hr, ho⟩ := he
      have hcycle : m.link.cycle = some { c with turn := true } := by
        rw [show m.link.cycle = l.link.cycle.map fun c => { c with turn := true } from rfl, hc]
        rfl
      exact ⟨_, hcycle, hr, .inl (ho.resolve_right fun h => by cases h.1)⟩
    exact pumped m rfl hs hh hends
  · have hfalse : (job == .scan) = false := beq_false_of_ne hj
    rw [hfalse] at he
    have hjob : exchangeEnded job l = pump (releaseLink l) := by
      cases job with
      | scan => exact absurd rfl hj
      | _ => rfl
    rw [hjob]
    exact pumped _ rfl hs hh he

/-- What the end of an exchange of node n leaves, when slot h is not its own: of the link only the node's record, and the
slot (R65, R66, R69). -/
structure EndsFor (n h : Nat) (l m : Line) : Prop where
  only   : NodeOnly n l { m with request := l.request }
  slot   : slotAt m h = slotAt l h
  length : m.request.slots.length = l.request.slots.length

theorem NodeOnly.endsFor {n : Nat} {l m : Line} (h : Nat) (only : NodeOnly n l m) : EndsFor n h l m :=
  ⟨⟨rfl, only.active, only.link, only.others, only.scanned⟩, slotAt_congr only.request h, by rw [only.request]⟩

theorem complete_endsFor {slot h : Nat} (hne : slot ≠ h) (n : Nat) (r : Reply) (l : Line) :
    EndsFor n h l (complete slot r l) := by
  have off : OffLink l { complete slot r l with request := l.request } := ⟨rfl, rfl, rfl⟩
  refine ⟨off.nodeOnly n, ?_, ?_⟩
  · rw [slotAt_complete, if_neg (fun c => hne c.1)]
  · simp [complete, raise, changeSlot, change]

section
variable {x : Exchange} {h : Nat}

theorem exchangeGood_endsFor (hjob : x.job = .scan ∨ ∃ o, x.job = .oneShot o ∧ o.slot ≠ h) (payload : List Byte)
    (l : Line) : ∃ m, exchangeGood x payload l = exchangeEnded x.job m ∧ EndsFor x.addr h l m := by
  rcases hjob with hscan | ⟨o, hshot, hne⟩
  · rw [exchangeGood_scan hscan, hscan]
    exact ⟨_, rfl, (scanGood_nodeOnly x.addr payload l).endsFor h⟩
  · rw [exchangeGood_oneShot hshot, hshot]
    exact ⟨_, rfl, complete_endsFor hne x.addr _ l⟩

theorem exchangeLost_scan (hjob : x.job = .scan) (l : Line) :
    exchangeLost x l = exchangeEnded .scan (missNode x.addr l) := by
  rw [exchangeLost, hjob]

theorem exchangeLost_endsFor (hjob : x.job = .scan ∨ ∃ o, x.job = .oneShot o ∧ o.slot ≠ h) (l : Line) :
    ∃ m, exchangeLost x l = exchangeEnded x.job m ∧ EndsFor x.addr h l m := by
  rcases hjob with hscan | ⟨o, hshot, hne⟩
  · rw [exchangeLost_scan hscan, hscan]
    exact ⟨_, rfl, (missNode_nodeOnly x.addr l).endsFor h⟩
  · rw [exchangeLost_oneShot hshot, hshot]
    exact ⟨_, rfl, complete_endsFor hne x.addr _ l⟩

/-- Each row that ends an exchange, answered or lost (R54, R55). -/
theorem exec_endsFor {s : State} {c : Instr} (hb : s.line.link.busy = .waiting x)
    (hjob : x.job = .scan ∨ ∃ o, x.job = .oneShot o ∧ o.slot ≠ h)
    (hc : (∃ chars, (c = .scanReply chars ∨ c = .oneShotReply chars) ∧ replyGood s.line x chars = true)
      ∨ x.retry = true ∧ (c = .replyLimitExpiry ∨ c = .replyCharacterGap
          ∨ ∃ chars, c = .replyCheckFailure chars ∧ replyGood s.line x chars = false)) :
    ∃ m, exec c s = .next { s with line := exchangeEnded x.job m } ∧ EndsFor x.addr h s.line m := by
  rcases hc with ⟨chars, hrow, hgood⟩ | ⟨hretry, hfailed⟩
  · obtain ⟨m, hm, ends⟩ := exchangeGood_endsFor hjob (replyPayload chars) s.line
    refine ⟨m, ?_, ends⟩
    rw [← hm, ← replyArrives_good hb hgood]
    rcases hrow with rfl | rfl
    · rw [exec_scanReply, State.onLine]
    · rw [exec_oneShotReply, State.onLine]
  · obtain ⟨m, hm, ends⟩ := exchangeLost_endsFor hjob s.line
    exact ⟨m, by rw [exec_failed hb hfailed, exchangeFailed_retried hretry, hm], ends⟩

end

theorem NewFrame.congr {l m l' : Line} {kind : FrameKind} {n : Nat} {payload : List Byte} {job : ExchangeJob}
    (h : NewFrame m l' kind n payload job) (hbits : m.link.seqBits = l.link.seqBits) :
    NewFrame l l' kind n payload job := by
  unfold NewFrame seqBit at *
  rwa [hbits] at h

theorem sendOneShot_some {l : Line} {o : OneShot} {rest : List OneShot} (h : l.link.oneShots = o :: rest) :
    sendOneShot l = sendNew (if o.isSet then .pset else .pget) o.node (oneShotPayload o) (.oneShot o)
      (changeLink (fun k => { k with oneShots := rest }) l) := by
  rw [sendOneShot, h]

theorem sendOneShot_none {l : Line} (h : l.link.oneShots = []) : sendOneShot l = l := by
  rw [sendOneShot, h]

/-- A one-shot's sending leaves the cycle and the SAFE that waits as they were. -/
theorem sendOneShot_keeps (l : Line) :
    (sendOneShot l).link.owed = l.link.owed ∧ (sendOneShot l).link.cycle = l.link.cycle
      ∧ (sendOneShot l).link.safeWaits = l.link.safeWaits := by
  rw [sendOneShot]
  split <;> exact ⟨rfl, rfl, rfl⟩

end Sys2Proof.Machine
end

section
/-! The statement of LINK_HALT (R71). -/

namespace Sys2Proof.Machine

/-- Settles O37: the taking by the cycle in progress, the end by the last exchange. -/
theorem linkHaltWaitsForTheCycle : Obligations.LinkHaltWaitsForTheCycle := by
  refine ⟨fun s i hhead hnone hscanning hzones => ?taking, fun s x h c hstate hb hhalt hslot hends haddr hjob hrow => ?last⟩
  case taking =>
    have hbusy : haltInFlight (leaveQueue s.line) = false := by simp [haltInFlight, leaveQueue, hnone]
    have htake : takeLinkHalt s.line = startHalt i (slotAt s.line i) (markTaken i (leaveQueue s.line)) :=
      (take_headIs hhead).trans (long_taken hbusy (linkHaltChecks_pass hscanning hzones))
    let m := changeLink (fun k => { k with state := .halting, halt := some i }) (markTaken i (leaveQueue s.line))
    refine ⟨fun hcycle => ?taken, fun hcycle => ?ended⟩
    case taken =>
      have hstart : startHalt i (slotAt s.line i) (markTaken i (leaveQueue s.line)) = m :=
        if_neg (by rw [Option.isNone_iff_eq_none]; exact hcycle)
      refine ⟨_, exec_linkHalt s, ⟨rfl, rfl, rfl⟩, ?_⟩
      rw [onLine_line, htake, hstart]
      exact ⟨nowTaken_of hhead.2.1 rfl rfl, rfl, rfl⟩
    case ended =>
      have hstart : startHalt i (slotAt s.line i) (markTaken i (leaveQueue s.line)) = pump (haltEnded i m) :=
        (if_pos (by rw [Option.isNone_iff_eq_none]; exact hcycle)).trans (congrArg pump (endHalt_some (l := m) rfl))
      have sends : Sends (haltEnded i m) (pump (haltEnded i m)) := pump_sends _ (fun h => by cases h)
      have howed : (pump (haltEnded i m)).link.owed = false := by
        rcases pump_oneShot (l := haltEnded i m) (fun h => by cases h) rfl rfl with e | e <;> rw [e]
        · rfl
        · exact (sendOneShot_keeps _).1
      refine ⟨_, exec_linkHalt s, ⟨rfl, rfl, rfl⟩, ?_⟩
      rw [onLine_line, htake, hstart]
      refine ⟨(completed_of_taken (m := raise .linkHalted (changeLink haltedLink m)) hhead.2.1 rfl).of_sends sends, sends.state, sends.scanList, sends.period, howed, ?_,
        fun n => nodeAt_halted_state (l := s.line) sends.nodes n⟩
      rw [sends.noticeSet]
      exact complete_notices _ _ _ _ (raise_noticeSet_self _ _)
  case last =>
    obtain ⟨m, hexec, hendsFor⟩ := exec_endsFor hb hjob hrow
    have only := hendsFor.only
    have hcycle : m.link.cycle = s.line.link.cycle := only.cycle
    have hshots : m.link.oneShots = s.line.link.oneShots := only.oneShots
    have hended : CycleEnds (x.job == .scan) m := by
      rw [CycleEnds, hcycle, hshots]
      exact hends
    let e := haltEnded h (releaseLink m)
    have hline : exchangeEnded x.job m = sendOneShot e :=
      exchangeEnded_halts (only.state.trans hstate) (only.halt.trans hhalt) hended
    have sends : Sends e (sendOneShot e) := sendOneShot_sends e
    obtain ⟨howed, hnocycle, hsafe⟩ := sendOneShot_keeps e
    have hnodes : (sendOneShot e).link.nodes = (haltedLink m.link).nodes := sends.nodes
    have hlength : h < (releaseLink m).request.slots.length := Nat.lt_of_lt_of_eq hslot hendsFor.length.symm
    have hsame : slotAt (releaseLink m) h = slotAt s.line h := hendsFor.slot
    refine ⟨_, hexec, ⟨rfl, rfl, rfl⟩, ?_⟩
    rw [hline]
    refine ⟨?slot, ?halted, ?done, sends.state, sends.halt, hnocycle, sends.scanList, sends.period, howed, hsafe,
      fun hempty => ?quiet, fun o os hqueue => ?sent, fun n h1 hne => ?others, fun hscanned => ?own, fun n hn h1 => ?misses⟩
    case slot => rw [sends.slotAt, slotAt_haltEnded hlength, hsame]
    case halted => rw [sends.noticeSet]; exact complete_notices _ _ _ _ (raise_noticeSet_self _ _)
    case done => rw [sends.noticeSet]; exact complete_noticeSet _ _ _
    case quiet =>
      rw [sendOneShot_none (l := e) (hshots.trans hempty)]
      exact ⟨rfl, rfl⟩
    case sent =>
      rw [sendOneShot_some (l := e) (hshots.trans hqueue)]
      exact ⟨(sendNew_newFrame _ _ _ _ _).congr only.seqBits, rfl⟩
    case others =>
      have hsame : nodeAt m n = nodeAt s.line n := only.others n (by omega)
      rw [nodeAt_halted_state (l := m) hnodes, hsame]
    case own =>
      have hstill : (nodeAt m x.addr).scanned := only.scanned x.addr hscanned
      rw [nodeAt_halted_state (l := m) hnodes]
      rcases hstill with hs | hs | hs <;> simp [hs]
    case misses => exact nodeAt_halted_misses (l := m) hnodes (by rw [show m.link.scanList = _ from only.scanList]; exact hn)

end Sys2Proof.Machine
end

section
/-! SUPPORT. Events that trip zones (R97, R98, R100): which zones trip, and what is recorded, whatever the event changed
before. -/

namespace Sys2Proof.Machine

theorem Sends.zones {l l' : Line} (h : Sends l l') : l'.zones = l.zones := by
  have e := congrArg Line.zones h.others
  exact e

theorem Sends.log {l l' : Line} (h : Sends l l') : l'.log = l.log := by
  have e := congrArg Line.log h.others
  exact e

theorem Sends.chan {l l' : Line} (h : Sends l l') (j : Nat) : chan l' j = Machine.chan l j := by
  have e := congrArg Line.chans h.others
  exact congrArg (·.getD j Channel.unused) e

theorem Sends.active {l l' : Line} (h : Sends l l') : l'.active = l.active := by
  have e := congrArg Line.active h.others
  exact e

/-- What an event's records rest on: the zones, the log, the line time, the reserve floor, the lots and the first
section's zone. -/
theorem TripsRecorded.congr {lead : List (RecordKind × List Word)} {l m t t' : Line} (h : TripsRecorded lead m t')
    (hzones : m.zones = l.zones) (hlog : m.log = l.log) (hnow : now m = now l) (hfloor : reserveFloor m = reserveFloor l)
    (hlots : m.track.lots = l.track.lots)
    (hdescs : m.track.sections.map (·.desc) = l.track.sections.map (·.desc))
    (tzones : t.zones = t'.zones) (tlog : t.log = t'.log) (tnotice : noticeSet t' .logDrop = true → noticeSet t .logDrop = true) :
    TripsRecorded lead l t := by
  have hstate : ∀ z, zoneState m z = zoneState l z := fun z => by simp only [zoneState, zone?_congr hzones]
  have tstate : ∀ z, zoneState t z = zoneState t' z := fun z => by simp only [zoneState, zone?_congr tzones]
  have htrips : tripsIn m t' = tripsIn l t := funext fun z => by rw [tripsIn, tripsIn, hstate, tstate]
  have hlost : lostPrereq t' = lostPrereq t := funext fun z => by rw [lostPrereq, lostPrereq, zone?_congr tzones]
  have hpayload : zoneTripPayload m t' = zoneTripPayload l t := funext fun z => by
    simp only [zoneTripPayload, hstate, zone?_congr tzones]
  have hopen : openLot m = openLot l := by simp only [openLot, hlots]
  intro hquiet
  obtain ⟨hrecords, hdrop⟩ := h (fun x hx => by
    rw [hopen] at hx
    refine (hquiet x hx).imp (fun ⟨hverdict, hcount, hunique⟩ => ⟨hverdict, hcount, by rw [hlots]; exact hunique⟩)
      fun hsame f hf => ?_
    have hfirst : (l.track.sections[0]?).map (·.desc) = some f.desc := by
      rw [← List.getElem?_map, ← hdescs, List.getElem?_map, hf, Option.map_some]
    obtain ⟨g, hg, hdesc⟩ := Option.map_eq_some_iff.mp hfirst
    rw [hstate, ← tstate, ← hdesc]
    exact hsame g hg)
  rw [htrips, hlost, hpayload, hfloor, hnow, hlog] at hrecords
  rw [hlog] at hdrop
  exact ⟨tlog.trans hrecords, fun hne => tnotice (hdrop (by rw [← tlog]; exact hne))⟩

/-! ## Events with no zone active -/

theorem tripOwn_idle {l : Line} (h : ∀ z, isActive l z = false) (causes : Nat → List TripCause) :
    tripOwn causes l = l := by
  unfold tripOwn
  generalize zoneNumbers = zs
  induction zs with
  | nil => rfl
  | cons z zs ih =>
    rw [List.foldl_cons, if_neg (fun c => by rw [h z] at c; exact absurd c.1 (by decide))]
    exact ih

/-! ## Events of trips -/

section
variable {lead : List Nat → Line → Line} (hl : ∀ zs l, Still l (lead zs l)) (causes : Line → Nat → List TripCause)
include hl

/-- With no zone active such an event changes no zone. -/
theorem tripEvent_idle {l : Line} (h : ∀ z, isActive l z = false) :
    (zoneEvent lead (fun l => tripOwn (causes l) l) l).zones = l.zones := by
  rw [(zoneEvent_after hl (fun l => tripOwn (causes l) l) l).zones, tripOwn_idle h, cascade_self]

/-- An active zone with a cause of its own trips with one of its causes, the cascade's trips beside it (R97, R100). -/
theorem tripEvent_trips {l : Line} {z : Nat} {x : Zone} (hz : z < Config.zoneCount) (hx : zone? l z = some x)
    (hactive : x.run.state.isActive = true) (hcause : causes l z ≠ []) :
    ∃ k ∈ causes l z, zone? (zoneEvent lead (fun l => tripOwn (causes l) l) l) z = some (x.trippedBy (now l) k) := by
  obtain ⟨k, hk, htripped⟩ := tripOwn_acts (causes l) l z hz hcause x hx hactive
  refine ⟨k, hk, ?_⟩
  rw [zone?_congr (zoneEvent_after hl (fun l => tripOwn (causes l) l) l).zones]
  rcases (cascade_cut l (tripOwn (causes l) l)).zones z with same | ⟨y, _, hy, hstill, -⟩
  · rw [same, htripped]
  · rw [htripped] at hy
    cases hy
    cases hstill

/-- A zone that is not active is as it was after such an event. -/
theorem tripEvent_inactive {l : Line} {z : Nat} (h : isActive l z = false) :
    zone? (zoneEvent lead (fun l => tripOwn (causes l) l) l) z = zone? l z := by
  rw [zone?_congr (zoneEvent_after hl (fun l => tripOwn (causes l) l) l).zones]
  rcases ((tripOwn_cut (causes l) l).trans (cascade_cut l _)).zones z with same | ⟨x, _, hx, hactive, -⟩
  · exact same
  · rw [(isActive_iff l z).mpr ⟨x, hx, hactive⟩] at h
    cases h

end

/-- The records of such an event are its own and the trips' (R97, R172). -/
theorem tripEvent_records (lead : List Nat → Line → Line) (R : List Nat → List (RecordKind × List Word))
    (causes : Line → Nat → List TripCause) (l : Line)
    (hl : ∀ zs m, m.link = l.link → lead zs m = (R zs).foldl (fun m r => offer r.1 r.2 m) m)
    (hls : ∀ zs m, Still m (lead zs m)) :
    TripsRecorded (R (trippedBetween l (cascade l (tripOwn (causes l) l)))) l
      (zoneEvent lead (fun l => tripOwn (causes l) l) l) :=
  zoneEvent_records lead R (fun l => tripOwn (causes l) l) l hl hls (tripOwn_quiet _ l) (tripOwn_within _ l)
    fun z h => (((tripOwn_cut (causes l) l).trans (cascade_cut l _)).ran z h).1

/-- Where no zone changes, only the event's own records are offered. -/
theorem TripsRecorded.unchanged {lead : List (RecordKind × List Word)} {l t : Line} (h : TripsRecorded lead l t)
    (hzones : t.zones = l.zones) :
    t.log = lead.foldl (offeredOn (reserveFloor l) (now l)) l.log
      ∧ (t.log.drops ≠ l.log.drops → noticeSet t .logDrop = true) := by
  have hstate : ∀ z, zoneState t z = zoneState l z := fun z => by simp only [zoneState, zone?_congr hzones]
  have hnone : ∀ z, tripsIn l t z = false := fun z => by
    rw [tripsIn, hstate]
    cases h : zoneState l z == some .tripped <;> simp [bne, h]
  obtain ⟨hlog, hdrop⟩ := h fun x _ => .inr fun f _ => hstate _
  simp only [hnone, Bool.false_and, filter_never, List.append_nil, List.map_nil] at hlog
  exact ⟨hlog, hdrop⟩

theorem offered_of_offeredOn {g : RecordLog} {floor : Nat} {t : Word} {kind : RecordKind} {payload : List Word} {l' : Line}
    (hlog : l'.log = offeredOn floor t g (kind, payload)) (hdrop : l'.log.drops ≠ g.drops → noticeSet l' .logDrop = true) :
    Offered g floor t kind payload l' := by
  refine ⟨fun h => ?_, fun h => ?_⟩
  · rw [hlog, offeredOn, if_pos h]
  · have hlog' : l'.log = { g with drops := g.drops + 1 } := by rw [hlog, offeredOn, if_neg (by omega)]
    refine ⟨hlog', hdrop ?_⟩
    rw [hlog']
    simp

end Sys2Proof.Machine
end

section
/-! SUPPORT. A node's third miss (R40, R66, R100): what the fault does before its zone event. -/

namespace Sys2Proof.Machine

/-! ## Losses on the track -/

/-- Only the cells on the track differ. -/
def CellsOnly (l l' : Line) : Prop :=
  ∃ tr : Track, l' = { l with track := tr } ∧ tr.lots = l.track.lots
    ∧ tr.sections.map (·.desc) = l.track.sections.map (·.desc)

theorem CellsOnly.refl (l : Line) : CellsOnly l l := ⟨l.track, rfl, rfl, rfl⟩

theorem CellsOnly.trans {a b c : Line} (x : CellsOnly a b) (y : CellsOnly b c) : CellsOnly a c := by
  obtain ⟨_, rfl, xlots, xdescs⟩ := x
  obtain ⟨tr, rfl, ylots, ydescs⟩ := y
  exact ⟨tr, rfl, ylots.trans xlots, ydescs.trans xdescs⟩

theorem changeCells_cellsOnly (p : SectionDesc → Bool) (f : TrackCell → TrackCell) (l : Line) :
    CellsOnly l (changeCells p f l) := by
  refine ⟨_, rfl, rfl, ?_⟩
  rw [List.map_map]
  refine List.map_congr_left fun s _ => ?_
  rw [Function.comp_apply]
  split <;> rfl

theorem motionLoss_cellsOnly (i : Nat) (l : Line) : CellsOnly l (motionLoss i l) := by
  rw [motionLoss]
  split
  · exact (changeCells_cellsOnly _ _ l).trans ⟨_, rfl, rfl, rfl⟩
  · exact .refl l

theorem trackLosses_cellsOnly : ∀ (lost : List Nat) (l : Line), CellsOnly l (trackLosses lost l)
  | [], l => .refl l
  | i :: rest, l => by
    rw [trackLosses, List.foldl_cons]
    exact ((motionLoss_cellsOnly i l).trans (changeCells_cellsOnly _ _ _)).trans (trackLosses_cellsOnly rest _)

/-! ## The line at a node fault -/

/-- The inputs that leave GOOD as node n faults (R40, R100). -/
def lostInputs (n : Nat) (l : Line) : List Nat :=
  indicesWhere (fun c => faultsInput n c && c.run.quality == .good) l.chans

/-- The line as the zone event of node n's fault finds it (R66, R100). -/
def faultLine (n : Nat) (l : Line) : Line :=
  trackLosses (lostInputs n l)
    (faultChannels n (raise .nodeFault (changeNode n (fun nd => { nd with state := .faulted }) l)))

theorem declareFault_eq (n : Nat) (l : Line) :
    declareFault n l = zoneEvent (fun _ l => offer .nodeFault (nodePayload l n) l)
      (fun m => tripOwn (faultCauses m n (lostInputs n l)) m) (faultLine n l) := rfl

theorem faultLine_eq (n : Nat) (l : Line) :
    ∃ tr : Track, faultLine n l =
        { faultChannels n (raise .nodeFault (changeNode n (fun nd => { nd with state := .faulted }) l)) with track := tr }
      ∧ tr.lots = l.track.lots ∧ tr.sections.map (·.desc) = l.track.sections.map (·.desc) :=
  trackLosses_cellsOnly _ _

theorem getD_map {α : Type} (f : α → α) (xs : List α) (k : Nat) {d : α} (hd : f d = d) :
    (xs.map f).getD k d = f (xs.getD k d) := by
  simp only [List.getD_eq_getElem?_getD, List.getElem?_map]
  cases xs[k]? with
  | none => exact hd.symm
  | some x => rfl

/-- A channel as a fault of node n leaves it (R40). -/
def faultedChannel (n : Nat) (c : Channel) : Channel :=
  if faultsInput n c then { c with run := { c.run with quality := .fault, timer := .stopped } } else c

theorem faultedChannel_desc (n : Nat) (c : Channel) : (faultedChannel n c).desc = c.desc := by
  rw [faultedChannel]
  split <;> rfl

theorem chan_faultLine (n : Nat) (l : Line) (j : Nat) : chan (faultLine n l) j = faultedChannel n (chan l j) := by
  obtain ⟨tr, e, -, -⟩ := faultLine_eq n l
  rw [e]
  exact getD_map (faultedChannel n) l.chans j rfl

theorem descs_faultLine (n : Nat) (l : Line) : (faultLine n l).chans.map (·.desc) = l.chans.map (·.desc) := by
  obtain ⟨tr, e, -, -⟩ := faultLine_eq n l
  rw [e]
  show (l.chans.map (faultedChannel n)).map (·.desc) = _
  rw [List.map_map]
  exact List.map_congr_left fun c _ => faultedChannel_desc n c

theorem zones_faultLine (n : Nat) (l : Line) : (faultLine n l).zones = l.zones := by
  obtain ⟨tr, e, -, -⟩ := faultLine_eq n l
  rw [e]
  rfl

/-- A zone's use of a node rests on the descriptors of the channels and sections only (R100). -/
theorem zoneUsesNode_congr {l m : Line} (hchans : m.chans.map (·.desc) = l.chans.map (·.desc))
    (hsections : m.track.sections.map (·.desc) = l.track.sections.map (·.desc)) (z n : Nat) :
    zoneUsesNode m z n = zoneUsesNode l z n := by
  have hchan : ∀ i, (chan m i).desc = (chan l i).desc := fun i => by
    have h := congrArg (fun ds : List ChanDesc => ds.getD i Channel.unused.desc) hchans
    simp only [List.getD_eq_getElem?_getD, List.getElem?_map] at h
    simp only [chan, List.getD_eq_getElem?_getD]
    cases hm : m.chans[i]? <;> cases hl : l.chans[i]? <;> rw [hm, hl] at h <;> exact h
  have hown := congrArg (fun ds : List ChanDesc => ds.any fun d => d.kind != .unused && d.owner == some z && d.node == n)
    hchans
  have huse := congrArg (fun ds : List SectionDesc => ds.any fun d =>
    d.zone == z && ((chan l d.motion).desc.node == n || (d.criterion != .none && (chan l d.criterionChan).desc.node == n)))
    hsections
  simp only [List.any_map] at hown huse
  simp only [zoneUsesNode, hchan]
  exact congr (congrArg (· || ·) hown) huse

theorem faultCauses_faultLine {n : Nat} {l : Line} {z : Nat} {zone : Zone} (hz : zone? l z = some zone)
    (htrips : zone.desc.nodeFaultTrips = true) (huses : zoneUsesNode l z n = true) :
    TripCause.nodeFault n ∈ faultCauses (faultLine n l) n (lostInputs n l) z := by
  obtain ⟨tr, e, -, hdescs⟩ := faultLine_eq n l
  have huses' : zoneUsesNode (faultLine n l) z n = true := by
    rw [zoneUsesNode_congr (descs_faultLine n l) (by rw [e]; exact hdescs)]
    exact huses
  have hdesc : (zoneDesc (faultLine n l) z).nodeFaultTrips = true := by
    rw [zoneDesc, zone?_congr (zones_faultLine n l), hz]
    exact htrips
  rw [faultCauses, hdesc, huses']
  exact List.mem_append_left _ (List.mem_singleton.mpr rfl)

theorem faultCauses_cases {l : Line} {n z : Nat} {lost : List Nat} {k : TripCause} (h : k ∈ faultCauses l n lost z) :
    k = .nodeFault n ∨ ∃ j, k = .conditionLost j := by
  rcases List.mem_append.mp h with hfault | hlost
  · split at hfault
    · exact .inl (List.mem_singleton.mp hfault)
    · exact absurd hfault List.not_mem_nil
  · obtain ⟨i, -, hi⟩ := List.mem_filterMap.mp hlost
    obtain ⟨j, -, hj⟩ := Option.map_eq_some_iff.mp hi
    exact .inr ⟨j, hj.symm⟩

/-! ## A miss -/

theorem missNode_below {n : Nat} {l : Line} (hstate : (nodeAt l n).state ≠ .faulted) (h : (nodeAt l n).misses < 2) :
    missNode n l = changeNode n (fun nd => { nd with misses := nd.misses + 1 }) l := by
  simp only [missNode]
  rw [if_neg hstate, if_neg (fun c => absurd c.1 (by omega))]

theorem missNode_third {n : Nat} {l : Line} (hstate : (nodeAt l n).state = .bound ∨ (nodeAt l n).state = .running)
    (h : (nodeAt l n).misses = 2) :
    missNode n l = declareFault n (changeNode n (fun nd => { nd with misses := nd.misses + 1 }) l) := by
  have hne : (nodeAt l n).state ≠ .faulted := fun hf => by rcases hstate with e | e <;> rw [hf] at e <;> cases e
  simp only [missNode]
  rw [if_neg hne, if_pos ⟨by rw [h], hstate⟩]

end Sys2Proof.Machine
end

section
/-! The statement of the exchanges that fail (R53 to R55, R58, R59, R66, R100). -/

namespace Sys2Proof.Machine

theorem exchangeFailed_again {x : Exchange} {l : Line} (hretry : x.retry = false) (hsafe : l.link.safeWaits = false) :
    exchangeFailed x l = sendExchange { x with retry := true } l := by
  simp [exchangeFailed, hretry, hsafe]

theorem exchangeFailed_afterSafe {x : Exchange} {l : Line} (hretry : x.retry = false) (hsafe : l.link.safeWaits = true)
    (hscans : linkScans l = true) : exchangeFailed x l = sendSafe (some { x with retry := true }) l := by
  simp [exchangeFailed, hretry, hsafe, hscans]

theorem exchangeLost_enum {x : Exchange} {p : Nat} {d : Discovery} {l : Line} (hjob : x.job = .enum p)
    (hd : l.link.discovery = some d) :
    exchangeLost x l = exchangeEnded (.enum p)
      (finishAddress d { Node.absent with outcome := if d.page = 0 then .noReply else .incomplete } l) := by
  rw [exchangeLost, hjob]
  simp only [enumFailed, hd]

/-- The third miss of a node, its exchange ended: the node FAULTED, its inputs at FAULT, its zones tripped, the records
offered (R40, R66, R100, R172). -/
theorem third_miss {n : Nat} {l : Line} (h1 : 1 ≤ n) (hn : n ≤ l.link.nodes.length)
    (hstate : (nodeAt l n).state = .bound ∨ (nodeAt l n).state = .running) (hmisses : (nodeAt l n).misses = 2)
    (hgoes : CycleGoesOn true l) (hzones : l.zones.length = Config.zoneCount) :
    let t := exchangeEnded .scan (missNode n l)
    let record := (RecordKind.nodeFault, [word n, word (nodeAt l n).kindCode.toNat])
    nodeAt t n = { nodeAt l n with misses := 3, state := .faulted }
      ∧ noticeSet t .nodeFault = true
      ∧ (∀ j, (chan l j).desc.kind.isInput = true → (chan l j).desc.node = n → (chan l j).run.bound.isSome = true →
          (chan l j).run.simFlag = false → (chan t j).run.quality = .fault ∧ (chan t j).run.timer = .stopped)
      ∧ (∀ z zone, zone? l z = some zone → zone.run.state.isActive = true → zone.desc.nodeFaultTrips = true →
          zoneUsesNode l z n = true →
          ∃ w, zone? t z = some w ∧ w.run.state = .tripped
            ∧ (w.run.cause = .nodeFault n ∨ ∃ k, w.run.cause = .conditionLost k))
      ∧ ((∀ z, isActive l z = false) → t.zones = l.zones
          ∧ Offered l.log (reserveFloor l) (now l) record.1 record.2 t)
      ∧ TripsRecorded [record] l t := by
  intro t record
  let missed := changeNode n (fun nd => { nd with misses := nd.misses + 1 }) l
  let found := faultLine n missed
  have lead_still : ∀ (zs : List Nat) (m : Line), Still m (offer .nodeFault (nodePayload m n) m) :=
    fun _ m => offer_still _ _ m
  have hmiss : missNode n l = declareFault n missed := missNode_third hstate hmisses
  have sends : Sends (missNode n l) t := (scan_ends (missNode_nodeOnly n l) hgoes).1
  have within : Within found (missNode n l) := by
    rw [hmiss, declareFault_eq]
    exact zoneEvent_within lead_still (fun m => tripOwn_within _ m) _
  obtain ⟨tr, hfound, hlots, hdescs⟩ := faultLine_eq n missed
  have hnode : nodeAt found n = { nodeAt l n with misses := 3, state := .faulted } := by
    have hline : found.link = (changeNode n (fun nd => { nd with state := .faulted }) missed).link := by
      rw [show found = _ from hfound]
      rfl
    have hsecond : nodeAt found n = nodeAt (changeNode n (fun nd => { nd with state := .faulted }) missed) n := by
      rw [nodeAt, hline, nodeAt]
    rw [hsecond, changeNode_changeNode, nodeAt_changeNode_self h1 hn, hmisses]
  have hzone : ∀ z, zone? found z = zone? l z := fun z => zone?_congr (zones_faultLine n missed) z
  have hinactive : (∀ z, isActive l z = false) → t.zones = l.zones := fun hidle => by
    have hidle' : ∀ z, isActive found z = false := fun z => by
      rw [isActive_congr (zones_faultLine n missed)]
      exact hidle z
    rw [sends.zones, hmiss, declareFault_eq,
      tripEvent_idle lead_still (fun m => faultCauses m n (lostInputs n missed)) hidle']
    exact zones_faultLine n missed
  have hrecords : TripsRecorded [record] l t := by
    have hpayload : ∀ m : Line, m.link = found.link → nodePayload m n = record.2 := fun m hm => by
      have hsame : nodeAt m n = nodeAt found n := by rw [nodeAt, hm, nodeAt]
      rw [nodePayload, hsame, hnode]
    have hevent := tripEvent_records (fun _ m => offer .nodeFault (nodePayload m n) m) (fun _ => [record])
      (fun m => faultCauses m n (lostInputs n missed)) found
      (fun _ m hm => by rw [hpayload m hm, List.foldl_cons, List.foldl_nil]) lead_still
    have hactive : found.active = l.active := by rw [show found = _ from hfound]; rfl
    refine hevent.congr (zones_faultLine n missed) ?_ ?_ ?_ ?_ ?_ (sends.zones.trans ?_) (sends.log.trans ?_) fun hset => ?_
    · rw [show found = _ from hfound]; rfl
    · rw [show found = _ from hfound]; rfl
    · rw [reserveFloor, hactive, reserveFloor]
    · rw [show found = _ from hfound]; exact hlots
    · rw [show found = _ from hfound]; exact hdescs
    · rw [hmiss, declareFault_eq]
    · rw [hmiss, declareFault_eq]
    · rw [sends.noticeSet, hmiss, declareFault_eq]
      exact hset
  refine ⟨?node, ?notice, fun j hinput hown hbound hflag => ?inputs, fun z zone hz hactive htrips huses => ?zones,
    fun hidle => ⟨hinactive hidle, ?offered⟩, hrecords⟩
  case node => rw [sends.nodeAt, within.offLink.nodeAt, hnode]
  case notice =>
    rw [sends.noticeSet]
    refine within.notices .nodeFault ?_
    rw [show found = _ from hfound]
    exact raise_noticeSet_self .nodeFault _
  case inputs =>
    have hfaults : faultsInput n (chan l j) = true := by simp [faultsInput, hinput, hown, hbound, hflag]
    have hchan : chan found j = { chan l j with run := { (chan l j).run with quality := .fault, timer := .stopped } } := by
      rw [show chan found j = faultedChannel n (chan l j) from chan_faultLine n missed j, faultedChannel, if_pos hfaults]
    obtain ⟨hquality, -, -, -, htimer, -⟩ := within.run j
    rw [sends.chan, hquality, htimer, hchan]
    exact ⟨rfl, rfl⟩
  case zones =>
    have hz8 : z < Config.zoneCount := by
      rw [← hzones]
      refine Classical.byContradiction fun hge => ?_
      rw [zone?, getD_of_ge _ _ (Nat.le_of_not_lt hge)] at hz
      cases hz
    have hcause : TripCause.nodeFault n ∈ faultCauses found n (lostInputs n missed) z :=
      faultCauses_faultLine (l := missed) hz htrips huses
    obtain ⟨k, hk, htripped⟩ := tripEvent_trips lead_still (fun m => faultCauses m n (lostInputs n missed)) hz8
      ((hzone z).trans hz) hactive (List.ne_nil_of_mem hcause)
    refine ⟨zone.trippedBy (now found) k, ?_, rfl, faultCauses_cases hk⟩
    rw [zone?_congr sends.zones, hmiss, declareFault_eq]
    exact htripped
  case offered =>
    obtain ⟨hlog, hdrop⟩ := hrecords.unchanged (hinactive hidle)
    exact offered_of_offeredOn hlog hdrop

/-- Settles O42: the retry, the one-shot, the miss below the third, the third, and the page. -/
theorem failedExchangeIsRetriedOnceThenLost : Obligations.FailedExchangeIsRetriedOnceThenLost := by
  intro s x c hb hc
  rw [exec_failed hb hc]
  refine ⟨fun hretry hsafe => ?again, fun hretry hsafe hscans => ?afterSafe, fun o hretry hjob hslot hgoes => ?oneShot,
    fun hretry hjob h1 hn hstate hmisses hgoes => ?miss, fun hretry hjob h1 hn hstate hmisses hgoes hzones => ?third,
    fun p d hretry hjob hd hdiscovering hsafe haddr => ?page, ?limit, ?sent⟩
  case again =>
    rw [exchangeFailed_again hretry hsafe]
    rfl
  case afterSafe =>
    rw [exchangeFailed_afterSafe hretry hsafe hscans]
    rfl
  case oneShot =>
    rw [exchangeFailed_retried hretry, exchangeLost_oneShot hjob]
    exact ⟨_, rfl, ⟨rfl, rfl, rfl⟩, oneShot_ends { code := .timeout } hslot hgoes⟩
  case miss =>
    obtain ⟨sends, hlink⟩ := scan_ends (missNode_nodeOnly x.addr s.line) hgoes
    rw [exchangeFailed_retried hretry, exchangeLost_scan hjob]
    rw [missNode_below hstate hmisses] at sends hlink ⊢
    refine ⟨_, rfl, ⟨rfl, rfl, rfl⟩, ?_, fun n hne hpos => ?_, ?_, hlink⟩
    · rw [sends.nodeAt, nodeAt_changeNode_self h1 hn]
    · rw [sends.nodeAt, nodeAt_changeNode, if_neg (fun h => by omega)]
    · exact congrArg (fun l : Line => { l with link := s.line.link }) sends.others
  case third =>
    have only := missNode_nodeOnly x.addr s.line
    obtain ⟨sends, hlink⟩ := scan_ends only hgoes
    obtain ⟨hnode, hnotice, hinputs, htrips, hidle, hrecords⟩ := third_miss h1 hn hstate hmisses hgoes hzones
    rw [exchangeFailed_retried hretry, exchangeLost_scan hjob]
    refine ⟨_, rfl, ⟨rfl, rfl, rfl⟩, hnode, hnotice, hinputs, htrips, hidle, hrecords, sends.request.trans only.request,
      sends.active.trans only.active, fun n hne hpos => ?_, hlink⟩
    rw [sends.nodeAt, only.others n (by omega)]
  case page =>
    intro built
    rw [exchangeFailed_retried hretry, exchangeLost_enum hjob hd]
    refine ⟨fun hlt => ?asks, fun hlast hslot => ?ends⟩
    case asks =>
      obtain ⟨hdiscovery, hnodes, hsent, hrest⟩ := discovery_asks
        { d with addr := d.addr + 1, page := 0, pages := [], built := built } hdiscovering p
      rw [finishAddress_next hlt]
      exact ⟨_, rfl, ⟨rfl, rfl, rfl⟩, hdiscovery, hsent, hnodes, hrest⟩
    case ends =>
      obtain ⟨hdiscovery, hnodes, hidle, hdone, -, -, hrest⟩ := discovery_ends p built hslot
      rw [finishAddress_last hlast]
      exact ⟨_, rfl, ⟨rfl, rfl, rfl⟩, hdiscovery, hnodes, hidle, hdone, hrest⟩
  case limit =>
    rw [replyLimit]
    cases s.line.active <;> rfl
  case sent =>
    simp only [frameSent, hb, changeLink, after, wholeMs]

end Sys2Proof.Machine
end

section
/-! SUPPORT. The zone requests (R89): what a taking that passes its checks leaves, and the zone events in which nothing
is reported to the log and the track (R97, R105). -/

namespace Sys2Proof.Machine

/-! ## The rows -/

theorem exec_zoneRun (s : State) : exec .zoneRun s = .next (s.onLine takeZoneRun) := rfl
theorem exec_zoneStop (s : State) : exec .zoneStop s = .next (s.onLine takeZoneStop) := rfl
theorem exec_zoneReset (s : State) : exec .zoneReset s = .next (s.onLine takeZoneReset) := rfl
theorem exec_zoneSimulateEnter (s : State) : exec .zoneSimulateEnter s = .next (s.onLine takeSimulateEnter) := rfl
theorem exec_zoneSimulateLeave (s : State) : exec .zoneSimulateLeave s = .next (s.onLine takeSimulateLeave) := rfl

/-! ## The taking of a zone request -/

/-- A zone request that passes its checks makes its zone changes and completes with the zone's state (R89). -/
theorem take_zoneRequest {p : Slot → Bool} {checks : Slot → Line → List (Bool × ResultCode)} {f : Nat → Line → Line}
    {l : Line} {i z : Nat} (hhead : headSlot l = some i) (hp : p (slotAt l i) = true) (hbusy : busyConfig l = false)
    (hz : z = (slotAt l i).arg2.toNat) (hpass : refusal (checks (slotAt l i) (leaveQueue l)) = none) :
    take p (immediate busyConfig checks (zoneAct f)) l
      = complete i (zoneReply z (f z (leaveQueue l))) (f z (leaveQueue l)) := by
  have hbusy' : busyConfig (leaveQueue l) = false := hbusy
  rw [take_head hhead hp, immediate_done hbusy' hpass, zoneAct, ← hz]

/-- The taking completes its slot, its reply read off the line it leaves (R22, R89). -/
theorem zoneRequest_completed {l m : Line} {i : Nat} (z : Nat) (hi : i < l.request.slots.length)
    (hm : m.request = (leaveQueue l).request) :
    Completed l (complete i (zoneReply z m) m) i (zoneReply z (complete i (zoneReply z m) m)) :=
  completed_of hi hm

theorem refusal_zoneChecks {a : Slot} {l : Line} {z : Nat} {zone : Zone} (hz : z = a.arg2.toNat) (h8 : z < 8)
    (hactive : l.active.isSome = true) (hzone : zone? l z = some zone) (rest : List (Bool × ResultCode)) :
    refusal (zoneChecks a l ++ rest) = refusal rest := by
  have h8' : a.arg2.toNat < Config.zoneCount := hz ▸ h8
  simp [zoneChecks, refusal, hactive, ← hz, hzone, hz ▸ h8']

theorem stateAllows_eq {a : Slot} {l : Line} {z : Nat} {zone : Zone} (hz : z = a.arg2.toNat)
    (hzone : zone? l z = some zone) (allowed : List ZoneState) :
    stateAllows a l allowed = (allowed.contains zone.run.state, .zoneState) := by
  rw [stateAllows, ← hz, zoneState, hzone]
  rfl

theorem zoneState_of {l : Line} {z : Nat} {zone : Zone} (h : zone? l z = some zone) :
    zoneState l z = some zone.run.state := by
  rw [zoneState, h, Option.map_some]

theorem zoneDesc_of {l : Line} {z : Nat} {zone : Zone} (h : zone? l z = some zone) : zoneDesc l z = zone.desc := by
  rw [zoneDesc, h]
  rfl

theorem zones_changeZone {l : Line} {z : Nat} {x : Zone} (h : zone? l z = some x) (f : ZoneRun → ZoneRun) :
    (changeZone z f l).zones = l.zones.set z (some { x with run := f x.run }) := by
  have hget : l.zones.getD z none = some x := h
  simp only [changeZone, change, modify_eq_set _ _ _ none, hget, Option.map_some]

/-- The zone table after a change of state beside other changes to the zone (R105). -/
theorem zones_enterState_changeZone {l : Line} {z : Nat} {x : Zone} (h : zone? l z = some x) (st : ZoneState)
    (f : ZoneRun → ZoneRun) :
    (enterState z st (changeZone z f l)).zones
      = l.zones.set z (some { x with run := { f x.run with state := st, entryTime := now l } }) := by
  have hchanged : zone? (changeZone z f l) z = some { x with run := f x.run } := by
    rw [zone?_changeZone, if_pos rfl, h, Option.map_some]
  rw [enterState_zones, zones_changeZone hchanged, zones_changeZone h, List.set_set]
  rfl

theorem enterState_notice (z : Nat) (st : ZoneState) (l : Line) : noticeSet (enterState z st l) .zoneChange = true := by
  unfold enterState
  refine (refreshZone_still z _).within.notices _ ?_
  split <;> exact raise_noticeSet_self .zoneChange _

/-! ## Events that report nothing to the log and the track -/

/-- Zone z changes its state in the event only between states that neither a trip nor a lot or pallet turns on, unless
it keeps it: it leaves none of RUNNING and SIMULATE and enters none of RUNNING and TRIPPED. -/
def SilentChange (l m : Line) (z : Nat) : Prop :=
  zoneState m z = zoneState l z
    ∨ (zoneState l z ≠ some .running ∧ zoneState l z ≠ some .simulate
        ∧ zoneState m z ≠ some .running ∧ zoneState m z ≠ some .tripped)

theorem SilentChange.runs {l m : Line} {z : Nat} (h : SilentChange l m z) : isRunning m z = isRunning l z := by
  unfold isRunning
  rcases h with same | ⟨before, -, after, -⟩
  · rw [same]
  · rw [beq_eq_false_iff_ne.mpr before, beq_eq_false_iff_ne.mpr after]

theorem SilentChange.not_trips {l m : Line} {z : Nat} (h : SilentChange l m z) : enters l m z .tripped = false := by
  unfold enters
  rcases h with same | ⟨-, -, -, after⟩
  · rw [same]
    cases h : zoneState l z == some .tripped <;> simp [bne, h]
  · rw [beq_eq_false_iff_ne.mpr after, Bool.and_false]

theorem SilentChange.not_enters {l m : Line} {z : Nat} (h : SilentChange l m z) : enters l m z .running = false := by
  unfold enters
  rcases h with same | ⟨-, -, after, -⟩
  · rw [same]
    cases h : zoneState l z == some .running <;> simp [bne, h]
  · rw [beq_eq_false_iff_ne.mpr after, Bool.and_false]

theorem SilentChange.not_leaves {l m : Line} {z : Nat} (h : SilentChange l m z) :
    leaves l m z .running = false ∧ leaves l m z .simulate = false := by
  unfold leaves
  rcases h with same | ⟨running, simulate, -, -⟩
  · rw [same]
    constructor
    · cases h : zoneState l z == some .running <;> simp [bne, h]
    · cases h : zoneState l z == some .simulate <;> simp [bne, h]
  · rw [beq_eq_false_iff_ne.mpr running, beq_eq_false_iff_ne.mpr simulate]
    exact ⟨rfl, rfl⟩

/-- An event whose zone changes are silent leaves the zones and the link as its changes do, and neither the log nor the
track changes after them (R97, R105, R122). -/
theorem plainEvent_silent {f : Line → Line} {l : Line} (h : ∀ z, SilentChange l (f l) z) :
    Still (f l) (plainEvent f l) ∧ Quiet (f l) (plainEvent f l) := by
  have hcascade : cascade l (f l) = f l := cascade_none (leftRunning_nil fun w hw => (h w).runs.trans hw)
  have htrips : trippedBetween l (f l) = [] := by
    simp only [trippedBetween, (h _).not_trips, filter_never, List.filter_nil, List.append_nil]
  have hlot : lotClosedBy l (f l) = none := by
    unfold lotClosedBy
    split
    · rename_i x z _ _
      rw [(h z).not_leaves.1, (h z).not_leaves.2, if_neg Bool.false_ne_true, ite_self]
    · rfl
  have hbag : bagEnters l (f l) = false := by
    unfold bagEnters
    cases zoneOfKind (f l) .bag with
    | none => rfl
    | some z => exact (h z).not_enters
  have hevent : plainEvent f l = transferReport l (packReport l (f l)) := by
    rw [plainEvent, zoneEvent]
    simp only [hcascade, htrips, hlot, hbag, inFreeOrder, offerTrips, trackReport, List.isEmpty_nil, Bool.not_true,
      Option.isSome_none, List.filter, Bool.not_false, List.map_nil, List.length_nil, List.foldl_nil, List.foldl_cons,
      freely]
  rw [hevent]
  exact ⟨(packReport_still l _).trans (transferReport_still l _),
    (packReport_quiet l _ hbag).trans (transferReport_quiet l _)⟩

/-- A change of state of one zone is silent between the states that report nothing. -/
theorem SilentChange.of_onlyZone {l m : Line} {z : Nat} (only : OnlyZone z l m)
    (running : zoneState l z ≠ some .running) (simulate : zoneState l z ≠ some .simulate)
    (running' : zoneState m z ≠ some .running) (tripped' : zoneState m z ≠ some .tripped) (w : Nat) :
    SilentChange l m w := by
  by_cases h : w = z
  · subst h
    exact .inr ⟨running, simulate, running', tripped'⟩
  · exact .inl (by rw [zoneState, only.others w h, zoneState])

end Sys2Proof.Machine
end

section
/-! The statement of ZONE_RESET (R103). -/

namespace Sys2Proof.Machine

theorem meets_iff (cmp : Comparison) (v limit : Int) :
    meets cmp v limit = true ↔ (cmp = .ge → limit ≤ v) ∧ (cmp = .le → v ≤ limit) := by
  cases cmp <;> simp [meets]

theorem causeActive_condition {l : Line} {z : Nat} {zone : Zone} (hzone : zone? l z = some zone) (k : Nat) :
    causeActive l z (.condition k) = true ↔
      ∃ d, zone.desc.conditions[k]? = some d ∧ (chan l d.channel).run.quality = .good
        ∧ (d.cmp = .ge → d.limit ≤ currentValue (chan l d.channel))
        ∧ (d.cmp = .le → currentValue (chan l d.channel) ≤ d.limit) := by
  rw [causeActive, zoneDesc_of hzone, Option.any_eq_true]
  simp only [conditionMet, isGood, Bool.and_eq_true, beq_iff_eq, meets_iff]

theorem causeActive_conditionLost {l : Line} {z : Nat} {zone : Zone} (hzone : zone? l z = some zone) (k : Nat) :
    causeActive l z (.conditionLost k) = true ↔
      ∃ d, zone.desc.conditions[k]? = some d ∧ (chan l d.channel).run.quality ≠ .good := by
  rw [causeActive, zoneDesc_of hzone, Option.any_eq_true]
  simp only [isGood, Bool.not_eq_true', beq_eq_false_iff_ne]

/-- The checks of a ZONE_RESET of a TRIPPED zone turn on its cause alone (R89, R103). -/
theorem resetChecks_tripped {a : Slot} {l : Line} {z : Nat} {zone : Zone} (hz : z = a.arg2.toNat) (h8 : z < 8)
    (hactive : l.active.isSome = true) (hzone : zone? l z = some zone) (htripped : zone.run.state = .tripped) :
    refusal (resetChecks a l) = if causeActive l z zone.run.cause then some .tripActive else none := by
  rw [resetChecks, refusal_zoneChecks hz h8 hactive hzone, stateAllows_eq hz hzone, ← hz, zoneState_of hzone, hzone,
    htripped]
  cases hcause : causeActive l z zone.run.cause <;> simp [refusal, hcause]

/-- A TRIPPED zone goes to OFF without its cause (R103). -/
def untripped (z : Nat) (l : Line) : Line := enterState z .off (changeZone z (fun r => { r with cause := .none }) l)

theorem zoneReset_tripped {l : Line} {z : Nat} {zone : Zone} (hzone : zone? l z = some zone)
    (htripped : zone.run.state = .tripped) :
    zoneReset z l = plainEvent (untripped z) l := by
  rw [zoneReset, if_pos (by rw [zoneState_of hzone, htripped])]
  rfl

theorem untripped_silent {l : Line} {z : Nat} {zone : Zone} (hzone : zone? l z = some zone)
    (htripped : zone.run.state = .tripped) (w : Nat) : SilentChange l (untripped z l) w := by
  have hoff : zoneState (untripped z l) z = some .off := by
    rw [untripped, zoneState, zone?_enterState, if_pos rfl, zone?_changeZone, if_pos rfl, hzone]
    rfl
  have hbefore := zoneState_of hzone
  rw [htripped] at hbefore
  have only : OnlyZone z l (untripped z l) := (changeZone_only z _ l).trans (enterState_only z .off _)
  refine .of_onlyZone only ?_ ?_ ?_ ?_ w
  · rw [hbefore]; decide
  · rw [hbefore]; decide
  · rw [hoff]; decide
  · rw [hoff]; decide

/-- Settles O47: the causes one by one, the refused reset, and the reset itself. -/
theorem zoneResetJudgesTheCause : Obligations.ZoneResetJudgesTheCause := by
  refine ⟨fun l z zone hzone => ?causes,
    fun s i z zone ⟨hhead, hi, hkind⟩ hbusy hz hlen h8 hactive hzone htripped => ⟨fun hcause => ?refused, fun hcause => ?reset⟩⟩
  case causes =>
    refine ⟨causeActive_condition hzone, causeActive_conditionLost hzone, fun n => ?_, ?_, rfl, fun _ _ => rfl, fun _ => rfl⟩
    · simp only [causeActive, bne_iff_ne]
    · simp only [causeActive, Bool.not_eq_true']
  case refused =>
    have hchecks : refusal (resetChecks (slotAt s.line i) (leaveQueue s.line)) = some .tripActive := by
      have h := resetChecks_tripped (l := leaveQueue s.line) hz h8 hactive hzone htripped
      rwa [show causeActive (leaveQueue s.line) z zone.run.cause = true from hcause, if_pos rfl] at h
    have htake : takeZoneReset s.line = refuse i .tripActive (leaveQueue s.line) := by
      rw [takeZoneReset, take_head hhead hkind, immediate_refused (k := .tripActive)]
      rw [show busyConfig (leaveQueue s.line) = false from hbusy]
      exact hchecks
    obtain ⟨hcompleted, honly⟩ := refuse_completed hi .tripActive
    rw [exec_zoneReset]
    refine ⟨_, rfl, ⟨rfl, rfl, rfl⟩, ?_, ?_⟩
    · rw [onLine_line, htake]; exact hcompleted
    · rw [onLine_line, htake]; exact honly
  case reset =>
    have hchecks : refusal (resetChecks (slotAt s.line i) (leaveQueue s.line)) = none := by
      have h := resetChecks_tripped (l := leaveQueue s.line) hz h8 hactive hzone htripped
      rwa [show causeActive (leaveQueue s.line) z zone.run.cause = false from hcause, if_neg Bool.false_ne_true] at h
    have hzone' : zone? (leaveQueue s.line) z = some zone := hzone
    have htake := take_zoneRequest (f := zoneReset) hhead hkind hbusy hz hchecks
    rw [zoneReset_tripped hzone' htripped] at htake
    obtain ⟨still, hlog, htrack⟩ := plainEvent_silent (untripped_silent hzone' htripped)
    have changed : Within (leaveQueue s.line) (untripped z (leaveQueue s.line)) :=
      (changeZone_within z _ _).trans (enterState_within z .off _)
    have quiet : Quiet (leaveQueue s.line) (untripped z (leaveQueue s.line)) :=
      (changeZone_quiet z _ _).trans (enterState_quiet z .off _)
    have within := changed.trans still.within
    rw [exec_zoneReset]
    refine ⟨_, rfl, ⟨rfl, rfl, rfl⟩, ?_, ?_, ?_, ?_, ?_⟩ <;> rw [onLine_line, show takeZoneReset s.line = _ from htake]
    · exact zoneRequest_completed z hi within.request
    · exact still.zones.trans (zones_enterState_changeZone hzone' .off _)
    · exact complete_notices _ _ _ _ (still.within.notices _ (enterState_notice z .off _))
    · exact hlog.trans quiet.1
    · exact within.link

end Sys2Proof.Machine
end

section
/-! SUPPORT. What a zone event does to the OPEN lot and to the pallet in transit, in whatever order its parts go (R122,
R162). -/

namespace Sys2Proof.Machine

/-! ## Parts in a free order -/

/-- A line property that no pick of an order touches. -/
def ChoiceFree (P : Line → Prop) : Prop := ∀ (l : Line) (k : Nat), P l → P { l with choices := k }

theorem ChoiceFree.pickOne {P : Line → Prop} (h : ChoiceFree P) (cs : List Nat) {l : Line} (hl : P l) :
    P (pickOne cs l).2 := by
  unfold Machine.pickOne
  split
  · exact hl
  · exact hl
  · exact h l _ hl

theorem freely_succ (n : Nat) (parts : List (Line → Line)) (l : Line) :
    freely (n + 1) parts l = freely n (parts.eraseIdx (pickOne (List.range parts.length) l).1)
      ((parts.getD (pickOne (List.range parts.length) l).1 id) (pickOne (List.range parts.length) l).2) := rfl

theorem freely_keeps {P : Line → Prop} (hP : ChoiceFree P) : ∀ (n : Nat) (parts : List (Line → Line)),
    (∀ f ∈ parts, ∀ l, P l → P (f l)) → ∀ l, P l → P (freely n parts l)
  | 0, _, _, _, hl => hl
  | n + 1, parts, hparts, l, hl => by
    have hpicked := hP.pickOne (List.range parts.length) hl
    rw [freely_succ]
    refine freely_keeps hP n _ (fun f hf => hparts f (List.mem_of_mem_eraseIdx hf)) _ ?_
    by_cases h : (Machine.pickOne (List.range parts.length) l).1 < parts.length
    · rw [getD_of_lt _ _ h]
      exact hparts _ (List.getElem_mem h) _ hpicked
    · rw [getD_of_ge _ _ (Nat.le_of_not_lt h)]
      exact hpicked

/-- Of parts in a free order one brings a property about, the others keep it and what that part begins from. -/
theorem freely_reaches {P Q : Line → Prop} (hP : ChoiceFree P) (hQ : ChoiceFree Q) {g : Line → Line}
    (hg : ∀ l, P l → Q (g l)) : ∀ (n : Nat) (before behind : List (Line → Line)),
    n = before.length + 1 + behind.length →
    (∀ f ∈ before ++ behind, ∀ l, (P l → P (f l)) ∧ (Q l → Q (f l))) →
    ∀ l, P l → Q (freely n (before ++ g :: behind) l)
  | 0, before, behind, hn, _, _, _ => by omega
  | n + 1, before, behind, hn, hparts, l, hl => by
    have hlength : (before ++ g :: behind).length = n + 1 := by
      rw [List.length_append, List.length_cons]
      omega
    have hmem := pickOne_mem (List.range (before ++ g :: behind).length) l (by simp)
    have hpicked := hP.pickOne (List.range (before ++ g :: behind).length) hl
    rw [freely_succ]
    generalize (Machine.pickOne (List.range (before ++ g :: behind).length) l).1 = k at hmem
    generalize (Machine.pickOne (List.range (before ++ g :: behind).length) l).2 = m at hpicked
    rw [List.mem_range, hlength] at hmem
    rcases Nat.lt_trichotomy k before.length with hk | hk | hk
    · rw [getD_append_left _ _ _ hk, getD_of_lt _ _ hk, List.eraseIdx_append_of_lt_length hk]
      have hin : before[k] ∈ before ++ behind := List.mem_append_left _ (List.getElem_mem hk)
      refine freely_reaches hP hQ hg n _ behind ?_ (fun f hf => hparts f ?_) _ ((hparts _ hin m).1 hpicked)
      · rw [List.length_eraseIdx_of_lt hk]
        omega
      · rcases List.mem_append.mp hf with h | h
        · exact List.mem_append_left _ (List.mem_of_mem_eraseIdx h)
        · exact List.mem_append_right _ h
    · rw [getD_append_right _ _ _ (Nat.le_of_eq hk.symm),
        List.eraseIdx_append_of_length_le (Nat.le_of_eq hk.symm), hk, Nat.sub_self, List.getD_cons_zero,
        List.eraseIdx_cons_zero]
      exact freely_keeps hQ n _ (fun f hf l => (hparts f hf l).2) _ (hg m hpicked)
    · obtain ⟨j, hj⟩ : ∃ j, k - before.length = j + 1 := ⟨k - before.length - 1, by omega⟩
      have hj' : j < behind.length := by omega
      rw [getD_append_right _ _ _ (Nat.le_of_lt hk), List.eraseIdx_append_of_length_le (Nat.le_of_lt hk), hj,
        List.getD_cons_succ, List.eraseIdx_cons_succ, getD_of_lt _ _ hj']
      have hin : behind[j] ∈ before ++ behind := List.mem_append_right _ (List.getElem_mem hj')
      refine freely_reaches hP hQ hg n before _ ?_ (fun f hf => hparts f ?_) _ ((hparts _ hin m).1 hpicked)
      · rw [List.length_eraseIdx_of_lt hj']
        omega
      · rcases List.mem_append.mp hf with h | h
        · exact List.mem_append_left _ h
        · exact List.mem_append_right _ (List.mem_of_mem_eraseIdx h)

theorem foldl_keeps {P : Line → Prop} : ∀ (parts : List (Bool × (Line → Line))),
    (∀ p ∈ parts, ∀ l, P l → P (p.2 l)) → ∀ l, P l → P (parts.foldl (fun l p => p.2 l) l)
  | [], _, _, hl => hl
  | p :: rest, hparts, l, hl =>
    foldl_keeps rest (fun q hq => hparts q (List.mem_cons_of_mem _ hq)) _ (hparts p List.mem_cons_self l hl)

/-- The same of all the parts of an event, whether or not they act where the order can show. -/
theorem inFreeOrder_reaches {P Q : Line → Prop} (hP : ChoiceFree P) (hQ : ChoiceFree Q) {g : Line → Line}
    (hg : ∀ l, P l → Q (g l)) (acts : Bool) {before behind : List (Bool × (Line → Line))}
    (hparts : ∀ p ∈ before ++ behind, ∀ l, (P l → P (p.2 l)) ∧ (Q l → Q (p.2 l))) {l : Line} (hl : P l) :
    Q (inFreeOrder (before ++ (acts, g) :: behind) l) := by
  have hbefore : ∀ p ∈ before, p ∈ before ++ behind := fun p h => List.mem_append_left _ h
  have hbehind : ∀ p ∈ behind, p ∈ before ++ behind := fun p h => List.mem_append_right _ h
  unfold inFreeOrder
  cases acts with
  | true =>
    simp only [List.filter_append, List.filter_cons, Bool.not_true, Bool.false_eq_true, if_false, if_true,
      List.map_append, List.map_cons]
    refine freely_reaches hP hQ hg _ _ _ (by simp only [List.length_append, List.length_cons]; omega)
      (fun f hf => ?_) _ (foldl_keeps _ (fun p hp l => (hparts p ?_ l).1) l hl)
    · rw [← List.map_append, ← List.filter_append, List.mem_map] at hf
      obtain ⟨p, hp, rfl⟩ := hf
      exact hparts p (List.mem_filter.mp hp).1
    · rw [← List.filter_append] at hp
      exact (List.mem_filter.mp hp).1
  | false =>
    simp only [List.filter_append, List.filter_cons, Bool.not_false, Bool.false_eq_true, if_false, if_true,
      List.foldl_append, List.foldl_cons]
    refine freely_keeps hQ _ _ (fun f hf l => ?_) _
      (foldl_keeps _ (fun p hp l => (hparts p (hbehind p (List.mem_filter.mp hp).1) l).2) _
        (hg _ (foldl_keeps _ (fun p hp l => (hparts p (hbefore p (List.mem_filter.mp hp).1) l).1) l hl)))
    rw [← List.filter_append, List.mem_map] at hf
    obtain ⟨p, hp, rfl⟩ := hf
    exact (hparts p (List.mem_filter.mp hp).1 l).2

/-! ## The closing of the OPEN lot (R122, R136) -/

theorem offerTrips_track (before after l : Line) : (offerTrips before after l).track = l.track := by
  unfold offerTrips
  generalize trippedBetween before after = zs
  induction zs generalizing l with
  | nil => rfl
  | cons z zs ih => exact (ih _).trans (offer_track _ _ l)

theorem judgeHold_track (l : Line) : (judgeHold l).track = l.track := by
  obtain ⟨-, -, h⟩ := judgeHold_pack l
  exact h

theorem packReport_track (before l : Line) : (packReport before l).track = l.track := by
  unfold packReport
  split
  · rfl
  · split
    · rfl
    · split
      · exact openPallets_track l
      · exact judgeHold_track l

/-- The lots numbered n, if any, are closed with the verdict given. -/
def ClosedWith (n : Nat) (v : Verdict) (l : Line) : Prop := ∀ y, lot? l n = some y → y.isOpen = false ∧ y.verdict = v

theorem ClosedWith.congr {n : Nat} {v : Verdict} {l l' : Line} (h : ClosedWith n v l)
    (hlots : l'.track.lots = l.track.lots) : ClosedWith n v l' := fun y hy => h y (by rwa [lot?, hlots] at hy)

theorem ClosedWith.changeLot {n : Nat} {v : Verdict} {l : Line} (h : ClosedWith n v l) (k : Nat) {f : Lot → Lot}
    (hf : ∀ x, (f x).number = x.number ∧ (f x).isOpen = x.isOpen ∧ (f x).verdict = x.verdict) :
    ClosedWith n v (changeLot k f l) := fun y hy => by
  rw [lot?_changeLot k n f (fun x => (hf x).1)] at hy
  obtain ⟨x, hx, rfl⟩ := Option.map_eq_some_iff.mp hy
  obtain ⟨hopen, hverdict⟩ := h x hx
  split
  · exact ⟨(hf x).2.1.trans hopen, (hf x).2.2.trans hverdict⟩
  · exact ⟨hopen, hverdict⟩

theorem writeReserved_track (k : RecordKind) (p : List Word) (l : Line) : (writeReserved k p l).track = l.track := by
  unfold writeReserved
  split <;> rfl

/-- A search by number in a table from which a number was removed. -/
theorem find?_filter_number {α : Type} (number : α → Nat) (xs : List α) (k n : Nat) :
    (xs.filter fun x => number x != k).find? (fun x => number x == n)
      = if n = k then none else xs.find? fun x => number x == n := by
  rw [List.find?_filter]
  by_cases hn : n = k
  · rw [if_pos hn, List.find?_eq_none]
    intro x _ hx
    simp only [bne_iff_ne, beq_iff_eq, decide_eq_true_eq] at hx
    exact hx.1 (hx.2.trans hn)
  · rw [if_neg hn]
    congr 1
    funext x
    by_cases hx : number x = n
    · simp [hx, hn]
    · simp [hx]

theorem ClosedWith.judgeRetirement {n : Nat} {v : Verdict} {l : Line} (h : ClosedWith n v l) (k : Nat) :
    ClosedWith n v (judgeRetirement k l) := by
  unfold Machine.judgeRetirement
  split
  · exact h
  · split
    · intro y hy
      simp only [lot?, writeReserved_track] at hy
      rw [find?_filter_number Lot.number] at hy
      split at hy
      · cases hy
      · exact h y hy
    · exact h

theorem ClosedWith.foldl {α : Type} {n : Nat} {v : Verdict} {f : Line → α → Line}
    (hf : ∀ l a, ClosedWith n v l → ClosedWith n v (f l a)) : ∀ (xs : List α) (l : Line), ClosedWith n v l →
    ClosedWith n v (xs.foldl f l)
  | [], _, h => h
  | a :: rest, l, h => ClosedWith.foldl hf rest _ (hf l a h)

theorem ClosedWith.resolvePallet {n : Nat} {v : Verdict} {l : Line} (h : ClosedWith n v l) (p : Pallet) :
    ClosedWith n v (resolvePallet p l) := by
  unfold Machine.resolvePallet
  have recorded := h.congr (l' := { (raise .palletResolved (writeReserved .pallet (palletPayload l p) l)) with
    pack := { (raise .palletResolved (writeReserved .pallet (palletPayload l p) l)).pack with
      pallets := (raise .palletResolved (writeReserved .pallet (palletPayload l p) l)).pack.pallets.filter
        (·.number != p.number) } }) (by simp only [raise, writeReserved_track])
  have counted := ClosedWith.foldl (f := fun l (e : PalletLot) =>
    Machine.changeLot e.lot (fun x => { x with livePallets := x.livePallets - 1 }) l)
    (fun l e h => h.changeLot e.lot fun x => ⟨rfl, rfl, rfl⟩) p.lots _ recorded
  have judged := ClosedWith.foldl (f := fun l (e : PalletLot) => Machine.judgeRetirement e.lot l)
    (fun l e h => h.judgeRetirement e.lot) p.lots _ counted
  exact judged.congr (by rw [openPallets_track])

theorem ClosedWith.judgeResolution {n : Nat} {v : Verdict} {l : Line} (h : ClosedWith n v l) (k : Nat) :
    ClosedWith n v (judgeResolution k l) := by
  unfold Machine.judgeResolution
  split
  · exact h
  · split
    · exact h.resolvePallet _
    · exact h

/-- A lot's record replaced as a whole. -/
theorem lot?_changeLot_const {l : Line} {n : Nat} {x y : Lot} (hx : lot? l n = some x) (hy : y.number = n) :
    lot? (changeLot n (fun _ => y) l) n = some y := by
  have hnumber := lot?_number hx
  rw [lot?, changeLot, List.find?_map]
  have hsame : ((fun z : Lot => z.number == n) ∘ fun z => if z.number = n then y else z) = fun z => z.number == n := by
    funext z
    by_cases hz : z.number = n <;> simp [hz, hy]
  rw [hsame, show l.track.lots.find? (fun z => z.number == n) = some x from hx, Option.map_some, if_pos hnumber]

/-- A lot with its verdict (R136, R137). -/
def Lot.judged (t : Word) (x : Lot) : Lot :=
  { x with verdict := (verdictOf x).1, reasons := (verdictOf x).2, verdictTime := some t }

/-- The lot's verdict is entered, recorded and reported (R136). -/
def enterVerdict (n : Nat) (y : Lot) (l : Line) : Line :=
  raise .lotVerdict (writeReserved .lotVerdict (lotVerdictPayload (changeLot n (fun _ => y) l) y)
    (changeLot n (fun _ => y) l))

/-- The STORED pallets that name the lot are judged, and then its retirement (R136, R164, R167). -/
def judgeBehindVerdict (n : Nat) (l : Line) : Line :=
  judgeRetirement n ((storedWith l n).foldl (fun l p => judgeResolution p.number l) l)

theorem judgeVerdict_due {l : Line} {n : Nat} {x : Lot} (hx : lot? l n = some x) (hdue : verdictDue x = true) :
    judgeVerdict n l = judgeBehindVerdict n (enterVerdict n (x.judged (now l)) l) := by
  rw [judgeVerdict, hx]
  simp only [hdue, if_true]
  rfl

theorem lot?_enterVerdict {l : Line} {n : Nat} {x y : Lot} (hx : lot? l n = some x) (hy : y.number = n) :
    lot? (enterVerdict n y l) n = some y := by
  have htrack : (enterVerdict n y l).track = (changeLot n (fun _ => y) l).track := writeReserved_track _ _ _
  rw [lot?, htrack]
  exact lot?_changeLot_const hx hy

theorem ClosedWith.judgeBehindVerdict {n : Nat} {v : Verdict} {l : Line} (h : ClosedWith n v l) (k : Nat) :
    ClosedWith n v (judgeBehindVerdict k l) :=
  (ClosedWith.foldl (fun _ p h => h.judgeResolution p.number) _ _ h).judgeRetirement k

/-- A lot closed with no unit unevaluated is final, whatever its closing resolves and retires (R121, R136). -/
theorem closeLot_final {l : Line} {x : Lot} (hx : lot? l x.number = some x) (hpending : x.verdict = .pending)
    (hcount : x.unevaluated = 0) : ClosedWith x.number (verdictOf x).1 (closeLot x.number l) := by
  have hshut : lot? (changeLot x.number (fun x => { x with isOpen := false }) l) x.number
      = some { x with isOpen := false } := lot?_changeLot_self _ (fun _ => rfl) hx
  have hdue : verdictDue { x with isOpen := false } = true := by simp [verdictDue, hpending, hcount]
  rw [closeLot, judgeVerdict_due hshut hdue]
  refine ClosedWith.judgeRetirement (ClosedWith.judgeBehindVerdict (fun y hy => ?_) _) _
  have hentered := lot?_enterVerdict hshut (y := Lot.judged (now l) { x with isOpen := false }) rfl
  obtain rfl := Option.some.inj (hy.symm.trans hentered)
  exact ⟨rfl, rfl⟩

theorem closeLot_closes {l m : Line} {x : Lot} (hlots : m.track.lots = l.track.lots) (hopen : openLot l = some x) :
    OpenLotClosed l (closeLot x.number m) := by
  intro x' hx' hpending hunique
  rw [hopen] at hx'
  cases hx'
  have hopen' : openLot m = some x := by rw [openLot, hlots]; exact hopen
  have hunique' : ∀ y ∈ m.track.lots, y.number = x.number → y = x := by rw [hlots]; exact hunique
  refine ⟨fun hcount => ?_, fun hcount => closeLot_final (lot?_of_open hopen' hunique') hpending hcount⟩
  have hclosing := (closeLot_spec hopen' hunique' hpending fun h => absurd h hcount).1.1 hcount
  rw [hclosing.1, hlots]

theorem lotClosedBy_congr (before : Line) {l m : Line} (htrack : m.track = l.track) (hzones : m.zones = l.zones) :
    lotClosedBy before m = lotClosedBy before l := by
  unfold lotClosedBy firstZone usedSection? leaves zoneState zone? openLot
  rw [htrack, hzones]

/-- The OPEN lot that the event's zone changes close is closed after it, in whatever order its parts went (R122). -/
theorem zoneEvent_closes {lead : List Nat → Line → Line} (hl : ∀ zs l, Still l (lead zs l))
    (hlt : ∀ zs l, (lead zs l).track = l.track) {f : Line → Line} {l : Line} {x : Lot}
    (hlots : (f l).track.lots = l.track.lots) (hopen : openLot l = some x)
    (hcloses : lotClosedBy l (cascade l (f l)) = some x) : OpenLotClosed l (zoneEvent lead f l) := by
  generalize hchanged : cascade l (f l) = changed at hcloses
  have hchangedLots : changed.track.lots = l.track.lots := by
    rw [← hchanged, (cascade_quiet l (f l)).2]
    exact hlots
  let Before (m : Line) : Prop := m.track = changed.track ∧ m.zones = changed.zones
  let Closed (m : Line) : Prop := OpenLotClosed l m
  have neutral : ∀ {g : Line → Line}, (∀ m, Still m (g m)) → (∀ m, (g m).track = m.track) →
      ∀ m, (Before m → Before (g m)) ∧ (Closed m → Closed (g m)) := fun {g} still track m =>
    ⟨fun ⟨ht, hz⟩ => ⟨(track m).trans ht, (still m).zones.trans hz⟩, fun h y hy hp hu => by
      obtain ⟨hwaits, hfinal⟩ := h y hy hp hu
      exact ⟨fun hc => by rw [track m]; exact hwaits hc, fun hc w hw => hfinal hc w (by rwa [lot?, track m] at hw)⟩⟩
  have hreport : ∀ m, Before m → Closed (trackReport l m) := fun m ⟨ht, hz⟩ => by
    have hsame : lotClosedBy l m = some x := by
      rw [← hcloses]
      exact lotClosedBy_congr l ht hz
    rw [trackReport, hsame]
    exact closeLot_closes (by rw [ht]; exact hchangedLots) hopen
  have hevent : zoneEvent lead f l = inFreeOrder
      ([(!(trippedBetween l changed).isEmpty, fun x => offerTrips l changed (lead (trippedBetween l changed) x))]
        ++ ((lotClosedBy l changed).isSome, trackReport l)
          :: [(bagEnters l changed, packReport l), (false, transferReport l)]) changed := by
    rw [← hchanged]
    rfl
  rw [hevent]
  refine inFreeOrder_reaches (P := Before) (Q := Closed) (fun _ _ h => h) (fun _ _ h => h) hreport _ ?_
    ⟨rfl, rfl⟩
  intro p hp
  simp only [List.cons_append, List.nil_append, List.mem_cons, List.not_mem_nil, or_false] at hp
  rcases hp with rfl | rfl | rfl
  · exact neutral (fun m => (hl _ m).trans (offerTrips_still _ _ _)) fun m => (offerTrips_track _ _ _).trans (hlt _ m)
  · exact neutral (packReport_still l) (packReport_track l)
  · exact neutral (transferReport_still l) fun m => (transferReport_quiet l m).2

/-! ## The zone work of an event -/

/-- The track, pack and transfer units and the log are as they were. -/
structure OnZones (l l' : Line) : Prop where
  track : l'.track = l.track
  pack : l'.pack = l.pack
  transfer : l'.transfer = l.transfer
  log : l'.log = l.log

theorem OnZones.refl (l : Line) : OnZones l l := ⟨rfl, rfl, rfl, rfl⟩

theorem OnZones.trans {a b c : Line} (x : OnZones a b) (y : OnZones b c) : OnZones a c :=
  ⟨y.track.trans x.track, y.pack.trans x.pack, y.transfer.trans x.transfer, y.log.trans x.log⟩

theorem OnZones.quiet {l l' : Line} (h : OnZones l l') : Quiet l l' := ⟨h.log, h.track⟩

theorem OnZones.foldl {α : Type} {f : Line → α → Line} (h : ∀ l a, OnZones l (f l a)) : ∀ (xs : List α) (l : Line),
    OnZones l (xs.foldl f l)
  | [], l => .refl l
  | x :: xs, l => (h l x).trans (OnZones.foldl h xs _)

theorem changeZone_onZones (z : Nat) (f : ZoneRun → ZoneRun) (l : Line) : OnZones l (changeZone z f l) :=
  ⟨rfl, rfl, rfl, rfl⟩

theorem raise_onZones (n : Notice) (l : Line) : OnZones l (raise n l) := ⟨rfl, rfl, rfl, rfl⟩

theorem enterState_onZones (z : Nat) (st : ZoneState) (l : Line) : OnZones l (enterState z st l) := by
  unfold enterState
  dsimp only
  split <;> exact ⟨rfl, rfl, rfl, rfl⟩

theorem tripZone_onZones (z : Nat) (k : TripCause) (l : Line) : OnZones l (tripZone z k l) :=
  (changeZone_onZones z _ l).trans ((enterState_onZones z .tripped _).trans (raise_onZones _ _))

theorem pickOne_onZones (cs : List Nat) (l : Line) : OnZones l (pickOne cs l).2 := by
  unfold pickOne
  split <;> exact ⟨rfl, rfl, rfl, rfl⟩

theorem tripOwn_onZones (causes : Nat → List TripCause) (l : Line) : OnZones l (tripOwn causes l) := by
  unfold tripOwn
  refine .foldl (fun m z => ?_) _ _
  dsimp only
  split
  · exact (pickOne_onZones _ _).trans (tripZone_onZones _ _ _)
  · exact .refl m

theorem cascadeRounds_onZones (before : Line) : ∀ (n : Nat) (left : List Nat) (l : Line),
    OnZones l (cascadeRounds before n left l)
  | 0, _, l => .refl l
  | n + 1, left, l => by
    unfold cascadeRounds
    refine OnZones.trans ?_ (cascadeRounds_onZones before n _ _)
    unfold cascadeRound
    refine .foldl (fun m z => ?_) _ _
    dsimp only
    split
    · exact (pickOne_onZones _ _).trans (tripZone_onZones _ _ _)
    · exact .refl m

theorem cascade_onZones (before l : Line) : OnZones l (cascade before l) := cascadeRounds_onZones before _ _ l

theorem setProgram_onZones (i : Nat) (v : Int) (l : Line) : OnZones l (setProgram i v l) := by
  unfold setProgram
  split <;> exact ⟨rfl, rfl, rfl, rfl⟩

theorem enterRunning_onZones : ∀ (n z : Nat) (l : Line), OnZones l (enterRunning n z l)
  | 0, _, l => .refl l
  | n + 1, z, l => by
    unfold enterRunning
    refine OnZones.trans ((changeZone_onZones z _ l).trans (enterState_onZones z .running _)) (.foldl (fun m w => ?_) _ _)
    split
    · exact enterRunning_onZones n w m
    · exact .refl m

theorem endProgram_onZones (z : Nat) (p : Program) (l : Line) : OnZones l (endProgram z p l) := by
  have cleared := changeZone_onZones z (fun r => { r with program := none, deadline := none }) l
  unfold endProgram
  cases p with
  | stop => exact cleared.trans (enterState_onZones z .off _)
  | start =>
    dsimp only
    split
    · exact cleared.trans ((enterState_onZones z .ready _).trans (enterRunning_onZones _ z _))
    · exact cleared.trans (enterState_onZones z .ready _)

theorem runSteps_onZones (z : Nat) (p : Program) : ∀ (steps : List Step) (k : Nat) (l : Line),
    OnZones l (runSteps z p k steps l)
  | [], _, l => endProgram_onZones z p l
  | .set i v :: rest, k, l => (setProgram_onZones i v l).trans (runSteps_onZones z p rest (k + 1) _)
  | .waitTime _ :: _, _, l => by
    unfold runSteps
    exact changeZone_onZones z _ l
  | .waitUntil _ _ _ _ :: rest, k, l => by
    unfold runSteps
    split
    · exact runSteps_onZones z p rest (k + 1) l
    · exact changeZone_onZones z _ l

/-! ## The pallet in transit (R162) -/

/-- The transfer unit is as it was, each pallet found by its number is found as it was unless it was STORED, and so are
the values of TRANSFER_START. -/
structure TransitKept (l l' : Line) : Prop where
  transfer : l'.transfer = l.transfer
  pallets : ∀ n p, pallet? l n = some p → p.state ≠ .stored → pallet? l' n = some p
  descs : ∀ j, (chan l' j).desc = (chan l j).desc
  starts : ∀ j, (chan l j).desc.kind = .partOutput → (chan l j).desc.func = .transferStart →
    (chan l' j).run.functionValue = (chan l j).run.functionValue

theorem TransitKept.of_blocks {l l' : Line} (htransfer : l'.transfer = l.transfer)
    (hpallets : l'.pack.pallets = l.pack.pallets) (hchans : l'.chans = l.chans) : TransitKept l l' :=
  ⟨htransfer, fun n p h _ => (pallet?_congr hpallets n).trans h, fun j => by rw [chan_congr hchans],
    fun j _ _ => by rw [chan_congr hchans]⟩

theorem TransitKept.refl (l : Line) : TransitKept l l := .of_blocks rfl rfl rfl

theorem TransitKept.trans {a b c : Line} (x : TransitKept a b) (y : TransitKept b c) : TransitKept a c where
  transfer := y.transfer.trans x.transfer
  pallets := fun n p h hp => y.pallets n p (x.pallets n p h hp) hp
  descs := fun j => (y.descs j).trans (x.descs j)
  starts := fun j hk hf =>
    (y.starts j (by rw [x.descs]; exact hk) (by rw [x.descs]; exact hf)).trans (x.starts j hk hf)

theorem TransitKept.foldl {α : Type} {f : Line → α → Line} (h : ∀ l a, TransitKept l (f l a)) : ∀ (xs : List α) (l : Line),
    TransitKept l (xs.foldl f l)
  | [], l => .refl l
  | x :: xs, l => (h l x).trans (TransitKept.foldl h xs _)

theorem judgeThreshold_transit (l : Line) : TransitKept l (judgeThreshold l) := by
  unfold judgeThreshold
  split <;> exact .of_blocks rfl rfl rfl

theorem writeReserved_transit (k : RecordKind) (p : List Word) (l : Line) : TransitKept l (writeReserved k p l) := by
  unfold writeReserved
  split <;> exact .of_blocks rfl rfl rfl

theorem offer_transit (k : RecordKind) (p : List Word) (l : Line) : TransitKept l (offer k p l) := by
  unfold offer
  split
  · have appended : TransitKept l { l with log := appendRecord l.log k (now l) p } := .of_blocks rfl rfl rfl
    exact appended.trans (judgeThreshold_transit _)
  · exact .of_blocks rfl rfl rfl

theorem raise_transit (n : Notice) (l : Line) : TransitKept l (raise n l) := .of_blocks rfl rfl rfl

theorem changeLot_transit (n : Nat) (f : Lot → Lot) (l : Line) : TransitKept l (changeLot n f l) :=
  .of_blocks rfl rfl rfl

theorem setFunction_transit {f : ChanFunction} (hf : f ≠ .transferStart) (v : Int) (l : Line) :
    TransitKept l (setFunction f v l) where
  transfer := rfl
  pallets := fun _ _ h _ => h
  descs := (setFunction_still f v l).within.desc
  starts := fun j _ hj => by rw [setFunction_other f v l j (.inr fun h => hf (h.symm.trans hj))]

theorem judgeHold_transit (l : Line) : TransitKept l (judgeHold l) := by
  have held : TransitKept l { l with pack := { l.pack with baggerHold := holdWanted l } } := .of_blocks rfl rfl rfl
  have hold := held.trans (setFunction_transit (f := .baggerHold) (by decide) (flag (holdWanted l)) _)
  unfold judgeHold
  dsimp only
  split
  · exact hold.trans (raise_transit _ _)
  · exact hold

theorem pickOne_chans (cs : List Nat) (l : Line) : (pickOne cs l).2.chans = l.chans := by
  unfold pickOne
  split <;> rfl

theorem tryOpen_transit (x : Lane) (l : Line) : TransitKept l (tryOpen x l) := by
  obtain ⟨more, hmore⟩ := tryOpen_pallets x l
  have blocks : (tryOpen x l).transfer = l.transfer ∧ (tryOpen x l).chans = l.chans := by
    have granted : (grant 1 l).transfer = l.transfer ∧ (grant 1 l).chans = l.chans := by
      unfold grant judgeThreshold
      split <;> exact ⟨rfl, rfl⟩
    unfold tryOpen
    split
    · exact ⟨((pickOne_onZones _ _).transfer).trans granted.1, (pickOne_chans _ _).trans granted.2⟩
    · exact ⟨rfl, rfl⟩
  exact ⟨blocks.1, fun n p h _ => pallet?_append hmore h, fun j => by rw [chan_congr blocks.2],
    fun j _ _ => by rw [chan_congr blocks.2]⟩

theorem openPallets_transit (l : Line) : TransitKept l (openPallets l) :=
  ((tryOpen_transit .release l).trans (tryOpen_transit .hold _)).trans (judgeHold_transit _)

theorem judgeRetirement_transit (n : Nat) (l : Line) : TransitKept l (judgeRetirement n l) := by
  unfold judgeRetirement
  split
  · exact .refl l
  · split
    · exact (writeReserved_transit _ _ l).trans (.of_blocks rfl rfl rfl)
    · exact .refl l

/-- The pallet that a resolution takes out of the table is STORED (R164, R166). -/
theorem resolvePallet_transit {l : Line} {p : Pallet} (hp : pallet? l p.number = some p) (hstored : p.state = .stored) :
    TransitKept l (resolvePallet p l) := by
  have recorded := (writeReserved_transit .pallet (palletPayload l p) l).trans (raise_transit .palletResolved _)
  have removed : TransitKept l { (raise .palletResolved (writeReserved .pallet (palletPayload l p) l)) with
      pack := { (raise .palletResolved (writeReserved .pallet (palletPayload l p) l)).pack with
        pallets := (raise .palletResolved (writeReserved .pallet (palletPayload l p) l)).pack.pallets.filter
          (·.number != p.number) } } := by
    refine ⟨recorded.transfer, fun n q hq hstate => ?_, recorded.descs, recorded.starts⟩
    rw [pallet?, find?_filter_number Pallet.number, if_neg]
    · exact recorded.pallets n q hq hstate
    · rintro rfl
      obtain rfl := Option.some.inj (hp.symm.trans hq)
      exact hstate hstored
  have counted := removed.trans (.foldl (f := fun l (e : PalletLot) =>
    changeLot e.lot (fun x => { x with livePallets := x.livePallets - 1 }) l) (fun l e => changeLot_transit e.lot _ l) p.lots _)
  have judged := counted.trans (.foldl (f := fun l (e : PalletLot) => judgeRetirement e.lot l)
    (fun l e => judgeRetirement_transit e.lot l) p.lots _)
  exact judged.trans (openPallets_transit _)

theorem judgeResolution_transit (n : Nat) (l : Line) : TransitKept l (judgeResolution n l) := by
  unfold judgeResolution
  split
  · exact .refl l
  · rename_i p hp
    split
    · rename_i hdue
      exact resolvePallet_transit (by rw [pallet?_number hp]; exact hp) hdue.1
    · exact .refl l

theorem judgeVerdict_transit (n : Nat) (l : Line) : TransitKept l (judgeVerdict n l) := by
  cases hx : lot? l n with
  | none => rw [judgeVerdict, hx]; exact .refl l
  | some x =>
    cases hdue : verdictDue x with
    | false => rw [judgeVerdict_waits hx hdue]; exact .refl l
    | true =>
      rw [judgeVerdict_due hx hdue]
      have entered : TransitKept l (enterVerdict n (x.judged (now l)) l) :=
        (changeLot_transit n _ l).trans ((writeReserved_transit _ _ _).trans (raise_transit _ _))
      have judged := entered.trans
        (.foldl (fun l (p : Pallet) => judgeResolution_transit p.number l)
          (storedWith (enterVerdict n (x.judged (now l)) l) n) _)
      exact judged.trans (judgeRetirement_transit n _)

theorem closeLot_transit (n : Nat) (l : Line) : TransitKept l (closeLot n l) :=
  (changeLot_transit n _ l).trans ((judgeVerdict_transit n _).trans (judgeRetirement_transit n _))

theorem trackReport_transit (before l : Line) : TransitKept l (trackReport before l) := by
  unfold trackReport
  split
  · exact closeLot_transit _ l
  · exact .refl l

theorem packReport_transit (before l : Line) : TransitKept l (packReport before l) := by
  unfold packReport
  split
  · exact .refl l
  · split
    · exact .refl l
    · split
      · exact openPallets_transit l
      · exact judgeHold_transit l

theorem offerTrips_transit (before after l : Line) : TransitKept l (offerTrips before after l) :=
  .foldl (fun l _ => offer_transit _ _ l) _ l

/-- The pallet in transit, if it is the one found by its number, is UNCONFIRMED and the path IDLE (R162). -/
theorem abandonTransit_abandons {l m : Line} (htransfer : m.transfer = l.transfer)
    (hpallets : ∀ n p, pallet? l n = some p → p.state ≠ .stored → pallet? m n = some p) :
    TransitAbandoned l (abandonTransit m) := by
  intro tr p htransit hp hstate
  have hm : pallet? m tr.number = some p := hpallets _ p hp (by rw [hstate]; decide)
  have heq : abandonTransit m
      = freePath (changePallet tr.number (fun q => { q with state := .unconfirmed }) m) := by
    rw [abandonTransit, htransfer, htransit]
  rw [heq]
  refine ⟨?_, ?_, fun j hk hf => functionValue_setFunction _ _ _ j hk hf⟩
  · exact congrArg (fun t : Transfer => { t with transit := none }) htransfer
  · have := pallet?_changePallet tr.number tr.number (fun q => { q with state := .unconfirmed }) (fun _ => rfl) m
    rw [hm, Option.map_some, if_pos (pallet?_number hm)] at this
    exact this

theorem TransitAbandoned.kept {l m m' : Line} (h : TransitAbandoned l m) (hkept : TransitKept m m') :
    TransitAbandoned l m' := fun tr p htransit hp hstate => by
  obtain ⟨htransfer, hpallet, hstarts⟩ := h tr p htransit hp hstate
  refine ⟨hkept.transfer.trans htransfer, hkept.pallets _ _ hpallet (fun h => by cases h), fun j hk hf => ?_⟩
  rw [hkept.descs] at hk hf
  exact (hkept.starts j hk hf).trans (hstarts j hk hf)

/-- The pallet in transit is left UNCONFIRMED by an event in which the TRANSFER zone leaves RUNNING, in whatever order
its parts go (R162). -/
theorem zoneEvent_abandons {lead : List Nat → Line → Line} (hl : ∀ zs l, Still l (lead zs l))
    (hlt : ∀ zs l, TransitKept l (lead zs l)) {f : Line → Line} {l : Line} {z : Nat} (hf : OnZones l (f l))
    (hzone : zoneOfKind (cascade l (f l)) .transfer = some z) (hleaves : leaves l (cascade l (f l)) z .running = true) :
    TransitAbandoned l (zoneEvent lead f l) := by
  generalize hchanged : cascade l (f l) = changed at hzone hleaves
  have onZones : OnZones l changed := hchanged ▸ hf.trans (cascade_onZones l _)
  let Before (m : Line) : Prop := m.transfer = l.transfer ∧ m.zones = changed.zones
    ∧ ∀ n p, pallet? l n = some p → p.state ≠ .stored → pallet? m n = some p
  let Abandoned (m : Line) : Prop := TransitAbandoned l m
  have neutral : ∀ {g : Line → Line}, (∀ m, Still m (g m)) → (∀ m, TransitKept m (g m)) →
      ∀ m, (Before m → Before (g m)) ∧ (Abandoned m → Abandoned (g m)) := fun {g} still kept m =>
    ⟨fun ⟨ht, hz, hp⟩ => ⟨(kept m).transfer.trans ht, (still m).zones.trans hz,
      fun n p h hs => (kept m).pallets n p (hp n p h hs) hs⟩, fun h => h.kept (kept m)⟩
  have hreport : ∀ m, Before m → Abandoned (transferReport l m) := fun m ⟨ht, hz, hp⟩ => by
    have hzone' : zoneOfKind m .transfer = some z := by
      rw [← hzone]
      unfold zoneOfKind zone?
      rw [hz]
    have hstate : zoneState m z = zoneState changed z := by rw [zoneState, zone?_congr hz, zoneState]
    have hleaves' : leaves l m z .running = true := by rw [← hleaves, leaves, hstate, leaves]
    have henters : enters l m z .running = false := by
      rw [leaves, Bool.and_eq_true, beq_iff_eq] at hleaves'
      rw [enters, hleaves'.1]
      rfl
    rw [transferReport, hzone']
    simp only [henters, hleaves', Bool.false_eq_true, if_false, if_true]
    exact abandonTransit_abandons ht hp
  have hevent : zoneEvent lead f l = inFreeOrder
      ([(!(trippedBetween l changed).isEmpty, fun x => offerTrips l changed (lead (trippedBetween l changed) x)),
          ((lotClosedBy l changed).isSome, trackReport l), (bagEnters l changed, packReport l)]
        ++ (false, transferReport l) :: []) changed := by
    rw [← hchanged]
    rfl
  rw [hevent]
  refine inFreeOrder_reaches (P := Before) (Q := Abandoned) (fun _ _ h => h) (fun _ _ h => h) hreport _ ?_
    ⟨onZones.transfer, rfl, fun n p h _ => (pallet?_congr (by rw [onZones.pack]) n).trans h⟩
  intro p hp
  simp only [List.append_nil, List.mem_cons, List.not_mem_nil, or_false] at hp
  rcases hp with rfl | rfl | rfl
  · exact neutral (fun m => (hl _ m).trans (offerTrips_still _ _ _)) fun m => (hlt _ m).trans (offerTrips_transit _ _ _)
  · exact neutral (trackReport_still l) (trackReport_transit l)
  · exact neutral (packReport_still l) (packReport_transit l)

end Sys2Proof.Machine
end

section
/-! SUPPORT. The beginning of a program: what its zone and the program values are when it comes to stand (R44, R91 to
R96). -/

namespace Sys2Proof.Machine

/-- The zone has entered the state of its program p, with the changes f to the rest of it. -/
def entering (z : Nat) (p : Program) (f : ZoneRun → ZoneRun) (l : Line) : Line := enterState z p.home (changeZone z f l)

/-- Step 1 is the program's current step. -/
def atFirstStep (z : Nat) (p : Program) (l : Line) : Line :=
  changeZone z (fun r => { r with program := some (p, 1), deadline := none }) l

/-- The steps of a zone's program, by its descriptor. -/
def Zone.steps (x : Zone) : Program → List Step
  | .start => x.desc.startProgram
  | .stop => x.desc.stopProgram

theorem programSteps_of {l : Line} {z : Nat} {x : Zone} (h : zone? l z = some x) (p : Program) :
    programSteps l z p = x.steps p := by
  cases p <;> simp only [programSteps, zoneDesc_of h, Zone.steps]

theorem startZone_eq (z : Nat) (run : Bool) (l : Line) :
    startZone z run l
      = beginProgram z .start (entering z .start (fun r => { r with runPending := r.runPending || run }) l) := rfl

/-- A zone as it has entered the state of its program. -/
def Zone.entered (t : Word) (p : Program) (f : ZoneRun → ZoneRun) (x : Zone) : Zone :=
  { x with run := { f x.run with state := p.home, entryTime := t } }

theorem zone?_entering {l : Line} {z : Nat} {x : Zone} (h : zone? l z = some x) (p : Program) (f : ZoneRun → ZoneRun) :
    zone? (entering z p f l) z = some (x.entered (now l) p f) := by
  rw [entering, zone?_enterState, if_pos rfl, zone?_changeZone, if_pos rfl, h]
  rfl

theorem beginProgram_eq {l : Line} {z : Nat} {x : Zone} (h : zone? l z = some x) (p : Program) :
    beginProgram z p l = runSteps z p 1 (x.steps p) (atFirstStep z p l) := by
  rw [beginProgram, programSteps_of h]
  rfl

section
variable {f : ZoneRun → ZoneRun} (hf : ∀ r, (f r).state = r.state)
include hf

theorem entering_within (z : Nat) (p : Program) (l : Line) : Within l (entering z p f l) :=
  (changeZone_within z f l hf).trans (enterState_within z p.home _)

theorem atFirstStep_within (z : Nat) (p : Program) (l : Line) : Within l (atFirstStep z p (entering z p f l)) :=
  (entering_within hf z p l).trans (changeZone_within z _ _)

end

theorem entering_only (z : Nat) (p : Program) (f : ZoneRun → ZoneRun) (l : Line) : OnlyZone z l (entering z p f l) :=
  (changeZone_only z f l).trans (enterState_only z p.home _)

theorem entering_onZones (z : Nat) (p : Program) (f : ZoneRun → ZoneRun) (l : Line) : OnZones l (entering z p f l) :=
  (changeZone_onZones z f l).trans (enterState_onZones z p.home _)

theorem beginProgram_onZones (z : Nat) (p : Program) (f : ZoneRun → ZoneRun) (l : Line) :
    OnZones l (beginProgram z p (entering z p f l)) :=
  (entering_onZones z p f l).trans ((changeZone_onZones z _ _).trans (runSteps_onZones z p _ 1 _))

theorem Program.home_isActive (p : Program) : p.home ≠ .running ∧ p.home ≠ .simulate ∧ p.home ≠ .tripped := by
  cases p <;> decide

theorem entering_stopped {l : Line} {z : Nat} {x : Zone} (h : zone? l z = some x) (p : Program) (f : ZoneRun → ZoneRun) :
    isRunning (entering z p f l) z = false := by
  rw [isRunning, zoneState_of (zone?_entering h p f)]
  exact beq_eq_false_iff_ne.mpr fun h => p.home_isActive.1 (Option.some.inj h)

/-- A zone that was not RUNNING keeps its prerequisites RUNNING, or not, as it enters its program's state (R95). -/
theorem entering_prereqs {l : Line} {z : Nat} {x : Zone} (h : zone? l z = some x) (hstate : x.run.state ≠ .running)
    (p : Program) (f : ZoneRun → ZoneRun) : prereqsRun (entering z p f l) z = prereqsRun l z := by
  have runs : isRunning (entering z p f l) = isRunning l := by
    funext w
    by_cases hw : w = z
    · rw [hw, entering_stopped h, not_running h hstate]
    · rw [isRunning, zoneState, (entering_only z p f l).others w hw, isRunning, zoneState]
  rw [prereqsRun, (entering_only z p f l).descs.zoneDesc, runs, prereqsRun]

theorem isRunning_changeZone (z : Nat) {f : ZoneRun → ZoneRun} (hf : ∀ r, (f r).state = r.state) (l : Line) (w : Nat) :
    isRunning (changeZone z f l) w = isRunning l w := by
  rw [isRunning, isRunning, zoneState, zoneState, zone?_changeZone]
  split
  · cases zone? l w <;> simp [hf]
  · rfl

theorem prereqsRun_changeZone (z : Nat) {f : ZoneRun → ZoneRun} (hf : ∀ r, (f r).state = r.state) (l : Line) (w : Nat) :
    prereqsRun (changeZone z f l) w = prereqsRun l w := by
  rw [prereqsRun, (changeZone_descs z f l).zoneDesc, funext (isRunning_changeZone z hf l), prereqsRun]

/-- The program values of the zone's outputs are safe as it enters the state of a program (R44). -/
theorem programValue_entering (z : Nat) (p : Program) (f : ZoneRun → ZoneRun) (l : Line) {j : Nat}
    (hout : (chan l j).desc.kind.isOutput = true) :
    (chan (entering z p f l) j).run.programValue
      = if (chan l j).desc.owner = some z then (chan l j).desc.safe else (chan l j).run.programValue := by
  have hj := lt_of_isOutput hout
  let m := raise .zoneChange (changeZone z (fun r => { r with state := p.home, entryTime := now (changeZone z f l) })
    (changeZone z f l))
  have hhome : p.home = .starting ∨ p.home = .stopping := by cases p <;> simp [Program.home]
  have heq : entering z p f l = refreshZone z (safePrograms z m) := by
    unfold entering enterState
    dsimp only
    rw [if_pos hhome]
  have hmap := chan_map m (fun c => if c.desc.owner = some z ∧ c.desc.kind.isOutput then
    { c with run := { c.run with programValue := c.desc.safe } } else c) j hj
  rw [heq, programValue_congr (refreshZone_still z _).programs, show chan (safePrograms z m) j = _ from hmap,
    show chan m j = chan l j from rfl]
  by_cases howner : (chan l j).desc.owner = some z <;> simp [howner, hout]

/-! ## Where the program comes to stand -/

theorem Lands.congr {l l' l'' : Line} {z : Nat} {x : Zone} {p : Program} {k : Nat} {rest : List Step}
    (h : Lands l l' z x p k rest) (hz : zone? l'' z = zone? l' z) : Lands l l'' z x p k rest := by
  unfold Lands at h ⊢
  simp only [hz]
  exact h

theorem SetsApplied.congr {l l' l'' : Line} {start : Nat → Int} {done : List Step} (h : SetsApplied l l' start done)
    (hp : programValues l'' = programValues l') : SetsApplied l l'' start done := fun j hj => by
  rw [programValue_congr hp]
  exact h j hj

/-- The program runs through the steps that pass and comes to stand at the first that does not (R44, R92 to R96). -/
theorem beginProgram_lands {l : Line} {z : Nat} {x : Zone} (hx : zone? l z = some x) {p : Program} {f : ZoneRun → ZoneRun}
    (hf : ∀ r, (f r).state = r.state) (hstart : p = .start → x.run.state ≠ .running) {done rest : List Step}
    (hsteps : x.steps p = done ++ rest) (hdone : ∀ step ∈ done, Passes l step)
    (hrest : ∀ step ∈ rest.head?, ¬ Passes l step) :
    Lands l (beginProgram z p (entering z p f l)) z (x.entered (now l) p f) p (done.length + 1) rest
      ∧ SetsApplied l (beginProgram z p (entering z p f l))
          (fun j => if (chan l j).desc.owner = some z then (chan l j).desc.safe else (chan l j).run.programValue) done := by
  let e := entering z p f l
  let b := atFirstStep z p e
  let m := done.foldl passStep b
  have hentered : zone? e z = some (x.entered (now l) p f) := zone?_entering hx p f
  have hbegun : zone? b z = some { x.entered (now l) p f with
      run := { (x.entered (now l) p f).run with program := some (p, 1), deadline := none } } := by
    rw [show b = atFirstStep z p e from rfl, atFirstStep, zone?_changeZone, if_pos rfl, hentered, Option.map_some]
  have hb : Within l b := atFirstStep_within hf z p l
  have hm : Within l m := hb.trans (passSteps_within done b)
  have hmzones : m.zones = b.zones := passSteps_zones done b
  have heq : beginProgram z p e = runSteps z p (done.length + 1) rest m := by
    rw [beginProgram_eq hentered, show (x.entered (now l) p f).steps p = x.steps p by cases p <;> rfl, hsteps,
      runSteps_passes z p done rest 1 b fun s hs => (Passes.congr hb s).mpr (hdone s hs), Nat.add_comm]
  have hstands : ∀ step ∈ rest.head?, ¬ Passes m step := fun step hs hp => hrest step hs ((Passes.congr hm step).mp hp)
  have hprereqs : p = .start → prereqsRun m z = prereqsRun l z := fun hp => by
    have hbegin : prereqsRun b z = prereqsRun e z := prereqsRun_changeZone z
      (f := fun r => { r with program := some (p, 1), deadline := none }) (fun _ => rfl) e z
    rw [prereqsRun_congr (zone?_congr hmzones), hbegin]
    exact entering_prereqs hx (hstart hp) p f
  rw [show entering z p f l = e from rfl, heq]
  refine ⟨runSteps_lands z p (done.length + 1) rest ((zone?_congr hmzones z).trans hbegun) ?_ rfl hm.now hprereqs hstands,
    SetsApplied.congr (.of_steps done b _ (fun j => hb.desc j) fun j hj => ?_) (runSteps_programs z p _ rest m hstands)⟩
  · exact p.home_isActive.1
  · exact (programValue_congr (changeZone_programs z _ e) j).trans (programValue_entering z p f l hj)

/-- Every program comes to stand somewhere. -/
theorem exists_stand (l : Line) : ∀ steps : List Step, ∃ done rest, steps = done ++ rest
    ∧ (∀ step ∈ done, Passes l step) ∧ ∀ step ∈ rest.head?, ¬ Passes l step
  | [] => ⟨[], [], rfl, fun _ h => (nomatch h), fun _ h => (nomatch h)⟩
  | step :: steps => by
    by_cases hpass : Passes l step
    · obtain ⟨done, rest, hsteps, hdone, hrest⟩ := exists_stand l steps
      exact ⟨step :: done, rest, by rw [hsteps]; rfl, by simpa [hpass] using hdone, hrest⟩
    · exact ⟨[], step :: steps, rfl, fun _ h => (nomatch h), fun s hs => by cases hs; exact hpass⟩

/-- The state in which a program's zone stands (R92 to R96). -/
theorem Lands.state {l l' : Line} {z : Nat} {x : Zone} {p : Program} {k : Nat} {rest : List Step}
    (h : Lands l l' z x p k rest) (hrest : ∀ step ∈ rest.head?, ¬ Passes l step) :
    zoneState l' z = some x.run.state
      ∨ zoneState l' z = match p with
          | .stop => some .off
          | .start => if x.run.runPending = true ∧ prereqsRun l z = true then some .running else some .ready := by
  obtain ⟨hwaits, huntil, hstop, hready, hrunning⟩ := h
  cases rest with
  | nil =>
    right
    cases p with
    | stop => rw [zoneState_of (hstop rfl rfl)]
    | start =>
      by_cases hgoes : x.run.runPending = true ∧ prereqsRun l z = true
      · rw [zoneState_of (hrunning rfl rfl hgoes)]
        simp [hgoes]
      · rw [zoneState_of (hready rfl rfl hgoes)]
        simp only [hgoes, if_false]
  | cons step more =>
    left
    cases step with
    | set => exact absurd trivial (hrest _ rfl)
    | waitTime ms => rw [zoneState_of (hwaits ms more rfl)]
    | waitUntil c cmp threshold ms => rw [zoneState_of (huntil c cmp threshold ms more rfl)]

/-! ## The zone table when the first step waits -/

/-- A zone at step 1 of its program, waiting. -/
def Zone.waitsFirst (t : Word) (p : Program) (f : ZoneRun → ZoneRun) (ms : Nat) (x : Zone) : Zone :=
  { x with
    run := { f x.run with state := p.home, program := some (p, 1), deadline := some (t + word ms), entryTime := t } }

theorem zones_beginProgram_wait {l : Line} {z : Nat} {x : Zone} (hx : zone? l z = some x) (p : Program)
    {f : ZoneRun → ZoneRun} {ms : Nat} {rest : List Step} (hsteps : x.steps p = .waitTime ms :: rest) :
    (beginProgram z p (entering z p f l)).zones = l.zones.set z (some (x.waitsFirst (now l) p f ms)) := by
  have hentered := zone?_entering hx p f
  have hbegun : zone? (atFirstStep z p (entering z p f l)) z = some { x.entered (now l) p f with
      run := { (x.entered (now l) p f).run with program := some (p, 1), deadline := none } } := by
    rw [atFirstStep, zone?_changeZone, if_pos rfl, hentered, Option.map_some]
  have hnow : now (atFirstStep z p (entering z p f l)) = now l := (entering_only z p f l).now
  rw [beginProgram_eq hentered, show (x.entered (now l) p f).steps p = x.steps p by cases p <;> rfl, hsteps, runSteps,
    waitAt, zones_changeZone hbegun, hnow, atFirstStep, zones_changeZone hentered, entering,
    zones_enterState_changeZone hx, List.set_set, List.set_set]
  rfl

theorem entering_notice (z : Nat) (p : Program) (f : ZoneRun → ZoneRun) (l : Line) :
    noticeSet (beginProgram z p (entering z p f l)) .zoneChange = true :=
  ((changeZone_within z _ _).trans (runSteps_within z p _ 1 _)).notices _ (enterState_notice z p.home _)

end Sys2Proof.Machine
end

section
/-! The statement of ZONE_START and ZONE_RUN (R44, R89 to R95). -/

namespace Sys2Proof.Machine

/-- A zone event in which no zone leaves RUNNING leaves the zones and the program values as its changes do. -/
theorem plainEvent_rising {f : Line → Line} {l : Line} (h : ∀ w, isRunning l w = true → isRunning (f l) w = true) :
    (plainEvent f l).zones = (f l).zones ∧ programValues (plainEvent f l) = programValues (f l)
      ∧ Within (f l) (plainEvent f l) := by
  have after := plainEvent_after f l
  rw [cascade_none (leftRunning_nil h)] at after
  exact ⟨after.zones, after.programs, after.within⟩

/-- The taking of a request changes nothing that a program's outcome turns on. -/
theorem Lands.taken {l l' l'' : Line} {z : Nat} {x : Zone} {p : Program} {k : Nat} {rest : List Step}
    (h : Lands (leaveQueue l) l' z x p k rest) (hzones : l''.zones = l'.zones) : Lands l l'' z x p k rest :=
  Lands.congr (l := l) h (zone?_congr hzones z)

theorem SetsApplied.taken {l l' l'' : Line} {start : Nat → Int} {done : List Step}
    (h : SetsApplied (leaveQueue l) l' start done) (hchans : l''.chans = l'.chans) : SetsApplied l l'' start done :=
  SetsApplied.congr (l := l) h (by rw [programValues, hchans, programValues])

/-! ## An OFF zone is brought up -/

/-- What ZONE_START and ZONE_RUN change of an OFF zone before its program begins (R90, R91). -/
def pendingBy (run : Bool) (r : ZoneRun) : ZoneRun := { r with runPending := r.runPending || run }

theorem exec_startRow (run : Bool) (s : State) :
    exec (if run then .zoneRun else .zoneStart) s
      = .next (s.onLine (take (ofKind (if run then .zoneRun else .zoneStart))
          (immediate busyConfig startChecks (zoneAct (if run then zoneRun else zoneStart))))) := by
  cases run <;> rfl

theorem startRow_off {l : Line} {z : Nat} (hoff : zoneState l z = some .off) (run : Bool) :
    (if run then zoneRun else zoneStart) z l = plainEvent (startZone z run) l := by
  cases run with
  | false => exact if_pos hoff
  | true => simp only [if_true, zoneRun, hoff]

theorem startChecks_off {a : Slot} {l : Line} {z : Nat} {zone : Zone} (hz : z = a.arg2.toNat) (h8 : z < 8)
    (hactive : l.active.isSome = true) (hzone : zone? l z = some zone) (hoff : zone.run.state = .off)
    (hstop : l.stopHigh = true) (hblocked : startBlocked l z = false) : refusal (startChecks a l) = none := by
  rw [startChecks, refusal_zoneChecks hz h8 hactive hzone, stateAllows_eq hz hzone, startCheck, ← hz, zoneState_of hzone,
    hoff, hstop, hblocked]
  rfl

theorem startZone_mono {l : Line} {z : Nat} {x : Zone} (hx : zone? l z = some x) (hoff : x.run.state = .off) (run : Bool)
    (w : Nat) (hw : isRunning l w = true) : isRunning (startZone z run l) w = true := by
  have hentered := zone?_entering hx .start (pendingBy run)
  have hstopped : isRunning (atFirstStep z .start (entering z .start (pendingBy run) l)) z = false :=
    (isRunning_changeZone z (f := fun r => { r with program := some (.start, 1), deadline := none }) (fun _ => rfl) _ z).trans
      (entering_stopped hx .start (pendingBy run))
  rw [startZone_eq, show (fun r => { r with runPending := r.runPending || run }) = pendingBy run from rfl,
    beginProgram_eq hentered]
  refine runSteps_mono z .start _ 1 _ hstopped w ?_
  exact (isRunning_changeZone z (f := fun r => { r with program := some (.start, 1), deadline := none }) (fun _ => rfl) _
    w).trans ((entering_only z .start (pendingBy run) l).mono (not_running hx (by rw [hoff]; decide)) w hw)

/-- The event that brings an OFF zone up (R44, R91 to R95). -/
theorem startEvent_spec {l : Line} {z : Nat} {zone : Zone} (hzone : zone? l z = some zone) (hoff : zone.run.state = .off)
    (run : Bool) :
    let t := plainEvent (startZone z run) l
    Within l t ∧ noticeSet t .zoneChange = true
      ∧ (zoneState t z = some .starting ∨ zoneState t z = some .ready ∨ zoneState t z = some .running)
      ∧ (∀ ms rest, zone.desc.startProgram = .waitTime ms :: rest →
          t.zones = l.zones.set z (some (zone.waitsFirst (now l) .start (pendingBy run) ms)) ∧ Quiet l t)
      ∧ ∀ done rest, zone.desc.startProgram = done ++ rest → (∀ step ∈ done, Passes l step) →
          (∀ step ∈ rest.head?, ¬ Passes l step) →
          Lands l t z (zone.entered (now l) .start (pendingBy run)) .start (done.length + 1) rest
          ∧ SetsApplied l t (fun j => if (chan l j).desc.owner = some z then (chan l j).desc.safe
              else (chan l j).run.programValue) done := by
  intro t
  have hf : ∀ r, (pendingBy run r).state = r.state := fun _ => rfl
  obtain ⟨hzones, hprograms, hwithin⟩ := plainEvent_rising (startZone_mono hzone hoff run)
  have hstands : ∀ done rest, zone.desc.startProgram = done ++ rest → (∀ step ∈ done, Passes l step) →
      (∀ step ∈ rest.head?, ¬ Passes l step) →
      Lands l t z (zone.entered (now l) .start (pendingBy run)) .start (done.length + 1) rest
      ∧ SetsApplied l t (fun j => if (chan l j).desc.owner = some z then (chan l j).desc.safe
          else (chan l j).run.programValue) done := fun done rest hsteps hdone hrest => by
    obtain ⟨hlands, hsets⟩ := beginProgram_lands hzone (p := .start) hf (fun _ => by rw [hoff]; decide) hsteps hdone hrest
    exact ⟨hlands.congr (zone?_congr hzones z), hsets.congr hprograms⟩
  refine ⟨(startZone_within z run l).trans hwithin, hwithin.notices _ (entering_notice z .start (pendingBy run) l), ?state,
    fun ms rest hsteps => ?waits, hstands⟩
  case state =>
    obtain ⟨done, rest, hsteps, hdone, hrest⟩ := exists_stand l zone.desc.startProgram
    rcases (hstands done rest hsteps hdone hrest).1.state hrest with h | h
    · exact .inl h
    · dsimp only at h
      split at h
      · exact .inr (.inr h)
      · exact .inr (.inl h)
  case waits =>
    have htable := zones_beginProgram_wait hzone .start (f := pendingBy run) hsteps
    have hstarting : zoneState (startZone z run l) z = some .starting := by
      have hlt := zone?_some_lt hzone
      rw [zoneState, zone?, show (startZone z run l).zones = _ from htable, getD_set, if_pos ⟨rfl, hlt⟩]
      rfl
    have hbefore : zoneState l z = some .off := by rw [zoneState_of hzone, hoff]
    have hsilent : ∀ w, SilentChange l (startZone z run l) w := fun w => by
      by_cases hw : w = z
      · rw [hw]
        refine .inr ⟨?_, ?_, ?_, ?_⟩
        · rw [hbefore]; decide
        · rw [hbefore]; decide
        · rw [hstarting]; decide
        · rw [hstarting]; decide
      · refine .inl ?_
        rw [zoneState, zone?, show (startZone z run l).zones = _ from htable, getD_set, if_neg fun h => hw h.1.symm]
        rfl
    exact ⟨hzones.trans htable, (beginProgram_onZones z .start (pendingBy run) l).quiet.trans (plainEvent_silent hsilent).2⟩

/-! ## A READY zone is brought up -/

/-- Run pending is set, and the zone goes on to RUNNING behind its prerequisites (R91, R95). -/
def runReady (z : Nat) (l : Line) : Line :=
  let l := changeZone z (fun r => { r with runPending := true }) l
  if prereqsRun l z then enterRunning Config.zoneCount z l else l

theorem zoneRun_ready {l : Line} {z : Nat} (hready : zoneState l z = some .ready) :
    zoneRun z l = plainEvent (runReady z) l := by
  rw [zoneRun, hready]
  rfl

theorem startChecks_ready {a : Slot} {l : Line} {z : Nat} {zone : Zone} (hz : z = a.arg2.toNat) (h8 : z < 8)
    (hactive : l.active.isSome = true) (hzone : zone? l z = some zone) (hready : zone.run.state = .ready)
    (hstop : l.stopHigh = true) : refusal (startChecks a l) = none := by
  rw [startChecks, refusal_zoneChecks hz h8 hactive hzone, stateAllows_eq hz hzone, startCheck, ← hz, zoneState_of hzone,
    hready, hstop]
  rfl

theorem runReady_mono (z : Nat) (l : Line) (w : Nat) (hw : isRunning l w = true) : isRunning (runReady z l) w = true := by
  have hpending := (isRunning_changeZone z (f := fun r => { r with runPending := true }) (fun _ => rfl) l w).trans hw
  unfold runReady
  dsimp only
  split
  · exact enterRunning_mono 7 z _ w hpending
  · exact hpending

theorem runReady_within (z : Nat) (l : Line) : Within l (runReady z l) := by
  have hpending := changeZone_within z (fun r => { r with runPending := true }) l
  unfold runReady
  dsimp only
  split
  · exact hpending.trans (enterRunning_within _ z _)
  · exact hpending

/-- A zone enters RUNNING, whatever follows it (R95). -/
theorem zone?_enterRunning {l : Line} {z : Nat} {x : Zone} (hx : zone? l z = some x) (n : Nat) :
    zone? (enterRunning (n + 1) z l) z = some (x.woken (now l)) := by
  have wk := enterRunning_woken (n + 1) z l
  rw [if_neg (Nat.succ_ne_zero n)] at wk
  have hone := zone?_enterOne z z l
  rw [if_pos rfl, hx, Option.map_some] at hone
  rw [wk.keeps z ((isRunning_iff _ _).mpr ⟨_, hone, rfl⟩), hone]

/-- Settles O45: the zone that starts from OFF, and the READY one that runs. -/
theorem zoneStartAndRunBringAZoneUp : Obligations.ZoneStartAndRunBringAZoneUp := by
  refine ⟨fun s i z zone run ⟨hhead, hi, hkind⟩ hbusy hz hlen h8 hactive hzone hoff hstop hblocked => ?off,
    fun s i z zone ⟨hhead, hi, hkind⟩ hbusy hz hlen h8 hactive hzone hready hstop => ?ready⟩
  case off =>
    have hzone' : zone? (leaveQueue s.line) z = some zone := hzone
    have hstate : zoneState (leaveQueue s.line) z = some .off := by rw [zoneState_of hzone', hoff]
    have htake := take_zoneRequest (f := if run then zoneRun else zoneStart) hhead hkind hbusy hz
      (startChecks_off (l := leaveQueue s.line) hz h8 hactive hzone hoff hstop hblocked)
    rw [startRow_off hstate] at htake
    obtain ⟨hwithin, hnotice, hstates, hwaits, hstands⟩ := startEvent_spec hzone' hoff run
    rw [exec_startRow]
    refine ⟨_, rfl, ⟨rfl, rfl, rfl⟩, ?_, ?_, ?_, fun ms rest hsteps => ?_, fun done rest hsteps hdone hrest => ?_⟩ <;>
      rw [onLine_line, htake]
    · exact zoneRequest_completed z hi hwithin.request
    · exact hstates
    · exact complete_notices _ _ _ _ hnotice
    · obtain ⟨hzones, hlog, htrack⟩ := hwaits ms rest hsteps
      exact ⟨hzones, hlog, htrack, hwithin.link⟩
    · obtain ⟨hlands, hsets⟩ := hstands done rest hsteps hdone hrest
      exact ⟨hlands.taken rfl, hsets.taken rfl⟩
  case ready =>
    have hzone' : zone? (leaveQueue s.line) z = some zone := hzone
    have hstate : zoneState (leaveQueue s.line) z = some .ready := by rw [zoneState_of hzone', hready]
    have htake := take_zoneRequest (f := zoneRun) hhead hkind hbusy hz
      (startChecks_ready (l := leaveQueue s.line) hz h8 hactive hzone hready hstop)
    rw [zoneRun_ready hstate] at htake
    obtain ⟨hzones, -, hwithin⟩ := plainEvent_rising (runReady_mono z (leaveQueue s.line))
    have hpending : zone? (changeZone z (fun r => { r with runPending := true }) (leaveQueue s.line)) z
        = some { zone with run := { zone.run with runPending := true } } := by
      rw [zone?_changeZone, if_pos rfl, hzone', Option.map_some]
    have hprereqs : prereqsRun (changeZone z (fun r => { r with runPending := true }) (leaveQueue s.line)) z
        = prereqsRun s.line z :=
      prereqsRun_changeZone z (f := fun r => { r with runPending := true }) (fun _ => rfl) (leaveQueue s.line) z
    rw [exec_zoneRun]
    refine ⟨_, rfl, ⟨rfl, rfl, rfl⟩, ?_, fun hruns => ?_, fun hwaits => ?_⟩ <;>
      rw [onLine_line, show takeZoneRun s.line = _ from htake]
    · exact zoneRequest_completed z hi ((runReady_within z _).trans hwithin).request
    · have hline : runReady z (leaveQueue s.line)
          = enterRunning 8 z (changeZone z (fun r => { r with runPending := true }) (leaveQueue s.line)) := by
        unfold runReady
        dsimp only
        rw [if_pos (hprereqs.trans hruns)]
        rfl
      have hwoken := zone?_enterRunning hpending 7
      rw [← hline, ← zone?_congr hzones] at hwoken
      have hz' := hwoken
      refine ⟨zoneState_of hz', fun w hw => ?_⟩
      obtain rfl := Option.some.inj (hz'.symm.trans hw)
      exact ⟨rfl, rfl⟩
    · have hline : runReady z (leaveQueue s.line)
          = changeZone z (fun r => { r with runPending := true }) (leaveQueue s.line) := by
        unfold runReady
        dsimp only
        rw [hprereqs, hwaits, if_neg Bool.false_ne_true]
      rw [hline] at hzones
      exact hzones.trans (zones_changeZone hzone' _)

end Sys2Proof.Machine
end

section
/-! The statement of ZONE_STOP (R44, R92, R93, R96 to R98, R122, R162, R172). -/

namespace Sys2Proof.Machine

/-! ## What the requests leave out of an event's reports -/

/-- The taking of a request touches nothing that the records of an event's trips turn on (R21, R97). -/
theorem TripsRecorded.taken {lead : List (RecordKind × List Word)} {l t t' : Line} (h : TripsRecorded lead (leaveQueue l) t')
    (tzones : t.zones = t'.zones) (tlog : t.log = t'.log)
    (tnotice : noticeSet t' .logDrop = true → noticeSet t .logDrop = true) : TripsRecorded lead l t :=
  h.congr rfl rfl rfl rfl rfl rfl tzones tlog tnotice

/-- What the closing of the OPEN lot turns on is the track alone. -/
theorem OpenLotClosed.congr {b l t t' : Line} (h : OpenLotClosed b t') (hb : b.track = l.track)
    (ht : t.track = t'.track) : OpenLotClosed l t := fun x hx hpending hunique => by
  rw [openLot, ← hb] at hx
  rw [← hb] at hunique ⊢
  obtain ⟨hwaits, hfinal⟩ := h x hx hpending hunique
  exact ⟨fun hc => by rw [ht]; exact hwaits hc, fun hc y hy => hfinal hc y (by rwa [lot?, ht] at hy)⟩

theorem TransitAbandoned.congr {b l t t' : Line} (h : TransitAbandoned b t') (btransfer : b.transfer = l.transfer)
    (bpack : b.pack = l.pack) (ttransfer : t.transfer = t'.transfer) (tpack : t.pack = t'.pack)
    (tchans : t.chans = t'.chans) : TransitAbandoned l t := fun tr p htransit hp hstate => by
  rw [← btransfer] at htransit ⊢
  rw [pallet?, ← bpack] at hp
  obtain ⟨hfreed, hpallet, hstarts⟩ := h tr p htransit hp hstate
  refine ⟨ttransfer.trans hfreed, by rw [pallet?, tpack]; exact hpallet, fun j hk hf => ?_⟩
  rw [chan_congr tchans] at hk hf ⊢
  exact hstarts j hk hf

theorem Cascaded.congr {own : Nat → Prop} {b l t t' : Line} (h : Cascaded own b t') (bzones : b.zones = l.zones)
    (bnow : now b = now l) (tzones : t.zones = t'.zones) : Cascaded own l t := by
  intro z hz hown
  obtain ⟨habsent, hpresent⟩ := h z hz hown
  have hruns : ∀ {m m' : Line}, m.zones = m'.zones → isRunning m = isRunning m' := fun {m m'} hm => funext fun w => by
    rw [isRunning, zoneState, zone?_congr hm, isRunning, zoneState]
  rw [zone?_congr bzones] at habsent hpresent
  rw [hruns bzones, bnow] at hpresent
  rw [zone?_congr tzones, hruns tzones]
  exact ⟨habsent, hpresent⟩

/-! ## The event of a ZONE_STOP -/

/-- What ZONE_STOP changes of a zone before its stop program begins (R96). -/
def stoppedRun (r : ZoneRun) : ZoneRun := { r with runPending := false, program := none, deadline := none }

theorem stopChecks_of {a : Slot} {l : Line} {z : Nat} {zone : Zone} (hz : z = a.arg2.toNat) (h8 : z < 8)
    (hactive : l.active.isSome = true) (hzone : zone? l z = some zone) (htripped : zone.run.state ≠ .tripped) :
    refusal (stopChecks a l) = none := by
  rw [stopChecks, refusal_zoneChecks hz h8 hactive hzone, stateAllows_eq hz hzone]
  cases hstate : zone.run.state with
  | tripped => exact absurd hstate htripped
  | _ => rfl

theorem zoneStop_active {l : Line} {z : Nat} {zone : Zone} (hzone : zone? l z = some zone)
    (hstate : zone.run.state = .starting ∨ zone.run.state = .ready ∨ zone.run.state = .running) :
    zoneStop z l = plainEvent (stopZone z) l := by
  have h := zoneState_of hzone
  rcases hstate with hs | hs | hs <;> rw [hs] at h <;> simp only [zoneStop, h]

/-- A zone event that changes one zone alone, which it leaves not RUNNING: that zone is as the event left it, and the
others go through the cascade (R98). -/
theorem plainEvent_oneZone {f : Line → Line} {l : Line} {z : Nat} (only : OnlyZone z l (f l))
    (hstopped : isRunning (f l) z = false) :
    zone? (plainEvent f l) z = zone? (f l) z ∧ Cascaded (· = z) l (plainEvent f l)
      ∧ ∀ w, isRunning (cascade l (f l)) w = true → isRunning l w = true := by
  have hzones := (plainEvent_after f l).zones
  have hcut := cascade_cut l (f l)
  refine ⟨(zone?_congr hzones z).trans (cascade_idle l (f l) z hstopped),
    cascaded (fun w _ hw => only.others w hw) only.now only.descs fun w => zone?_congr hzones w, fun w hw => ?_⟩
  have hran := (hcut.ran w hw).1
  have hne : w ≠ z := fun h => by rw [h, hstopped] at hran; cases hran
  rwa [isRunning, zoneState, only.others w hne] at hran

/-- Of the zones behind one that leaves RUNNING each trips, that zone its detail (R98). -/
theorem plainEvent_trips_behind {f : Line → Line} {l : Line} {z w : Nat} {x : Zone} (only : OnlyZone z l (f l))
    (hstopped : isRunning (f l) z = false) (hw8 : w < 8) (hne : w ≠ z) (hw : zone? l w = some x)
    (hrunning : x.run.state = .running) (hnames : z ∈ x.desc.prereqs) (hran : isRunning l z = true) (h8 : z < 8) :
    zone? (plainEvent f l) w = some (x.trippedBy (now l) (.prereqLost z)) := by
  have hleft : ∀ u, u ∈ leftRunning l (f l) → u = z := fun u hu => by
    refine Classical.byContradiction fun hu' => ?_
    have h := (List.mem_filter.mp hu).2
    rw [show isRunning (f l) u = isRunning l u by rw [isRunning, zoneState, only.others u hu', isRunning, zoneState]] at h
    simp at h
  have hin : z ∈ leftRunning l (f l) := List.mem_filter.mpr ⟨List.mem_range.mpr h8, by simp [hran, hstopped]⟩
  have hwf : zone? (f l) w = some x := (only.others w hne).trans hw
  obtain ⟨u, -, hu, htrip⟩ := cascade_trips l (f l) w x hw8 ((isRunning_iff l w).mpr ⟨x, hw, hrunning⟩) (zoneDesc_of hw)
    hwf hrunning ⟨z, hnames, hin⟩
  rw [hleft u hu, only.now] at htrip
  exact (zone?_congr (plainEvent_after f l).zones w).trans htrip

theorem stopZone_stopped {l : Line} {z : Nat} {x : Zone} (hx : zone? l z = some x) : isRunning (stopZone z l) z = false := by
  obtain ⟨-, y, hy, hstate, -⟩ := stopZone_only z l x hx
  refine not_running hy fun h => ?_
  rcases hstate with hs | hs <;> rw [hs] at h <;> cases h

theorem zoneOfKind_of_descs {l m : Line} (h : SameDescs l m) (k : ZoneKind) : zoneOfKind m k = zoneOfKind l k := by
  unfold zoneOfKind
  congr 1
  funext z
  have hany : ∀ n : Line, (zone? n z).any (·.desc.kind == k) = ((zone? n z).map (·.desc)).any (·.kind == k) := fun n => by
    cases zone? n z <;> rfl
  rw [hany, hany, h z]

/-- The lot that a zone's leaving of RUNNING closes (R122). -/
theorem lotClosedBy_running {l m : Line} {f : Section} {x : Lot} (htrack : m.track = l.track)
    (hf : l.track.sections[0]? = some f) (hopen : openLot l = some x) (htrial : x.trial = false)
    (hran : isRunning l f.desc.zone = true) (hstopped : isRunning m f.desc.zone = false) :
    lotClosedBy l m = some x := by
  have hopen' : openLot m = some x := by rw [openLot, htrack]; exact hopen
  have hfirst : firstZone m = some f.desc.zone := by rw [firstZone, usedSection?, htrack, hf, Option.map_some]
  have hleaves : leaves l m f.desc.zone .running = true := by
    rw [leaves, show (zoneState l f.desc.zone == some .running) = true from hran, bne,
      show (zoneState m f.desc.zone == some .running) = false from hstopped]
    rfl
  simp [lotClosedBy, hopen', hfirst, htrial, hleaves]

theorem leaves_running {l m : Line} {z : Nat} (hran : isRunning l z = true) (hstopped : isRunning m z = false) :
    leaves l m z .running = true := by
  rw [leaves, show (zoneState l z == some .running) = true from hran, bne,
    show (zoneState m z == some .running) = false from hstopped]
  rfl

/-- Settles O46: the program, the lot and the pallet behind the zone, the cascade and the records. -/
theorem zoneStopRunsTheStopProgram : Obligations.ZoneStopRunsTheStopProgram := by
  rintro s i z zone ⟨hhead, hi, hkind⟩ hbusy hz hlen h8 hactive hzone hstate
  let l := leaveQueue s.line
  have hzone' : zone? l z = some zone := hzone
  have htripped : zone.run.state ≠ .tripped := fun h => by
    rcases hstate with hs | hs | hs <;> rw [h] at hs <;> cases hs
  have htake := take_zoneRequest (f := zoneStop) hhead hkind hbusy hz
    (stopChecks_of (l := l) hz h8 hactive hzone htripped)
  rw [zoneStop_active hzone' hstate] at htake
  have hf : ∀ r, (stoppedRun r).state = r.state := fun _ => rfl
  have only := (stopZone_only z l zone hzone').1
  have hstopped := stopZone_stopped hzone'
  have onZones : OnZones l (stopZone z l) := beginProgram_onZones z .stop stoppedRun l
  have within : Within l (stopZone z l) := stopZone_within z l
  have event := plainEvent_within (stopZone_within z) l
  have after := plainEvent_after (stopZone z) l
  obtain ⟨hself, hcascaded, hran⟩ := plainEvent_oneZone only hstopped
  have hstoppedAfter : isRunning (cascade l (stopZone z l)) z = false := (cascade_cut l _).stopped z hstopped
  have hrecords : TripsRecorded [] l (plainEvent (stopZone z) l) :=
    zoneEvent_records (fun _ l => l) (fun _ => []) (stopZone z) l (fun _ _ _ => rfl) (fun _ m => .refl m) onZones.quiet
      within hran
  have hprograms : programValues (plainEvent (stopZone z) l) = programValues (stopZone z l) := plainEvent_programs _ l
  have hwas : zone.run.state = .running → isRunning l z = true := fun h => (isRunning_iff l z).mpr ⟨zone, hzone', h⟩
  rw [exec_zoneStop]
  refine ⟨_, rfl, ⟨rfl, rfl, rfl⟩, ?completed, ?notice, fun hempty => ?ends, fun ms rest hsteps => ?waits,
    fun done rest hsteps hdone hrest => ?lands, fun f x hrunning hf hown hopen htrial => ?lot,
    fun hrunning hkind => ?transit, fun hrunning w x hw8 hne hw hwr hnames => ?behind, ?cascade, ?records⟩ <;>
    rw [onLine_line, show takeZoneStop s.line = _ from htake]
  case completed => exact zoneRequest_completed z hi event.request
  case notice =>
    exact complete_notices _ _ _ _ (after.within.notices _ ((cascade_within l _).notices _
      (entering_notice z .stop stoppedRun l)))
  case lands =>
    obtain ⟨hlands, hsets⟩ := beginProgram_lands hzone' (p := .stop) hf (fun h => by cases h) hsteps hdone hrest
    exact ⟨Lands.taken (hlands.congr hself) rfl, SetsApplied.taken (hsets.congr hprograms) rfl⟩
  case ends =>
    have hlands := (beginProgram_lands hzone' (p := .stop) hf (fun h => by cases h) (done := []) (rest := []) hempty
      (fun _ h => nomatch h) fun _ h => nomatch h).1
    exact hself.trans (hlands.2.2.1 rfl rfl)
  case waits =>
    have hlands := (beginProgram_lands hzone' (p := .stop) hf (fun h => by cases h) (done := []) (rest := .waitTime ms :: rest)
      hsteps (fun _ h => nomatch h) fun step h => by cases h; exact id).1
    exact hself.trans (hlands.1 ms rest rfl)
  case lot =>
    have hcloses := lotClosedBy_running (onZones.trans (cascade_onZones l _)).track hf hopen htrial
      (by rw [hown]; exact hwas hrunning) (by rw [hown]; exact hstoppedAfter)
    exact (zoneEvent_closes (lead := fun _ l => l) (fun _ m => .refl m) (fun _ _ => rfl)
      (congrArg Track.lots onZones.track) hopen hcloses).congr rfl rfl
  case transit =>
    have hkind' : zoneOfKind (cascade l (stopZone z l)) .transfer = some z :=
      (zoneOfKind_of_descs (only.descs.trans (cascade_cut l _).descs) .transfer).trans hkind
    exact (zoneEvent_abandons (lead := fun _ l => l) (fun _ m => .refl m) (fun _ m => .refl m) onZones hkind'
      (leaves_running (hwas hrunning) hstoppedAfter)).congr rfl rfl rfl rfl rfl
  case behind => exact plainEvent_trips_behind only hstopped hw8 hne hw hwr hnames (hwas hrunning) h8
  case cascade => exact hcascaded.congr rfl rfl rfl
  case records => exact hrecords.taken rfl rfl (complete_notices _ _ _ _)

end Sys2Proof.Machine
end

section
/-! SUPPORT. The events of the STOP_N input and of the watchdog (R30, R72, R73, R97, R98): which zones trip, what they
raise, and what the SAFE asked for leaves of the link. -/

namespace Sys2Proof.Machine

/-! ## The zones an event's own causes trip -/

/-- One zone's turn among an event's own causes (R97, R100). -/
def ownTurn (causes : Nat → List TripCause) (l : Line) (w : Nat) : Line :=
  if isActive l w ∧ causes w ≠ [] then
    tripZone w ((causes w).getD (pickOne (List.range (causes w).length) l).1 .none)
      (pickOne (List.range (causes w).length) l).2
  else l

theorem tripOwn_eq (causes : Nat → List TripCause) (l : Line) : tripOwn causes l = zoneNumbers.foldl (ownTurn causes) l := rfl

theorem ownTurn_within (causes : Nat → List TripCause) (l : Line) (w : Nat) : Within l (ownTurn causes l w) :=
  ite_within ((pickOne_still _ l).within.trans (tripZone_within _ _ _)) (.refl l)

theorem ownTurn_others {causes : Nat → List TripCause} {l : Line} {w z : Nat} (hz : z ≠ w) :
    zone? (ownTurn causes l w) z = zone? l z := by
  unfold ownTurn
  split
  · rw [zone?_tripZone, if_neg (Ne.symm hz), zone?_congr (pickOne_zones _ l)]
  · rfl

theorem ownTurn_notices (causes : Nat → List TripCause) (l : Line) (w : Nat) :
    ownTurn causes l w = l
      ∨ noticeSet (ownTurn causes l w) .zoneTrip = true ∧ noticeSet (ownTurn causes l w) .zoneChange = true := by
  unfold ownTurn
  split
  · exact .inr ⟨raise_noticeSet_self .zoneTrip _, raise_noticeSet .zoneTrip .zoneChange _ (enterState_notice w .tripped _)⟩
  · exact .inl rfl

/-- A zone that is not active, or that has no cause of its own, is as it was (R97). -/
theorem tripOwn_keeps {causes : Nat → List TripCause} {l : Line} {z : Nat} (h : isActive l z = false ∨ causes z = []) :
    zone? (tripOwn causes l) z = zone? l z := by
  rw [tripOwn_eq]
  generalize zoneNumbers = zs
  induction zs generalizing l with
  | nil => rfl
  | cons w zs ih =>
    have hturn : zone? (ownTurn causes l w) z = zone? l z := by
      by_cases hw : z = w
      · have hnot : ¬(isActive l w = true ∧ causes w ≠ []) := by
          rintro ⟨hactive, hcause⟩
          rw [← hw] at hactive hcause
          rcases h with hidle | hnone
          · rw [hidle] at hactive
            cases hactive
          · exact hcause hnone
        rw [ownTurn, if_neg hnot]
      · exact ownTurn_others hw
    rw [List.foldl_cons]
    exact (ih (h.imp_left fun ha => by rw [isActive, zoneState, hturn]; exact ha)).trans hturn

/-- An event that trips a zone raises ZONE_TRIP and ZONE_CHANGE (R97, R105). -/
theorem tripOwn_notices (causes : Nat → List TripCause) (l : Line) (z : Nat) :
    zone? (tripOwn causes l) z = zone? l z
      ∨ noticeSet (tripOwn causes l) .zoneTrip = true ∧ noticeSet (tripOwn causes l) .zoneChange = true := by
  rw [tripOwn_eq]
  generalize zoneNumbers = zs
  induction zs generalizing l with
  | nil => exact .inl rfl
  | cons w zs ih =>
    rw [List.foldl_cons]
    rcases ownTurn_notices causes l w with same | ⟨htrip, hchange⟩
    · rw [same]
      exact ih l
    · have rest := Within.foldl (ownTurn_within causes) zs (ownTurn causes l w)
      exact .inr ⟨rest.notices _ htrip, rest.notices _ hchange⟩

section
variable {lead : List Nat → Line → Line} (hl : ∀ zs l, Still l (lead zs l)) (causes : Line → Nat → List TripCause)
include hl

theorem tripEvent_within (l : Line) : Within l (zoneEvent lead (fun l => tripOwn (causes l) l) l) :=
  zoneEvent_within hl (fun _ => tripOwn_within _ _) l

/-- A zone that has left its state in such an event has raised ZONE_TRIP and ZONE_CHANGE. -/
theorem tripEvent_notices {l : Line} {z : Nat} {x : Zone} (hz : z < Config.zoneCount) (hx : zone? l z = some x)
    (hactive : x.run.state.isActive = true) (hcause : causes l z ≠ []) :
    noticeSet (zoneEvent lead (fun l => tripOwn (causes l) l) l) .zoneTrip = true
      ∧ noticeSet (zoneEvent lead (fun l => tripOwn (causes l) l) l) .zoneChange = true := by
  have rest := (cascade_within l (tripOwn (causes l) l)).trans (zoneEvent_after hl (fun l => tripOwn (causes l) l) l).within
  obtain ⟨k, -, htrip⟩ := tripOwn_acts (causes l) l z hz hcause x hx hactive
  rcases tripOwn_notices (causes l) l z with same | ⟨hset, hset'⟩
  · rw [htrip, hx] at same
    have := congrArg (fun o : Option Zone => o.map (·.run.state)) same
    simp only [Option.map_some, Zone.trippedBy, Option.some.injEq] at this
    rw [← this] at hactive
    cases hactive
  · exact ⟨rest.notices _ hset, rest.notices _ hset'⟩

/-- The zones behind those that such an event trips of itself (R98). -/
theorem tripEvent_cascaded {l : Line} {own : Nat → Prop} (hown : ∀ z, ¬ own z → isActive l z = false ∨ causes l z = []) :
    Cascaded own l (zoneEvent lead (fun l => tripOwn (causes l) l) l) :=
  cascaded (m := tripOwn (causes l) l) (fun z _ hz => tripOwn_keeps (hown z hz)) (tripOwn_cut (causes l) l).now
    (tripOwn_cut (causes l) l).descs fun z => zone?_congr (zoneEvent_after hl _ l).zones z

/-- The OPEN lot, a real one, closes when the zone of section 0 leaves RUNNING in such an event (R122). -/
theorem tripEvent_closes (hlt : ∀ zs l, (lead zs l).track = l.track) {l : Line} {f : Section} {x : Lot}
    (hf : l.track.sections[0]? = some f) (hran : isRunning l f.desc.zone = true)
    (hstopped : isRunning (zoneEvent lead (fun l => tripOwn (causes l) l) l) f.desc.zone = false)
    (hopen : openLot l = some x) (htrial : x.trial = false) :
    OpenLotClosed l (zoneEvent lead (fun l => tripOwn (causes l) l) l) := by
  have onZones := tripOwn_onZones (causes l) l
  rw [isRunning, zoneState, zone?_congr (zoneEvent_after hl _ l).zones] at hstopped
  exact zoneEvent_closes hl hlt (congrArg Track.lots onZones.track) hopen
    (lotClosedBy_running (onZones.trans (cascade_onZones l _)).track hf hopen htrial hran hstopped)

/-- The pallet in transit is left UNCONFIRMED when the TRANSFER zone leaves RUNNING in such an event (R162). -/
theorem tripEvent_abandons (hlt : ∀ zs l, TransitKept l (lead zs l)) {l : Line} {z : Nat}
    (hz : zoneOfKind l .transfer = some z) (hran : isRunning l z = true)
    (hstopped : isRunning (zoneEvent lead (fun l => tripOwn (causes l) l) l) z = false) :
    TransitAbandoned l (zoneEvent lead (fun l => tripOwn (causes l) l) l) := by
  rw [isRunning, zoneState, zone?_congr (zoneEvent_after hl _ l).zones] at hstopped
  exact zoneEvent_abandons hl hlt (tripOwn_onZones (causes l) l)
    ((zoneOfKind_of_descs ((tripOwn_cut (causes l) l).trans (cascade_cut l _)).descs .transfer).trans hz)
    (leaves_running hran hstopped)

end

/-! ## The SAFE asked for (R72) -/

/-- A SAFE asked for is sent at once on a quiet link in SCANNING or HALTING, waits on a busy one, and is dropped in the
other link states. -/
theorem askSafe_link (l : Line) :
    (linkScans l = false → (askSafe l).link = l.link)
      ∧ (linkScans l = true → l.link.busy = .quiet → (askSafe l).link =
          { l.link with
            busy := .safe none, safeWaits := false, sent := frameBytes .safe 0 0 [], driving := true, replyDue := none })
      ∧ (linkScans l = true → l.link.busy ≠ .quiet → (askSafe l).link = { l.link with safeWaits := true }) :=
  ⟨fun hs => by rw [askSafe_dropped l hs], fun hs hq => by rw [askSafe_quiet l hs hq]; rfl,
    fun hs hq => by rw [askSafe_busy l hs hq]; rfl⟩

theorem zone?_lt {l : Line} (hzones : l.zones.length = Config.zoneCount) {z : Nat} {x : Zone} (h : zone? l z = some x) :
    z < Config.zoneCount := by
  rw [← hzones]
  exact zone?_some_lt h

/-- Where an event's base line differs from the line before it in the link, the STOP_N level and the status alone. -/
structure EventBase (l b : Line) : Prop where
  zones : b.zones = l.zones
  now : Machine.now b = Machine.now l
  log : b.log = l.log
  track : b.track = l.track
  pack : b.pack = l.pack
  transfer : b.transfer = l.transfer
  active : b.active = l.active
  request : b.request = l.request
  matchTable : b.matchTable = l.matchTable

theorem EventBase.askSafe {l m : Line} (h : EventBase l m) : EventBase l (askSafe m) := by
  have e := (askSafe_sends m).others
  have fields : ∀ {α : Type} (get : Line → α), (∀ x : Line, get { x with link := m.link } = get x) →
      get (Machine.askSafe m) = get m := fun get hget => (hget _).symm.trans (congrArg get e)
  exact ⟨(fields Line.zones fun _ => rfl).trans h.zones, (fields Machine.now fun _ => rfl).trans h.now,
    (fields Line.log fun _ => rfl).trans h.log, (fields Line.track fun _ => rfl).trans h.track,
    (fields Line.pack fun _ => rfl).trans h.pack, (fields Line.transfer fun _ => rfl).trans h.transfer,
    (fields Line.active fun _ => rfl).trans h.active, (fields Line.request fun _ => rfl).trans h.request,
    (fields Line.matchTable fun _ => rfl).trans h.matchTable⟩

theorem EventBase.isActive {l b : Line} (h : EventBase l b) (z : Nat) : isActive b z = Machine.isActive l z :=
  isActive_congr h.zones z

theorem EventBase.isRunning {l b : Line} (h : EventBase l b) (z : Nat) : isRunning b z = Machine.isRunning l z := by
  rw [Machine.isRunning, zoneState, zone?_congr h.zones, Machine.isRunning, zoneState]

theorem EventBase.trips {lead : List (RecordKind × List Word)} {l b t : Line} (h : EventBase l b)
    (ht : TripsRecorded lead b t) : TripsRecorded lead l t :=
  ht.congr h.zones h.log h.now (by rw [reserveFloor, h.active, reserveFloor]) (by rw [h.track]) (by rw [h.track]) rfl rfl id

end Sys2Proof.Machine
end

section
/-! The statement of the STOP_N edges (R72, R73, R97, R101, R122, R162, R172). -/

namespace Sys2Proof.Machine

theorem exec_stopNFallingEdge (s : State) : exec .stopNFallingEdge s = .next (s.onLine stopFalls) := rfl

/-- The line in which a falling edge trips its zones (R73). -/
def stopBase (l : Line) : Line := askSafe (raise .stopInput { l with stopHigh := false })

theorem stopFalls_eq (l : Line) :
    stopFalls l = zoneEvent (fun _ l => l) (fun l => tripOwn stopCauses l) (stopBase l) := rfl

theorem stopBase_base (l : Line) : EventBase l (stopBase l) :=
  EventBase.askSafe (m := raise .stopInput { l with stopHigh := false }) ⟨rfl, rfl, rfl, rfl, rfl, rfl, rfl, rfl, rfl⟩

/-- Settles O11: the rising edge, and the zones, the lot, the pallet and the link behind the falling one. -/
theorem stopEdgesMoveTheLevelAndTripOnTheFall : Obligations.StopEdgesMoveTheLevelAndTripOnTheFall := by
  refine ⟨fun _ => rfl, fun s hzones => ?_⟩
  have lead : ∀ (zs : List Nat) (l : Line), Still l ((fun (_ : List Nat) (l : Line) => l) zs l) := fun _ l => .refl l
  have base := stopBase_base s.line
  have sends := askSafe_sends (raise .stopInput { s.line with stopHigh := false })
  have within := tripEvent_within lead (fun _ => stopCauses) (stopBase s.line)
  have htrips : ∀ z zone, zone? s.line z = some zone → zone.run.state.isActive = true →
      zone? (stopFalls s.line) z = some (zone.trippedBy (now s.line) .stopInput) := fun z zone hz hactive => by
    obtain ⟨k, hk, htrip⟩ := tripEvent_trips lead (fun _ => stopCauses) (zone?_lt hzones hz)
      ((zone?_congr base.zones z).trans hz) hactive (List.cons_ne_nil _ _)
    obtain rfl := List.mem_singleton.mp hk
    rw [stopFalls_eq, htrip, base.now]
  have hstops : ∀ z, isRunning s.line z = true → isRunning (stopFalls s.line) z = false := fun z hz => by
    obtain ⟨zone, hzone, hstate⟩ := (isRunning_iff s.line z).mp hz
    exact not_running (htrips z zone hzone (by rw [hstate]; rfl)) fun h => by cases h
  obtain ⟨hdropped, hsent, hwaits⟩ := askSafe_link (raise .stopInput { s.line with stopHigh := false })
  rw [exec_stopNFallingEdge]
  refine ⟨_, rfl, ⟨rfl, rfl, rfl⟩, ?level, ?notice, fun z zone hz hactive => ?trips, fun z hz => ?others, ?records,
    fun hs => within.link.trans (hdropped hs), fun hs hq => within.link.trans (hsent hs hq),
    fun hs hq => within.link.trans (hwaits hs hq), fun f x hf hran hopen htrial => ?lot, fun z hz hran => ?transit,
    within.request.trans base.request, within.active.trans base.active, within.matchTable.trans base.matchTable⟩ <;>
    rw [onLine_line]
  case level =>
    have e := congrArg Line.stopHigh sends.others
    exact within.stopHigh.trans e
  case notice =>
    refine within.notices .stopInput ?_
    rw [show noticeSet (stopBase s.line) .stopInput = _ from sends.noticeSet .stopInput]
    exact raise_noticeSet_self .stopInput _
  case trips =>
    exact ⟨htrips z zone hz hactive, tripEvent_notices lead (fun _ => stopCauses) (zone?_lt hzones hz)
      ((zone?_congr base.zones z).trans hz) hactive (List.cons_ne_nil _ _)⟩
  case others =>
    exact (tripEvent_inactive lead (fun _ => stopCauses) ((base.isActive z).trans hz)).trans (zone?_congr base.zones z)
  case records =>
    exact base.trips (tripEvent_records (fun _ l => l) (fun _ => []) (fun _ => stopCauses) (stopBase s.line)
      (fun _ _ _ => rfl) lead)
  case lot =>
    exact (tripEvent_closes lead (fun _ => stopCauses) (fun _ _ => rfl) (l := stopBase s.line) (by rw [base.track]; exact hf)
      ((base.isRunning _).trans hran) (hstops _ hran) (by rw [openLot, base.track]; exact hopen) htrial).congr base.track rfl
  case transit =>
    have hz' : zoneOfKind (stopBase s.line) .transfer = some z := by
      rw [← hz, zoneOfKind, zoneOfKind]
      simp only [zone?_congr base.zones]
    exact (tripEvent_abandons lead (fun _ => stopCauses) (fun _ l => .refl l) hz' ((base.isRunning z).trans hran)
      (hstops z hran)).congr base.transfer base.pack rfl rfl rfl

end Sys2Proof.Machine
end

section
/-! The statement of the watchdog's expiry (R30, R72, R97, R98, R101, R122, R162, R172). -/

namespace Sys2Proof.Machine

theorem exec_watchdogExpiry (s : State) : exec .watchdogExpiry s = .next (s.onLine watchdogExpires) := rfl

/-! ## The mask of the zones tripped -/

theorem fieldSum_singles (zs : List Nat) : fieldSum (zs.map fun z => (z, 1, 1)) = (zs.map fun z => 2 ^ z).sum := by
  induction zs with
  | nil => rfl
  | cons z zs ih => simp [fieldSum, ih]

/-- Distinct powers of two add up without a carry. -/
theorem getLsbD_sumPowers {zs : List Nat} (hzs : zs.Nodup) (z : Nat) :
    (BitVec.ofNat 32 (zs.map fun z => 2 ^ z).sum).getLsbD z = true ↔ z < 32 ∧ z ∈ zs := by
  induction zs generalizing z with
  | nil => simp
  | cons w zs ih =>
    obtain ⟨hfresh, hrest⟩ := List.nodup_cons.mp hzs
    have hpower : BitVec.ofNat 32 (2 ^ w) = BitVec.twoPow 32 w := by
      refine BitVec.eq_of_toNat_eq ?_
      rw [BitVec.toNat_ofNat, BitVec.toNat_twoPow]
    have hapart : BitVec.twoPow 32 w &&& BitVec.ofNat 32 (zs.map fun z => 2 ^ z).sum = 0#32 := by
      refine BitVec.eq_of_getLsbD_eq fun k hk => ?_
      rw [BitVec.getLsbD_and, BitVec.getLsbD_twoPow, BitVec.getLsbD_zero]
      by_cases hkw : w = k
      · have hclear : ¬ (BitVec.ofNat 32 (zs.map fun z => 2 ^ z).sum).getLsbD k = true := fun h =>
          hfresh (hkw ▸ ((ih hrest k).mp h).2)
        rw [Bool.not_eq_true] at hclear
        rw [hclear, Bool.and_false]
      · rw [decide_eq_false hkw, Bool.and_false, Bool.false_and]
    rw [List.map_cons, List.sum_cons, BitVec.ofNat_add, hpower, BitVec.add_eq_or_of_and_eq_zero _ _ hapart,
      BitVec.getLsbD_or, Bool.or_eq_true, ih hrest, BitVec.getLsbD_twoPow, Bool.and_eq_true, decide_eq_true_eq,
      decide_eq_true_eq, List.mem_cons]
    constructor
    · rintro (⟨hw, rfl⟩ | ⟨hz, hmem⟩)
      · exact ⟨hw, .inl rfl⟩
      · exact ⟨hz, .inr hmem⟩
    · rintro ⟨hz, rfl | hmem⟩
      · exact .inl ⟨hz, rfl⟩
      · exact .inr ⟨hz, hmem⟩

/-- Bit z of the mask is set for the zones listed, each once (Table 12-5). -/
theorem getLsbD_zoneMask {zs : List Nat} (hzs : zs.Nodup) (z : Nat) :
    (zoneMask zs).getLsbD z = true ↔ z < 32 ∧ z ∈ zs := by
  rw [zoneMask, fields_eq_ofNat, fieldSum_singles, getLsbD_sumPowers hzs]

theorem mem_trippedBetween {before after : Line} {z : Nat} :
    z ∈ trippedBetween before after ↔ z < 8 ∧ enters before after z .tripped = true := by
  simp only [trippedBetween, List.mem_append, List.mem_filter, zoneNumbers, List.mem_range, Config.zoneCount]
  cases (zone? after z).any fun x => match x.run.cause with | .prereqLost _ => true | _ => false <;> simp

theorem trippedBetween_nodup (before after : Line) : (trippedBetween before after).Nodup := by
  have hrange : zoneNumbers.Nodup := List.nodup_range
  unfold trippedBetween
  refine List.nodup_append.mpr ⟨(hrange.filter _).filter _, (hrange.filter _).filter _, fun a ha b hb hab => ?_⟩
  subst hab
  have h1 := (List.mem_filter.mp ha).2
  have h2 := (List.mem_filter.mp hb).2
  rw [Bool.not_eq_true'] at h1
  exact absurd (h2.symm.trans h1) (by decide)

/-! ## The event -/

/-- The line in which the watchdog's expiry trips its zones (R30). -/
def watchdogBase (l : Line) : Line := askSafe (raise .watchdog { l with status := { l.status with watchdog := .expired } })

theorem watchdogBase_base (l : Line) : EventBase l (watchdogBase l) :=
  EventBase.askSafe (m := raise .watchdog { l with status := { l.status with watchdog := .expired } })
    ⟨rfl, rfl, rfl, rfl, rfl, rfl, rfl, rfl, rfl⟩

/-- The WATCHDOG record, before the trips' own (R30). -/
def offerWatchdog (tripped : List Nat) (l : Line) : Line := offer .watchdog [zoneMask tripped] l

theorem watchdogExpires_due {l : Line} (h : watchdogDue l = true) :
    watchdogExpires l = zoneEvent offerWatchdog (fun l => tripOwn (watchdogCauses l) l) (watchdogBase l) := if_pos h

/-- Settles O56: the zones, the mask, the records, the link, the lot and the pallet. -/
theorem watchdogExpiryTripsTheGuardedZones : Obligations.WatchdogExpiryTripsTheGuardedZones := by
  intro s g hrunning hg hzones hlimit own
  have lead : ∀ (zs : List Nat) (l : Line), Still l (offerWatchdog zs l) := fun _ l => offer_still _ _ l
  have base := watchdogBase_base s.line
  have sends := askSafe_sends (raise .watchdog { s.line with status := { s.line.status with watchdog := .expired } })
  have within := tripEvent_within lead watchdogCauses (watchdogBase s.line)
  have hdue : watchdogDue s.line = true := by
    have hlimit' : heartbeatLimit s.line ≤ elapsed (now s.line) s.line.status.restart := by
      simpa [heartbeatLimit, hg, elapsed] using hlimit
    simp [watchdogDue, hrunning, hlimit']
  have heq := watchdogExpires_due hdue
  have hcauses : ∀ z zone, zone? s.line z = some zone →
      watchdogCauses (watchdogBase s.line) z = if zone.desc.guarded then [.watchdog] else [] := fun z zone hz => by
    rw [watchdogCauses, zoneDesc_of ((zone?_congr base.zones z).trans hz)]
  have hevent := zoneEvent_after lead (fun l => tripOwn (watchdogCauses l) l) (watchdogBase s.line)
  obtain ⟨hdropped, hsent, hwaits⟩ := askSafe_link (raise .watchdog
    { s.line with status := { s.line.status with watchdog := .expired } })
  rw [exec_watchdogExpiry]
  refine ⟨_, zoneMask (trippedBetween (watchdogBase s.line)
      (cascade (watchdogBase s.line) (tripOwn (watchdogCauses (watchdogBase s.line)) (watchdogBase s.line)))),
    rfl, ⟨rfl, rfl, rfl⟩, ?expired, ?notice, fun z zone hz hguarded hactive => ?trips, ?cascade, fun z => ?mask, ?records,
    fun hs => ?dropped, fun hs hq => ?sent, fun hs hq => ?waits, fun f x hf hran hstopped hopen htrial => ?lot,
    fun z hz hran hstopped => ?transit, ?request, ?active, ?table, ?status⟩ <;>
    rw [onLine_line, heq]
  case expired =>
    have e := congrArg (fun l : Line => l.status.watchdog) sends.others
    have hs := congrArg Status.watchdog within.statusBlock
    exact hs.trans e
  case notice =>
    refine within.notices .watchdog ?_
    rw [show noticeSet (watchdogBase s.line) .watchdog = _ from sends.noticeSet .watchdog]
    exact raise_noticeSet_self .watchdog _
  case trips =>
    have hcause : watchdogCauses (watchdogBase s.line) z = [.watchdog] := by rw [hcauses z zone hz, if_pos hguarded]
    have hne : watchdogCauses (watchdogBase s.line) z ≠ [] := by rw [hcause]; exact List.cons_ne_nil _ _
    have hz' := (zone?_congr base.zones z).trans hz
    obtain ⟨k, hk, htrip⟩ := tripEvent_trips lead watchdogCauses (zone?_lt hzones hz) hz' hactive hne
    rw [hcause] at hk
    obtain rfl := List.mem_singleton.mp hk
    rw [base.now] at htrip
    exact ⟨htrip, tripEvent_notices lead watchdogCauses (zone?_lt hzones hz) hz' hactive hne⟩
  case cascade =>
    refine (tripEvent_cascaded lead watchdogCauses (l := watchdogBase s.line) (own := own) fun z hz => ?_).congr base.zones
      base.now rfl
    cases hzone : zone? s.line z with
    | none => exact .inl (by rw [base.isActive, isActive, zoneState, hzone]; rfl)
    | some zone =>
      rw [base.isActive, isActive, zoneState, hzone, hcauses z zone hzone]
      cases hguarded : zone.desc.guarded with
      | false => exact .inr rfl
      | true =>
        refine .inl ?_
        cases hactive : zone.run.state.isActive with
        | false => exact hactive
        | true => exact absurd ⟨zone, hzone, hguarded, hactive⟩ hz
  case mask =>
    have hstate : zoneState (cascade (watchdogBase s.line)
          (tripOwn (watchdogCauses (watchdogBase s.line)) (watchdogBase s.line))) z
        = zoneState (zoneEvent offerWatchdog (fun l => tripOwn (watchdogCauses l) l) (watchdogBase s.line)) z := by
      rw [zoneState, zoneState, zone?_congr hevent.zones]
    have hbefore : zoneState (watchdogBase s.line) z = zoneState s.line z := by
      rw [zoneState, zoneState, zone?_congr base.zones]
    rw [getLsbD_zoneMask (trippedBetween_nodup _ _), mem_trippedBetween, enters, hstate, hbefore, tripsIn]
    exact ⟨fun ⟨_, h⟩ => h, fun h => ⟨by omega, h⟩⟩
  case records =>
    exact base.trips (tripEvent_records offerWatchdog (fun zs => [(.watchdog, [zoneMask zs])]) watchdogCauses
      (watchdogBase s.line) (fun _ _ _ => rfl) lead)
  case dropped => exact within.link.trans (hdropped hs)
  case sent => exact within.link.trans (hsent hs hq)
  case waits => exact within.link.trans (hwaits hs hq)
  case lot =>
    rw [onLine_line, heq] at hstopped
    exact (tripEvent_closes lead watchdogCauses (fun _ l => offer_track _ _ l) (l := watchdogBase s.line)
      (by rw [base.track]; exact hf) ((base.isRunning _).trans hran) hstopped (by rw [openLot, base.track]; exact hopen)
      htrial).congr base.track rfl
  case transit =>
    rw [onLine_line, heq] at hstopped
    have hz' : zoneOfKind (watchdogBase s.line) .transfer = some z := by
      rw [← hz, zoneOfKind, zoneOfKind]
      simp only [zone?_congr base.zones]
    exact (tripEvent_abandons lead watchdogCauses (fun _ l => offer_transit _ _ l) hz' ((base.isRunning z).trans hran)
      hstopped).congr base.transfer base.pack rfl rfl rfl
  case request => exact within.request.trans base.request
  case active => exact within.active.trans base.active
  case table => exact within.matchTable.trans base.matchTable
  case status =>
    have e := congrArg Line.status sends.others
    have hs := congrArg (fun st : Status => { st with watchdog := .running }) within.statusBlock
    refine hs.trans ?_
    rw [show (watchdogBase s.line).status = _ from e]
    simp only [raise, ← hrunning]

end Sys2Proof.Machine
end

section
/-! SUPPORT. The end of a simulation (R50, R104): what it leaves of the zone, its outputs, the inputs they simulated and
the OPEN trial lot. -/

namespace Sys2Proof.Machine

/-- The inputs that the zone simulated have the quality and timer of the field (R50). -/
def simulationEnded (z : Nat) (l : Line) : Line :=
  let ended := { l with chans := l.chans.map fun c => if simulatedBy l z c then endSimulation l c else c }
  if l.chans.any fun c => simulatedBy l z c && (fieldQuality l c).1 == .stale then raise .channelStale ended else ended

theorem leftSimulate_eq (z : Nat) (l : Line) :
    leftSimulate z l
      = trackLosses (simulationLosses l z) (enterState z .off (safeOutputs z (simulationEnded z l))) := rfl

theorem simulationEnded_blocks (z : Nat) (l : Line) :
    (simulationEnded z l).track = l.track ∧ (simulationEnded z l).request = l.request
      ∧ (simulationEnded z l).chans = l.chans.map fun c => if simulatedBy l z c then endSimulation l c else c := by
  unfold simulationEnded
  dsimp only
  split <;> exact ⟨rfl, rfl, rfl⟩

theorem chan_simulationEnded (z : Nat) (l : Line) (j : Nat) :
    chan (simulationEnded z l) j = if simulatedBy l z (chan l j) then endSimulation l (chan l j) else chan l j := by
  have hchans := (simulationEnded_blocks z l).2.2
  by_cases hj : j < l.chans.length
  · rw [chan_congr (l := { l with chans := l.chans.map fun c => if simulatedBy l z c then endSimulation l c else c }) hchans]
    exact chan_map l _ j hj
  · rw [chan_unused _ j (by rw [hchans, List.length_map]; omega), chan_unused l j (by omega)]
    rfl

theorem chan_safeOutputs (z : Nat) (l : Line) (j : Nat) :
    chan (safeOutputs z l) j = if (chan l j).desc.owner = some z ∧ (chan l j).desc.kind.isOutput then
      { chan l j with
        run := { (chan l j).run with hostValue := (chan l j).desc.safe, programValue := (chan l j).desc.safe } }
      else chan l j := by
  by_cases hj : j < l.chans.length
  · exact chan_map l _ j hj
  · rw [chan_unused _ j (by rw [safeOutputs, List.length_map]; omega), chan_unused l j (by omega)]
    rfl

theorem leftSimulate_within (z : Nat) (l : Line) :
    Within (safeOutputs z (simulationEnded z l)) (leftSimulate z l) := by
  rw [leftSimulate_eq]
  generalize safeOutputs z (simulationEnded z l) = m
  exact (enterState_within z .off m).trans (trackLosses_still (simulationLosses l z) (enterState z .off m)).within

theorem leftSimulate_programs (z : Nat) (l : Line) :
    programValues (leftSimulate z l) = programValues (safeOutputs z (simulationEnded z l)) := by
  rw [leftSimulate_eq, (trackLosses_still _ _).programs, enterState_programs z .off _ (by decide) (by decide)]

/-- An event whose changes are made: what its reports leave of the line they make. -/
theorem plainEvent_made (m l : Line) : Within m (plainEvent (fun _ => m) l)
    ∧ ∀ z, zone? (plainEvent (fun _ => m) l) z = zone? (cascade l m) z :=
  ⟨(cascade_within l m).trans (plainEvent_after (fun _ => m) l).within,
    fun z => zone?_congr (plainEvent_after (fun _ => m) l).zones z⟩

/-- The line whose zones have tripped for the losses (R99, R104). -/
def simulateTripped (z : Nat) (l : Line) : Line :=
  tripOwn (lossCauses (leftSimulate z l) (simulationLosses l z)) (leftSimulate z l)

theorem leaveSimulate_made (z : Nat) (l : Line) : leaveSimulate z l = plainEvent (fun _ => simulateTripped z l) l :=
  leaveSimulate_eq z l

theorem leaveSimulate_within (z : Nat) (l : Line) : Within (leftSimulate z l) (leaveSimulate z l) := by
  rw [leaveSimulate_made]
  exact (tripOwn_within _ _).trans (plainEvent_made (simulateTripped z l) l).1

theorem leaveSimulate_programs (z : Nat) (l : Line) : programValues (leaveSimulate z l) = programValues (leftSimulate z l) := by
  rw [leaveSimulate_made, plainEvent_programs, simulateTripped, tripOwn_programs]

/-- The zone is in OFF; neither the losses nor the cascade reach it (R97, R104). -/
theorem zone?_leaveSimulate {l : Line} {z : Nat} {x : Zone} (hx : zone? l z = some x) :
    zone? (leaveSimulate z l) z = some { x with run := { x.run with state := .off, entryTime := now l } } := by
  have hoff := (leftSimulate_only z l).2 x hx
  have hkept : zone? (simulateTripped z l) z = zone? (leftSimulate z l) z :=
    tripOwn_keeps (.inl (by rw [isActive, zoneState_of hoff]; rfl))
  have hstopped : isRunning (simulateTripped z l) z = false := by
    rw [isRunning, zoneState, hkept, hoff]
    rfl
  rw [leaveSimulate_made, (plainEvent_made (simulateTripped z l) l).2, cascade_idle l (simulateTripped z l) z hstopped, hkept,
    hoff]

/-- The zone's outputs stand at their safe values (R50). -/
theorem leaveSimulate_outputs {l : Line} {z j : Nat} (hown : (chan (leaveSimulate z l) j).desc.owner = some z)
    (hout : (chan (leaveSimulate z l) j).desc.kind.isOutput = true) :
    (chan (leaveSimulate z l) j).run.hostValue = (chan (leaveSimulate z l) j).desc.safe
      ∧ (chan (leaveSimulate z l) j).run.programValue = (chan (leaveSimulate z l) j).desc.safe := by
  let m := simulationEnded z l
  have within := (leftSimulate_within z l).trans (leaveSimulate_within z l)
  have hdesc : (chan (leaveSimulate z l) j).desc = (chan m j).desc := by
    rw [within.desc, chan_safeOutputs]
    split <;> rfl
  rw [hdesc] at hown hout ⊢
  have hsafe : chan (safeOutputs z m) j = { chan m j with
      run := { (chan m j).run with hostValue := (chan m j).desc.safe, programValue := (chan m j).desc.safe } } := by
    rw [chan_safeOutputs, if_pos ⟨hown, hout⟩]
  obtain ⟨-, -, -, -, -, -, -, -, hhost, -⟩ := within.run j
  rw [hhost, programValue_congr ((leaveSimulate_programs z l).trans (leftSimulate_programs z l)), hsafe]
  exact ⟨rfl, rfl⟩

/-- An input that the zone simulated has its field's quality and timer (R50). -/
theorem leaveSimulate_input {l : Line} {z j : Nat} (h : simulatedBy l z (chan l j) = true) :
    (chan (leaveSimulate z l) j).run.simFlag = false ∧ (chan (leaveSimulate z l) j).run.simSource = none
      ∧ (chan (leaveSimulate z l) j).run.quality = (fieldQuality l (chan l j)).1
      ∧ (chan (leaveSimulate z l) j).run.timer = (fieldQuality l (chan l j)).2 := by
  have within := (leftSimulate_within z l).trans (leaveSimulate_within z l)
  obtain ⟨hquality, -, -, -, htimer, -, hflag, hsource, -⟩ := within.run j
  have hended : chan (simulationEnded z l) j = endSimulation l (chan l j) := by rw [chan_simulationEnded, if_pos h]
  rw [hquality, htimer, hflag, hsource, chan_safeOutputs, hended]
  split <;> exact ⟨rfl, rfl, rfl, rfl⟩

/-- An input left STALE raises CHANNEL_STALE (R50). -/
theorem leaveSimulate_stale {l : Line} {z j : Nat} (h : simulatedBy l z (chan l j) = true)
    (hstale : (fieldQuality l (chan l j)).1 = .stale) : noticeSet (leaveSimulate z l) .channelStale = true := by
  refine ((leftSimulate_within z l).trans (leaveSimulate_within z l)).notices .channelStale ?_
  have hj : j < l.chans.length := by
    refine Classical.byContradiction fun hge => ?_
    rw [chan_unused l j (by omega)] at h
    cases h
  have hany : (l.chans.any fun c => simulatedBy l z c && (fieldQuality l c).1 == .stale) = true := by
    refine List.any_eq_true.mpr ⟨chan l j, ?_, by rw [h, hstale]; rfl⟩
    rw [chan, getD_of_lt _ _ hj]
    exact List.getElem_mem hj
  show noticeSet (simulationEnded z l) .channelStale = true
  rw [simulationEnded, if_pos hany]
  exact raise_noticeSet_self .channelStale _

theorem leaveSimulate_notice (z : Nat) (l : Line) : noticeSet (leaveSimulate z l) .zoneChange = true := by
  refine (leaveSimulate_within z l).notices _ ?_
  rw [leftSimulate_eq]
  exact (trackLosses_still _ _).within.notices _ (enterState_notice z .off _)

/-- The losses at the track touch neither the lots nor the sections' descriptors (R117, R132). -/
theorem simulateTripped_track (z : Nat) (l : Line) :
    (simulateTripped z l).track.lots = l.track.lots
      ∧ (simulateTripped z l).track.sections.map (·.desc) = l.track.sections.map (·.desc) := by
  have hentered : (enterState z .off (safeOutputs z (simulationEnded z l))).track = l.track :=
    (enterState_onZones z .off _).track.trans (simulationEnded_blocks z l).1
  rw [simulateTripped, (tripOwn_onZones _ _).track, leftSimulate_eq]
  generalize enterState z .off (safeOutputs z (simulationEnded z l)) = m at hentered ⊢
  obtain ⟨tr, hm, hlots, hdescs⟩ := trackLosses_cellsOnly (simulationLosses l z) m
  rw [hm]
  rw [hentered] at hlots hdescs
  exact ⟨hlots, hdescs⟩

/-- The trial lot that the leaving of SIMULATE closes (R122). -/
theorem lotClosedBy_simulate {l m : Line} {f : Section} {x : Lot} (hlots : m.track.lots = l.track.lots)
    (hdescs : m.track.sections.map (·.desc) = l.track.sections.map (·.desc)) (hf : l.track.sections[0]? = some f)
    (hopen : openLot l = some x) (htrial : x.trial = true) (hwas : zoneState l f.desc.zone = some .simulate)
    (hleft : zoneState m f.desc.zone ≠ some .simulate) : lotClosedBy l m = some x := by
  have hopen' : openLot m = some x := by rw [openLot, hlots]; exact hopen
  have hfirst : firstZone m = some f.desc.zone := by
    have hsection : (m.track.sections[0]?).map (·.desc) = some f.desc := by
      rw [← List.getElem?_map, hdescs, List.getElem?_map, hf, Option.map_some]
    have hzone := congrArg (Option.map SectionDesc.zone) hsection
    rw [Option.map_map] at hzone
    exact hzone
  have hleaves : leaves l m f.desc.zone .simulate = true := by
    rw [leaves, hwas, beq_self_eq_true, Bool.true_and, bne_iff_ne]
    exact hleft
  simp [lotClosedBy, hopen', hfirst, htrial, hleaves]

/-- The OPEN trial lot closes when section 0's zone leaves SIMULATE (R122). -/
theorem leaveSimulate_closes {l : Line} {z : Nat} {zone : Zone} {f : Section} {x : Lot} (hzone : zone? l z = some zone)
    (hstate : zone.run.state = .simulate) (hf : l.track.sections[0]? = some f) (hown : f.desc.zone = z)
    (hopen : openLot l = some x) (htrial : x.trial = true) : OpenLotClosed l (leaveSimulate z l) := by
  have hzone' : zone? (cascade l (simulateTripped z l)) z
      = some { zone with run := { zone.run with state := .off, entryTime := now l } } := by
    rw [← (plainEvent_made (simulateTripped z l) l).2, ← leaveSimulate_made]
    exact zone?_leaveSimulate hzone
  obtain ⟨hlots, hdescs⟩ := simulateTripped_track z l
  rw [leaveSimulate_made]
  generalize simulateTripped z l = m at hzone' hlots hdescs ⊢
  have hlots' : (cascade l m).track.lots = l.track.lots := by rw [(cascade_quiet l m).2]; exact hlots
  have hdescs' : (cascade l m).track.sections.map (·.desc) = l.track.sections.map (·.desc) := by
    rw [(cascade_quiet l m).2]
    exact hdescs
  exact zoneEvent_closes (lead := fun _ l => l) (f := fun _ => m) (fun _ m => .refl m) (fun _ _ => rfl) hlots hopen
    (lotClosedBy_simulate hlots' hdescs' hf hopen htrial (by rw [hown, zoneState_of hzone, hstate])
      (by rw [hown, zoneState_of hzone']; exact fun h => by cases h))

end Sys2Proof.Machine
end

section
/-! The statement of ZONE_SIMULATE and of ZONE_STOP in SIMULATE (R50, R104, R122). -/

namespace Sys2Proof.Machine

theorem enterChecks_off {a : Slot} {l : Line} {z : Nat} {zone : Zone} (hz : z = a.arg2.toNat) (h8 : z < 8)
    (hactive : l.active.isSome = true) (hzone : zone? l z = some zone) (hword : a.arg3 = 1) (hoff : zone.run.state = .off)
    (hfree : dependentActive l z = false) : refusal (enterChecks a l) = none := by
  rw [enterChecks, refusal_zoneChecks hz h8 hactive hzone, stateAllows_eq hz hzone, ← hz, zoneState_of hzone, hoff, hfree,
    simulateWord, hword]
  rfl

theorem leaveChecks_simulate {a : Slot} {l : Line} {z : Nat} {zone : Zone} (hz : z = a.arg2.toNat) (h8 : z < 8)
    (hactive : l.active.isSome = true) (hzone : zone? l z = some zone) (hword : a.arg3 = 0)
    (hstate : zone.run.state = .simulate) : refusal (leaveChecks a l) = none := by
  rw [leaveChecks, refusal_zoneChecks hz h8 hactive hzone, stateAllows_eq hz hzone, simulateWord, hword, hstate]
  rfl

/-- A zone that enters SIMULATE from OFF does so silently (R104). -/
theorem enterSimulate_silent {l : Line} {z : Nat} {zone : Zone} (hzone : zone? l z = some zone)
    (hoff : zone.run.state = .off) (w : Nat) : SilentChange l (enterState z .simulate l) w := by
  have hafter : zoneState (enterState z .simulate l) z = some .simulate := by
    rw [zoneState, zone?_enterState, if_pos rfl, hzone]
    rfl
  have hbefore := zoneState_of hzone
  rw [hoff] at hbefore
  refine .of_onlyZone (enterState_only z .simulate l) ?_ ?_ ?_ ?_ w
  · rw [hbefore]; decide
  · rw [hbefore]; decide
  · rw [hafter]; decide
  · rw [hafter]; decide

/-- The taking that leaves SIMULATE, by either request (R104). -/
theorem exec_leavesSimulate {s : State} {i z : Nat} {zone : Zone} {c : Instr} (hbusy : busyConfig s.line = false)
    (hz : z = (slotAt s.line i).arg2.toNat) (h8 : z < 8) (hactive : s.line.active.isSome = true)
    (hzone : zone? s.line z = some zone) (hstate : zone.run.state = .simulate)
    (hc : HeadIs s.line i .zoneSimulate ∧ (slotAt s.line i).arg3 = 0 ∧ c = .zoneSimulateLeave
      ∨ HeadIs s.line i .zoneStop ∧ c = .zoneStop) :
    i < s.line.request.slots.length
      ∧ exec c s = .next (s.onLine fun l =>
          complete i (zoneReply z (leaveSimulate z (leaveQueue l))) (leaveSimulate z (leaveQueue l))) := by
  have hstate' : zoneState (leaveQueue s.line) z = some .simulate := by
    rw [zoneState_of (l := leaveQueue s.line) hzone, hstate]
  rcases hc with ⟨⟨hhead, hi, hkind⟩, hword, rfl⟩ | ⟨⟨hhead, hi, hkind⟩, rfl⟩
  · have htake := take_zoneRequest (p := simulateLeaves) (f := simulateLeave) hhead
      (by rw [simulateLeaves, hkind, hword]; rfl) hbusy hz
      (leaveChecks_simulate (l := leaveQueue s.line) hz h8 hactive hzone hword hstate)
    rw [simulateLeave, if_pos hstate'] at htake
    exact ⟨hi, (exec_zoneSimulateLeave s).trans (congrArg Host.Outcome.next (onLine_congr htake))⟩
  · have htake := take_zoneRequest (f := zoneStop) hhead hkind hbusy hz
      (stopChecks_of (l := leaveQueue s.line) hz h8 hactive hzone (by rw [hstate]; decide))
    have hstop : zoneStop z (leaveQueue s.line) = leaveSimulate z (leaveQueue s.line) := by simp only [zoneStop, hstate']
    rw [hstop] at htake
    exact ⟨hi, (exec_zoneStop s).trans (congrArg Host.Outcome.next (onLine_congr htake))⟩

theorem fieldQuality_unbound {l : Line} {c : Channel} (h : c.run.bound = none) : fieldQuality l c = (.unbound, .stopped) := by
  simp only [fieldQuality, h]

theorem fieldQuality_faulted {l : Line} {c : Channel} (h : c.run.bound ≠ none)
    (hnode : (nodeAt l c.desc.node).state = .faulted) : fieldQuality l c = (.fault, .stopped) := by
  obtain ⟨b, hb⟩ := Option.ne_none_iff_exists'.mp h
  simp only [fieldQuality, hb, hnode, if_true]

theorem fieldQuality_good {l : Line} {c : Channel} (h : c.run.bound ≠ none)
    (hnode : (nodeAt l c.desc.node).state ≠ .faulted) {t : Word} (ht : c.run.lastSample = some t)
    (hlimit : (now l - t).toNat ≤ c.desc.staleLimit) :
    fieldQuality l c = (.good, .running (t + word c.desc.staleLimit)) := by
  obtain ⟨b, hb⟩ := Option.ne_none_iff_exists'.mp h
  simp only [fieldQuality, hb, if_neg hnode, ht, elapsed, hlimit, if_true, after]

theorem fieldQuality_stale {l : Line} {c : Channel} (h : c.run.bound ≠ none)
    (hnode : (nodeAt l c.desc.node).state ≠ .faulted)
    (hlimit : ∀ t, c.run.lastSample = some t → c.desc.staleLimit < (now l - t).toNat) :
    fieldQuality l c = (.stale, .stopped) := by
  obtain ⟨b, hb⟩ := Option.ne_none_iff_exists'.mp h
  cases hlast : c.run.lastSample with
  | none => simp only [fieldQuality, hb, if_neg hnode, hlast]
  | some t =>
    have hover := hlimit t hlast
    simp only [fieldQuality, hb, if_neg hnode, hlast, elapsed, Nat.not_le_of_lt hover, if_false]

/-- Settles O48: the entry, and the leaving with its outputs, inputs and trial lot. -/
theorem zoneSimulateEntersAndLeaves : Obligations.ZoneSimulateEntersAndLeaves := by
  intro s i z zone hbusy hz hlen h8 hactive hzone
  have hzone' : zone? (leaveQueue s.line) z = some zone := hzone
  refine ⟨fun ⟨hhead, hi, hkind⟩ hword hoff hfree => ?enters, fun c hc hstate => ?leaves⟩
  case enters =>
    have htake := take_zoneRequest (p := simulateEnters) (f := simulateEnter) hhead
      (by rw [simulateEnters, hkind, hword]; rfl) hbusy hz
      (enterChecks_off (l := leaveQueue s.line) hz h8 hactive hzone hword hoff hfree)
    rw [simulateEnter, if_pos (by rw [zoneState_of hzone', hoff])] at htake
    obtain ⟨still, hlog, -⟩ := plainEvent_silent (enterSimulate_silent hzone' hoff)
    have within := (enterState_within z .simulate (leaveQueue s.line)).trans still.within
    rw [exec_zoneSimulateEnter]
    refine ⟨_, rfl, ⟨rfl, rfl, rfl⟩, ?_, ?_, ?_, ?_, ?_⟩ <;> rw [onLine_line, show takeSimulateEnter s.line = _ from htake]
    · exact zoneRequest_completed z hi within.request
    · exact still.zones.trans ((enterState_zones z .simulate _).trans (zones_changeZone hzone' _))
    · exact complete_notices _ _ _ _ (still.within.notices _ (enterState_notice z .simulate _))
    · exact hlog.trans (enterState_onZones z .simulate _).log
    · exact within.link
  case leaves =>
    obtain ⟨hi, hexec⟩ := exec_leavesSimulate hbusy hz h8 hactive hzone hstate hc
    have hrequest : (leaveSimulate z (leaveQueue s.line)).request = (leaveQueue s.line).request :=
      ((leftSimulate_within z _).trans (leaveSimulate_within z _)).request.trans (simulationEnded_blocks z _).2.1
    have hoff := zone?_leaveSimulate hzone'
    have houtputs := fun j => leaveSimulate_outputs (l := leaveQueue s.line) (z := z) (j := j)
    have hinputs := fun j => leaveSimulate_input (l := leaveQueue s.line) (z := z) (j := j)
    have hstale := fun j => leaveSimulate_stale (l := leaveQueue s.line) (z := z) (j := j)
    have hlot := fun f x => leaveSimulate_closes (f := f) (x := x) hzone' hstate
    have hnotice := leaveSimulate_notice z (leaveQueue s.line)
    rw [hexec]
    refine ⟨_, rfl, ⟨rfl, rfl, rfl⟩, ?_⟩
    rw [onLine_line]
    generalize leaveSimulate z (leaveQueue s.line) = m at *
    refine ⟨zoneRequest_completed z hi hrequest, hoff, houtputs, fun j o hflag hsource hown => ?_,
      fun f x hf hown hopen htrial => (hlot f x hf hown hopen htrial).congr rfl rfl, complete_notices _ _ _ _ hnotice⟩
    intro c d
    have hsim : simulatedBy (leaveQueue s.line) z (chan (leaveQueue s.line) j) = true := by
      rw [simulatedBy, show (chan (leaveQueue s.line) j).run.simFlag = true from hflag,
        show (chan (leaveQueue s.line) j).run.simSource = some o from hsource, Option.any_some,
        show (chan (leaveQueue s.line) o).desc.owner = some z from hown, beq_self_eq_true]
      rfl
    obtain ⟨hflag', hsource', hquality, htimer⟩ := hinputs j hsim
    have settles : ∀ {q : Quality} {t : StaleTimer}, fieldQuality (leaveQueue s.line) c = (q, t) →
        d.run.quality = q ∧ d.run.timer = t := fun {q t} h =>
      ⟨hquality.trans (congrArg Prod.fst h), htimer.trans (congrArg Prod.snd h)⟩
    refine ⟨hflag', hsource', fun hbound => settles (fieldQuality_unbound hbound),
      fun hbound hnode => settles (fieldQuality_faulted hbound hnode), fun hbound hnode =>
        ⟨fun t ht hlimit => settles (fieldQuality_good (l := leaveQueue s.line) hbound hnode ht hlimit), fun hlimit => ?_⟩⟩
    have hquality' := fieldQuality_stale (l := leaveQueue s.line) hbound hnode hlimit
    obtain ⟨hq, ht⟩ := settles hquality'
    exact ⟨hq, ht, complete_notices _ _ _ _ (hstale j hsim (congrArg Prod.fst hquality'))⟩

end Sys2Proof.Machine
end

section
/-! The statement of LOT_CLOSE (R121, R136 to R138, R167, R170, R171). -/

namespace Sys2Proof.Machine

theorem exec_lotOpen (s : State) : exec .lotOpen s = .next (s.onLine takeLotOpen) := rfl
theorem exec_lotClose (s : State) : exec .lotClose s = .next (s.onLine takeLotClose) := rfl
theorem exec_lotFlush (s : State) : exec .lotFlush s = .next (s.onLine takeLotFlush) := rfl

/-- An immediate request that passes its checks completes with its act's reply (R21). -/
theorem take_immediate {k : RequestKind} {busy : Line → Bool} {checks : Slot → Line → List (Bool × ResultCode)}
    {act : Slot → Line → Reply × Line} {l : Line} {i : Nat} (hhead : HeadIs l i k) (hbusy : busy (leaveQueue l) = false)
    (hpass : refusal (checks (slotAt l i) (leaveQueue l)) = none) :
    take (ofKind k) (immediate busy checks act) l
      = complete i (act (slotAt l i) (leaveQueue l)).1 (act (slotAt l i) (leaveQueue l)).2 := by
  rw [take_headIs hhead, immediate_done hbusy hpass]

theorem closeOpenLot_some {l : Line} {x : Lot} (h : openLot l = some x) : closeOpenLot l = closeLot x.number l := by
  rw [closeOpenLot, h]

/-! ## The reason mask (Table 12-1) -/

/-- A number of seven flags, the first the least. -/
theorem getLsbD_flags : ∀ (b0 b1 b2 b3 b4 b5 b6 : Bool) (k : Fin 7),
    (BitVec.ofNat 7 (flag b0 + 2 * flag b1 + 4 * flag b2 + 8 * flag b3 + 16 * flag b4 + 32 * flag b5
      + 64 * flag b6)).getLsbD k = [b0, b1, b2, b3, b4, b5, b6].getD k false := by decide

theorem lotReasons_getLsbD (x : Lot) (k : Fin 7) :
    (lotReasons x).getLsbD k = [x.outcomes.short != 0, x.outcomes.overMax != 0, x.outcomes.unmeasured != 0,
      x.outcomes.positionLost != 0, x.outcomes.deviation != 0, x.mixed, x.mixedAway != 0].getD k false :=
  getLsbD_flags _ _ _ _ _ _ _ k

/-- Settles O50: the closing, the refusal, and the reason mask bit by bit. -/
theorem lotCloseClosesTheOpenLot : Obligations.LotCloseClosesTheOpenLot := by
  refine ⟨fun s i hhead => ⟨fun x hopen hunique hpending hstored => ?closes, fun hopen => ?refused⟩, fun x => ?reasons⟩
  case closes =>
    have hopen' : openLot (leaveQueue s.line) = some x := hopen
    have hpass : refusal (lotCloseChecks (slotAt s.line i) (leaveQueue s.line)) = none := by
      rw [lotCloseChecks, hopen']
      rfl
    have htake := take_immediate (act := actLotClose) (busy := neverBusy) hhead rfl hpass
    rw [actLotClose, hopen', closeOpenLot_some hopen'] at htake
    obtain ⟨hclosing, hframe⟩ := closeLot_spec hopen' hunique hpending hstored
    have hrequest := (closeLot_still x.number (leaveQueue s.line)).within.request
    rw [exec_lotClose]
    refine ⟨_, rfl, ⟨rfl, rfl, rfl⟩, ?_, ?_, ?_⟩ <;> rw [onLine_line, show takeLotClose s.line = _ from htake]
    · exact completed_of hhead.2.1 hrequest
    · exact hclosing
    · have e := congrArg (fun m : Line => raise .reqDone { m with request := s.line.request }) hframe
      refine Eq.trans e ?_
      split <;> rfl
  case refused =>
    have hopen' : openLot (leaveQueue s.line) = none := hopen
    have htake : takeLotClose s.line = refuse i .noLot (leaveQueue s.line) := by
      rw [takeLotClose, take_headIs hhead, immediate_refused (k := .noLot)]
      rw [lotCloseChecks, hopen']
      rfl
    obtain ⟨hcompleted, honly⟩ := refuse_completed hhead.2.1 .noLot
    rw [exec_lotClose]
    refine ⟨_, rfl, ⟨rfl, rfl, rfl⟩, ?_, ?_⟩
    · rw [onLine_line, htake]; exact hcompleted
    · rw [onLine_line, htake]; exact honly
  case reasons =>
    refine ⟨?_, ?_, ?_, ?_, ?_, ?_, ?_⟩
    · exact (Bool.eq_iff_iff.mp (lotReasons_getLsbD x 0)).trans (bne_iff_ne (a := x.outcomes.short))
    · exact (Bool.eq_iff_iff.mp (lotReasons_getLsbD x 1)).trans (bne_iff_ne (a := x.outcomes.overMax))
    · exact (Bool.eq_iff_iff.mp (lotReasons_getLsbD x 2)).trans (bne_iff_ne (a := x.outcomes.unmeasured))
    · exact (Bool.eq_iff_iff.mp (lotReasons_getLsbD x 3)).trans (bne_iff_ne (a := x.outcomes.positionLost))
    · exact (Bool.eq_iff_iff.mp (lotReasons_getLsbD x 4)).trans (bne_iff_ne (a := x.outcomes.deviation))
    · exact Bool.eq_iff_iff.mp (lotReasons_getLsbD x 5)
    · exact (Bool.eq_iff_iff.mp (lotReasons_getLsbD x 6)).trans (bne_iff_ne (a := x.mixedAway))

end Sys2Proof.Machine
end

section
/-! The statement of LOT_OPEN (R118 to R121, R136 to R138, R167, R171). -/

namespace Sys2Proof.Machine

/-! ## The closing of the OPEN lot, if there is one -/

/-- Only the lots, the log and the notices differ. -/
def LotsOnly (l l' : Line) : Prop :=
  ∃ g lots n, l' = { l with
    log := g, track := { l.track with lots := lots }, status := { l.status with notices := n } }

theorem LotsOnly.trans {a b c : Line} (x : LotsOnly a b) (y : LotsOnly b c) : LotsOnly a c := by
  obtain ⟨_, _, _, rfl⟩ := x
  obtain ⟨g, lots, n, rfl⟩ := y
  exact ⟨g, lots, n, rfl⟩

theorem closeOpenLot_lots {l : Line} (hopen : ∀ x, openLot l = some x → x.verdict = .pending
      ∧ (∀ y ∈ l.track.lots, y.number = x.number → y = x)
      ∧ (x.unevaluated = 0 → ∀ p ∈ l.pack.pallets, p.state = .stored → ∀ e ∈ p.lots, e.lot ≠ x.number))
    (hreserved : 1 < l.log.reserved) :
    LotsOnly l (closeOpenLot l)
      ∧ (openLot l = none → (closeOpenLot l).track.lots = l.track.lots ∧ (closeOpenLot l).log = l.log)
      ∧ ∀ y, openLot l = some y → LotClosing l y l.log (closeOpenLot l).track.lots (closeOpenLot l).log
          ∧ (y.unevaluated = 0 → noticeSet (closeOpenLot l) .lotVerdict = true) := by
  cases h : openLot l with
  | none =>
    have heq : closeOpenLot l = l := by rw [closeOpenLot, h]
    rw [heq]
    exact ⟨⟨_, _, _, rfl⟩, fun _ => ⟨rfl, rfl⟩, fun _ h => nomatch h⟩
  | some x =>
    obtain ⟨hpending, hunique, hstored⟩ := hopen x h
    obtain ⟨hclosing, hframe⟩ := closeLot_spec h hunique hpending fun hc => ⟨hstored hc, hreserved⟩
    rw [closeOpenLot_some h]
    refine ⟨?_, fun h => (by cases h), fun y hy => ?_⟩
    · have e := congrArg (fun m : Line => { m with
        log := (closeLot x.number l).log
        track := { m.track with lots := (closeLot x.number l).track.lots } }) hframe
      refine ⟨(closeLot x.number l).log, (closeLot x.number l).track.lots,
        (if x.unevaluated = 0 then raise .lotVerdict l else l).status.notices, Eq.trans e ?_⟩
      split <;> rfl
    · cases hy
      refine ⟨hclosing, fun hc => ?_⟩
      rw [if_pos hc] at hframe
      have e := congrArg (fun m : Line => m.status.notices) hframe
      rw [noticeSet, show (closeLot x.number l).status.notices = _ from e]
      exact raise_noticeSet_self .lotVerdict l

/-- No more lots are live after a closing than before it. -/
theorem LotClosing.length_le {l : Line} {x : Lot} {g g' : RecordLog} {lots : List Lot} (h : LotClosing l x g lots g') :
    lots.length ≤ l.track.lots.length ∧ (2 < g.reserved → 0 < g'.reserved) := by
  obtain ⟨hwaits, hstays, hretires⟩ := h
  by_cases hc : x.unevaluated = 0
  · by_cases hr : x.onTrack = 0 ∧ (∀ e ∈ l.pack.feed, e.lot ≠ x.number) ∧ x.livePallets = 0
    · obtain ⟨hlots, hlog⟩ := hretires hc hr
      refine ⟨by rw [hlots]; exact List.length_filter_le _ _, fun h => ?_⟩
      rw [hlog]
      show 0 < g.reserved - 1 - 1
      omega
    · obtain ⟨hlots, hlog⟩ := hstays hc hr
      refine ⟨Nat.le_of_eq (by rw [hlots, List.length_map]), fun h => ?_⟩
      rw [hlog]
      show 0 < g.reserved - 1
      omega
  · obtain ⟨hlots, hlog⟩ := hwaits hc
    exact ⟨Nat.le_of_eq (by rw [hlots, List.length_map]), fun h => by rw [hlog]; omega⟩

/-! ## The admission -/

/-- A written reservation, in the statements' terms (R170, R171). -/
theorem writeReserved_appended {l : Line} (h : 0 < l.log.reserved) (k : RecordKind) (p : List Word) :
    writeReserved k p l
      = { l with log := { appended l.log (now l) k p with reserved := l.log.reserved - 1 } } := by
  rw [writeReserved, if_pos h]
  rfl

theorem grant_lotsOnly (n : Nat) (l : Line) : LotsOnly l (grant n l) := by
  unfold grant judgeThreshold
  split <;> exact ⟨_, _, _, rfl⟩

theorem LotClosing.congr {b l : Line} {x : Lot} {g g' : RecordLog} {lots : List Lot} (h : LotClosing b x g lots g')
    (hlots : b.track.lots = l.track.lots) (hfeed : b.pack.feed = l.pack.feed) (hnow : now b = now l)
    (hrecipes : b.track.recipes = l.track.recipes) : LotClosing l x g lots g' := by
  have hproduct : ∀ y, productOf b y = productOf l y := fun y => by rw [productOf, recipeAt, hrecipes, productOf, recipeAt]
  have hverdict : ∀ y, lotVerdictPayload b y = lotVerdictPayload l y := fun y => by
    simp only [lotVerdictPayload, verdictWord, hproduct]
  have hsummary : ∀ y, lotSummaryPayload b y = lotSummaryPayload l y := fun y => by
    simp only [lotSummaryPayload, verdictWord, hproduct]
  simp only [LotClosing, hlots, hfeed, hnow, hverdict, hsummary] at h
  exact h

theorem mem_freePositions {size : Nat} {used : List Nat} {p : Nat} :
    p ∈ freePositions size used ↔ p < size ∧ p ∉ used := by
  simp [freePositions]

theorem pickOne_choices (cs : List Nat) (l : Line) : ∃ c, (pickOne cs l).2 = { l with choices := c } := by
  unfold pickOne
  split
  · exact ⟨l.choices, rfl⟩
  · exact ⟨l.choices, rfl⟩
  · exact ⟨l.choices + 1, rfl⟩

/-- The lot admitted: its position free, its number the counter's, its order the next (R118, R120). -/
theorem admitLot_spec (trial : Bool) (recipe : Nat) {l : Line} (hroom : l.track.lots.length < Config.lotCount) :
    let x := (admitLot trial recipe l).1
    let l' := (admitLot trial recipe l).2
    x = newLot x.pos l.track.lotCounter trial recipe (now l) (l.track.admissions + 1)
      ∧ (∀ y ∈ l.track.lots, y.pos ≠ x.pos) ∧ x.pos < Config.lotCount
      ∧ l'.track = { l.track with
          lots := l.track.lots ++ [x]
          lotCounter := nextNumber ((l.track.lots ++ [x]).map (·.number)) 64 x.number
          admissions := l.track.admissions + 1 }
      ∧ { l' with track := l.track, choices := l.choices } = l := by
  have hmem := pickOne_mem (freePositions Config.lotCount (l.track.lots.map (·.pos))) l
    (freePositions_ne_nil _ _ (by rw [List.length_map]; exact hroom))
  obtain ⟨c, hpicked⟩ := pickOne_choices (freePositions Config.lotCount (l.track.lots.map (·.pos))) l
  have heq : pickOne (freePositions Config.lotCount (l.track.lots.map (·.pos))) l
      = ((pickOne (freePositions Config.lotCount (l.track.lots.map (·.pos))) l).1, { l with choices := c }) :=
    Prod.ext rfl hpicked
  generalize (pickOne (freePositions Config.lotCount (l.track.lots.map (·.pos))) l).1 = p at hmem heq
  obtain ⟨hlt, hfree⟩ := mem_freePositions.mp hmem
  simp only [admitLot, heq]
  exact ⟨rfl, fun y hy hpos => hfree (List.mem_map.mpr ⟨y, hy, hpos⟩), hlt, rfl, trivial⟩

/-- LOT_OPEN, its parts named: the grant, the closing, the admission and the record (R120). -/
theorem actLotOpen_eq (a : Slot) (l : Line) :
    let admitted := admitLot (a.arg3 = 1) a.arg2.toNat (closeOpenLot (grant 3 l))
    actLotOpen a l =
      ({ code := .ok, v9 := word admitted.1.number, v10 := admitted.1.admissionOrder
         v11 := word (((openLot l).map (·.number)).getD 0) },
        writeReserved .lotAdmitted (lotAdmittedPayload admitted.2 admitted.1) admitted.2) := rfl

theorem roomForLot_of_lotOpenChecks {a : Slot} {l : Line} (h : refusal (lotOpenChecks a l) = none) :
    l.track.lots.length < Config.lotCount :=
  of_decide_eq_true ((refusal_none_iff _).mp h (decide (l.track.lots.length < Config.lotCount), .tableFull)
    (by simp [lotOpenChecks]))

/-- The line in which a LOT_OPEN admits its lot: the lots, the log and the notices that the grant and the closing leave
(R120, R121). -/
def admitsIn (l : Line) (g : RecordLog) (live : List Lot) (n : BitVec 18) : Line :=
  { l with log := g, track := { l.track with lots := live }, status := { l.status with notices := n } }

/-- The grant and the closing of the OPEN lot, before the admission (R120, R121, R171). -/
theorem closeOpenLot_grant {l : Line} (hopen : ∀ x, openLot l = some x → x.verdict = .pending
      ∧ (∀ y ∈ l.track.lots, y.number = x.number → y = x)
      ∧ (x.unevaluated = 0 → ∀ p ∈ l.pack.pallets, p.state = .stored → ∀ e ∈ p.lots, e.lot ≠ x.number)) :
    ∃ g live n, closeOpenLot (grant 3 l) = admitsIn l g live n
      ∧ (openLot l = none → live = l.track.lots ∧ g = { l.log with reserved := l.log.reserved + 3 })
      ∧ (∀ y, openLot l = some y → LotClosing l y { l.log with reserved := l.log.reserved + 3 } live g
          ∧ (y.unevaluated = 0 → n &&& Notice.lotVerdict.mask ≠ 0))
      ∧ live.length ≤ l.track.lots.length ∧ 0 < g.reserved := by
  have hlog : (grant 3 l).log = { l.log with reserved := l.log.reserved + 3 } := grant_log 3 l
  have hlots : (grant 3 l).track.lots = l.track.lots := by
    unfold grant judgeThreshold
    split <;> rfl
  have hopens : openLot (grant 3 l) = openLot l := by rw [openLot, hlots, openLot]
  obtain ⟨_, _, _, hgrant⟩ := grant_lotsOnly 3 l
  have hpack : (grant 3 l).pack = l.pack := by rw [hgrant]
  obtain ⟨hlotsOnly, hnone, hsome⟩ := closeOpenLot_lots (l := grant 3 l)
    (by rw [hopens, hlots, hpack]; exact hopen) (by rw [hlog]; show 1 < l.log.reserved + 3; omega)
  rw [hopens, hlots, hlog] at hnone
  rw [hopens, hlog] at hsome
  obtain ⟨g, live, n, hshut⟩ := (grant_lotsOnly 3 l).trans hlotsOnly
  rw [hshut] at hnone hsome
  have hclosing : ∀ y, openLot l = some y → LotClosing l y { l.log with reserved := l.log.reserved + 3 } live g := fun y hy =>
    (hsome y hy).1.congr hlots (by rw [hpack]) (by rw [hgrant]; rfl) (by rw [hgrant])
  refine ⟨g, live, n, hshut, hnone, fun y hy => ⟨hclosing y hy, fun hc => ?_⟩, ?_⟩
  · have hset := (hsome y hy).2 hc
    exact bne_iff_ne.mp hset
  · cases hcase : openLot l with
    | none =>
      obtain ⟨h1, h2⟩ := hnone hcase
      refine ⟨Nat.le_of_eq (congrArg List.length h1), ?_⟩
      rw [show g = _ from h2]
      exact Nat.succ_pos _
    | some y =>
      obtain ⟨h1, h2⟩ := (hclosing y hcase).length_le
      exact ⟨h1, h2 (by show 2 < l.log.reserved + 3; omega)⟩

/-- The line after the admission of x (R118, R120). -/
def admittedTo (l : Line) (g : RecordLog) (live : List Lot) (n : BitVec 18) (x : Lot) (c : Nat) : Line :=
  { admitsIn l g live n with
    choices := c
    track := { l.track with
      lots := live ++ [x], lotCounter := nextNumber ((live ++ [x]).map (·.number)) 64 x.number
      admissions := l.track.admissions + 1 } }

theorem admitLot_admitsIn {l : Line} {g : RecordLog} {live : List Lot} {n : BitVec 18} (trial : Bool) (recipe : Nat)
    (hroom : live.length < Config.lotCount) :
    ∃ x c, admitLot trial recipe (admitsIn l g live n) = (x, admittedTo l g live n x c)
      ∧ x = newLot x.pos l.track.lotCounter trial recipe (now l) (l.track.admissions + 1)
      ∧ (∀ y ∈ live, y.pos ≠ x.pos) ∧ x.pos < Config.lotCount := by
  obtain ⟨hx, hpos, hposlt, htrack, hrest⟩ := admitLot_spec (l := admitsIn l g live n) trial recipe hroom
  generalize admitLot trial recipe (admitsIn l g live n) = admitted at *
  obtain ⟨x, after⟩ := admitted
  dsimp only at hx hpos hposlt htrack hrest
  refine ⟨x, after.choices, Prod.ext rfl ?_, hx, hpos, hposlt⟩
  have e := congrArg (fun m : Line => { m with track := after.track, choices := after.choices }) hrest
  refine Eq.trans e ?_
  rw [htrack]
  rfl

/-- Settles O49: the closing under the grant, the admission, the record and the counter. -/
theorem lotOpenAdmitsALot : Obligations.LotOpenAdmitsALot := by
  intro s i hhead hbusy hpass hopen a granted number
  have hpass' : refusal (lotOpenChecks (slotAt s.line i) (leaveQueue s.line)) = none := hpass
  have htake := take_immediate (act := actLotOpen) hhead (show busyConfig (leaveQueue s.line) = false from hbusy) hpass'
  obtain ⟨g, live, n, hshut, hnone, hsome, hle, hreserved⟩ := closeOpenLot_grant (l := leaveQueue s.line) hopen
  obtain ⟨x, c, hadmitted, hx, hpos, hposlt⟩ := admitLot_admitsIn (l := leaveQueue s.line) (g := g) (n := n) (a.arg3 = 1)
    a.arg2.toNat (Nat.lt_of_le_of_lt hle (roomForLot_of_lotOpenChecks hpass'))
  rw [actLotOpen_eq, hshut, hadmitted] at htake
  dsimp only at htake
  rw [writeReserved_appended (l := admittedTo (leaveQueue s.line) g live n x c) hreserved] at htake
  have hnumber : x.number = number := by rw [hx]; rfl
  have horder : x.admissionOrder = s.line.track.admissions + 1 := by rw [hx]; rfl
  have hheld : ∀ m, m ∈ (live ++ [x]).map (·.number) ↔ ∃ y ∈ live ++ [x], y.number = m := fun m => List.mem_map
  rw [exec_lotOpen]
  refine ⟨_, live, g, x, rfl, ⟨rfl, rfl, rfl⟩, ?completed, hnone, fun y hy => ⟨(hsome y hy).1, fun hc => ?notice⟩, hx, hpos,
    hposlt, ?log, ?track, fun hle' => ?counter, ?zones, ?chans, ?pack, ?transfer, ?link⟩ <;>
    rw [onLine_line, show takeLotOpen s.line = _ from htake]
  case completed =>
    rw [hnumber, horder]
    exact completed_of hhead.2.1 rfl
  case notice => exact complete_notices _ _ _ _ (bne_iff_ne.mpr ((hsome y hy).2 hc))
  case log => rfl
  case track => rfl
  case counter =>
    obtain ⟨k, hk, hfree, hbelow⟩ := nextNumber_free ((live ++ [x]).map (·.number)) number hle' (by
      have hroom := roomForLot_of_lotOpenChecks hpass'
      rw [List.length_map, List.length_append, List.length_singleton]
      change s.line.track.lots.length < 48 at hroom
      change live.length ≤ s.line.track.lots.length at hle
      omega)
    have hcounter : nextNumber ((live ++ [x]).map (·.number)) 64 x.number = (number + k) % 65535 + 1 := by
      rw [hnumber]
      exact hk
    have hfree' : nextNumber ((live ++ [x]).map (·.number)) 64 x.number ∉ (live ++ [x]).map (·.number) := by
      rw [hnumber]
      exact hfree
    exact ⟨k, hcounter, fun y hy h => hfree' ((hheld _).mpr ⟨y, hy, h⟩), fun j hj => (hheld _).mp (hbelow j hj)⟩
  case zones => rfl
  case chans => rfl
  case pack => rfl
  case transfer => rfl
  case link => rfl

end Sys2Proof.Machine
end

section
/-! The statement of LOT_FLUSH (R136, R167, R168). -/

namespace Sys2Proof.Machine

/-! ## The judgments of a lot -/

/-- A lot that meets every condition of retirement leaves with its LOT_SUMMARY (R167). -/
theorem judgeRetirement_retires {l : Line} {n : Nat} {x : Lot} (hx : lot? l n = some x) (hretires : canRetire l x = true)
    (hreserved : 0 < l.log.reserved) :
    judgeRetirement n l = { l with
      log := { appended l.log (now l) .lotSummary (lotSummaryPayload l x) with reserved := l.log.reserved - 1 }
      track := { l.track with lots := l.track.lots.filter (·.number != n) } } := by
  rw [judgeRetirement, hx]
  dsimp only
  rw [if_pos hretires, writeReserved_appended hreserved]

theorem not_hasFeed_iff {l : Line} {n : Nat} : hasFeed l n = false ↔ ∀ e ∈ l.pack.feed, e.lot ≠ n := by
  simp [hasFeed]

theorem writeReserved_lotsOnly (k : RecordKind) (p : List Word) (l : Line) : LotsOnly l (writeReserved k p l) := by
  unfold writeReserved
  split
  · exact ⟨_, _, _, rfl⟩
  · exact ⟨_, _, _, rfl⟩

theorem enterVerdict_lotsOnly (n : Nat) (y : Lot) (l : Line) : LotsOnly l (enterVerdict n y l) := by
  refine LotsOnly.trans (b := changeLot n (fun _ => y) l) ⟨_, _, _, rfl⟩
    ((writeReserved_lotsOnly .lotVerdict _ _).trans ⟨_, _, _, rfl⟩)

/-- The verdict judgment of a lot that live pallets keep, none of them STORED: it becomes final when due, and that is all
(R136, R164, R167). -/
theorem judgeVerdict_kept {l : Line} {n : Nat} {x : Lot} (hx : lot? l n = some x) (hlive : x.livePallets ≠ 0)
    (hstored : ∀ p ∈ l.pack.pallets, p.state = .stored → ∀ e ∈ p.lots, e.lot ≠ n) :
    LotsOnly l (judgeVerdict n l)
      ∧ lot? (judgeVerdict n l) n = some (if verdictDue x = true then x.judged (now l) else x) := by
  by_cases hdue : verdictDue x = true
  · have hentered : lot? (enterVerdict n (x.judged (now l)) l) n = some (x.judged (now l)) :=
      lot?_enterVerdict hx (show x.number = n from lot?_number hx)
    have honly := enterVerdict_lotsOnly n (x.judged (now l)) l
    have hnone : storedWith (enterVerdict n (x.judged (now l)) l) n = [] := by
      refine storedWith_eq_nil ?_
      obtain ⟨_, _, _, heq⟩ := honly
      rw [heq]
      exact hstored
    rw [judgeVerdict_due hx hdue, judgeBehindVerdict, hnone, List.foldl_nil,
      judgeRetirement_stays hentered (.inl hlive), if_pos hdue]
    exact ⟨honly, hentered⟩
  · rw [judgeVerdict_waits hx (Bool.eq_false_iff.mpr hdue), if_neg hdue]
    exact ⟨⟨_, _, _, rfl⟩, hx⟩

/-- A change of the elements of one number leaves those of the others. -/
theorem filter_number_map {α : Type} (number : α → Nat) (n : Nat) (f : α → α) (hf : ∀ x, number (f x) = number x)
    (xs : List α) : (xs.map fun x => if number x = n then f x else x).filter (fun x => number x != n)
      = xs.filter fun x => number x != n := by
  induction xs with
  | nil => rfl
  | cons x xs ih =>
    by_cases h : number x = n
    · simpa [h, hf] using ih
    · simpa [h] using ih

theorem filter_number_changeLot (n : Nat) (f : Lot → Lot) (hf : ∀ x, (f x).number = x.number) (l : Line) :
    (changeLot n f l).track.lots.filter (·.number != n) = l.track.lots.filter (·.number != n) :=
  filter_number_map Lot.number n f hf l.track.lots

/-! ## The feed entry of a lot -/

theorem retireLotFeed_none {l : Line} {n : Nat} (hnone : l.pack.feed.find? (·.lot == n) = none) :
    retireLotFeed n l = (0, judgeRetirement n l) := by
  rw [retireLotFeed, hnone]

theorem retireLotFeed_some {l : Line} {n : Nat} {e : FeedEntry} (hfind : l.pack.feed.find? (·.lot == n) = some e) :
    retireLotFeed n l = (e.mass, judgeRetirement n
      (changeLot n (fun x => { x with residual := addMass x.residual e.mass })
        (setFeed (l.pack.feed.filter (·.lot != n)) l))) := by
  have hlot : e.lot = n := by simpa using List.find?_some hfind
  rw [retireLotFeed, hfind]
  dsimp only
  rw [retireFeed, hlot]

/-- The list without a lot's entries, when it has none. -/
theorem filter_lot_of_find?_none {feed : List FeedEntry} {n : Nat} (hnone : feed.find? (·.lot == n) = none) :
    feed.filter (·.lot != n) = feed := by
  refine List.filter_eq_self.mpr fun e he => ?_
  simpa using List.find?_eq_none.mp hnone e he

/-- A lot that a live pallet keeps gives its feed entry's mass to its residual and stays (R168). -/
theorem retireLotFeed_kept {l : Line} {n : Nat} {x : Lot} (hx : lot? l n = some x) (hlive : x.livePallets ≠ 0) :
    ∃ residual lots, (retireLotFeed n l).2 = { l with
        pack := { l.pack with feed := l.pack.feed.filter (·.lot != n) }, track := { l.track with lots := lots } }
      ∧ lot? (retireLotFeed n l).2 n = some { x with residual := residual } := by
  cases hfind : l.pack.feed.find? (·.lot == n) with
  | none =>
    rw [retireLotFeed_none hfind, judgeRetirement_stays hx (.inl hlive), filter_lot_of_find?_none hfind]
    exact ⟨x.residual, l.track.lots, rfl, hx⟩
  | some e =>
    have hx' : lot? (changeLot n (fun x => { x with residual := addMass x.residual e.mass })
        (setFeed (l.pack.feed.filter (·.lot != n)) l)) n = some { x with residual := addMass x.residual e.mass } :=
      lot?_changeLot_self _ (fun _ => rfl) (l := setFeed (l.pack.feed.filter (·.lot != n)) l) hx
    rw [retireLotFeed_some hfind, judgeRetirement_stays hx' (.inl hlive)]
    exact ⟨_, _, rfl, hx'⟩

/-! ## The units of a lot on the track -/

/-- The units of a lot in the places of the sections given. -/
def unitsOfLot (n : Nat) (fs : List Section) : Nat :=
  (fs.map fun f => (f.places.map fun c => ((c.filter (·.lot == n)).map (·.units)).getD 0).sum).sum

theorem foldl_add_eq_sum {α : Type} (g : α → Nat) (xs : List α) : xs.foldl (fun u x => u + g x) 0 = (xs.map g).sum := by
  rw [List.sum_eq_foldl, List.foldl_map]

theorem unitsOfPlace_eq (n : Nat) (c : Option TrackCell) :
    (match c with | some c => if c.lot = n then c.units else 0 | none => 0)
      = ((c.filter (·.lot == n)).map (·.units)).getD 0 := by
  cases c with
  | none => rfl
  | some c => by_cases h : c.lot = n <;> simp [Option.filter, h]

theorem filter_range_lt (len m : Nat) : (List.range len).filter (fun i => decide (i < m)) = List.range (min m len) := by
  induction len with
  | zero => simp
  | succ len ih =>
    rw [List.range_succ, List.filter_append, ih]
    by_cases h : len < m
    · rw [Nat.min_eq_right (by omega), Nat.min_eq_right (by omega), List.range_succ]
      simp [h]
    · rw [Nat.min_eq_left (by omega), Nat.min_eq_left (by omega)]
      simp [h]

/-- The units in the sections below an index. -/
theorem unitsIn_below (l : Line) (n m : Nat) (p : Nat → Bool) (hp : ∀ i < l.track.sections.length, p i = decide (i < m)) :
    unitsIn l n p = unitsOfLot n (l.track.sections.take m) := by
  have hfilter : (List.range l.track.sections.length).filter p = List.range (min m l.track.sections.length) := by
    rw [← filter_range_lt]
    exact List.filter_congr fun i hi => hp i (List.mem_range.mp hi)
  rw [unitsIn, hfilter, foldl_add_eq_sum, unitsOfLot]
  refine congrArg List.sum (List.ext_getElem (by simp) fun i hi _ => ?_)
  have hlt : i < l.track.sections.length := by
    simp at hi
    omega
  simp only [List.getElem_map, List.getElem_range, List.getElem_take, usedSection?, List.getElem?_eq_getElem hlt,
    Option.map_some, Option.getD_some, foldl_add_eq_sum]
  exact congrArg List.sum (List.map_congr_left fun c _ => unitsOfPlace_eq n c)

theorem unitsIn_all (l : Line) (n : Nat) : unitsIn l n (fun _ => true) = unitsOfLot n l.track.sections := by
  rw [unitsIn_below l n l.track.sections.length _ fun i hi => (decide_eq_true hi).symm, List.take_length]

/-- With the last FREEZE section at k the units not past the final point are those of the sections up to k (R107). -/
theorem unitsIn_early {l : Line} {k : Nat} (n : Nat)
    (hfreeze : ∃ f, l.track.sections[k]? = some f ∧ f.desc.criterion = .freeze)
    (hlast : ∀ j f, k < j → l.track.sections[j]? = some f → f.desc.criterion ≠ .freeze) :
    unitsIn l n (fun i => !pastFinal l i) = unitsOfLot n (l.track.sections.take (k + 1)) := by
  have hfinal : finalSection l = some k := (lastOf_iff .freeze l k).mpr ⟨hfreeze, hlast⟩
  refine unitsIn_below l n (k + 1) _ fun i _ => ?_
  rw [pastFinal, hfinal]
  rw [Option.any_some, Bool.eq_iff_iff, Bool.not_eq_true', decide_eq_false_iff_not, decide_eq_true_eq]
  omega

/-! ## Track clearing -/

/-- A lot with the units given cleared from the track, the early ones with their position lost (R168). -/
def Lot.cleared (x : Lot) (all early : Nat) : Lot :=
  { x with
    onTrack := x.onTrack - word all
    outcomes := x.outcomes.add .positionLost (word early)
    unevaluated := x.unevaluated - word early }

/-- The line with a lot's cells empty and its units cleared (R168). -/
def clearedLine (n : Nat) (l : Line) : Line :=
  changeLot n (fun x => x.cleared (unitsIn l n fun _ => true) (unitsIn l n fun i => !pastFinal l i)) (emptyCells n l)

theorem clearFromTrack_eq (n : Nat) (l : Line) :
    clearFromTrack n l = (unitsIn l n (fun _ => true),
      if 0 < unitsIn l n (fun i => !pastFinal l i) then judgeVerdict n (clearedLine n l) else clearedLine n l) := rfl

theorem lot?_clearedLine {l : Line} {n : Nat} {x : Lot} (hx : lot? l n = some x) :
    lot? (clearedLine n l) n
      = some (x.cleared (unitsIn l n fun _ => true) (unitsIn l n fun i => !pastFinal l i)) :=
  lot?_changeLot_self _ (fun _ => rfl) (l := emptyCells n l) hx

/-- A lot that live pallets keep, none of them STORED, is cleared, and judged when early units were (R136, R168). -/
theorem clearFromTrack_kept {l : Line} {n : Nat} {x : Lot} (hx : lot? l n = some x) (hlive : x.livePallets ≠ 0)
    (hstored : ∀ p ∈ l.pack.pallets, p.state = .stored → ∀ e ∈ p.lots, e.lot ≠ n) :
    let early := unitsIn l n fun i => !pastFinal l i
    let y := x.cleared (unitsIn l n fun _ => true) early
    LotsOnly (emptyCells n l) (clearFromTrack n l).2
      ∧ lot? (clearFromTrack n l).2 n = some (if 0 < early ∧ verdictDue y = true then y.judged (now l) else y) := by
  intro early y
  have hy : lot? (clearedLine n l) n = some y := lot?_clearedLine hx
  have hcleared : LotsOnly (emptyCells n l) (clearedLine n l) := ⟨_, _, _, rfl⟩
  rw [clearFromTrack_eq]
  by_cases hearly : 0 < early
  · obtain ⟨honly, hjudged⟩ := judgeVerdict_kept hy hlive (l := clearedLine n l) hstored
    simp only [hearly, if_true, true_and, early]
    exact ⟨hcleared.trans honly, hjudged⟩
  · simp only [hearly, if_false, false_and, early]
    exact ⟨hcleared, hy⟩

/-! ## LOT_FLUSH -/

/-- A flush of a CLOSED lot passes its checks: its units are to be cleared, or there are none (R168). -/
theorem flushChecks_pass {a : Slot} {l : Line} {x : Lot} (hnumber : a.arg2.toNat = x.number) (hone : 1 ≤ x.number)
    (hmax : x.number ≤ 65535) (hx : lot? l x.number = some x) (hshut : x.isOpen = false)
    (hunits : a.arg3 = 1 ∨ a.arg3 = 0 ∧ x.onTrack = 0) : refusal (flushChecks a l) = none := by
  rw [flushChecks, hnumber, hx]
  have hwithin : within 1 65535 x.number = true := by simp [within, hone, hmax]
  rcases hunits with h | ⟨h, hempty⟩
  · simp [refusal, hwithin, h, hshut, isFlag]
  · simp [refusal, hwithin, h, hshut, hempty, isFlag]

theorem actLotFlush_stay {a : Slot} {l : Line} (h : a.arg3 ≠ 1) :
    actLotFlush a l =
      ({ code := .ok, v9 := word (retireLotFeed a.arg2.toNat l).1,
         v10 := word (flag (lot? (retireLotFeed a.arg2.toNat l).2 a.arg2.toNat).isNone), v11 := 0 },
        (retireLotFeed a.arg2.toNat l).2) := by
  simp only [actLotFlush, if_neg h]
  rfl

theorem actLotFlush_clear {a : Slot} {l : Line} (h : a.arg3 = 1) :
    actLotFlush a l =
      let m := clearFromTrack a.arg2.toNat l
      ({ code := .ok, v9 := word (retireLotFeed a.arg2.toNat m.2).1,
         v10 := word (flag (lot? (retireLotFeed a.arg2.toNat m.2).2 a.arg2.toNat).isNone), v11 := word m.1 },
        (retireLotFeed a.arg2.toNat m.2).2) := by
  simp only [actLotFlush, if_pos h]

/-- A flush without track clearing of a lot that a live pallet keeps. -/
theorem lotFlush_moves (s : State) (i : Nat) (x : Lot) (e : FeedEntry) (hhead : HeadIs s.line i .lotFlush)
    (hnumber : (slotAt s.line i).arg2.toNat = x.number) (hstay : (slotAt s.line i).arg3 = 0) (hone : 1 ≤ x.number)
    (hmax : x.number ≤ 65535) (hx : lot? s.line x.number = some x) (hshut : x.isOpen = false) (hempty : x.onTrack = 0)
    (hlive : x.livePallets ≠ 0) (hfind : s.line.pack.feed.find? (·.lot == x.number) = some e) :
    ∃ t, exec .lotFlush s = .next t ∧ BlocksOnly s t
      ∧ Completed s.line t.line i { code := .ok, v9 := word e.mass, v10 := 0, v11 := 0 }
      ∧ t.line.pack = { s.line.pack with feed := s.line.pack.feed.filter (·.lot != x.number) }
      ∧ lot? t.line x.number = some { x with residual := addMass x.residual e.mass }
      ∧ t.line.log = s.line.log ∧ t.line.zones = s.line.zones ∧ t.line.chans = s.line.chans := by
  let fed : Line := setFeed (s.line.pack.feed.filter (·.lot != x.number)) (leaveQueue s.line)
  let m : Line := changeLot x.number (fun x => { x with residual := addMass x.residual e.mass }) fed
  have hm : lot? m x.number = some { x with residual := addMass x.residual e.mass } :=
    lot?_changeLot_self _ (fun _ => rfl) (l := fed) hx
  have hretire : retireLotFeed x.number (leaveQueue s.line) = (e.mass, m) := by
    rw [retireLotFeed_some (l := leaveQueue s.line) hfind]
    exact congrArg (Prod.mk e.mass) (judgeRetirement_stays hm (.inl hlive))
  have htake := take_immediate (act := actLotFlush) (busy := neverBusy) hhead rfl
    (flushChecks_pass (l := leaveQueue s.line) hnumber hone hmax hx hshut (.inr ⟨hstay, hempty⟩))
  rw [actLotFlush_stay (by rw [hstay]; decide), hnumber, hretire] at htake
  dsimp only at htake
  rw [hm] at htake
  rw [exec_lotFlush]
  refine ⟨_, rfl, ⟨rfl, rfl, rfl⟩, ?_⟩
  rw [onLine_line, show takeLotFlush s.line = _ from htake]
  exact ⟨completed_of hhead.2.1 rfl, rfl, hm, rfl, rfl, rfl⟩

/-- A flush without track clearing that retires the lot. -/
theorem lotFlush_retires (s : State) (i : Nat) (x y : Lot) (mass : Nat) (hhead : HeadIs s.line i .lotFlush)
    (hnumber : (slotAt s.line i).arg2.toNat = x.number) (hstay : (slotAt s.line i).arg3 = 0) (hone : 1 ≤ x.number)
    (hmax : x.number ≤ 65535) (hx : lot? s.line x.number = some x) (hshut : x.isOpen = false)
    (hfinal : x.verdict ≠ .pending) (hempty : x.onTrack = 0) (hlive : x.livePallets = 0)
    (hreserved : 0 < s.line.log.reserved)
    (hfeed : s.line.pack.feed.find? (·.lot == x.number) = none ∧ mass = 0 ∧ y = x
      ∨ ∃ e, s.line.pack.feed.find? (·.lot == x.number) = some e ∧ mass = e.mass
          ∧ y = { x with residual := addMass x.residual e.mass }) :
    ∃ t, exec .lotFlush s = .next t ∧ BlocksOnly s t
      ∧ Completed s.line t.line i { code := .ok, v9 := word mass, v10 := 1, v11 := 0 }
      ∧ { t.line with request := s.line.request } = raise .reqDone
          { s.line with
            track := { s.line.track with lots := s.line.track.lots.filter (·.number != x.number) }
            pack := { s.line.pack with feed := s.line.pack.feed.filter (·.lot != x.number) }
            log := { appended s.line.log (now s.line) .lotSummary (lotSummaryPayload s.line y) with
              reserved := s.line.log.reserved - 1 } } := by
  let m : Line := { leaveQueue s.line with
    track := { s.line.track with lots := s.line.track.lots.filter (·.number != x.number) }
    pack := { s.line.pack with feed := s.line.pack.feed.filter (·.lot != x.number) }
    log := { appended s.line.log (now s.line) .lotSummary (lotSummaryPayload s.line y) with
      reserved := s.line.log.reserved - 1 } }
  have hretire : retireLotFeed x.number (leaveQueue s.line) = (mass, m) := by
    rcases hfeed with ⟨hnone, rfl, rfl⟩ | ⟨e, hfind, rfl, rfl⟩
    · have hcan : canRetire (leaveQueue s.line) y = true := by
        simp [canRetire, hshut, hfinal, hempty, hlive, hasFeed]
        simpa using hnone
      rw [retireLotFeed_none (l := leaveQueue s.line) hnone]
      refine congrArg (Prod.mk 0) ?_
      rw [judgeRetirement_retires (l := leaveQueue s.line) hx hcan hreserved]
      simp only [m, filter_lot_of_find?_none hnone]
      rfl
    · let fed : Line := setFeed (s.line.pack.feed.filter (·.lot != x.number)) (leaveQueue s.line)
      let k : Line := changeLot x.number (fun x => { x with residual := addMass x.residual e.mass }) fed
      have hk : lot? k x.number = some { x with residual := addMass x.residual e.mass } :=
        lot?_changeLot_self _ (fun _ => rfl) (l := fed) hx
      have hcan : canRetire k { x with residual := addMass x.residual e.mass } = true := by
        have hfed : hasFeed k x.number = false := not_hasFeed_iff.mpr fun e he => by
          simpa using (List.mem_filter.mp he).2
        simp [canRetire, hshut, hfinal, hempty, hlive, hfed]
      rw [retireLotFeed_some (l := leaveQueue s.line) hfind]
      refine congrArg (Prod.mk e.mass) ((judgeRetirement_retires (l := k) hk hcan hreserved).trans ?_)
      rw [show k.track.lots.filter (·.number != x.number) = s.line.track.lots.filter (·.number != x.number) from
        filter_number_changeLot x.number (fun x => { x with residual := addMass x.residual e.mass }) (fun _ => rfl) fed]
      rfl
  have htake := take_immediate (act := actLotFlush) (busy := neverBusy) hhead rfl
    (flushChecks_pass (l := leaveQueue s.line) hnumber hone hmax hx hshut (.inr ⟨hstay, hempty⟩))
  have hgone : lot? m x.number = none :=
    (find?_filter_number Lot.number s.line.track.lots x.number x.number).trans (if_pos rfl)
  rw [actLotFlush_stay (by rw [hstay]; decide), hnumber, hretire] at htake
  dsimp only at htake
  rw [hgone] at htake
  rw [exec_lotFlush]
  refine ⟨_, rfl, ⟨rfl, rfl, rfl⟩, ?_⟩
  rw [onLine_line, show takeLotFlush s.line = _ from htake]
  exact ⟨completed_of hhead.2.1 rfl, rfl⟩

theorem cleared_verdictDue_iff {x : Lot} {all early : Nat} (hshut : x.isOpen = false) :
    verdictDue (x.cleared all early) = true ↔ x.unevaluated = word early ∧ x.verdict = .pending := by
  have hzero : x.unevaluated - word early = 0 ↔ x.unevaluated = word early := word_sub_eq_zero
  simp only [verdictDue, Lot.cleared, hshut, Bool.not_false, Bool.true_and, Bool.and_eq_true, beq_iff_eq, hzero]

theorem judged_pending_iff (t : Word) (x : Lot) : (x.judged t).verdict ≠ .pending := by
  have hof : (verdictOf x).1 ≠ .pending := by
    unfold verdictOf
    split
    · simp
    · split
      · simp
      · split <;> simp
  exact hof

/-- What track clearing leaves of the lot, judged or not (R136, R168). -/
theorem cleared_judged {x y : Lot} {all early : Nat} {t : Word} (hshut : x.isOpen = false)
    (hy : y = if 0 < early ∧ verdictDue (x.cleared all early) = true then (x.cleared all early).judged t
      else x.cleared all early) :
    y.onTrack = x.onTrack - word all
      ∧ y.outcomes = { x.outcomes with positionLost := x.outcomes.positionLost + word early }
      ∧ y.unevaluated = x.unevaluated - word early
      ∧ (early ≠ 0 → x.verdict = .pending → (y.verdict = .pending ↔ x.unevaluated ≠ word early))
      ∧ (x.verdict ≠ .pending → y.verdict = x.verdict) := by
  simp only [cleared_verdictDue_iff hshut] at hy
  by_cases h : 0 < early ∧ x.unevaluated = word early ∧ x.verdict = .pending
  · obtain ⟨-, hnone, hpending⟩ := id h
    rw [if_pos h] at hy
    subst hy
    exact ⟨rfl, rfl, rfl, fun _ _ => iff_of_false (judged_pending_iff t _) (fun h => h hnone), fun h => absurd hpending h⟩
  · rw [if_neg h] at hy
    subst hy
    exact ⟨rfl, rfl, rfl, fun hearly hpending => iff_of_true hpending fun hnone => h ⟨by omega, hnone, hpending⟩,
      fun _ => rfl⟩

/-- Settles O51: the move of the feed entry, the retirement, and the clearing of the track. -/
theorem lotFlushMovesTheFeedEntry : Obligations.LotFlushMovesTheFeedEntry := by
  refine ⟨lotFlush_moves, lotFlush_retires, ?_⟩
  intro s i k x hhead hnumber hclear hone hmax hx hshut hlive hstored hfreeze hlast unitsOf all early
  have hall : unitsIn (leaveQueue s.line) x.number (fun _ => true) = all := unitsIn_all (leaveQueue s.line) x.number
  have hearly : unitsIn (leaveQueue s.line) x.number (fun i => !pastFinal (leaveQueue s.line) i) = early :=
    unitsIn_early (l := leaveQueue s.line) x.number hfreeze hlast
  obtain ⟨honly, hy⟩ := clearFromTrack_kept (l := leaveQueue s.line) hx hlive hstored
  have hunits : (clearFromTrack x.number (leaveQueue s.line)).1 = all := hall
  rw [hall, hearly] at hy
  generalize hm : clearFromTrack x.number (leaveQueue s.line) = m at honly hy hunits
  generalize hydef : (if 0 < early ∧ verdictDue (x.cleared all early) = true
    then (x.cleared all early).judged (now (leaveQueue s.line)) else x.cleared all early) = y at hy
  obtain ⟨hontrack, houtcomes, hunevaluated, hpending, hfinal⟩ := cleared_judged hshut hydef.symm
  have hlive' : y.livePallets ≠ 0 := by
    rw [← hydef]
    split <;> exact hlive
  obtain ⟨residual, lots, heq, hlot⟩ := retireLotFeed_kept hy hlive'
  have htake := take_immediate (act := actLotFlush) (busy := neverBusy) hhead rfl
    (flushChecks_pass (l := leaveQueue s.line) hnumber hone hmax hx hshut (.inl hclear))
  rw [actLotFlush_clear hclear, hnumber, hm] at htake
  dsimp only at htake
  rw [hlot, hunits] at htake
  obtain ⟨g, lots', n, hm2⟩ := honly
  rw [exec_lotFlush]
  refine ⟨_, { y with residual := residual }, (retireLotFeed x.number m.2).1, rfl, ⟨rfl, rfl, rfl⟩, ?_⟩
  rw [onLine_line, show takeLotFlush s.line = _ from htake]
  generalize (retireLotFeed x.number m.2).2 = r at *
  subst heq
  rw [hm2]
  exact ⟨completed_of hhead.2.1 rfl, rfl, by rw [← hm2]; exact hlot, hontrack, houtcomes, hunevaluated, hpending, hfinal,
    rfl, rfl, rfl, rfl⟩

end Sys2Proof.Machine
end

section
/-! The statement of the transit timer (R159, R161). -/

namespace Sys2Proof.Machine

theorem exec_transitTimerExpiry (s : State) : exec .transitTimerExpiry s = .next (s.onLine transitExpires) := rfl

/-! ## The choice of the dispatch -/

/-- Within half the range of a base, the earlier time is the nearer to it. -/
theorem earlier_within {a b base : Word} (ha : (a - base).toNat < 2 ^ 31) (hb : (b - base).toNat < 2 ^ 31) :
    earlier a b = decide ((a - base).toNat < (b - base).toNat) := by
  rw [Bool.eq_iff_iff, decide_eq_true_iff, earlier, reached]
  simp only [Bool.and_eq_true, bne_iff_ne, ne_eq, decide_eq_true_iff]
  constructor
  · rintro ⟨hne, hahead⟩
    bv_omega
  · intro h
    constructor
    · rintro rfl
      omega
    · bv_omega

/-- The place of a pallet in the order of dispatch, given a base of the deadlines and one of the join orders (R159). -/
def dispatchRank (base first : Word) (q : Pallet) : Nat :=
  (orZero q.deadline - base).toNat * 2 ^ 31 + (orZero q.joinOrder - first).toNat

/-- A pallet's times lie within half the range of the bases. -/
def NearBases (base first : Word) (q : Pallet) : Prop :=
  (orZero q.deadline - base).toNat < 2 ^ 31 ∧ (orZero q.joinOrder - first).toNat < 2 ^ 31

theorem goesBefore_near {base first : Word} {a b : Pallet} (ha : NearBases base first a) (hb : NearBases base first b) :
    goesBefore a b = decide (dispatchRank base first a < dispatchRank base first b) := by
  obtain ⟨had, haj⟩ := ha
  obtain ⟨hbd, hbj⟩ := hb
  unfold goesBefore dispatchRank
  dsimp only
  split
  · next heq =>
    rw [earlier_within haj hbj, heq, decide_eq_decide]
    omega
  · next hne =>
    have hne' : (orZero a.deadline - base).toNat ≠ (orZero b.deadline - base).toNat := fun h =>
      hne ((BitVec.sub_left_inj base).mp (BitVec.eq_of_toNat_eq h))
    rw [earlier_within had hbd, decide_eq_decide]
    omega

theorem dispatchRank_le {base first : Word} {a b : Pallet} (ha : NearBases base first a) (hb : NearBases base first b)
    (h : dispatchRank base first a ≤ dispatchRank base first b) :
    (orZero a.deadline - base).toNat < (orZero b.deadline - base).toNat
      ∨ orZero a.deadline = orZero b.deadline
        ∧ (orZero a.joinOrder - first).toNat ≤ (orZero b.joinOrder - first).toNat := by
  obtain ⟨had, haj⟩ := ha
  obtain ⟨hbd, hbj⟩ := hb
  unfold dispatchRank at h
  by_cases heq : (orZero a.deadline - base).toNat = (orZero b.deadline - base).toNat
  · exact .inr ⟨(BitVec.sub_left_inj base).mp (BitVec.eq_of_toNat_eq heq), by omega⟩
  · exact .inl (by omega)

/-- The better of the choice so far and one more queued pallet. -/
def firstOf (best : Option Pallet) (p : Pallet) : Option Pallet :=
  match best with
  | none => some p
  | some b => if goesBefore p b then some p else some b

theorem nextChoice_eq (l : Line) : nextChoice l = (transferQueue l).foldl firstOf none := rfl

/-- The choice is one of the pallets compared, and of the least rank where a rank says which goes before. -/
theorem foldl_firstOf (ps : List Pallet) (b : Pallet) :
    ∃ q ∈ b :: ps, ps.foldl firstOf (some b) = some q
      ∧ ∀ rank : Pallet → Nat, (∀ x ∈ b :: ps, ∀ y ∈ b :: ps, goesBefore x y = decide (rank x < rank y)) →
        ∀ r ∈ b :: ps, rank q ≤ rank r := by
  induction ps generalizing b with
  | nil => exact ⟨b, by simp, rfl, fun rank _ r hr => Nat.le_of_eq (by rw [List.mem_singleton.mp hr])⟩
  | cons p ps ih =>
    by_cases hbefore : goesBefore p b = true
    · obtain ⟨q, hmem, hq, hleast⟩ := ih p
      refine ⟨q, List.mem_cons_of_mem b hmem, by simpa [firstOf, hbefore] using hq, fun rank hrank r hr => ?_⟩
      have hleast' := hleast rank fun x hx y hy => hrank x (List.mem_cons_of_mem b hx) y (List.mem_cons_of_mem b hy)
      rcases List.mem_cons.mp hr with rfl | hr
      · have hlt : rank p < rank r := by
          rw [hrank p (by simp) r (by simp)] at hbefore
          exact of_decide_eq_true hbefore
        exact Nat.le_trans (hleast' p (by simp)) (Nat.le_of_lt hlt)
      · exact hleast' r hr
    · obtain ⟨q, hmem, hq, hleast⟩ := ih b
      have hin : ∀ x ∈ b :: ps, x ∈ b :: p :: ps := fun x hx => by
        rcases List.mem_cons.mp hx with rfl | h <;> simp [*]
      refine ⟨q, hin q hmem, by simpa [firstOf, hbefore] using hq, fun rank hrank r hr => ?_⟩
      have hleast' := hleast rank fun x hx y hy => hrank x (hin x hx) y (hin y hy)
      rcases List.mem_cons.mp hr with rfl | hr
      · exact hleast' r (by simp)
      · rcases List.mem_cons.mp hr with rfl | hr
        · have hle : rank b ≤ rank r := by
            rw [hrank r (by simp) b (by simp)] at hbefore
            simpa using hbefore
          exact Nat.le_trans (hleast' b (by simp)) hle
        · exact hleast' r (List.mem_cons_of_mem b hr)

/-- The line has a CLOSED pallet q. -/
def Queued (l : Line) (q : Pallet) : Prop := q ∈ l.pack.pallets ∧ q.state = .closed

theorem mem_transferQueue {l : Line} {q : Pallet} : q ∈ transferQueue l ↔ Queued l q := by
  simp [transferQueue, Queued, List.mem_filter]

theorem nextChoice_none {l : Line} (h : ∀ q, ¬ Queued l q) : nextChoice l = none := by
  have hnil : transferQueue l = [] := List.eq_nil_iff_forall_not_mem.mpr fun q hq => h q (mem_transferQueue.mp hq)
  rw [nextChoice_eq, hnil, List.foldl_nil]

/-- With a pallet queued one is chosen, and near bases of the times it is the first in the order of dispatch (R159). -/
theorem nextChoice_some {l : Line} (h : ∃ q, Queued l q) :
    ∃ q, Queued l q ∧ nextChoice l = some q
      ∧ ∀ base first, (∀ r, Queued l r → NearBases base first r) →
        ∀ r, Queued l r → dispatchRank base first q ≤ dispatchRank base first r := by
  obtain ⟨q₀, hq₀⟩ := h
  cases hqueue : transferQueue l with
  | nil => exact absurd (mem_transferQueue.mpr hq₀) (by simp [hqueue])
  | cons b ps =>
    obtain ⟨q, hmem, hq, hleast⟩ := foldl_firstOf ps b
    rw [← hqueue] at hmem hleast
    refine ⟨q, mem_transferQueue.mp hmem, by rw [nextChoice_eq, hqueue]; exact hq, fun base first hnear r hr => ?_⟩
    refine hleast (dispatchRank base first) (fun x hx y hy => ?_) r (mem_transferQueue.mpr hr)
    exact goesBefore_near (hnear x (mem_transferQueue.mp hx)) (hnear y (mem_transferQueue.mp hy))

theorem queued_of_nextChoice {l : Line} {q : Pallet} (h : nextChoice l = some q) : Queued l q := by
  by_cases hany : ∃ y, Queued l y
  · obtain ⟨y, hy, hsome, -⟩ := nextChoice_some hany
    rw [h] at hsome
    cases hsome
    exact hy
  · rw [nextChoice_none fun y hy => hany ⟨y, hy⟩] at h
    cases h

/-! ## The judgment -/

/-- A pallet's dispatch: it is IN_TRANSIT and the path BUSY with it (R159). -/
def dispatch (q : Pallet) (l : Line) : Line :=
  setFunction .transferStart q.number
    { changePallet q.number (fun q => { q with state := .inTransit }) l with
      transfer := { l.transfer with
        transit := some { number := q.number, deadline := after (now l) (transitMs l) }
        lastDispatch := now l
        dispatches := l.transfer.dispatches + 1 } }

theorem judgeDispatch_sends {l : Line} {q : Pallet} (hidle : l.transfer.transit = none)
    (hrunning : kindIn l .transfer .running = true) (hq : nextChoice l = some q) : judgeDispatch l = dispatch q l := by
  rw [judgeDispatch, hidle, hrunning, hq]
  rfl

theorem judgeDispatch_stays {l : Line}
    (h : l.transfer.transit.isSome = true ∨ kindIn l .transfer .running = false ∨ ∀ q, ¬ Queued l q) :
    judgeDispatch l = l := by
  unfold judgeDispatch
  split
  · next hgoes =>
    simp only [Bool.and_eq_true, Option.isNone_iff_eq_none] at hgoes
    obtain ⟨hidle, hrunning⟩ := hgoes
    have hnone : nextChoice l = none := by
      rcases h with h | h | h
      · rw [hidle] at h
        cases h
      · rw [hrunning] at h
        cases h
      · exact nextChoice_none h
    rw [hnone]
  · rfl

/-- Only the pallets, the path and the channels differ. -/
def PathOnly (l l' : Line) : Prop :=
  ∃ pallets transfer chans, l' = { l with
    pack := { l.pack with pallets := pallets }, transfer := transfer, chans := chans }

theorem PathOnly.refl (l : Line) : PathOnly l l := ⟨_, _, _, rfl⟩

theorem PathOnly.trans {a b c : Line} (x : PathOnly a b) (y : PathOnly b c) : PathOnly a c := by
  obtain ⟨_, _, _, rfl⟩ := x
  obtain ⟨p, t, k, rfl⟩ := y
  exact ⟨p, t, k, rfl⟩

theorem judgeDispatch_pathOnly (l : Line) : PathOnly l (judgeDispatch l) := by
  unfold judgeDispatch
  split
  · split
    · exact .refl l
    · exact ⟨_, _, _, rfl⟩
  · exact .refl l

theorem PathOnly.plantOnly {l l' : Line} (h : PathOnly l l') : PlantOnly l l' := by
  obtain ⟨_, _, _, rfl⟩ := h
  exact ⟨rfl, rfl, rfl, rfl, rfl, rfl⟩

theorem PathOnly.blocks {l l' : Line} (h : PathOnly l l') :
    l'.log = l.log ∧ l'.track = l.track ∧ l'.zones = l.zones ∧ l'.active = l.active ∧ now l' = now l := by
  obtain ⟨_, _, _, rfl⟩ := h
  exact ⟨rfl, rfl, rfl, rfl, rfl⟩

/-- A pallet that is not queued, and whose number no queued pallet has, is not dispatched (R159). -/
theorem pallet?_judgeDispatch_other {l : Line} {n : Nat} (h : ∀ q, Queued l q → q.number ≠ n) :
    pallet? (judgeDispatch l) n = pallet? l n := by
  by_cases hidle : l.transfer.transit = none
  · by_cases hrunning : kindIn l .transfer .running = true
    · by_cases hqueued : ∃ q, Queued l q
      · obtain ⟨q, hq, hnext, -⟩ := nextChoice_some hqueued
        rw [judgeDispatch_sends hidle hrunning hnext]
        show pallet? (changePallet q.number _ l) n = _
        rw [pallet?_changePallet _ _ _ (by intro x; rfl)]
        cases hp : pallet? l n with
        | none => rfl
        | some p =>
          have hne : p.number ≠ q.number := fun e => h q hq (e.symm.trans (pallet?_number hp))
          simp [hne]
      · rw [judgeDispatch_stays (.inr (.inr fun q hq => hqueued ⟨q, hq⟩))]
    · rw [judgeDispatch_stays (.inr (.inl (Bool.eq_false_iff.mpr hrunning)))]
  · rw [judgeDispatch_stays (.inl (Option.isSome_iff_ne_none.mpr hidle))]

/-! ## The transit given up -/

/-- The line with the pallet in transit UNCONFIRMED and the path IDLE (R161). -/
def abandoned (n : Nat) (l : Line) : Line := freePath (changePallet n (fun q => { q with state := .unconfirmed }) l)

theorem abandonTransit_some {l : Line} {tr : Transit} (h : l.transfer.transit = some tr) :
    abandonTransit l = abandoned tr.number l := by
  rw [abandonTransit, h]
  rfl

theorem queued_abandoned {l : Line} {n : Nat} {q : Pallet} : Queued (abandoned n l) q ↔ Queued l q ∧ q.number ≠ n := by
  have hmem : q ∈ (abandoned n l).pack.pallets
      ↔ ∃ p ∈ l.pack.pallets, (if p.number = n then { p with state := .unconfirmed } else p) = q := List.mem_map
  rw [Queued, Queued, hmem]
  constructor
  · rintro ⟨⟨p, hp, rfl⟩, hclosed⟩
    by_cases hn : p.number = n
    · rw [if_pos hn] at hclosed
      cases hclosed
    · rw [if_neg hn] at hclosed ⊢
      exact ⟨⟨hp, hclosed⟩, hn⟩
  · rintro ⟨⟨hp, hclosed⟩, hn⟩
    exact ⟨⟨q, hp, if_neg hn⟩, hclosed⟩

theorem pallet?_abandoned {l : Line} {n m : Nat} {p : Pallet} (hp : pallet? l n = some p) :
    pallet? (abandoned m l) n = some (if n = m then { p with state := .unconfirmed } else p) := by
  show pallet? (changePallet m _ l) n = _
  rw [pallet?_changePallet _ _ _ (by intro x; rfl), hp, Option.map_some, pallet?_number hp]

/-- The path given up, its timeout counted, before the next dispatch is judged (R161). -/
def timedOut (n : Nat) (l : Line) : Line :=
  { abandoned n l with transfer := { (abandoned n l).transfer with timeouts := l.transfer.timeouts + 1 } }

theorem transitExpires_eq {l : Line} {tr : Transit} (htransit : l.transfer.transit = some tr)
    (hdue : reached (now l) tr.deadline = true) : transitExpires l = judgeDispatch (timedOut tr.number l) := by
  have h : transitDue l = true := by
    rw [transitDue, htransit]
    exact hdue
  rw [transitExpires, if_pos h, abandonTransit_some htransit]
  rfl

theorem timeouts_judgeDispatch (l : Line) : (judgeDispatch l).transfer.timeouts = l.transfer.timeouts := by
  unfold judgeDispatch
  split
  · split <;> rfl
  · rfl

/-- Settles O59: what a dispatch sends, judged on the path given up. -/
theorem transitExpiryLeavesThePalletUnconfirmed : Obligations.TransitExpiryLeavesThePalletUnconfirmed := by
  intro s tr p htransit hdue hp hstate
  have hexpires := transitExpires_eq htransit hdue
  have hqueued : ∀ {q}, Queued (timedOut tr.number s.line) q ↔ Queued s.line q ∧ q.number ≠ tr.number := queued_abandoned
  have honly : PathOnly s.line (judgeDispatch (timedOut tr.number s.line)) :=
    PathOnly.trans ⟨_, _, _, rfl⟩ (judgeDispatch_pathOnly _)
  obtain ⟨hlog, htrack, hzones, -, -⟩ := honly.blocks
  have hunconfirmed : pallet? (timedOut tr.number s.line) tr.number = some { p with state := .unconfirmed } :=
    (pallet?_abandoned hp).trans (by rw [if_pos rfl])
  have hkept := pallet?_judgeDispatch_other (l := timedOut tr.number s.line) (n := tr.number) fun q hq => (hqueued.mp hq).2
  rw [exec_transitTimerExpiry]
  refine ⟨_, rfl, ⟨rfl, rfl, rfl⟩, ?_⟩
  rw [onLine_line, hexpires]
  refine ⟨honly.plantOnly, timeouts_judgeDispatch _, hkept.trans hunconfirmed, fun hempty => ?idle, hlog, htrack, hzones,
    ?sent⟩
  case idle =>
    have hnone : ∀ q, ¬ Queued (timedOut tr.number s.line) q := fun q hq => by
      have hmem := mem_transferQueue.mpr (hqueued.mp hq).1
      rw [hempty] at hmem
      cases hmem
    rw [judgeDispatch_stays (.inr (.inr hnone))]
    exact ⟨rfl, functionValue_setFunction .transferStart 0 _⟩
  case sent =>
    intro g base first hg hrunning hany queued hnear
    obtain ⟨q₀, hq₀⟩ := hany
    obtain ⟨q, hq, hnext, hfirst⟩ := nextChoice_some (l := timedOut tr.number s.line)
      ⟨q₀, hqueued.mpr ⟨hq₀, (hnear q₀ hq₀).1⟩⟩
    have hsent := judgeDispatch_sends (l := timedOut tr.number s.line) rfl hrunning hnext
    have hbases : ∀ r, Queued s.line r → NearBases base first r := fun r hr => (hnear r hr).2
    obtain ⟨hq, hother⟩ := hqueued.mp hq
    rw [hsent]
    refine ⟨q, hq, fun r hr => ?_, ?_, fun hfind => ?_, functionValue_setFunction .transferStart q.number _⟩
    · refine dispatchRank_le (hbases q hq) (hbases r hr) (hfirst base first (fun x hx => hbases x (hqueued.mp hx).1) r ?_)
      exact hqueued.mpr ⟨hr, (hnear r hr).1⟩
    · have hlimit : transitMs (timedOut tr.number s.line) = g.transitLimit * 1000 := by
        rw [transitMs, show (timedOut tr.number s.line).active = some g from hg]
        rfl
      simp only [dispatch, hlimit]
      rfl
    · have hthere : pallet? (timedOut tr.number s.line) q.number = some q :=
        (pallet?_abandoned hfind).trans (by rw [if_neg hother])
      show pallet? (changePallet q.number _ (timedOut tr.number s.line)) q.number = _
      rw [pallet?_changePallet _ _ _ (by intro x; rfl), hthere, Option.map_some, if_pos rfl]

end Sys2Proof.Machine
end

section
/-! The statement of PALLET_CONFIRM (R156, R159, R160, R163 to R167, R171, R172). -/

namespace Sys2Proof.Machine

theorem exec_palletConfirm (s : State) : exec .palletConfirm s = .next (s.onLine takeConfirm) := rfl

/-! ## Retirement -/

theorem canRetire_iff {l : Line} {n : Nat} {x : Lot} (hx : lot? l n = some x) :
    canRetire l x = true ↔ x.isOpen = false ∧ x.verdict ≠ .pending ∧ x.onTrack = 0 ∧ (∀ e ∈ l.pack.feed, e.lot ≠ n)
      ∧ x.livePallets = 0 := by
  rw [← not_hasFeed_iff, canRetire, lot?_number hx]
  simp only [Bool.and_eq_true, Bool.not_eq_true', bne_iff_ne, beq_iff_eq, and_assoc]

theorem judgeRetirement_unready {l : Line} {n : Nat} {x : Lot} (hx : lot? l n = some x) (h : ¬ canRetire l x = true) :
    judgeRetirement n l = l := by
  rw [judgeRetirement, hx]
  exact if_neg h

/-- Lots that a feed entry keeps come through their judgments (R167). -/
theorem foldl_judgeRetirement_stays {l : Line} (es : List PalletLot)
    (h : ∀ e ∈ es, hasFeed l e.lot = true ∧ ∃ x, lot? l e.lot = some x) :
    es.foldl (fun l e => judgeRetirement e.lot l) l = l := by
  induction es with
  | nil => rfl
  | cons e es ih =>
    obtain ⟨hfeed, x, hx⟩ := h e (by simp)
    rw [List.foldl_cons, judgeRetirement_stays hx (.inr (.inr hfeed))]
    exact ih fun e' he' => h e' (List.mem_cons_of_mem e he')

/-! ## Resolution -/

/-- A lot of the list is still PENDING (R164). -/
def SomePending (l : Line) (p : Pallet) : Prop := ∃ e ∈ p.lots, ∃ x, lot? l e.lot = some x ∧ x.verdict = .pending

theorem lotsFinal_iff {l : Line} {p : Pallet} : lotsFinal l p = true ↔ ¬ SomePending l p := by
  simp only [lotsFinal, List.all_eq_true, SomePending, not_exists, not_and]
  refine forall₂_congr fun e _ => ?_
  cases lot? l e.lot <;> simp

theorem judgeResolution_waits {l : Line} {n : Nat} {p : Pallet} (hp : pallet? l n = some p) (h : SomePending l p) :
    judgeResolution n l = l := by
  rw [judgeResolution, hp]
  exact if_neg fun hready => lotsFinal_iff.mp hready.2 h

theorem judgeResolution_resolves {l : Line} {n : Nat} {p : Pallet} (hp : pallet? l n = some p) (hstored : p.state = .stored)
    (h : ¬ SomePending l p) : judgeResolution n l = resolvePallet p l := by
  rw [judgeResolution, hp]
  exact if_pos ⟨hstored, lotsFinal_iff.mpr h⟩

theorem pallet?_storePallet {l : Line} {n : Nat} {p : Pallet} (hp : pallet? l n = some p) :
    pallet? (storePallet n l) n = some { p with state := .stored, timer := .idle } := by
  rw [storePallet, pallet?_changePallet _ _ _ (by intro x; rfl), hp, Option.map_some, if_pos (pallet?_number hp)]

/-- One live pallet less for a lot. -/
def Lot.releasePallet (x : Lot) : Lot := { x with livePallets := x.livePallets - 1 }

/-- The line with a pallet's record written and freed and its lots released, before they are judged (R166). -/
def closedOut (p : Pallet) (l : Line) : Line :=
  (p.lots.map (·.lot)).foldl (fun l n => changeLot n Lot.releasePallet l)
    { raise .palletResolved (writeReserved .pallet (palletPayload l p) l) with
      pack := { l.pack with pallets := l.pack.pallets.filter (·.number != p.number) } }

theorem writeReserved_pack (k : RecordKind) (p : List Word) (l : Line) : (writeReserved k p l).pack = l.pack := by
  unfold writeReserved
  split <;> rfl

theorem resolvePallet_eq (p : Pallet) (l : Line) :
    resolvePallet p l = openPallets (p.lots.foldl (fun l e => judgeRetirement e.lot l) (closedOut p l)) := by
  rw [closedOut, List.foldl_map, ← writeReserved_pack .pallet (palletPayload l p) l]
  rfl

theorem foldl_changeLot_lots (f : Lot → Lot) (ns : List Nat) (l : Line) :
    ∃ lots, ns.foldl (fun l n => changeLot n f l) l = { l with track := { l.track with lots := lots } } := by
  induction ns generalizing l with
  | nil => exact ⟨_, rfl⟩
  | cons n ns ih =>
    obtain ⟨lots, h⟩ := ih (changeLot n f l)
    exact ⟨lots, h⟩

theorem lot?_foldl_changeLot_other {f : Lot → Lot} (hf : ∀ x, (f x).number = x.number) {ns : List Nat} {l : Line} {n : Nat}
    (hn : n ∉ ns) : lot? (ns.foldl (fun l n => changeLot n f l) l) n = lot? l n := by
  induction ns generalizing l with
  | nil => rfl
  | cons k ns ih =>
    obtain ⟨hk, hns⟩ := not_or.mp (mt List.mem_cons.mpr hn)
    rw [List.foldl_cons, ih hns, lot?_changeLot _ _ _ hf]
    cases hx : lot? l n with
    | none => rfl
    | some x => simp [lot?_number hx, hk]

/-- What the closing out of a record leaves (R166). -/
theorem closedOut_spec {p : Pallet} {l : Line} (hreserved : 0 < l.log.reserved) (hnodup : (p.lots.map (·.lot)).Nodup) :
    let k := closedOut p l
    k.log = { appended l.log (now l) .pallet (palletPayload l p) with reserved := l.log.reserved - 1 }
      ∧ k.pack = { l.pack with pallets := l.pack.pallets.filter (·.number != p.number) }
      ∧ (∀ e ∈ p.lots, ∀ x, lot? l e.lot = some x →
          lot? k e.lot = some { x with livePallets := x.livePallets - 1 })
      ∧ (∀ n, (∀ e ∈ p.lots, e.lot ≠ n) → lot? k n = lot? l n)
      ∧ { k with log := l.log, pack := l.pack, track := { k.track with lots := l.track.lots } } =
          raise .palletResolved l := by
  intro k
  let written : Line := { l with
    log := { appended l.log (now l) .pallet (palletPayload l p) with reserved := l.log.reserved - 1 } }
  let freed : Line := { raise .palletResolved written with
    pack := { l.pack with pallets := l.pack.pallets.filter (·.number != p.number) } }
  have hk : k = (p.lots.map (·.lot)).foldl (fun l n => changeLot n Lot.releasePallet l) freed := by
    show closedOut p l = _
    rw [closedOut, writeReserved_appended hreserved]
  obtain ⟨lots, hlots⟩ := foldl_changeLot_lots Lot.releasePallet (p.lots.map (·.lot)) freed
  refine ⟨by rw [hk, hlots]; rfl, by rw [hk, hlots], fun e he x hx => ?_, fun n hn => ?_, by rw [hk, hlots]; rfl⟩
  · rw [hk, lot?_foldl_changeLot Lot.releasePallet (fun _ => rfl) _ freed _ x hnodup hx,
      if_pos (List.mem_map_of_mem he)]
    rfl
  · have hnot : n ∉ p.lots.map (·.lot) := fun hmem => by
      obtain ⟨e, he, hen⟩ := List.mem_map.mp hmem
      exact hn e he hen
    rw [hk]
    exact lot?_foldl_changeLot_other (f := Lot.releasePallet) (fun _ => rfl) (l := freed) hnot

/-! ## The freed path -/

theorem desc_setFunction (f : ChanFunction) (v : Int) (l : Line) (j : Nat) :
    (chan (setFunction f v l) j).desc = (chan l j).desc := (setFunction_still f v l).within.desc j

/-- The freeing of the path beside any change of the pallets and the transfer unit (R160 to R162). -/
theorem pathFreed_of {l m : Line} (hchans : m.chans = (setFunction .transferStart 0 l).chans)
    (hrest : { m with chans := l.chans } = { l with pack := { l.pack with pallets := m.pack.pallets }, transfer := m.transfer }) :
    PathFreed l m m.pack.pallets m.transfer := by
  have hchan : ∀ j, chan m j = chan (setFunction .transferStart 0 l) j := fun j => chan_congr hchans j
  refine ⟨hrest, fun j => ⟨?_, fun hkind hfunc => ?_, fun h => ?_⟩⟩
  · rw [hchan, desc_setFunction]
  · rw [hchan]
    refine functionValue_setFunction .transferStart 0 l j ?_ ?_
    · rw [desc_setFunction, hkind]
    · rw [desc_setFunction, hfunc]
  · rw [hchan, setFunction_other .transferStart 0 l j h]

theorem pathFreed_abandoned (n : Nat) (l : Line) :
    PathFreed l (abandoned n l)
      (l.pack.pallets.map fun q => if q.number = n then { q with state := .unconfirmed } else q)
      { l.transfer with transit := none } :=
  pathFreed_of rfl rfl

/-! ## PALLET_CONFIRM -/

theorem confirmChecks_pass {a : Slot} {l : Line} {p : Pallet} (hnumber : a.arg2.toNat = p.number) (hone : 1 ≤ p.number)
    (hmax : p.number ≤ 65535) (hp : pallet? l p.number = some p) (hstate : p.state = .unconfirmed) :
    refusal (confirmChecks a l) = none := by
  rw [confirmChecks, hnumber, hp]
  have hwithin : within 1 65535 p.number = true := by simp [within, hone, hmax]
  simp [refusal, hwithin, hstate]

/-- The outcome of a pallet: 0 exactly for one of a lane not HOLD, not EXPOSED, its lots all RELEASED (R165). -/
theorem palletOutcome_eq (l : Line) (p : Pallet) :
    let released := p.lane ≠ .hold ∧ p.exposed = false ∧ ∀ e ∈ p.lots, ∀ x, lot? l e.lot = some x → x.verdict = .released
    (released → palletOutcome l p = 0) ∧ (¬ released → palletOutcome l p = 1) := by
  intro released
  have hany : (p.lots.any fun e => (lot? l e.lot).any (·.verdict != .released)) = false
      ↔ ∀ e ∈ p.lots, ∀ x, lot? l e.lot = some x → x.verdict = .released := by
    simp only [List.any_eq_false]
    refine forall₂_congr fun e _ => ?_
    cases lot? l e.lot <;> simp
  have hreasons : palletReasons l p = 0 ↔ released := by
    simp only [released, ← hany, palletReasons]
    generalize (p.lots.any fun e => (lot? l e.lot).any (·.verdict != .released)) = anyHeld
    by_cases hlane : p.lane = .hold <;> cases p.exposed <;> cases anyHeld <;> simp [hlane, flag]
  unfold palletOutcome
  rw [← hreasons]
  exact ⟨fun h => if_pos h, fun h => if_neg h⟩

/-- A confirmation whose pallet waits for a lot. -/
theorem palletConfirm_waits (s : State) (i : Nat) (p : Pallet) (x : Lot) (hhead : HeadIs s.line i .palletConfirm)
    (hnumber : (slotAt s.line i).arg2.toNat = p.number) (hone : 1 ≤ p.number) (hmax : p.number ≤ 65535)
    (hp : pallet? s.line p.number = some p) (hstate : p.state = .unconfirmed)
    (hlot : ∃ e ∈ p.lots, lot? s.line e.lot = some x) (hpending : x.verdict = .pending) :
    ∃ t, exec .palletConfirm s = .next t ∧ BlocksOnly s t
      ∧ Completed s.line t.line i { code := .ok, v9 := 0, v10 := 0 }
      ∧ pallet? t.line p.number = some { p with state := .stored, timer := .idle }
      ∧ t.line.transfer = s.line.transfer ∧ t.line.log = s.line.log ∧ t.line.track = s.line.track := by
  have hstored := pallet?_storePallet (l := leaveQueue s.line) hp
  have hwaits : SomePending (storePallet p.number (leaveQueue s.line)) { p with state := .stored, timer := .idle } := by
    obtain ⟨e, he, hx⟩ := hlot
    exact ⟨e, he, x, hx, hpending⟩
  have hfinal : lotsFinal (storePallet p.number (leaveQueue s.line)) { p with state := .stored, timer := .idle } = false :=
    Bool.eq_false_iff.mpr fun h => lotsFinal_iff.mp h hwaits
  have htake := take_immediate (act := actConfirm) (busy := neverBusy) hhead rfl
    (confirmChecks_pass (l := leaveQueue s.line) hnumber hone hmax hp hstate)
  simp only [actConfirm, hnumber, hstored, judgeResolution_waits hstored hwaits, Option.any_some, hfinal] at htake
  rw [exec_palletConfirm]
  refine ⟨_, rfl, ⟨rfl, rfl, rfl⟩, ?_⟩
  rw [onLine_line, show takeConfirm s.line = _ from htake]
  exact ⟨completed_of hhead.2.1 rfl, hstored, rfl, rfl, rfl⟩

/-- With the BAG zone not RUNNING no lane lacks a pallet (R154). -/
theorem holdWanted_off {l : Line} (h : bagRunning l = false) : holdWanted l = false := by
  rw [holdWanted, h]
  rfl

/-- A confirmation whose pallet is resolved in the taking. -/
theorem palletConfirm_resolves (s : State) (i : Nat) (p : Pallet) (hhead : HeadIs s.line i .palletConfirm)
    (hnumber : (slotAt s.line i).arg2.toNat = p.number) (hone : 1 ≤ p.number) (hmax : p.number ≤ 65535)
    (hp : pallet? s.line p.number = some p) (hstate : p.state = .unconfirmed) (hbag : bagRunning s.line = false)
    (hreserved : 0 < s.line.log.reserved) (hnodup : (p.lots.map (·.lot)).Nodup)
    (hlots : ∀ e ∈ p.lots, (∃ f ∈ s.line.pack.feed, f.lot = e.lot)
      ∧ ∃ x, lot? s.line e.lot = some x ∧ x.verdict ≠ .pending) :
    ∃ t, exec .palletConfirm s = .next t ∧ BlocksOnly s t
      ∧ Completed s.line t.line i { code := .ok, v9 := 1, v10 := word (palletOutcome s.line p) }
      ∧ t.line.pack =
          { s.line.pack with
            pallets := s.line.pack.pallets.filter (·.number != p.number), baggerHold := false }
      ∧ noticeSet t.line .palletResolved = true
      ∧ t.line.log =
          { appended s.line.log (now s.line) .pallet (palletPayload s.line p) with
            reserved := s.line.log.reserved - 1 }
      ∧ (∀ e ∈ p.lots, ∀ x, lot? s.line e.lot = some x →
          lot? t.line e.lot = some { x with livePallets := x.livePallets - 1 })
      ∧ (∀ n, (∀ e ∈ p.lots, e.lot ≠ n) → lot? t.line n = lot? s.line n)
      ∧ t.line.transfer = s.line.transfer ∧ t.line.zones = s.line.zones
      ∧ PlantOnly s.line { t.line with request := s.line.request } := by
  let m : Line := storePallet p.number (leaveQueue s.line)
  let stored : Pallet := { p with state := .stored, timer := .idle }
  have hstored : pallet? m p.number = some stored := pallet?_storePallet (l := leaveQueue s.line) hp
  have hnone : ¬ SomePending m stored := by
    rintro ⟨e, he, x, hx, hpending⟩
    obtain ⟨-, y, hy, hfinal⟩ := hlots e he
    obtain rfl := Option.some.inj (hx.symm.trans hy)
    exact hfinal hpending
  obtain ⟨hlog, hpack, hreleased, hothers, hrest⟩ := closedOut_spec (p := stored) (l := m) hreserved hnodup
  have hstays : (stored.lots.foldl (fun l e => judgeRetirement e.lot l) (closedOut stored m)) = closedOut stored m := by
    refine foldl_judgeRetirement_stays _ fun e he => ?_
    obtain ⟨⟨f, hf, hfe⟩, x, hx, -⟩ := hlots e he
    refine ⟨?_, _, hreleased e he x hx⟩
    rw [hasFeed, hpack]
    exact List.any_eq_true.mpr ⟨f, hf, by simpa using hfe⟩
  have hzones : (closedOut stored m).zones = s.line.zones := by
    have e := congrArg Line.zones hrest
    exact e
  have hoff : bagRunning (closedOut stored m) = false := (kindIn_congr (l := s.line) hzones .bag .running).trans hbag
  have hresolve : judgeResolution p.number m = judgeHold (closedOut stored m) := by
    rw [judgeResolution_resolves hstored rfl hnone, resolvePallet_eq, hstays, openPallets_off hoff]
  obtain ⟨hheldPack, hheldLog, -, -, -, hnotices, hframe, -⟩ := judgeHold_spec (closedOut stored m)
  rw [holdWanted_off hoff] at hheldPack
  have hstill := actConfirm_still (slotAt s.line i) (leaveQueue s.line)
  have htake := take_immediate (act := actConfirm) (busy := neverBusy) hhead rfl
    (confirmChecks_pass (l := leaveQueue s.line) hnumber hone hmax hp hstate)
  have hact : actConfirm (slotAt s.line i) (leaveQueue s.line)
      = ({ code := .ok, v9 := 1, v10 := word (palletOutcome s.line p) }, judgeHold (closedOut stored m)) := by
    simp only [actConfirm, hnumber]
    rw [show storePallet p.number (leaveQueue s.line) = m from rfl, hstored, hresolve, Option.any_some,
      lotsFinal_iff.mpr hnone]
    rfl
  rw [hact] at htake hstill
  have htrack : (judgeHold (closedOut stored m)).track = (closedOut stored m).track := by
    have e := congrArg Line.track hframe
    exact e
  have hlot : ∀ n, lot? (judgeHold (closedOut stored m)) n = lot? (closedOut stored m) n := fun n => lot?_congr htrack n
  have hnotice : noticeSet (judgeHold (closedOut stored m)) .palletResolved = true := by
    rw [hnotices .palletResolved (by decide), noticeSet]
    have e := congrArg (fun l : Line => l.status.notices) hrest
    rw [show (closedOut stored m).status.notices = _ from e]
    exact raise_noticeSet_self .palletResolved m
  have htransfer : (judgeHold (closedOut stored m)).transfer = s.line.transfer := by
    have e := congrArg Line.transfer hframe
    have e' := congrArg Line.transfer hrest
    exact Eq.trans e e'
  rw [exec_palletConfirm]
  refine ⟨_, rfl, ⟨rfl, rfl, rfl⟩, ?_⟩
  rw [onLine_line, show takeConfirm s.line = _ from htake]
  generalize judgeHold (closedOut stored m) = r at *
  obtain ⟨-, hactive, hmatch, hlink, hstop, hstatus⟩ := hstill.within.plantOnly
  refine ⟨completed_of hhead.2.1 hstill.within.request, ?_, ?_, ?_, fun e he x hx => ?_, fun n hn => ?_, htransfer,
    hstill.zones, rfl, hactive, hmatch, hlink, hstop, ?_⟩
  · have hfilter : m.pack.pallets.filter (·.number != p.number) = s.line.pack.pallets.filter (·.number != p.number) :=
      filter_number_map Pallet.number p.number _ (by intro x; rfl) s.line.pack.pallets
    exact hheldPack.trans (by rw [hpack, hfilter]; rfl)
  · exact complete_notices _ _ _ _ hnotice
  · exact hheldLog.trans hlog
  · exact (hlot e.lot).trans (hreleased e he x hx)
  · exact (hlot n).trans (hothers n hn)
  · exact hstatus

/-! ## The store confirmation -/

/-- The path with a pallet stored and the confirmation counted (R160). -/
def storedInTransit (n : Nat) (l : Line) : Line :=
  { freePath (storePallet n l) with
    transfer := { l.transfer with transit := none, confirmations := l.transfer.confirmations + 1 } }

theorem storeConfirmation_inTransit {l : Line} {tr : Transit} (h : l.transfer.transit = some tr) :
    storeConfirmation tr.number l = judgeDispatch (judgeResolution tr.number (storedInTransit tr.number l)) := by
  rw [storeConfirmation, h]
  exact if_pos ⟨rfl, rfl⟩

theorem not_inTransit {l : Line} {n : Nat} (h : ∀ tr, l.transfer.transit = some tr → tr.number ≠ n) :
    ¬ (l.transfer.transit.isSome = true ∧ (l.transfer.transit.map (·.number)).getD 0 = n) := by
  rintro ⟨hsome, hnumber⟩
  cases htransit : l.transfer.transit with
  | none => rw [htransit] at hsome; cases hsome
  | some tr =>
    rw [htransit] at hnumber
    exact h tr htransit hnumber

theorem storeConfirmation_late {l : Line} {n : Nat} {p : Pallet}
    (h : ∀ tr, l.transfer.transit = some tr → tr.number ≠ n) (hp : pallet? l n = some p) (hstate : p.state = .unconfirmed) :
    storeConfirmation n l = judgeResolution n
      { storePallet n l with transfer := { l.transfer with lates := l.transfer.lates + 1 } } := by
  have hlate : (pallet? l n).any (·.state == .unconfirmed) = true := by simp [hp, hstate]
  unfold storeConfirmation
  dsimp only
  rw [if_neg (not_inTransit h), if_pos hlate]
  rfl

/-- A store confirmation that names no pallet awaiting one, before the path is given up (R160). -/
def mismatched (n : Nat) (l : Line) : Line :=
  { offer .storeMismatch [word n, word ((l.transfer.transit.map (·.number)).getD 0)] (raise .storeMismatch l) with
    transfer := { l.transfer with mismatches := l.transfer.mismatches + 1, lastMismatch := n } }

theorem storeConfirmation_mismatch {l : Line} {n : Nat} (h : ∀ tr, l.transfer.transit = some tr → tr.number ≠ n)
    (hnone : ∀ p, pallet? l n = some p → p.state ≠ .unconfirmed) :
    storeConfirmation n l
      = if l.transfer.transit.isSome then judgeDispatch (abandonTransit (mismatched n l)) else mismatched n l := by
  have hlate : ¬ (pallet? l n).any (·.state == .unconfirmed) = true := by
    cases hp : pallet? l n with
    | none => simp
    | some p => simpa using hnone p hp
  have htransfer := (offer_blocks .storeMismatch [word n, word ((l.transfer.transit.map (·.number)).getD 0)]
    (raise .storeMismatch l)).2.2
  unfold storeConfirmation
  dsimp only
  rw [if_neg (not_inTransit h), if_neg hlate, htransfer]
  rfl

/-- What a mismatch leaves (R160, R172). -/
theorem mismatched_spec (n : Nat) (l : Line) :
    Offered l.log (reserveFloor l) (now l) .storeMismatch [word n, word ((l.transfer.transit.map (·.number)).getD 0)]
        (mismatched n l)
      ∧ noticeSet (mismatched n l) .storeMismatch = true
      ∧ (∀ x : Notice, x ≠ .storeMismatch → x ≠ .logDrop → x ≠ .logThreshold →
          noticeSet (mismatched n l) x = noticeSet l x)
      ∧ { mismatched n l with log := l.log, status := { (mismatched n l).status with notices := l.status.notices } } =
          { l with transfer := { l.transfer with mismatches := l.transfer.mismatches + 1, lastMismatch := n } } := by
  obtain ⟨hoffered, hframe, hnotices⟩ :=
    offer_spec .storeMismatch [word n, word ((l.transfer.transit.map (·.number)).getD 0)] (raise .storeMismatch l)
  unfold mismatched
  generalize offer .storeMismatch [word n, word ((l.transfer.transit.map (·.number)).getD 0)] (raise .storeMismatch l) = m
    at hoffered hframe hnotices
  refine ⟨hoffered, ?_, fun x hx hdrop hthreshold => ?_, ?_⟩
  · exact (hnotices .storeMismatch (by decide) (by decide)).trans (raise_noticeSet_self .storeMismatch l)
  · exact (hnotices x hdrop hthreshold).trans (noticeSet_raise_ne l hx)
  · have e := congrArg (fun m : Line => { m with
      status := { m.status with notices := l.status.notices }
      transfer := { l.transfer with mismatches := l.transfer.mismatches + 1, lastMismatch := n } }) hframe
    exact e

theorem storeConfirmation_spec (l : Line) (n : Nat) :
    let l' := storeConfirmation n l
    let marked (k : Nat) (f : Pallet → Pallet) : List Pallet :=
      l.pack.pallets.map fun q => if q.number = k then f q else q
    (∀ tr p, l.transfer.transit = some tr → tr.number = n → pallet? l n = some p →
      let stored : Pallet := { p with state := .stored, timer := .idle }
      ∃ m, PathFreed l m (marked n fun q => { q with state := .stored, timer := .idle })
          { l.transfer with transit := none, confirmations := l.transfer.confirmations + 1 }
        ∧ pallet? m n = some stored
        ∧ (SomePending l p → l' = judgeDispatch m)
        ∧ (¬ SomePending l p → l' = judgeDispatch (resolvePallet stored m)))
    ∧ (∀ p, (∀ tr, l.transfer.transit = some tr → tr.number ≠ n) → pallet? l n = some p → p.state = .unconfirmed →
      let stored : Pallet := { p with state := .stored, timer := .idle }
      let m := { l with
        pack := { l.pack with pallets := marked n fun q => { q with state := .stored, timer := .idle } }
        transfer := { l.transfer with lates := l.transfer.lates + 1 } }
      pallet? m n = some stored
      ∧ (SomePending l p → l' = m)
      ∧ (¬ SomePending l p → l' = resolvePallet stored m))
    ∧ ((∀ tr, l.transfer.transit = some tr → tr.number ≠ n) → (∀ p, pallet? l n = some p → p.state ≠ .unconfirmed) →
      ∃ m, Offered l.log (reserveFloor l) (now l) .storeMismatch
          [word n, word ((l.transfer.transit.map (·.number)).getD 0)] m
        ∧ noticeSet m .storeMismatch = true
        ∧ (∀ x : Notice, x ≠ .storeMismatch → x ≠ .logDrop → x ≠ .logThreshold → noticeSet m x = noticeSet l x)
        ∧ { m with log := l.log, status := { m.status with notices := l.status.notices } } =
            { l with transfer := { l.transfer with mismatches := l.transfer.mismatches + 1, lastMismatch := n } }
        ∧ (l.transfer.transit = none → l' = m)
        ∧ ∀ tr, l.transfer.transit = some tr →
          ∃ k, PathFreed m k (marked tr.number fun q => { q with state := .unconfirmed })
              { m.transfer with transit := none }
            ∧ l' = judgeDispatch k) := by
  intro l' marked
  refine ⟨?inTransit, ?late, ?mismatch⟩
  case inTransit =>
    rintro tr p htransit rfl hp stored
    have hstored : pallet? (storedInTransit tr.number l) tr.number = some stored := pallet?_storePallet hp
    have heq : l' = _ := storeConfirmation_inTransit htransit
    refine ⟨storedInTransit tr.number l, pathFreed_of rfl rfl, hstored, fun hpending => ?_, fun hfinal => ?_⟩
    · rw [heq, judgeResolution_waits hstored hpending]
    · rw [heq, judgeResolution_resolves hstored rfl hfinal]
  case late =>
    intro p hother hp hstate stored m
    have hstored : pallet? m n = some stored := pallet?_storePallet hp
    have heq : l' = judgeResolution n m := storeConfirmation_late hother hp hstate
    refine ⟨hstored, fun hpending => ?_, fun hfinal => ?_⟩
    · rw [heq, judgeResolution_waits hstored hpending]
    · rw [heq, judgeResolution_resolves hstored rfl hfinal]
  case mismatch =>
    intro hother hnone
    obtain ⟨hoffered, hraised, hnotices, hframe⟩ := mismatched_spec n l
    have heq : l' = _ := storeConfirmation_mismatch hother hnone
    refine ⟨mismatched n l, hoffered, hraised, hnotices, hframe, fun htransit => ?_, fun tr htransit => ?_⟩
    · rw [heq, htransit]
      rfl
    · have hpallets : (mismatched n l).pack.pallets = l.pack.pallets := by
        have e := congrArg (fun m : Line => m.pack.pallets) hframe
        exact e
      have hm : (mismatched n l).transfer.transit = some tr := htransit
      refine ⟨abandoned tr.number (mismatched n l), ?_, ?_⟩
      · simp only [marked, ← hpallets]
        exact pathFreed_abandoned tr.number (mismatched n l)
      · rw [heq, htransit, ← abandonTransit_some hm]
        rfl

/-- The dispatch judgment, said with the pallets queued (R159). -/
theorem judgeDispatch_spec (l : Line) :
    let l' := judgeDispatch l
    (l.transfer.transit.isSome = true ∨ kindIn l .transfer .running = false ∨ (∀ q, ¬ Queued l q) → l' = l)
    ∧ ∀ g, l.active = some g → l.transfer.transit = none → kindIn l .transfer .running = true → (∃ q, Queued l q) →
      ∃ q, Queued l q
        ∧ l'.transfer = { l.transfer with
            transit := some { number := q.number, deadline := now l + word (g.transitLimit * 1000) }
            lastDispatch := now l, dispatches := l.transfer.dispatches + 1 }
        ∧ l'.pack = { l.pack with
            pallets := l.pack.pallets.map fun r => if r.number = q.number then { r with state := .inTransit } else r }
        ∧ { l' with transfer := l.transfer, pack := l.pack, chans := l.chans } = l := by
  refine ⟨judgeDispatch_stays, fun g hg hidle hrunning hany => ?_⟩
  obtain ⟨q, hq, hnext, -⟩ := nextChoice_some hany
  have hlimit : transitMs l = g.transitLimit * 1000 := by
    rw [transitMs, hg]
    rfl
  refine ⟨q, hq, ?_⟩
  rw [judgeDispatch_sends hidle hrunning hnext]
  simp only [dispatch, hlimit]
  exact ⟨rfl, rfl, rfl⟩

/-- Settles O54: the two confirmations, the resolution, the retirement, the dispatch and the store confirmation. -/
theorem palletConfirmStoresThePallet : Obligations.PalletConfirmStoresThePallet := by
  refine ⟨palletConfirm_waits, ?resolves, ?resolution, ?retirement, judgeDispatch_spec, storeConfirmation_spec⟩
  case resolves =>
    intro s i p hhead hnumber hone hmax hp hstate hbag hreserved hnodup hlots released
    obtain ⟨t, hexec, hblocks, hdone, hrest⟩ :=
      palletConfirm_resolves s i p hhead hnumber hone hmax hp hstate hbag hreserved hnodup hlots
    obtain ⟨hreleased, hquarantined⟩ := palletOutcome_eq s.line p
    exact ⟨t, word (palletOutcome s.line p), hexec, hblocks, hdone, fun h => by rw [hreleased h]; rfl,
      fun h => by rw [hquarantined h]; rfl, hrest⟩
  case resolution =>
    intro l p hreserved hnodup
    exact ⟨closedOut p l, resolvePallet_eq p l, closedOut_spec hreserved hnodup⟩
  case retirement =>
    intro l n x hx hreserved retires
    exact ⟨fun h => judgeRetirement_retires hx ((canRetire_iff hx).mpr h) hreserved,
      fun h => judgeRetirement_unready hx (mt (canRetire_iff hx).mp h)⟩

end Sys2Proof.Machine
end

section
/-! The statement of PALLET_CLOSE (R152, R153, R158, R171). -/

namespace Sys2Proof.Machine

theorem exec_palletClose (s : State) : exec .palletClose s = .next (s.onLine takePalletClose) := rfl

theorem palletCloseChecks_pass {a : Slot} {l : Line} {p : Pallet} (hlane : a.arg2 = 0 ∨ a.arg2 = 1)
    (hopen : openPallet l (laneOf a) = some p) : refusal (palletCloseChecks a l) = none := by
  have hflag : isFlag a.arg2 = true := by
    rcases hlane with h | h <;> rw [h] <;> rfl
  rw [palletCloseChecks, hopen, hflag]
  rfl

/-- What the judgment of BAGGER_HOLD leaves, all but the hold and its output. -/
theorem judgeHold_kept (l : Line) :
    (judgeHold l).pack.pallets = l.pack.pallets ∧ (judgeHold l).log = l.log ∧ (judgeHold l).track = l.track
      ∧ (judgeHold l).zones = l.zones ∧ (judgeHold l).transfer = l.transfer := by
  obtain ⟨hpack, hlog, -, -, -, -, hframe, -⟩ := judgeHold_spec l
  have hpallets := congrArg Pack.pallets hpack
  have htrack := congrArg Line.track hframe
  have hzones := congrArg Line.zones hframe
  have htransfer := congrArg Line.transfer hframe
  exact ⟨hpallets, hlog, htrack, hzones, htransfer⟩

/-- The line with a pallet's record freed and its reservation returned (R153, R171). -/
def discarded (n : Nat) (l : Line) : Line :=
  returnReservation { l with pack := { l.pack with pallets := l.pack.pallets.filter (·.number != n) } }

/-- The line with a pallet CLOSED at the end of the queue (R152, R158). -/
def joinedQueue (n : Nat) (r : CloseReason) (l : Line) : Line :=
  { changePallet n (fun p => { p with state := .closed, reason := r, joinOrder := some l.transfer.joinCounter }) l with
    transfer := { l.transfer with joinCounter := l.transfer.joinCounter + 1 } }

theorem closePallet_eq (n : Nat) (r : CloseReason) (l : Line) :
    closePallet n r l = openPallets (judgeDispatch (joinedQueue n r l)) := rfl

theorem pallet?_joinedQueue {l : Line} {n : Nat} {p : Pallet} (r : CloseReason) (hp : pallet? l n = some p) :
    pallet? (joinedQueue n r l) n
      = some { p with state := .closed, reason := r, joinOrder := some l.transfer.joinCounter } := by
  show pallet? (changePallet n _ l) n = _
  rw [pallet?_changePallet _ _ _ (by intro x; rfl), hp, Option.map_some, if_pos (pallet?_number hp)]

/-- Settles O53: the discarding of an empty pallet, and the queueing behind a BUSY path. -/
theorem palletCloseDiscardsOrQueuesThePallet : Obligations.PalletCloseDiscardsOrQueuesThePallet := by
  intro s i p hhead hlane hopen hbag
  have hopen' : openPallet (leaveQueue s.line) (laneOf (slotAt s.line i)) = some p := hopen
  have htake := take_immediate (act := actPalletClose) (busy := neverBusy) hhead rfl
    (palletCloseChecks_pass hlane hopen')
  rw [exec_palletClose]
  refine ⟨fun hempty => ?discards, fun hbags hp hbusy => ?queues⟩
  case discards =>
    have hoff : bagRunning (discarded p.number (leaveQueue s.line)) = false := hbag
    have hact : actPalletClose (slotAt s.line i) (leaveQueue s.line)
        = ({ code := .ok, v9 := word p.number, v10 := 1 }, judgeHold (discarded p.number (leaveQueue s.line))) := by
      rw [actPalletClose, hopen']
      dsimp only
      rw [if_pos hempty, discardPallet, ← discarded, openPallets_off hoff]
    have hstill := actPalletClose_still (slotAt s.line i) (leaveQueue s.line)
    obtain ⟨hpallets, hlog, htrack, hzones, htransfer⟩ := judgeHold_kept (discarded p.number (leaveQueue s.line))
    rw [hact] at htake hstill
    refine ⟨_, rfl, ⟨rfl, rfl, rfl⟩, ?_⟩
    rw [onLine_line, show takePalletClose s.line = _ from htake]
    exact ⟨completed_of hhead.2.1 hstill.within.request, hpallets, hlog, htrack, hzones, htransfer⟩
  case queues =>
    let m : Line := joinedQueue p.number .host (leaveQueue s.line)
    have hoff : bagRunning m = false := hbag
    have hact : actPalletClose (slotAt s.line i) (leaveQueue s.line)
        = ({ code := .ok, v9 := word p.number, v10 := 0 }, judgeHold m) := by
      rw [actPalletClose, hopen']
      dsimp only
      rw [if_neg hbags, closePallet_eq, judgeDispatch_stays (l := m) (.inl hbusy), openPallets_off hoff]
    have hstill := actPalletClose_still (slotAt s.line i) (leaveQueue s.line)
    obtain ⟨hpallets, hlog, htrack, hzones, htransfer⟩ := judgeHold_kept m
    rw [hact] at htake hstill
    refine ⟨_, rfl, ⟨rfl, rfl, rfl⟩, ?_⟩
    rw [onLine_line, show takePalletClose s.line = _ from htake]
    refine ⟨completed_of hhead.2.1 hstill.within.request, ?_, htransfer, hlog, htrack, hzones⟩
    exact (pallet?_congr hpallets p.number).trans (pallet?_joinedQueue (l := leaveQueue s.line) .host hp)

end Sys2Proof.Machine
end

section
/-! The statement of the exposure timer (R149, R152, R156 to R159, R171, R172). -/

namespace Sys2Proof.Machine

theorem exec_exposureTimerExpiry (n : BitVec 16) (s : State) :
    exec (.exposureTimerExpiry n) s = .next (s.onLine (exposureExpires n.toNat)) := rfl

/-! ## The log after a record -/

/-- With two entries free a record takes one of them, whatever the indices hold. -/
theorem usedCount_appended_le {g : RecordLog} (h : usedCount g + 2 ≤ 1024) (t : Word) (k : RecordKind) (p : List Word) :
    usedCount (appended g t k p) ≤ usedCount g + 1 := by
  simp only [usedCount, appended, Config.logCount] at h ⊢
  by_cases hfull : g.full = true
  · rw [if_pos hfull] at h
    omega
  · rw [if_neg hfull] at h ⊢
    by_cases hnow : (g.producer + 1) % 1024 = g.consumer
    · simp only [hnow, beq_self_eq_true, if_true]
      omega
    · simp only [beq_iff_eq, hnow, if_false]
      omega

/-! ## The closing of a pallet -/

/-- The path IDLE and the TRANSFER zone RUNNING: a queued pallet goes at once (R159). -/
def PathOpen (l : Line) : Prop := l.transfer.transit = none ∧ kindIn l .transfer .running = true

/-- A pallet as its closing leaves it, in the state given (R152, R158). -/
def Pallet.shut (st : PalletState) (r : CloseReason) (order : Word) (p : Pallet) : Pallet :=
  { p with state := st, reason := r, joinOrder := some order }

/-- A pallet that no other is queued with, at the end of the queue and then judged for dispatch (R152, R158, R159). -/
theorem judgeDispatch_joinedQueue {l : Line} {n : Nat} {p : Pallet} (r : CloseReason) (hp : pallet? l n = some p)
    (halone : ¬ PathOpen l ∨ ∀ q ∈ l.pack.pallets, q.state ≠ .closed) :
    let queue := { l.transfer with joinCounter := l.transfer.joinCounter + 1 }
    let l' := judgeDispatch (joinedQueue n r l)
    ∃ st, l'.pack.pallets = (changePallet n (Pallet.shut st r l.transfer.joinCounter) l).pack.pallets ∧ st ≠ .opened
      ∧ (¬ PathOpen l → st = .closed ∧ l'.transfer = queue)
      ∧ ∀ g, PathOpen l → l.active = some g → st = .inTransit
        ∧ l'.transfer = { queue with
            transit := some { number := n, deadline := now l + word (g.transitLimit * 1000) }
            lastDispatch := now l, dispatches := l.transfer.dispatches + 1 } := by
  intro queue l'
  by_cases hgoes : PathOpen l
  · obtain ⟨hidle, hrunning⟩ := id hgoes
    have hnone := halone.resolve_left (not_not_intro hgoes)
    have hnumber : ∀ q, Queued (joinedQueue n r l) q → q.number = n := fun q hq => by
      obtain ⟨hmem, hclosed⟩ := hq
      obtain ⟨y, hy, rfl⟩ := List.mem_map.mp (show q ∈ l.pack.pallets.map _ from hmem)
      by_cases hn : y.number = n
      · rw [if_pos hn]
        exact hn
      · rw [if_neg hn] at hclosed
        exact absurd hclosed (hnone y hy)
    have hqueued : Queued (joinedQueue n r l) (Pallet.shut .closed r l.transfer.joinCounter p) :=
      ⟨List.mem_of_find?_eq_some (pallet?_joinedQueue r hp), rfl⟩
    obtain ⟨q, hq, hnext, -⟩ := nextChoice_some ⟨_, hqueued⟩
    have hsent : l' = dispatch q (joinedQueue n r l) := judgeDispatch_sends hidle hrunning hnext
    refine ⟨.inTransit, ?_, nofun, fun h => absurd hgoes h, fun g _ hg => ⟨rfl, ?_⟩⟩
    · rw [hsent]
      show List.map _ (List.map _ l.pack.pallets) = List.map _ l.pack.pallets
      rw [List.map_map]
      refine List.map_congr_left fun y _ => ?_
      by_cases hn : y.number = n <;> simp [hn, hnumber q hq, Pallet.shut]
    · have hlimit : transitMs (joinedQueue n r l) = g.transitLimit * 1000 := by
        rw [transitMs, show (joinedQueue n r l).active = some g from hg]
        rfl
      rw [hsent]
      simp only [dispatch, hlimit, hnumber q hq]
      rfl
  · have hstays : l' = joinedQueue n r l := judgeDispatch_stays (by
      by_cases hidle : l.transfer.transit = none
      · exact .inr (.inl (Bool.eq_false_iff.mpr fun hrunning => hgoes ⟨hidle, hrunning⟩))
      · exact .inl (Option.isSome_iff_ne_none.mpr hidle))
    rw [hstays]
    exact ⟨.closed, rfl, nofun, fun _ => ⟨rfl, rfl⟩, fun _ h => absurd h hgoes⟩

theorem openPallets_transfer (l : Line) : (openPallets l).transfer = l.transfer := by
  obtain ⟨news, hopened, -⟩ := tryOpen_both l
  have hrest := congrArg Line.transfer hopened.rest
  exact (judgeHold_kept (tryOpen .hold (tryOpen .release l))).2.2.2.2.trans hrest

/-- What the closing of a pallet that no other is queued with leaves (R152, R158, R159). -/
theorem closePallet_alone {l : Line} {n : Nat} {p : Pallet} (r : CloseReason) (hp : pallet? l n = some p)
    (halone : ¬ PathOpen l ∨ ∀ q ∈ l.pack.pallets, q.state ≠ .closed) :
    let queue := { l.transfer with joinCounter := l.transfer.joinCounter + 1 }
    let l' := closePallet n r l
    (∀ m, m ≠ n → (pallet? l m).isSome = true → pallet? l' m = pallet? l m)
      ∧ (¬ PathOpen l → pallet? l' n = some (Pallet.shut .closed r l.transfer.joinCounter p) ∧ l'.transfer = queue)
      ∧ ∀ g, PathOpen l → l.active = some g → pallet? l' n = some (Pallet.shut .inTransit r l.transfer.joinCounter p)
        ∧ l'.transfer = { queue with
            transit := some { number := n, deadline := now l + word (g.transitLimit * 1000) }
            lastDispatch := now l, dispatches := l.transfer.dispatches + 1 } := by
  intro queue l'
  obtain ⟨st, hpallets, -, hwaits, hgoes⟩ := judgeDispatch_joinedQueue r hp halone
  obtain ⟨more, hmore⟩ := openPallets_pallets (judgeDispatch (joinedQueue n r l))
  have htransfer : l'.transfer = (judgeDispatch (joinedQueue n r l)).transfer := openPallets_transfer _
  have hread : ∀ {m q}, pallet? l m = some q →
      pallet? l' m = some (if m = n then Pallet.shut st r l.transfer.joinCounter q else q) := fun {m q} hq => by
    refine pallet?_append hmore ?_
    rw [pallet?_congr hpallets, pallet?_changePallet _ _ _ (by intro x; rfl), hq, Option.map_some, pallet?_number hq]
  refine ⟨fun m hm hsome => ?_, fun h => ?_, fun g h hg => ?_⟩
  · obtain ⟨q, hq⟩ := Option.isSome_iff_exists.mp hsome
    rw [hread hq, hq, if_neg hm]
  · obtain ⟨rfl, hqueue⟩ := hwaits h
    exact ⟨by rw [hread hp, if_pos rfl], htransfer.trans hqueue⟩
  · obtain ⟨rfl, hsent⟩ := hgoes g h hg
    exact ⟨by rw [hread hp, if_pos rfl], htransfer.trans hsent⟩

/-! ## The OPEN pallets beside a closing -/

theorem changePallet_numbers (n : Nat) (f : Pallet → Pallet) (hf : ∀ p, (f p).number = p.number) (l : Line) :
    (changePallet n f l).pack.pallets.map (·.number) = l.pack.pallets.map (·.number) := by
  show (l.pack.pallets.map _).map _ = _
  rw [List.map_map]
  refine List.map_congr_left fun y _ => ?_
  by_cases h : y.number = n <;> simp [h, hf]

theorem openPallet_spec {l : Line} {x : Lane} {p : Pallet} (h : openPallet l x = some p) :
    p ∈ l.pack.pallets ∧ p.lane = x ∧ p.state = .opened := by
  have hfound := List.find?_some h
  simp only [Bool.and_eq_true, beq_iff_eq] at hfound
  exact ⟨List.mem_of_find?_eq_some h, hfound⟩

/-- A lane whose OPEN pallets all have the number closed has none before the new ones open (R152). -/
theorem openPallet_judged_none {l : Line} {n : Nat} {x : Lane} (r : CloseReason)
    (honly : ∀ q ∈ l.pack.pallets, q.lane = x → q.state = .opened → q.number = n) :
    openPallet (judgeDispatch (joinedQueue n r l)) x = none := by
  have hjoined : ∀ y ∈ (joinedQueue n r l).pack.pallets, ¬ (y.lane = x ∧ y.state = .opened) := by
    rintro y hy ⟨hlane, hopen⟩
    obtain ⟨z, hz, rfl⟩ := List.mem_map.mp (show y ∈ l.pack.pallets.map _ from hy)
    by_cases hn : z.number = n
    · rw [if_pos hn] at hopen
      cases hopen
    · rw [if_neg hn] at hlane hopen
      exact hn (honly z hz hlane hopen)
  rw [openPallet, List.find?_eq_none]
  intro y hy hopen
  simp only [Bool.and_eq_true, beq_iff_eq] at hopen
  unfold judgeDispatch at hy
  split at hy
  · split at hy
    · exact hjoined y hy hopen
    · next q _ =>
      obtain ⟨z, hz, rfl⟩ := List.mem_map.mp (show y ∈ (joinedQueue n r l).pack.pallets.map _ from hy)
      by_cases hq : z.number = q.number
      · rw [if_pos hq] at hopen
        cases hopen.2
      · rw [if_neg hq] at hopen
        exact hjoined z hz hopen
  · exact hjoined y hy hopen

/-- The OPEN pallet of another number is left OPEN by the closing and the dispatch. -/
theorem openPallet_judged_isSome {l : Line} {n : Nat} {x : Lane} {p : Pallet} (r : CloseReason)
    (hopen : openPallet l x = some p) (hn : p.number ≠ n) (hnodup : (l.pack.pallets.map (·.number)).Nodup) :
    (openPallet (judgeDispatch (joinedQueue n r l)) x).isSome = true := by
  obtain ⟨hmem, hlane, hstate⟩ := openPallet_spec hopen
  have hjoined : p ∈ (joinedQueue n r l).pack.pallets := List.mem_map.mpr ⟨p, hmem, if_neg hn⟩
  have hfound : (p.lane == x && p.state == .opened) = true := by simp [hlane, hstate]
  rw [openPallet, List.find?_isSome]
  refine ⟨p, ?_, hfound⟩
  unfold judgeDispatch
  split
  · split
    · exact hjoined
    · next q hnext =>
      refine List.mem_map.mpr ⟨p, hjoined, if_neg fun hsame => ?_⟩
      obtain ⟨hqmem, hclosed⟩ := queued_of_nextChoice hnext
      obtain ⟨z, hz, rfl⟩ := List.mem_map.mp (show q ∈ l.pack.pallets.map _ from hqmem)
      by_cases hzn : z.number = n
      · rw [if_pos hzn] at hsame
        exact hn (hsame.trans hzn)
      · rw [if_neg hzn] at hsame hclosed
        rw [eq_of_nodup_map hnodup hz hmem hsame.symm, hstate] at hclosed
        cases hclosed
  · exact hjoined

theorem judgeDispatch_numbers (l : Line) :
    (judgeDispatch l).pack.pallets.map (·.number) = l.pack.pallets.map (·.number) := by
  unfold judgeDispatch
  split
  · split
    · rfl
    · exact changePallet_numbers _ _ (by intro p; rfl) l
  · rfl

theorem judgeDispatch_length (l : Line) : (judgeDispatch l).pack.pallets.length = l.pack.pallets.length := by
  rw [← List.length_map (f := (·.number)), judgeDispatch_numbers, List.length_map]

/-! ## The new pallet of the lane -/

/-- The other lane of the two that hold pallets. -/
def Lane.other (x : Lane) : Lane := if x = .release then .hold else .release

/-- With the BAG zone RUNNING, a lane that alone lacks a pallet gets one where there is room (R149). -/
theorem openPallets_one {l : Line} {x : Lane} (hx : x ≠ .reject) (hbag : bagRunning l = true)
    (hnone : openPallet l x = none) (hother : (openPallet l x.other).isSome = true) (hroom : l.pack.pallets.length < 32)
    (hfree : 1 ≤ freeUnreserved l.log) :
    ∃ q, openPallet (openPallets l) x = some q ∧ q = newPallet q.pos l.pack.palletCounter x
      ∧ (openPallets l).pack.pallets = l.pack.pallets ++ [q]
      ∧ (openPallets l).log = { l.log with reserved := l.log.reserved + 1 } := by
  obtain ⟨news, hopened, hlanes, hlength, hnumber, -⟩ := tryOpen_both l
  have hwanting : ([Lane.release, .hold].filter fun x => (openPallet l x).isNone) = [x] := by
    cases x with
    | reject => exact absurd rfl hx
    | release =>
      have hhold : (openPallet l .hold).isNone = false := by simpa [Lane.other] using hother
      simp [hnone, hhold]
    | hold =>
      have hrelease : (openPallet l .release).isNone = false := by simpa [Lane.other] using hother
      simp [hnone, hrelease]
  rw [hwanting, if_pos hbag] at hlanes hlength
  have hone : min [x].length (min (32 - l.pack.pallets.length) (freeUnreserved l.log)) = 1 := by
    simp only [List.length_singleton]
    omega
  rw [hone] at hlanes hlength
  obtain ⟨q, rfl⟩ := List.length_eq_one_iff.mp hlength
  have hlane : q.lane = x := by simpa using hlanes
  have hnew : q = newPallet q.pos l.pack.palletCounter x := by
    have hfresh := (hopened.fresh 0 q rfl).1
    rwa [hnumber q rfl, hlane] at hfresh
  obtain ⟨hpallets, hlog, -⟩ := judgeHold_kept (tryOpen .hold (tryOpen .release l))
  refine ⟨q, ?_, hnew, hpallets.trans hopened.pallets, hlog.trans hopened.log⟩
  have hq : (q.lane == x && q.state == .opened) = true := by
    rw [hnew]
    simp [newPallet]
  rw [openPallet] at hnone ⊢
  rw [show (openPallets l).pack.pallets = _ from hpallets, hopened.pallets, List.find?_append, hnone]
  simp [hq]

/-- The lane of a closing pallet gets a new one (R149, R152). -/
theorem closePallet_opens {l : Line} {n : Nat} {p : Pallet} (r : CloseReason) (hp : pallet? l n = some p)
    (hbag : bagRunning l = true) (hroom : l.pack.pallets.length < 32) (hfree : 1 ≤ freeUnreserved l.log)
    (hlane : p.lane ≠ .reject) (hother : (openPallet l p.lane.other).isSome = true)
    (honly : ∀ q ∈ l.pack.pallets, q.lane = p.lane → q.state = .opened → q.number = n)
    (hnodup : (l.pack.pallets.map (·.number)).Nodup) :
    ∃ q, openPallet (closePallet n r l) p.lane = some q ∧ q = newPallet q.pos l.pack.palletCounter p.lane
      ∧ (closePallet n r l).pack.pallets = (judgeDispatch (joinedQueue n r l)).pack.pallets ++ [q]
      ∧ (closePallet n r l).log = { l.log with reserved := l.log.reserved + 1 } := by
  have hnone := openPallet_judged_none r honly
  have hkept : (openPallet (judgeDispatch (joinedQueue n r l)) p.lane.other).isSome = true := by
    obtain ⟨y, hy⟩ := Option.isSome_iff_exists.mp hother
    obtain ⟨hmem, hylane, -⟩ := openPallet_spec hy
    refine openPallet_judged_isSome r hy (fun hn => ?_) hnodup
    have hsame : y = p := eq_of_nodup_map hnodup hmem (List.mem_of_find?_eq_some hp)
      (hn.trans (pallet?_number hp).symm)
    rw [hsame] at hylane
    cases hpl : p.lane <;> simp [hpl, Lane.other] at hylane
  have hlength : (judgeDispatch (joinedQueue n r l)).pack.pallets.length = l.pack.pallets.length := by
    rw [judgeDispatch_length]
    exact List.length_map ..
  have hpath : PathOnly l (judgeDispatch (joinedQueue n r l)) := PathOnly.trans ⟨_, _, _, rfl⟩ (judgeDispatch_pathOnly _)
  obtain ⟨_, _, _, heq⟩ := hpath
  have hcounter : (judgeDispatch (joinedQueue n r l)).pack.palletCounter = l.pack.palletCounter := by rw [heq]
  have hlog : (judgeDispatch (joinedQueue n r l)).log = l.log := by rw [heq]
  have hzones : (judgeDispatch (joinedQueue n r l)).zones = l.zones := by rw [heq]
  have hopened := openPallets_one hlane ((kindIn_congr hzones .bag .running).trans hbag) hnone hkept
    (by rw [hlength]; exact hroom) (by rw [hlog]; exact hfree)
  rwa [hcounter, hlog] at hopened

/-! ## The exposure -/

/-- One exposed pallet more for a lot. -/
def Lot.countExposed (x : Lot) : Lot := { x with exposedPallets := x.exposedPallets + 1 }

/-- The line with a pallet marked EXPOSED and its lots counting it (R156, R157). -/
def exposedLine (n : Nat) (p : Pallet) (l : Line) : Line :=
  raise .palletExposed ((p.lots.map (·.lot)).foldl (fun l n => changeLot n Lot.countExposed l)
    (changePallet n (fun q => { q with exposed := true, timer := .expired }) l))

theorem exposedLine_eq (n : Nat) (p : Pallet) (l : Line) :
    ∃ lots, exposedLine n p l = raise .palletExposed
      { changePallet n (fun q => { q with exposed := true, timer := .expired }) l with
        track := { l.track with lots := lots } } := by
  obtain ⟨lots, h⟩ := foldl_changeLot_lots Lot.countExposed (p.lots.map (·.lot))
    (changePallet n (fun q => { q with exposed := true, timer := .expired }) l)
  exact ⟨lots, by rw [exposedLine, h]; rfl⟩

theorem exposedLine_still (n : Nat) (p : Pallet) (l : Line) : Still l (exposedLine n p l) :=
  ((changePallet_still n _ l).trans (foldl_changeLot_still Lot.countExposed _ _).2.2).trans (raise_still _ _)

theorem choices_within (k : Nat) (l : Line) : Within l { l with choices := k } :=
  ⟨rfl, fun _ h => h, fun h => h, fun h => h⟩

theorem reserveFloor_within {l l' : Line} (h : Within l l') : reserveFloor l' = reserveFloor l := by
  rw [reserveFloor, h.active]
  rfl

theorem exposePallet_eq {l : Line} {n : Nat} {p : Pallet} (hp : pallet? l n = some p) :
    exposePallet n l = inFreeOrder
      [(p.state == .opened, fun l => if p.state == .opened then closePallet n .exposed l else l),
       (true, offer .exposure (exposurePayload l p))] (exposedLine n p l) := by
  rw [exposePallet, hp, exposedLine, List.foldl_map]
  rfl

/-- A pallet that is not OPEN is marked, and its record offered. -/
theorem exposePallet_shut {l : Line} {n : Nat} {p : Pallet} (hp : pallet? l n = some p) (h : p.state ≠ .opened) :
    exposePallet n l = offer .exposure (exposurePayload l p) (exposedLine n p l) := by
  have hshut : (p.state == .opened) = false := by simpa using h
  rw [exposePallet_eq hp, hshut]
  rfl

theorem freely_two (f g : Line → Line) (l : Line) :
    ∃ k, freely 2 [f, g] l = g (f { l with choices := k }) ∨ freely 2 [f, g] l = f (g { l with choices := k }) := by
  refine ⟨l.choices + 1, ?_⟩
  have hmem := pickOne_mem [0, 1] l (by decide)
  have hfree : freely 2 [f, g] l = freely 1 ([f, g].eraseIdx (pickOne [0, 1] l).1)
    (([f, g].getD (pickOne [0, 1] l).1 id) { l with choices := l.choices + 1 }) := rfl
  rw [hfree]
  simp only [List.mem_cons, List.not_mem_nil, or_false] at hmem
  rcases hmem with h | h
  · rw [h]
    exact .inl (freely_one g _)
  · rw [h]
    exact .inr (freely_one f _)

/-- An OPEN pallet is marked, and closed before or after its record is offered. -/
theorem exposePallet_open {l : Line} {n : Nat} {p : Pallet} (hp : pallet? l n = some p) (h : p.state = .opened) :
    ∃ k, let u := { exposedLine n p l with choices := k }
      exposePallet n l = offer .exposure (exposurePayload l p) (closePallet n .exposed u)
        ∨ exposePallet n l = closePallet n .exposed (offer .exposure (exposurePayload l p) u) := by
  have hopen : (p.state == .opened) = true := by rw [h]; rfl
  rw [exposePallet_eq hp, hopen]
  exact freely_two (closePallet n .exposed) (offer .exposure (exposurePayload l p)) (exposedLine n p l)

/-- The log, the notices and the free choices differ, nothing else. -/
def LogOnly (l l' : Line) : Prop :=
  ∃ g k notices, l' = { l with log := g, choices := k, status := { l.status with notices := notices } }

theorem LogOnly.trans {a b c : Line} (x : LogOnly a b) (y : LogOnly b c) : LogOnly a c := by
  obtain ⟨_, _, _, rfl⟩ := x
  obtain ⟨g, k, n, rfl⟩ := y
  exact ⟨g, k, n, rfl⟩

theorem offer_logOnly (k : RecordKind) (p : List Word) (l : Line) : LogOnly l (offer k p l) := by
  unfold offer judgeThreshold
  split
  · split
    · exact ⟨_, _, _, rfl⟩
    · exact ⟨_, _, _, rfl⟩
  · exact ⟨_, _, _, rfl⟩

theorem exposureExpires_due {l : Line} {n : Nat} {p : Pallet} {deadline : Word} (hp : pallet? l n = some p)
    (htimer : p.timer = .running) (hdeadline : p.deadline = some deadline) (hdue : reached (now l) deadline = true) :
    exposureExpires n l = exposePallet n l := by
  have h : exposureDue l p = true := by
    rw [exposureDue, htimer, hdeadline, Option.any_some, hdue]
    rfl
  rw [exposureExpires, hp]
  exact if_pos h

/-- Every lot of the list counts the exposed pallet. -/
theorem exposePallet_counts {l : Line} {n : Nat} {p : Pallet} (hp : pallet? l n = some p) (e : PalletLot) (x : Lot)
    (he : e ∈ p.lots) (hnodup : (p.lots.map (·.lot)).Nodup) (hx : lot? l e.lot = some x) :
    lot? (exposePallet n l) e.lot = some { x with exposedPallets := x.exposedPallets + 1 } := by
  obtain ⟨-, -, -, hlots⟩ := exposePallet_spec n l p hp
  rw [hlots e.lot x hnodup hx, if_pos (List.mem_map_of_mem he)]

/-! ## The log of the event -/

/-- An exposed OPEN pallet closed and its record offered, the BAG zone not RUNNING: the record is all that is logged. -/
theorem exposePallet_offered {l : Line} {n : Nat} {p : Pallet} (hp : pallet? l n = some p) (h : p.state = .opened)
    (hbag : bagRunning l = false) :
    (exposePallet n l).pack.pallets.length = l.pack.pallets.length
      ∧ Offered l.log (reserveFloor l) (now l) .exposure (exposurePayload l p) (exposePallet n l) := by
  obtain ⟨lots, hexposed⟩ := exposedLine_eq n p l
  have hclosed : ∀ v : Line, v.zones = l.zones →
      (closePallet n .exposed v).log = v.log
        ∧ (closePallet n .exposed v).pack.pallets.length = v.pack.pallets.length := fun v hv => by
    have hpath : PathOnly v (judgeDispatch (joinedQueue n .exposed v)) :=
      PathOnly.trans ⟨_, _, _, rfl⟩ (judgeDispatch_pathOnly _)
    obtain ⟨hlog, -, hzones, -⟩ := hpath.blocks
    have hoff : bagRunning (judgeDispatch (joinedQueue n .exposed v)) = false :=
      (kindIn_congr (hzones.trans hv) .bag .running).trans hbag
    obtain ⟨hpallets, hheld, -⟩ := judgeHold_kept (judgeDispatch (joinedQueue n .exposed v))
    rw [closePallet_eq, openPallets_off hoff, hheld, hpallets]
    exact ⟨hlog, (judgeDispatch_length _).trans (List.length_map ..)⟩
  obtain ⟨k, horder⟩ := exposePallet_open hp h
  let u : Line := { exposedLine n p l with choices := k }
  have hlength : u.pack.pallets.length = l.pack.pallets.length := by
    show (exposedLine n p l).pack.pallets.length = _
    rw [hexposed]
    exact List.length_map ..
  have hzones : u.zones = l.zones := by
    show (exposedLine n p l).zones = _
    rw [hexposed]
    rfl
  have hlog : u.log = l.log := by
    show (exposedLine n p l).log = _
    rw [hexposed]
    rfl
  have hu : Within l u := (exposedLine_still n p l).within.trans (choices_within k _)
  rcases horder with heq | heq
  · obtain ⟨hoffered, -, -⟩ := offer_spec .exposure (exposurePayload l p) (closePallet n .exposed u)
    obtain ⟨hcloseLog, hcloseLength⟩ := hclosed u hzones
    have hc : Within l (closePallet n .exposed u) := hu.trans (closePallet_still n .exposed u).within
    rw [hcloseLog, hlog, reserveFloor_within hc, hc.now, ← heq] at hoffered
    refine ⟨?_, hoffered⟩
    rw [heq, (offer_blocks _ _ _).1, hcloseLength, hlength]
  · obtain ⟨⟨hroom, hfull⟩, -, -⟩ := offer_spec .exposure (exposurePayload l p) u
    obtain ⟨hcloseLog, hcloseLength⟩ :=
      hclosed (offer .exposure (exposurePayload l p) u) ((offer_still _ _ _).zones.trans hzones)
    have hnotices := (closePallet_still n .exposed (offer .exposure (exposurePayload l p) u)).within.notices .logDrop
    rw [hlog, reserveFloor_within hu, hu.now] at hroom
    rw [hlog, reserveFloor_within hu] at hfull
    rw [heq, hcloseLength, (offer_blocks _ _ _).1]
    refine ⟨hlength, fun h => hcloseLog.trans (hroom h), fun h => ?_⟩
    obtain ⟨hdropped, hnotice⟩ := hfull h
    exact ⟨hcloseLog.trans hdropped, hnotices hnotice⟩

/-- The line as the closing of an exposed pallet finds it, before or after the record. -/
theorem exposed_pack {n : Nat} {p : Pallet} {l v : Line} (hv : LogOnly (exposedLine n p l) v) :
    v.pack = { l.pack with
        pallets := l.pack.pallets.map fun q => if q.number = n then { q with exposed := true, timer := .expired } else q }
      ∧ v.transfer = l.transfer ∧ v.zones = l.zones ∧ v.active = l.active ∧ now v = now l := by
  obtain ⟨lots, hexposed⟩ := exposedLine_eq n p l
  obtain ⟨g, k, notices, rfl⟩ := hv
  rw [hexposed]
  exact ⟨rfl, rfl, rfl, rfl, rfl⟩

theorem pallet?_exposed {n : Nat} {p : Pallet} {l v : Line}
    (hv : LogOnly (exposedLine n p l) v) (m : Nat) :
    pallet? v m = (pallet? l m).map fun q => if q.number = n then { q with exposed := true, timer := .expired } else q := by
  have hpallets := congrArg Pack.pallets (exposed_pack hv).1
  exact (pallet?_congr (l := changePallet n (fun q => { q with exposed := true, timer := .expired }) l) hpallets m).trans
    (pallet?_changePallet _ _ _ (by intro x; rfl) _)

/-- Marking a pallet leaves its number, lane and state. -/
theorem exposed_mem {n : Nat} {p q : Pallet} {l v : Line} (hv : LogOnly (exposedLine n p l) v) (hq : q ∈ v.pack.pallets) :
    ∃ y ∈ l.pack.pallets, q.number = y.number ∧ q.lane = y.lane ∧ q.state = y.state := by
  rw [(exposed_pack hv).1] at hq
  obtain ⟨y, hy, rfl⟩ := List.mem_map.mp hq
  refine ⟨y, hy, ?_⟩
  split <;> exact ⟨rfl, rfl, rfl⟩

theorem exposed_alone {n : Nat} {p : Pallet} {l v : Line} (hv : LogOnly (exposedLine n p l) v)
    (halone : ¬ PathOpen l ∨ ∀ q ∈ l.pack.pallets, q.state ≠ .closed) :
    ¬ PathOpen v ∨ ∀ q ∈ v.pack.pallets, q.state ≠ .closed := by
  obtain ⟨-, htransfer, hzones, -⟩ := exposed_pack hv
  rw [PathOpen, htransfer, kindIn_congr hzones]
  refine halone.imp_right fun h q hq => ?_
  obtain ⟨y, hy, -, -, hstate⟩ := exposed_mem hv hq
  rw [hstate]
  exact h y hy

/-- The closing of an exposed pallet opens one for its lane, from either line. -/
theorem closePallet_opens_exposed {n : Nat} {p : Pallet} {l v : Line} (hv : LogOnly (exposedLine n p l) v)
    (hp : pallet? l n = some p)
    (hbag : bagRunning l = true) (hroom : l.pack.pallets.length < 32) (hfree : 1 ≤ freeUnreserved v.log)
    (hlane : p.lane ≠ .reject) (hother : (openPallet l p.lane.other).isSome = true)
    (honly : ∀ q ∈ l.pack.pallets, q.lane = p.lane → q.state = .opened → q.number = p.number)
    (hnodup : (l.pack.pallets.map (·.number)).Nodup) :
    ∃ q, openPallet (closePallet n .exposed v) p.lane = some q ∧ q = newPallet q.pos l.pack.palletCounter p.lane
      ∧ (closePallet n .exposed v).log = { v.log with reserved := v.log.reserved + 1 } := by
  obtain ⟨hpack, -, hzones, -⟩ := exposed_pack hv
  have hnumber := pallet?_number hp
  have hpallet : pallet? v n = some { p with exposed := true, timer := .expired } := by
    rw [pallet?_exposed hv, hp, Option.map_some, if_pos hnumber]
  have hcounter := congrArg Pack.palletCounter hpack
  have hlength : v.pack.pallets.length = l.pack.pallets.length := by rw [hpack]; exact List.length_map ..
  have hnumbers : v.pack.pallets.map (·.number) = l.pack.pallets.map (·.number) := by
    rw [hpack]
    exact changePallet_numbers n (fun q => { q with exposed := true, timer := .expired }) (by intro q; rfl) l
  have hkept : (openPallet v p.lane.other).isSome = true := by
    obtain ⟨y, hy⟩ := Option.isSome_iff_exists.mp hother
    rw [openPallet, hpack, List.find?_isSome]
    refine ⟨_, List.mem_map_of_mem (List.mem_of_find?_eq_some hy), ?_⟩
    have hopen := List.find?_some hy
    split <;> exact hopen
  have hopened := closePallet_opens (l := v) .exposed hpallet
    ((kindIn_congr hzones .bag .running).trans hbag) (hlength ▸ hroom) hfree hlane hkept
    (fun q hq hqlane hqopen => by
      obtain ⟨y, hy, hsame, hylane, hystate⟩ := exposed_mem hv hq
      rw [hsame, honly y hy (hylane ▸ hqlane) (hystate ▸ hqopen), hnumber])
    (hnumbers ▸ hnodup)
  rw [hcounter] at hopened
  obtain ⟨q, hq, hnew, -, hlog⟩ := hopened
  exact ⟨q, hq, hnew, hlog⟩

/-- An exposed OPEN pallet of a RUNNING BAG zone: its lane gets a new pallet, and both the reservation and the record are
in the log, whichever came first. -/
theorem exposePallet_opens {l : Line} {n : Nat} {p : Pallet} (hp : pallet? l n = some p) (h : p.state = .opened)
    (hbag : bagRunning l = true) (hroom : l.pack.pallets.length < 32) (hfree : reserveFloor l + 2 ≤ freeUnreserved l.log) (hlane : p.lane ≠ .reject)
    (hother : (openPallet l p.lane.other).isSome = true)
    (honly : ∀ q ∈ l.pack.pallets, q.lane = p.lane → q.state = .opened → q.number = p.number)
    (hnodup : (l.pack.pallets.map (·.number)).Nodup) :
    ∃ q, openPallet (exposePallet n l) p.lane = some q ∧ q = newPallet q.pos l.pack.palletCounter p.lane
      ∧ (exposePallet n l).log = { appended l.log (now l) .exposure (exposurePayload l p) with
          reserved := l.log.reserved + 1 } := by
  obtain ⟨k, horder⟩ := exposePallet_open hp h
  let u : Line := { exposedLine n p l with choices := k }
  have hlog : u.log = l.log := by
    show (exposedLine n p l).log = _
    obtain ⟨lots, hexposed⟩ := exposedLine_eq n p l
    rw [hexposed]
    rfl
  have hu : Within l u := (exposedLine_still n p l).within.trans (choices_within k _)
  have hlogOnly : LogOnly (exposedLine n p l) u := ⟨_, _, _, rfl⟩
  have hopens := fun {v : Line} (hv : LogOnly (exposedLine n p l) v) (hfree : 1 ≤ freeUnreserved v.log) =>
    closePallet_opens_exposed hv hp hbag hroom hfree hlane hother honly hnodup
  have hroomed : freeUnreserved l.log = 1024 - usedCount l.log - l.log.reserved := rfl
  rcases horder with heq | heq
  · obtain ⟨q, hq, hnew, hcloseLog⟩ := hopens hlogOnly (by rw [hlog]; omega)
    obtain ⟨⟨hwritten, -⟩, -, -⟩ := offer_spec .exposure (exposurePayload l p) (closePallet n .exposed u)
    have hc : Within l (closePallet n .exposed u) := hu.trans (closePallet_still n .exposed u).within
    rw [hcloseLog, hlog, reserveFloor_within hc, hc.now, ← heq] at hwritten
    refine ⟨q, ?_, hnew, hwritten ?_⟩
    · rw [heq, openPallet, (offer_blocks _ _ _).1]
      exact hq
    · show _ < 1024 - usedCount l.log - (l.log.reserved + 1)
      omega
  · obtain ⟨⟨hwritten, -⟩, -, -⟩ := offer_spec .exposure (exposurePayload l p) u
    rw [hlog, reserveFloor_within hu, hu.now] at hwritten
    have hv := hwritten (by omega)
    have hused := usedCount_appended_le (g := l.log) (by omega) (now l) .exposure (exposurePayload l p)
    obtain ⟨q, hq, hnew, hcloseLog⟩ := hopens (hlogOnly.trans (offer_logOnly .exposure (exposurePayload l p) u)) (by
      rw [hv]
      show 1 ≤ 1024 - usedCount (appended l.log (now l) .exposure (exposurePayload l p)) - l.log.reserved
      omega)
    rw [hv] at hcloseLog
    rw [heq]
    exact ⟨q, hq, hnew, hcloseLog⟩

/-! ## The exposure timer -/

/-- What the exposure of an OPEN pallet leaves of the pallets and the path. -/
theorem exposePallet_closes {l : Line} {n : Nat} {p : Pallet} (hp : pallet? l n = some p) (h : p.state = .opened)
    (halone : ¬ PathOpen l ∨ ∀ q ∈ l.pack.pallets, q.state ≠ .closed) :
    let queue := { l.transfer with joinCounter := l.transfer.joinCounter + 1 }
    let marked : Pallet := { p with exposed := true, timer := .expired }
    let l' := exposePallet n l
    (∀ m, m ≠ n → (pallet? l m).isSome = true → pallet? l' m = pallet? l m)
      ∧ (¬ PathOpen l → pallet? l' n = some (marked.shut .closed .exposed l.transfer.joinCounter) ∧ l'.transfer = queue)
      ∧ ∀ g, PathOpen l → l.active = some g →
        pallet? l' n = some (marked.shut .inTransit .exposed l.transfer.joinCounter)
        ∧ l'.transfer = { queue with
            transit := some { number := n, deadline := now l + word (g.transitLimit * 1000) }
            lastDispatch := now l, dispatches := l.transfer.dispatches + 1 } := by
  intro queue marked l'
  have hfrom : ∃ v, LogOnly (exposedLine n p l) v ∧ l'.pack = (closePallet n .exposed v).pack
      ∧ l'.transfer = (closePallet n .exposed v).transfer := by
    obtain ⟨k, heq | heq⟩ := exposePallet_open hp h
    · obtain ⟨hpack, -, htransfer⟩ := offer_blocks .exposure (exposurePayload l p)
        (closePallet n .exposed { exposedLine n p l with choices := k })
      exact ⟨_, ⟨_, _, _, rfl⟩, (congrArg Line.pack heq).trans hpack, (congrArg Line.transfer heq).trans htransfer⟩
    · exact ⟨_, LogOnly.trans ⟨_, _, _, rfl⟩ (offer_logOnly _ _ { exposedLine n p l with choices := k }),
        congrArg Line.pack heq, congrArg Line.transfer heq⟩
  obtain ⟨v, hv, hpack, htransfer⟩ := hfrom
  obtain ⟨-, hvtransfer, hvzones, hvactive, hvnow⟩ := exposed_pack hv
  have hnumber := pallet?_number hp
  have hpallet : pallet? v n = some marked := by
    rw [pallet?_exposed hv, hp, Option.map_some, if_pos hnumber]
  obtain ⟨hothers, hwaits, hgoes⟩ := closePallet_alone .exposed hpallet (exposed_alone hv halone)
  have hopen : PathOpen v ↔ PathOpen l := by
    rw [PathOpen, PathOpen, hvtransfer, kindIn_congr hvzones]
  have hread : ∀ m, pallet? l' m = pallet? (closePallet n .exposed v) m := pallet?_congr (congrArg Pack.pallets hpack)
  simp only [hopen, hvtransfer, hvactive, hvnow] at hothers hwaits hgoes
  refine ⟨fun m hm hsome => ?_, fun h => ?_, fun g h hg => ?_⟩
  · obtain ⟨q, hq⟩ := Option.isSome_iff_exists.mp hsome
    have hqv : pallet? v m = some q := by
      rw [pallet?_exposed hv, hq, Option.map_some, if_neg (by rw [pallet?_number hq]; exact hm)]
    rw [hread, hothers m hm (by rw [hqv]; rfl), hqv, hq]
  · rw [hread, htransfer]
    exact hwaits h
  · rw [hread, htransfer]
    exact hgoes g h hg

/-- Settles O58: a pallet that is not OPEN, and an OPEN one closed. -/
theorem exposureExpiryMarksThePallet : Obligations.ExposureExpiryMarksThePallet := by
  refine ⟨fun s n p deadline hp htimer hdeadline hdue hstate => ?shut,
    fun s n p deadline hp htimer hdeadline hdue hstate => ?opened⟩
  case shut =>
    have hexpires := exposureExpires_due hp htimer hdeadline hdue
    obtain ⟨hpallet, -, hnotice, -⟩ := exposePallet_spec n.toNat s.line p hp
    have hstill := exposePallet_still n.toNat s.line
    have hcounts := exposePallet_counts hp
    obtain ⟨hoffered, -, -⟩ := offer_spec .exposure (exposurePayload s.line p) (exposedLine n.toNat p s.line)
    obtain ⟨lots, hexposed⟩ := exposedLine_eq n.toNat p s.line
    obtain ⟨-, -, htransfer⟩ := offer_blocks .exposure (exposurePayload s.line p) (exposedLine n.toNat p s.line)
    have hchans := (offer_logOnly .exposure (exposurePayload s.line p) (exposedLine n.toNat p s.line))
    have hsame : (exposePallet n.toNat s.line).chans = s.line.chans
        ∧ (exposePallet n.toNat s.line).transfer = s.line.transfer
        ∧ Offered s.line.log (reserveFloor s.line) (now s.line) .exposure (exposurePayload s.line p)
          (exposePallet n.toNat s.line) := by
      rw [exposePallet_shut hp hstate]
      refine ⟨?_, htransfer.trans (by rw [hexposed]; rfl), ?_⟩
      · obtain ⟨_, _, _, heq⟩ := hchans
        rw [heq, hexposed]
        rfl
      · rw [hexposed] at hoffered ⊢
        exact hoffered
    obtain ⟨hchans, htransfer, hoffered⟩ := hsame
    rw [exec_exposureTimerExpiry]
    refine ⟨_, rfl, ⟨rfl, rfl, rfl⟩, ?_⟩
    rw [onLine_line, hexpires]
    exact ⟨hstill.within.plantOnly, hpallet hstate, hnotice, hstill.zones, hchans, hcounts, htransfer, hoffered⟩
  case opened =>
    intro queue shut goes other halone
    have hexpires := exposureExpires_due hp htimer hdeadline hdue
    obtain ⟨-, -, hnotice, -⟩ := exposePallet_spec n.toNat s.line p hp
    have hstill := exposePallet_still n.toNat s.line
    obtain ⟨hothers, hwaits, hgoes⟩ := exposePallet_closes hp hstate halone
    rw [exec_exposureTimerExpiry]
    refine ⟨_, rfl, ⟨rfl, rfl, rfl⟩, ?_⟩
    rw [onLine_line, hexpires]
    refine ⟨hstill.within.plantOnly, hnotice, hstill.zones, exposePallet_counts hp, hothers, hwaits,
      fun g hopen hg => ?_, exposePallet_offered hp hstate, exposePallet_opens hp hstate⟩
    obtain ⟨hgone, hsent⟩ := hgoes g hopen hg
    exact ⟨hgone, hsent.trans (by rw [pallet?_number hp])⟩

end Sys2Proof.Machine
end

section
/-! SUPPORT. What a bag's joining leaves of the other pallets, of the pack unit and of the lots (R149 to R152, R156 to
R159). -/

namespace Sys2Proof.Machine

/-! ## Properties of the pack unit that the changes of one pallet keep -/

/-- A property of the pack unit that any change of the pallets numbered k, a dispatch and the opening of pallets keep. -/
structure KeptBeside (k : Nat) (P : Pack → Prop) : Prop where
  change   : ∀ (f : Pallet → Pallet) (l : Line), (∀ p, (f p).number = p.number) → P l.pack → P (changePallet k f l).pack
  dispatch : ∀ l : Line, P l.pack → P (judgeDispatch l).pack
  opens    : ∀ l : Line, P l.pack → P (openPallets l).pack

section
variable {k : Nat} {P : Pack → Prop} (h : KeptBeside k P) {l : Line}
include h

theorem KeptBeside.close (r : CloseReason) (hl : P l.pack) : P (closePallet k r l).pack :=
  h.opens _ (h.dispatch _ (h.change (Pallet.shut .closed r l.transfer.joinCounter) l (by intro p; rfl) hl))

theorem KeptBeside.expose (hl : P l.pack) : P (exposePallet k l).pack := by
  cases hp : pallet? l k with
  | none =>
    rw [exposePallet, hp]
    exact hl
  | some p =>
    have hexposed : P (exposedLine k p l).pack := by
      obtain ⟨lots, heq⟩ := exposedLine_eq k p l
      rw [heq]
      exact h.change (fun q => { q with exposed := true, timer := .expired }) l (by intro q; rfl) hl
    by_cases hopen : p.state = .opened
    · obtain ⟨c, heq | heq⟩ := exposePallet_open hp hopen
      · rw [heq, (offer_blocks _ _ _).1]
        exact h.close .exposed (l := { exposedLine k p l with choices := c }) hexposed
      · rw [heq]
        refine h.close .exposed ?_
        rw [(offer_blocks _ _ _).1]
        exact hexposed
    · rw [exposePallet_shut hp hopen, (offer_blocks _ _ _).1]
      exact hexposed

end

/-- The line once a bag has joined the pallet and its new lots count it, before any closing (R150, R151). -/
def bagged (p : Pallet) (w : Nat) (lots : List Nat) (start : Word) (provisional : Bool) (l : Line) : Line :=
  (newLots p lots).foldl (fun l n => changeLot n (fun x => { x with livePallets := x.livePallets + 1 }) l)
    (changePallet p.number (fun q =>
      { q with
        lots := joinLots q lots provisional
        bags := q.bags + 1
        mass := addMass q.mass w
        exposureStart := some (earliest q.exposureStart start)
        deadline := some (earliest p.deadline (after start (exposureMs l lots)))
        timer := .running }) l)

/-- The pallet closed where the bag filled it (R152). -/
def closedFull (p : Pallet) (l : Line) : Line :=
  if palletCapacity l ≤ p.bags + 1 then closePallet p.number .capacity l else l

theorem joinPallet_eq (p : Pallet) (w : Nat) (lots : List Nat) (start : Word) (provisional : Bool) (l : Line) :
    joinPallet p w lots start provisional l = closedFull p (bagged p w lots start provisional l)
      ∨ joinPallet p w lots start provisional l
        = exposePallet p.number (closedFull p (bagged p w lots start provisional l)) := by
  have heq : joinPallet p w lots start provisional l
      = if p.deadline ≠ some (earliest p.deadline (after start (exposureMs l lots)))
            ∧ reached (now (closedFull p (bagged p w lots start provisional l)))
              (earliest p.deadline (after start (exposureMs l lots))) = true
        then exposePallet p.number (closedFull p (bagged p w lots start provisional l))
        else closedFull p (bagged p w lots start provisional l) := rfl
  rw [heq]
  split
  · exact .inr rfl
  · exact .inl rfl

theorem foldl_changeLot_pack (f : Lot → Lot) (ns : List Nat) (l : Line) :
    (ns.foldl (fun l n => changeLot n f l) l).pack = l.pack := (foldl_changeLot_still f ns l).1

section
variable {p : Pallet} {P : Pack → Prop} (h : KeptBeside p.number P) {l : Line}
include h

theorem KeptBeside.closedFull (hl : P l.pack) : P (closedFull p l).pack := by
  unfold Machine.closedFull
  split
  · exact h.close .capacity hl
  · exact hl

/-- A bag's joining keeps what the changes of its pallet keep. -/
theorem KeptBeside.join (w : Nat) (lots : List Nat) (start : Word) (provisional : Bool) (hl : P l.pack) :
    P (joinPallet p w lots start provisional l).pack := by
  have hbagged : P (bagged p w lots start provisional l).pack := by
    rw [bagged, foldl_changeLot_pack]
    exact h.change _ l (by intro q; rfl) hl
  rcases joinPallet_eq p w lots start provisional l with heq | heq
  · rw [heq]
    exact h.closedFull hbagged
  · rw [heq]
    exact h.expose (h.closedFull hbagged)

end

/-! ## The fields that bags write -/

/-- Only the pallets, their counter and the bagger's hold differ. -/
def BagsKept (a b : Pack) : Prop :=
  { b with pallets := a.pallets, palletCounter := a.palletCounter, baggerHold := a.baggerHold } = a

theorem BagsKept.trans {a b c : Pack} (x : BagsKept a b) (y : BagsKept b c) : BagsKept a c := by
  have e := congrArg (fun p : Pack =>
    { p with pallets := a.pallets, palletCounter := a.palletCounter, baggerHold := a.baggerHold }) y
  exact Eq.trans e x

theorem judgeDispatch_bagsKept (l : Line) : BagsKept l.pack (judgeDispatch l).pack := by
  obtain ⟨_, _, _, heq⟩ := judgeDispatch_pathOnly l
  rw [heq]
  rfl

theorem openPallets_bagsKept (l : Line) : BagsKept l.pack (openPallets l).pack := by
  obtain ⟨news, hopened, -⟩ := tryOpen_both l
  obtain ⟨b, hb, -⟩ := judgeHold_pack (tryOpen .hold (tryOpen .release l))
  have hkept : BagsKept (tryOpen .hold (tryOpen .release l)).pack (openPallets l).pack := by
    rw [show (openPallets l).pack = _ from hb]
    rfl
  exact BagsKept.trans hopened.packRest hkept

theorem bagsKept_beside (k : Nat) (a : Pack) : KeptBeside k (BagsKept a) where
  change _ _ _ h := h.trans rfl
  dispatch l h := h.trans (judgeDispatch_bagsKept l)
  opens l h := h.trans (openPallets_bagsKept l)

/-! ## Pallets already gone -/

/-- A pallet found by its number that no change of an OPEN or CLOSED pallet can reach, and whose number no new one
gets. -/
structure Beyond (n : Nat) (q : Pallet) (k : Pack) : Prop where
  found   : k.pallets.find? (·.number == n) = some q
  others  : ∀ y ∈ k.pallets, y.state = .opened ∨ y.state = .closed → y.number ≠ n
  counter : k.palletCounter ≠ n

/-- A number past the 16-bit range goes on counting; it skips those held too. -/
theorem nextNumber_beyond (held : List Nat) (fuel n : Nat) (hn : 65535 < n) :
    nextNumber held fuel n ∉ held ∧ n < nextNumber held fuel n ∨ ∀ j < fuel, n + j + 1 ∈ held := by
  induction fuel generalizing n with
  | zero => exact .inr fun j hj => by omega
  | succ fuel ih =>
    have hnext : (if n = 65535 then 1 else n + 1) = n + 1 := if_neg (by omega)
    simp only [nextNumber, hnext]
    by_cases hheld : n + 1 ∈ held
    · rw [if_pos (by simpa using hheld)]
      rcases ih (n + 1) (by omega) with ⟨hfree, hlt⟩ | hall
      · exact .inl ⟨hfree, by omega⟩
      · refine .inr fun j hj => ?_
        cases j with
        | zero => exact hheld
        | succ j =>
          rw [show n + (j + 1) + 1 = n + 1 + j + 1 by omega]
          exact hall j (by omega)
    · rw [if_neg (by simpa using hheld)]
      exact .inl ⟨hheld, by omega⟩

/-- With fewer than 64 numbers held the next number is a free one, wherever the counter stands (R148). -/
theorem nextNumber_not_held {held : List Nat} (n : Nat) (hroom : held.length < 64) : nextNumber held 64 n ∉ held := by
  by_cases hn : n ≤ 65535
  · obtain ⟨_, _, hfree, _⟩ := nextNumber_free held n hn hroom
    exact hfree
  · rcases nextNumber_beyond held 64 n (by omega) with ⟨hfree, -⟩ | hall
    · exact hfree
    · have hlong := length_of_injective (fun j => n + j + 1) 64 held (fun i hi j hj e => by omega) hall
      omega

theorem Beyond.change {n k : Nat} (hk : k ≠ n) {q : Pallet} (f : Pallet → Pallet) (hf : ∀ p, (f p).number = p.number)
    {l : Line} (h : Beyond n q l.pack) : Beyond n q (changePallet k f l).pack where
  found := by
    have hfind : pallet? l n = some q := h.found
    have hread := pallet?_changePallet k n f hf l
    rw [hfind, Option.map_some, pallet?_number hfind, if_neg hk.symm] at hread
    exact hread
  others y hy hstate := by
    obtain ⟨z, hz, rfl⟩ := List.mem_map.mp (show y ∈ l.pack.pallets.map _ from hy)
    by_cases hzk : z.number = k
    · rw [if_pos hzk, hf, hzk]
      exact hk
    · rw [if_neg hzk] at hstate ⊢
      exact h.others z hz hstate
  counter := h.counter

theorem Beyond.dispatched {n : Nat} {q : Pallet} {l : Line} (h : Beyond n q l.pack) : Beyond n q (judgeDispatch l).pack := by
  unfold judgeDispatch
  split
  · split
    · exact h
    · next p hnext =>
      obtain ⟨hmem, hclosed⟩ := queued_of_nextChoice hnext
      exact h.change (h.others p hmem (.inr hclosed)) (fun q => { q with state := .inTransit }) (by intro p; rfl)
  · exact h

theorem Beyond.attempted {n : Nat} {q : Pallet} {l : Line} (h : Beyond n q l.pack) (x : Lane) :
    Beyond n q (tryOpen x l).pack := by
  obtain ⟨hstays, hopens⟩ := tryOpen_spec x l
  by_cases hopen : bagRunning l = true ∧ openPallet l x = none ∧ l.pack.pallets.length < 32 ∧ 1 ≤ freeUnreserved l.log
  · obtain ⟨pos, choices, notices, heq, -⟩ := hopens hopen
    obtain ⟨-, -, hroom, -⟩ := hopen
    have hmem : n ∈ (l.pack.pallets ++ [newPallet pos l.pack.palletCounter x]).map (·.number) :=
      List.mem_map.mpr ⟨q, List.mem_append_left _ (List.mem_of_find?_eq_some h.found),
        pallet?_number (l := l) h.found⟩
    have hfree := nextNumber_not_held (held := (l.pack.pallets ++ [newPallet pos l.pack.palletCounter x]).map (·.number))
      l.pack.palletCounter (by simp; omega)
    rw [heq]
    refine ⟨?_, fun y hy hstate => ?_, fun hcounter => hfree ?_⟩
    · rw [List.find?_append, h.found]
      rfl
    · rcases List.mem_append.mp hy with hy | hy
      · exact h.others y hy hstate
      · rw [List.mem_singleton.mp hy]
        exact h.counter
    · rw [show nextNumber _ 64 l.pack.palletCounter = n from hcounter]
      exact hmem
  · rw [hstays hopen]
    exact h

theorem Beyond.congr {n : Nat} {q : Pallet} {a b : Pack} (h : Beyond n q a) (hpallets : b.pallets = a.pallets)
    (hcounter : b.palletCounter = a.palletCounter) : Beyond n q b where
  found := by rw [hpallets]; exact h.found
  others := by rw [hpallets]; exact h.others
  counter := by rw [hcounter]; exact h.counter

theorem Beyond.opened {n : Nat} {q : Pallet} {l : Line} (h : Beyond n q l.pack) : Beyond n q (openPallets l).pack := by
  obtain ⟨b, hb, -⟩ := judgeHold_pack (tryOpen .hold (tryOpen .release l))
  rw [show (openPallets l).pack = _ from hb]
  exact ((h.attempted .release).attempted .hold).congr rfl rfl

theorem beyond_beside {n k : Nat} (hk : k ≠ n) (q : Pallet) : KeptBeside k (Beyond n q) where
  change f _ hf h := h.change hk f hf
  dispatch _ h := h.dispatched
  opens _ h := h.opened

/-! ## A pallet that waits to go -/

/-- A pallet found by its number, CLOSED or already IN_TRANSIT, but for its state the one given. -/
def WaitsOrGone (n : Nat) (p : Pallet) (k : Pack) : Prop :=
  ∃ st, (st = .closed ∨ st = .inTransit) ∧ k.pallets.find? (·.number == n) = some { p with state := st }

theorem WaitsOrGone.dispatched {n : Nat} {p : Pallet} {l : Line} (h : WaitsOrGone n p l.pack) :
    WaitsOrGone n p (judgeDispatch l).pack := by
  unfold judgeDispatch
  split
  · split
    · exact h
    · next q _ =>
      obtain ⟨st, hst, hfind⟩ := h
      have hread := pallet?_changePallet q.number n (fun q => { q with state := .inTransit }) (by intro y; rfl) l
      rw [show pallet? l n = _ from hfind, Option.map_some] at hread
      by_cases hsame : p.number = q.number
      · rw [if_pos hsame] at hread
        exact ⟨.inTransit, .inr rfl, hread⟩
      · rw [if_neg hsame] at hread
        exact ⟨st, hst, hread⟩
  · exact h

theorem waitsOrGone_beside {n k : Nat} (hk : k ≠ n) (p : Pallet) : KeptBeside k (WaitsOrGone n p) where
  change f l hf h := by
    obtain ⟨st, hst, hfind⟩ := h
    have hread := pallet?_changePallet k n f hf l
    have hnumber : p.number = n := pallet?_number (l := l) (p := { p with state := st }) hfind
    rw [show pallet? l n = _ from hfind, Option.map_some, if_neg (by rw [hnumber]; exact hk.symm)] at hread
    exact ⟨st, hst, hread⟩
  dispatch _ h := h.dispatched
  opens l h := by
    obtain ⟨st, hst, hfind⟩ := h
    obtain ⟨more, hmore⟩ := openPallets_pallets l
    exact ⟨st, hst, pallet?_append (l := l) hmore hfind⟩

/-! ## The lots -/

/-- Every live lot stays live, with the same value of a field. -/
def LotsKeep {α : Type} (field : Lot → α) (l l' : Line) : Prop :=
  ∀ n x, lot? l n = some x → ∃ y, lot? l' n = some y ∧ field y = field x

section
variable {α : Type} {field : Lot → α}

theorem LotsKeep.trans {a b c : Line} (x : LotsKeep field a b) (y : LotsKeep field b c) : LotsKeep field a c := by
  intro n z hz
  obtain ⟨u, hu, heq⟩ := x n z hz
  obtain ⟨v, hv, heq'⟩ := y n u hu
  exact ⟨v, hv, heq'.trans heq⟩

theorem LotsKeep.of_track {l l' : Line} (h : l'.track = l.track) : LotsKeep field l l' :=
  fun n x hx => ⟨x, (lot?_congr h n).trans hx, rfl⟩

theorem LotsKeep.changeLot {f : Lot → Lot} (hnumber : ∀ x, (f x).number = x.number) (hfield : ∀ x, field (f x) = field x)
    (k : Nat) (l : Line) : LotsKeep field l (changeLot k f l) := by
  intro n x hx
  rw [lot?_changeLot k n f hnumber, hx, Option.map_some]
  refine ⟨_, rfl, ?_⟩
  split
  · exact hfield x
  · rfl

theorem LotsKeep.foldl {β : Type} {f : Line → β → Line} (h : ∀ l b, LotsKeep field l (f l b)) (bs : List β) (l : Line) :
    LotsKeep field l (bs.foldl f l) := by
  induction bs generalizing l with
  | nil => exact .of_track rfl
  | cons b bs ih => exact (h l b).trans (ih (f l b))

/-- Exposing a pallet counts for its lots, and that is all it does to them (R157). -/
theorem LotsKeep.expose (h : ∀ x, field (Lot.countExposed x) = field x) (k : Nat) (l : Line) :
    LotsKeep field l (exposePallet k l) := by
  cases hp : pallet? l k with
  | none =>
    rw [exposePallet, hp]
    exact .of_track rfl
  | some p =>
    let marked : Line := changePallet k (fun q => { q with exposed := true, timer := .expired }) l
    have hcounted : LotsKeep field marked
        ((p.lots.map (·.lot)).foldl (fun l n => Machine.changeLot n Lot.countExposed l) marked) :=
      .foldl (fun l n => .changeLot (by intro x; rfl) h n l) _ _
    have hexposed : LotsKeep field l (exposedLine k p l) :=
      (LotsKeep.of_track (l' := marked) rfl).trans (hcounted.trans (.of_track rfl))
    have htrack : (exposePallet k l).track = (exposedLine k p l).track := by
      by_cases hopen : p.state = .opened
      · obtain ⟨c, heq | heq⟩ := exposePallet_open hp hopen
        · rw [heq, (offer_blocks _ _ _).2.1, closePallet_track]
        · rw [heq, closePallet_track, (offer_blocks _ _ _).2.1]
      · rw [exposePallet_shut hp hopen, (offer_blocks _ _ _).2.1]
    exact hexposed.trans (.of_track htrack)

/-- A bag's joining counts for its lots, and that is all it does to them (R150, R157). -/
theorem LotsKeep.join (h : ∀ x, field (Lot.countExposed x) = field x)
    (hlive : ∀ x : Lot, field { x with livePallets := x.livePallets + 1 } = field x) (p : Pallet) (w : Nat)
    (lots : List Nat) (start : Word) (provisional : Bool) (l : Line) :
    LotsKeep field l (joinPallet p w lots start provisional l) := by
  have hbagged : LotsKeep field l (bagged p w lots start provisional l) := by
    refine LotsKeep.trans (.of_track ?_) (.foldl (fun l n => .changeLot (by intro x; rfl) hlive n l) _ _)
    rfl
  have hfull : LotsKeep field l (closedFull p (bagged p w lots start provisional l)) := by
    refine hbagged.trans (.of_track ?_)
    unfold closedFull
    split
    · exact closePallet_track _ _ _
    · rfl
  rcases joinPallet_eq p w lots start provisional l with heq | heq
  · rw [heq]
    exact hfull
  · rw [heq]
    exact hfull.trans (.expose h _ _)

end

end Sys2Proof.Machine
end

section
/-! SUPPORT. The judgment of a bag in its parts: the drawing, the lane, the pallet, and what is recorded (R142 to
R147). -/

namespace Sys2Proof.Machine

/-! ## The parts -/

/-- The line with the weight drawn on the feed list and the bag's number taken (R142, R144). -/
def drawn (w : Nat) (l : Line) : Line :=
  setFeed (drawMass l.pack.feed w).feed { l with pack := { l.pack with bagCounter := nextBag l.pack.bagCounter } }

/-- The lots of a bag: the first two reached (R144). -/
def bagLots (w : Nat) (l : Line) : List Nat := ((drawMass l.pack.feed w).shares.map (·.lot)).take 2

/-- The exit time of the first share, where a bag's exposure starts (R151). -/
def bagStart (w : Nat) (l : Line) : Word := ((drawMass l.pack.feed w).shares.head?.map (·.exit)).getD (now l)

/-- The lane of a bag before any pallet is considered (R143, R146). -/
def bagDecision (injected : Bool) (w : Nat) (l : Line) : Decision :=
  decideLane (drawn w l) (!injected && !bagRunning l) w (drawMass l.pack.feed w).shares

/-- The ring's entry of a bag (R147). -/
def ringEntry (w : Nat) (l : Line) (d : Decision) (pallet : Nat) : RingEntry :=
  { bag := l.pack.bagCounter, weight := w, pallet := pallet, first := (bagLots w l).getD 0 0,
    second := (bagLots w l).getD 1 0, lane := d.lane, reason := d.reason, provisional := d.provisional }

/-- The line with a bag's shares claimed, its entry written and the entries drawn to 0 retired (R140, R145, R147). -/
def recordBag (a : Attribution) (e : RingEntry) (l : Line) : Line :=
  a.retired.foldl (fun l e => retireFeed e l)
    (writeRing e (setLane e.lane (a.shares.foldl (fun l s => claimShare (e.lane == .reject) s l) l)))

/-- The answer of a judged bag. -/
def bagResult (l : Line) (d : Decision) (pallet : Nat) : BagResult :=
  { bag := l.pack.bagCounter, lane := d.lane, reason := d.reason, pallet := pallet }

theorem judgeBag_parts (injected : Bool) (w : Nat) (l : Line) :
    judgeBag injected w l =
      let d := bagDecision injected w l
      let m := if d.lane = .reject then drawn w l else palletFor d.lane (bagLots w l) (drawn w l)
      let target := if d.lane = .reject then none else openPallet m d.lane
      let final := if d.lane ≠ .reject ∧ target.isNone then Decision.rejected .noPallet else d
      let number := (target.map (·.number)).getD 0
      (bagResult l final number,
        recordBag (drawMass l.pack.feed w) (ringEntry w l final number)
          (match target with
            | some p => joinPallet p w (bagLots w l) (bagStart w l) d.provisional m
            | none => m)) := rfl

theorem judgeBag_rejects {injected : Bool} {w : Nat} {l : Line} (h : (bagDecision injected w l).lane = .reject) :
    judgeBag injected w l = (bagResult l (bagDecision injected w l) 0,
      recordBag (drawMass l.pack.feed w) (ringEntry w l (bagDecision injected w l) 0) (drawn w l)) := by
  simp [judgeBag_parts, h]

theorem judgeBag_noPallet {injected : Bool} {w : Nat} {l : Line} (h : (bagDecision injected w l).lane ≠ .reject)
    (hnone : openPallet (palletFor (bagDecision injected w l).lane (bagLots w l) (drawn w l))
      (bagDecision injected w l).lane = none) :
    judgeBag injected w l = (bagResult l (.rejected .noPallet) 0,
      recordBag (drawMass l.pack.feed w) (ringEntry w l (.rejected .noPallet) 0)
        (palletFor (bagDecision injected w l).lane (bagLots w l) (drawn w l))) := by
  simp [judgeBag_parts, h, hnone]

theorem judgeBag_joins {injected : Bool} {w : Nat} {l : Line} {p : Pallet} (h : (bagDecision injected w l).lane ≠ .reject)
    (hopen : openPallet (palletFor (bagDecision injected w l).lane (bagLots w l) (drawn w l))
      (bagDecision injected w l).lane = some p) :
    judgeBag injected w l = (bagResult l (bagDecision injected w l) p.number,
      recordBag (drawMass l.pack.feed w) (ringEntry w l (bagDecision injected w l) p.number)
        (joinPallet p w (bagLots w l) (bagStart w l) (bagDecision injected w l).provisional
          (palletFor (bagDecision injected w l).lane (bagLots w l) (drawn w l)))) := by
  simp [judgeBag_parts, h, hopen]

/-! ## The lane -/

theorem decideLane_overspan {l : Line} {w : Nat} {shares : List Share} (h : 3 ≤ shares.length) :
    decideLane l false w shares = .rejected .overspan := by
  match shares, h with
  | _ :: _ :: _ :: _, _ => rfl

theorem decideLane_tests {l : Line} {w : Nat} {shares : List Share} (hsome : shares ≠ []) (h : shares.length ≤ 2) :
    decideLane l false w shares = laneTests l w ((shares.map (·.lot)).take 2) := by
  match shares, hsome, h with
  | [_], _, _ => rfl
  | [_, _], _, _ => rfl

/-- The bag's first lot gives it limits that its weight is not within (R146). -/
def Misweighed (l : Line) (w : Nat) (listed : List Nat) : Prop :=
  ∃ n e, listed.head? = some n ∧ lotRecipe l n = some e ∧ (w < e.bagMin ∨ e.bagMax < w)

theorem misweighed_iff (l : Line) (w : Nat) (listed : List Nat) :
    ((listed.head?.bind (lotRecipe l)).any fun r => w < r.bagMin || r.bagMax < w) = true ↔ Misweighed l w listed := by
  unfold Misweighed
  cases listed.head? with
  | none => simp
  | some n => cases h : lotRecipe l n <;> simp [h]

theorem laneTests_trial {l : Line} {w : Nat} {listed : List Nat} (h : ∃ x ∈ listed.filterMap (lot? l), x.trial = true) :
    laneTests l w listed = .rejected .trial := by
  rw [laneTests, if_pos (List.any_eq_true.mpr h)]

theorem laneTests_weight {l : Line} {w : Nat} {listed : List Nat} (ht : ¬ ∃ x ∈ listed.filterMap (lot? l), x.trial = true)
    (h : Misweighed l w listed) : laneTests l w listed = .rejected .weight := by
  rw [laneTests, if_neg (mt List.any_eq_true.mp ht), if_pos ((misweighed_iff l w listed).mpr h)]

/-- The lane and the reason of a bag that passes the tests of trial and weight, by its lots (R146). -/
def LaneOf (lots : List Lot) (want : Lane) (why : BagReason) : Prop :=
  let recipes := ∃ x ∈ lots, ∃ y ∈ lots, x.recipe ≠ y.recipe
  let held := ∃ x ∈ lots, x.verdict = .held
  recipes ∧ want = Lane.hold ∧ why = BagReason.recipes ∨ ¬ recipes ∧ held ∧ want = .hold ∧ why = .lotHeld
    ∨ ¬ recipes ∧ ¬ held ∧ want = .release ∧ why = .none

theorem LaneOf.not_reject {lots : List Lot} {want : Lane} {why : BagReason} (h : LaneOf lots want why) :
    want ≠ .reject := by
  rcases h with ⟨-, rfl, -⟩ | ⟨-, -, rfl, -⟩ | ⟨-, -, rfl, -⟩ <;> decide

theorem laneTests_lane {l : Line} {w : Nat} {listed : List Nat} {want : Lane} {why : BagReason}
    (ht : ¬ ∃ x ∈ listed.filterMap (lot? l), x.trial = true) (hm : ¬ Misweighed l w listed)
    (h : LaneOf (listed.filterMap (lot? l)) want why) :
    ∃ provisional : Bool, laneTests l w listed = { lane := want, reason := why, provisional := provisional }
      ∧ (provisional = true ↔ want = .release ∧ ∃ x ∈ listed.filterMap (lot? l), x.verdict = .pending) := by
  have hrecipes : (((listed.filterMap (lot? l)).map (·.recipe)).any fun r =>
        ((listed.filterMap (lot? l)).map (·.recipe)).any (· != r)) = true
      ↔ ∃ x ∈ listed.filterMap (lot? l), ∃ y ∈ listed.filterMap (lot? l), x.recipe ≠ y.recipe := by
    generalize listed.filterMap (lot? l) = lots
    simp only [List.any_eq_true, List.mem_map, bne_iff_ne]
    constructor
    · rintro ⟨_, ⟨x, hx, rfl⟩, _, ⟨y, hy, rfl⟩, hne⟩
      exact ⟨x, hx, y, hy, hne.symm⟩
    · rintro ⟨x, hx, y, hy, hne⟩
      exact ⟨_, ⟨x, hx, rfl⟩, _, ⟨y, hy, rfl⟩, hne.symm⟩
  have hheld : ((listed.filterMap (lot? l)).any (·.verdict == .held)) = true
      ↔ ∃ x ∈ listed.filterMap (lot? l), x.verdict = .held := by
    simp only [List.any_eq_true, beq_iff_eq]
  have hpending : ((listed.filterMap (lot? l)).any (·.verdict == .pending)) = true
      ↔ ∃ x ∈ listed.filterMap (lot? l), x.verdict = .pending := by
    simp only [List.any_eq_true, beq_iff_eq]
  rw [laneTests, if_neg (mt List.any_eq_true.mp ht), if_neg (mt (misweighed_iff l w listed).mp hm)]
  rcases h with ⟨hr, rfl, rfl⟩ | ⟨hr, hh, rfl, rfl⟩ | ⟨hr, hh, rfl, rfl⟩
  · rw [if_pos (hrecipes.mpr hr)]
    exact ⟨false, rfl, by simp⟩
  · rw [if_neg (mt hrecipes.mp hr), if_pos (hheld.mpr hh)]
    exact ⟨false, rfl, by simp⟩
  · rw [if_neg (mt hrecipes.mp hr), if_neg (mt hheld.mp hh)]
    exact ⟨_, rfl, hpending.trans (by simp)⟩

/-! ## The record of a bag -/

theorem foldl_claimShare_lots (rejected : Bool) (shares : List Share) (l : Line) :
    ∃ lots, shares.foldl (fun l s => claimShare rejected s l) l = { l with track := { l.track with lots := lots } } := by
  induction shares generalizing l with
  | nil => exact ⟨_, rfl⟩
  | cons s shares ih =>
    obtain ⟨lots, h⟩ := ih (claimShare rejected s l)
    exact ⟨lots, h⟩

theorem judgeRetirement_lotsOnly (n : Nat) (l : Line) : LotsOnly l (judgeRetirement n l) := by
  unfold judgeRetirement
  split
  · exact ⟨_, _, _, rfl⟩
  · split
    · exact (writeReserved_lotsOnly .lotSummary _ l).trans ⟨_, _, _, rfl⟩
    · exact ⟨_, _, _, rfl⟩

theorem foldl_retireFeed_lotsOnly (es : List FeedEntry) (l : Line) :
    LotsOnly l (es.foldl (fun l e => retireFeed e l) l) := by
  induction es generalizing l with
  | nil => exact ⟨_, _, _, rfl⟩
  | cons e es ih =>
    have hretired : LotsOnly l (retireFeed e l) :=
      LotsOnly.trans (b := changeLot e.lot (fun x => { x with residual := addMass x.residual e.mass }) l) ⟨_, _, _, rfl⟩
        (judgeRetirement_lotsOnly e.lot _)
    exact hretired.trans (ih _)

/-- What is recorded of a bag reaches the ring, LANE_SELECT, the lots and the log. -/
theorem recordBag_lotsOnly (a : Attribution) (e : RingEntry) (l : Line) :
    LotsOnly (writeRing e (setLane e.lane l)) (recordBag a e l) := by
  obtain ⟨lots, hclaimed⟩ := foldl_claimShare_lots (e.lane == .reject) a.shares l
  rw [recordBag, hclaimed]
  exact LotsOnly.trans ⟨_, _, _, rfl⟩ (foldl_retireFeed_lotsOnly a.retired _)

theorem lot?_judgeRetirement_onTrack {l : Line} {n k : Nat} {x : Lot} (hx : lot? l n = some x) (htrack : x.onTrack ≠ 0) :
    lot? (judgeRetirement k l) n = some x := by
  unfold judgeRetirement
  split
  · exact hx
  · next y hy =>
    split
    · next hretires =>
      have hne : n ≠ k := fun hnk => by
        rw [← hnk, hx] at hy
        cases hy
        simp only [canRetire, Bool.and_eq_true, beq_iff_eq] at hretires
        obtain ⟨⟨⟨-, hnone⟩, -⟩, -⟩ := hretires
        exact htrack hnone
      have htracked := writeReserved_track .lotSummary (lotSummaryPayload l y) l
      show (((writeReserved .lotSummary (lotSummaryPayload l y) l).track.lots.filter (·.number != k)).find?
        (·.number == n)) = some x
      rw [htracked]
      exact ((find?_filter_number Lot.number l.track.lots k n).trans (if_neg hne)).trans hx
    · exact hx

theorem lot?_foldl_retireFeed {n : Nat} (es : List FeedEntry) {l : Line} {x : Lot} (hx : lot? l n = some x)
    (htrack : x.onTrack ≠ 0) :
    ∃ residual, lot? (es.foldl (fun l e => retireFeed e l) l) n = some { x with residual := residual } := by
  induction es generalizing l x with
  | nil => exact ⟨x.residual, hx⟩
  | cons e es ih =>
    have hchanged := lot?_changeLot e.lot n (fun x => { x with residual := addMass x.residual e.mass })
      (by intro x; rfl) l
    rw [hx, Option.map_some] at hchanged
    by_cases hlot : x.number = e.lot
    · rw [if_pos hlot] at hchanged
      exact ih (x := { x with residual := addMass x.residual e.mass })
        (lot?_judgeRetirement_onTrack hchanged htrack) htrack
    · rw [if_neg hlot] at hchanged
      exact ih (lot?_judgeRetirement_onTrack hchanged htrack) htrack

/-- A lot's record with one bag more that took the mass given (R145). -/
def Lot.claimed (rejected : Bool) (mass : Nat) (x : Lot) : Lot :=
  { x with
    massBagged := addMass x.massBagged mass
    bagsMade := x.bagsMade + 1
    bagsRejected := if rejected then x.bagsRejected + 1 else x.bagsRejected }

theorem lot?_claimShare {l : Line} {n : Nat} {x : Lot} (rejected : Bool) (s : Share) (hx : lot? l n = some x) :
    lot? (claimShare rejected s l) n = some (if n = s.lot then x.claimed rejected s.mass else x) := by
  have h := lot?_changeLot s.lot n (Lot.claimed rejected s.mass) (by intro x; rfl) l
  rw [hx, Option.map_some, lot?_number hx] at h
  exact h

theorem lot?_foldl_claimShare_other {n : Nat} {x : Lot} (rejected : Bool) (shares : List Share) {l : Line}
    (hx : lot? l n = some x) (hn : ∀ s ∈ shares, s.lot ≠ n) :
    lot? (shares.foldl (fun l s => claimShare rejected s l) l) n = some x := by
  induction shares generalizing l with
  | nil => exact hx
  | cons s shares ih =>
    refine ih ?_ fun t ht => hn t (List.mem_cons_of_mem s ht)
    rw [lot?_claimShare rejected s hx, if_neg (hn s (by simp)).symm]

theorem lot?_foldl_claimShare {x : Lot} (rejected : Bool) (shares : List Share) {l : Line} {share : Share}
    (hmem : share ∈ shares) (hnodup : (shares.map (·.lot)).Nodup) (hx : lot? l share.lot = some x) :
    lot? (shares.foldl (fun l s => claimShare rejected s l) l) share.lot = some (x.claimed rejected share.mass) := by
  induction shares generalizing l with
  | nil => cases hmem
  | cons s shares ih =>
    rw [List.map_cons, List.nodup_cons] at hnodup
    obtain ⟨hfresh, hnodup⟩ := hnodup
    have hfirst := lot?_claimShare rejected s hx
    rcases List.mem_cons.mp hmem with rfl | hmem
    · rw [if_pos rfl] at hfirst
      exact lot?_foldl_claimShare_other rejected shares hfirst fun t ht hlot => hfresh (hlot ▸ List.mem_map_of_mem ht)
    · have hne : share.lot ≠ s.lot := fun hlot => hfresh (hlot ▸ List.mem_map_of_mem hmem)
      rw [if_neg hne] at hfirst
      exact ih hmem hnodup hfirst

/-- The counts of live and exposed pallets of a lot on the track come through the record. -/
theorem recordBag_counts (a : Attribution) (e : RingEntry) {l : Line} {n : Nat} {x : Lot} (hx : lot? l n = some x)
    (htrack : x.onTrack ≠ 0) :
    ∃ y, lot? (recordBag a e l) n = some y ∧ y.livePallets = x.livePallets ∧ y.exposedPallets = x.exposedPallets := by
  have hkept : LotsKeep (fun x => (x.onTrack, x.livePallets, x.exposedPallets)) l
      (a.shares.foldl (fun l s => claimShare (e.lane == .reject) s l) l) :=
    .foldl (fun l s => .changeLot (by intro x; rfl) (by intro x; rfl) s.lot l) a.shares l
  obtain ⟨y, hy, hfields⟩ := hkept n x hx
  simp only [Prod.mk.injEq] at hfields
  obtain ⟨honTrack, hlive, hexposed⟩ := hfields
  obtain ⟨residual, hz⟩ := lot?_foldl_retireFeed a.retired
    (l := writeRing e (setLane e.lane (a.shares.foldl (fun l s => claimShare (e.lane == .reject) s l) l))) hy
    (by rw [honTrack]; exact htrack)
  exact ⟨_, hz, hlive, hexposed⟩

/-- A share reached charges its lot, on the track, and counts the bag (R145). -/
theorem recordBag_charges {a : Attribution} (e : RingEntry) {l : Line} {share : Share} {x : Lot} (hmem : share ∈ a.shares)
    (hnodup : (a.shares.map (·.lot)).Nodup) (hx : lot? l share.lot = some x) (htrack : x.onTrack ≠ 0) :
    ∃ residual, lot? (recordBag a e l) share.lot
      = some { x.claimed (e.lane == .reject) share.mass with residual := residual } :=
  lot?_foldl_retireFeed a.retired
    (l := writeRing e (setLane e.lane (a.shares.foldl (fun l s => claimShare (e.lane == .reject) s l) l)))
    (lot?_foldl_claimShare (e.lane == .reject) a.shares hmem hnodup hx) htrack

end Sys2Proof.Machine
end

section
/-! The statement of INJECT_BAG and BAG_DONE (R142 to R147, R149 to R152, R156 to R159). -/

namespace Sys2Proof.Machine

theorem exec_injectBag (s : State) : exec .injectBag s = .next (s.onLine takeInject) := rfl

/-! ## The pallet of a bag -/

theorem palletFor_none {l : Line} {x : Lane} (lots : List Nat) (h : openPallet l x = none) : palletFor x lots l = l := by
  rw [palletFor, h]

theorem palletFor_fits {l : Line} {x : Lane} {lots : List Nat} {p : Pallet} (h : openPallet l x = some p)
    (hfits : p.lots.length + (newLots p lots).length ≤ 8) : palletFor x lots l = l := by
  rw [palletFor, h]
  exact if_neg (by simp only [Config.palletLots]; omega)

theorem palletFor_full {l : Line} {x : Lane} {lots : List Nat} {p : Pallet} (h : openPallet l x = some p)
    (hfull : 8 < p.lots.length + (newLots p lots).length) : palletFor x lots l = closePallet p.number .lots l := by
  rw [palletFor, h]
  exact if_pos (by simp only [Config.palletLots]; omega)

theorem palletFor_cases (x : Lane) (lots : List Nat) (l : Line) :
    palletFor x lots l = l
      ∨ ∃ p, openPallet l x = some p ∧ palletFor x lots l = closePallet p.number .lots l := by
  cases h : openPallet l x with
  | none => exact .inl (palletFor_none lots h)
  | some p =>
    by_cases hfits : p.lots.length + (newLots p lots).length ≤ 8
    · exact .inl (palletFor_fits h hfits)
    · exact .inr ⟨p, rfl, palletFor_full h (by omega)⟩

theorem palletFor_track (x : Lane) (lots : List Nat) (l : Line) : (palletFor x lots l).track = l.track := by
  rcases palletFor_cases x lots l with h | ⟨p, -, h⟩
  · rw [h]
  · rw [h, closePallet_track]

/-! ## What a bag's line keeps of the line before it -/

theorem lotRecipe_congr {l m : Line} (h : m.track = l.track) (n : Nat) : lotRecipe m n = lotRecipe l n := by
  rw [lotRecipe, lotRecipe, lot?_congr h]
  simp only [recipeAt, h]

/-- A bag's joining, read from a line before it and to a line after it that agree in what it is about. -/
theorem PalletJoined.congr {l m j f : Line} {p : Pallet} {listed : List Nat} {w : Nat} {b : Bool} {start order : Word}
    (h : PalletJoined m j p listed w b start order) (hactive : m.active = l.active) (htrack : m.track = l.track)
    (hnow : now m = now l)
    (hbusy : l.transfer.transit.isSome = true ∨ kindIn l .transfer .running = false →
      m.transfer.transit.isSome = true ∨ kindIn m .transfer .running = false)
    (hpallets : f.pack.pallets = j.pack.pallets)
    (hnotice : noticeSet j .palletExposed = true → noticeSet f .palletExposed = true)
    (hlots : ∀ n x y, lot? l n = some x → x.onTrack ≠ 0 → lot? j n = some y →
      ∃ z, lot? f n = some z ∧ z.livePallets = y.livePallets ∧ z.exposedPallets = y.exposedPallets) :
    PalletJoined l f p listed w b start order := by
  unfold PalletJoined at h ⊢
  intro missing lots g limit hg hlimit hleast due first deadline joined full past
  obtain ⟨hopen, hshut, hraised, hcounts⟩ := h g limit (hactive.trans hg)
    (by simpa only [lotRecipe_congr htrack] using hlimit) (by simpa only [lotRecipe_congr htrack] using hleast)
  simp only [hnow, lot?_congr htrack] at hopen hshut hraised hcounts
  have hread : ∀ n, pallet? f n = pallet? j n := pallet?_congr hpallets
  refine ⟨fun hf hp => (hread _).trans (hopen hf hp), fun hfp => ?_, fun hp => hnotice (hraised hp), ?_⟩
  · obtain ⟨st, hst, hidle, hq⟩ := hshut hfp
    rw [hread]
    exact ⟨st, hst, fun hc => hidle (hbusy hc), hq⟩
  · intro n hn x hlisted hnodup hx honTrack
    obtain ⟨y, hy, hmissing, hlisted, hpast, hnotPast⟩ := hcounts n hn x hlisted hnodup hx honTrack
    obtain ⟨z, hz, hlive, hexposed⟩ := hlots n x y hx honTrack hy
    rw [← hlive] at hmissing hlisted
    rw [← hexposed] at hpast hnotPast
    exact ⟨z, hz, hmissing, hlisted, hpast, hnotPast⟩

/-- What the line with the bag's pallet chosen, and joined or not, keeps of the line before the bag. -/
structure BagReady (w : Nat) (l j : Line) : Prop where
  kept   : BagsKept (drawn w l).pack j.pack
  lots   : LotsKeep (fun x => (x.onTrack, x.massBagged, x.bagsMade, x.bagsRejected)) l j
  beyond : ∀ n q, Beyond n q l.pack → Beyond n q j.pack

theorem BagReady.drawn (w : Nat) (l : Line) : BagReady w l (drawn w l) where
  kept := rfl
  lots := .of_track rfl
  beyond _ _ h := h.congr rfl rfl

theorem BagReady.palletFor (w : Nat) (x : Lane) (lots : List Nat) (l : Line) :
    BagReady w l (palletFor x lots (Machine.drawn w l)) := by
  rcases palletFor_cases x lots (Machine.drawn w l) with heq | ⟨p, hopen, heq⟩
  · rw [heq]
    exact .drawn w l
  · obtain ⟨hmem, -, hstate⟩ := openPallet_spec hopen
    rw [heq]
    refine ⟨(bagsKept_beside p.number _).close .lots rfl, .of_track (closePallet_track _ _ _), fun n q h => ?_⟩
    exact (beyond_beside (h.others p hmem (.inl hstate)) q).close .lots (l := Machine.drawn w l) (h.congr rfl rfl)

theorem BagReady.joined {w : Nat} {l m : Line} (h : BagReady w l m) {x : Lane} {p : Pallet} (hopen : openPallet m x = some p)
    (lots : List Nat) (start : Word) (provisional : Bool) :
    BagReady w l (joinPallet p w lots start provisional m) := by
  obtain ⟨hmem, -, hstate⟩ := openPallet_spec hopen
  refine ⟨(bagsKept_beside p.number _).join w lots start provisional h.kept, h.lots.trans ?_, fun n q hq => ?_⟩
  · exact .join (by intro x; rfl) (by intro x; rfl) p w lots start provisional m
  · have hm := h.beyond n q hq
    exact (beyond_beside (hm.others p hmem (.inl hstate)) q).join w lots start provisional hm

/-! ## What is recorded -/

section
variable {w : Nat} {l j : Line} (h : BagReady w l j) (d : Decision) (number : Nat)
include h

/-- The pack unit's fields that a judged bag writes (R142, R144, R147). -/
theorem BagReady.recorded :
    let f := recordBag (drawMass l.pack.feed w) (ringEntry w l d number) j
    f.pack.feed = (drawMass l.pack.feed w).feed
      ∧ f.pack.bagCounter = (if l.pack.bagCounter + 1 = 0 then 1 else l.pack.bagCounter + 1)
      ∧ f.pack.laneSelect = d.lane
      ∧ (∀ j, (chan f j).desc.kind = .partOutput → (chan f j).desc.func = .laneSelect →
          (chan f j).run.functionValue = d.lane.code)
      ∧ f.pack.ring = l.pack.ring.modify l.pack.ringNext (fun _ => ringEntry w l d number)
      ∧ f.pack.ringNext = (l.pack.ringNext + 1) % 64 := by
  intro f
  obtain ⟨_, _, _, hf⟩ := recordBag_lotsOnly (drawMass l.pack.feed w) (ringEntry w l d number) j
  have hfeed := congrArg Pack.feed h.kept
  have hcounter := congrArg Pack.bagCounter h.kept
  have hring := congrArg Pack.ring h.kept
  have hnext := congrArg Pack.ringNext h.kept
  have hvalue := functionValue_setFunction .laneSelect (ringEntry w l d number).lane.code
    { j with pack := { j.pack with laneSelect := (ringEntry w l d number).lane } }
  have hmodify : j.pack.ring.modify j.pack.ringNext (fun _ => ringEntry w l d number)
      = l.pack.ring.modify l.pack.ringNext (fun _ => ringEntry w l d number) := by
    rw [show j.pack.ring = l.pack.ring from hring, show j.pack.ringNext = l.pack.ringNext from hnext]
  rw [show f = _ from hf]
  exact ⟨hfeed, hcounter, rfl, hvalue, hmodify, congrArg (fun n => (n + 1) % 64) hnext⟩

omit h in
theorem recorded_units :
    let f := recordBag (drawMass l.pack.feed w) (ringEntry w l d number) j
    f.pack.pallets = j.pack.pallets ∧ f.pack.palletCounter = j.pack.palletCounter ∧ f.transfer = j.transfer := by
  obtain ⟨_, _, _, hf⟩ := recordBag_lotsOnly (drawMass l.pack.feed w) (ringEntry w l d number) j
  rw [hf]
  exact ⟨rfl, rfl, rfl⟩

/-- Each lot reached is charged its share (R145). -/
theorem BagReady.charged (share : Share) (hshare : share ∈ (drawMass l.pack.feed w).shares) (x : Lot)
    (hnodup : ((drawMass l.pack.feed w).shares.map (·.lot)).Nodup) (hx : lot? l share.lot = some x)
    (htrack : x.onTrack ≠ 0) (hrejected : d.lane = .reject → j.track = l.track) :
    ∃ y, lot? (recordBag (drawMass l.pack.feed w) (ringEntry w l d number) j) share.lot = some y
      ∧ y.massBagged = addMass x.massBagged share.mass ∧ y.bagsMade = x.bagsMade + 1
      ∧ (d.lane = .reject → y.bagsRejected = x.bagsRejected + 1 ∧ y.livePallets = x.livePallets)
      ∧ (d.lane ≠ .reject → y.bagsRejected = x.bagsRejected) := by
  obtain ⟨y, hy, hfields⟩ := h.lots share.lot x hx
  simp only [Prod.mk.injEq] at hfields
  obtain ⟨honTrack, hmass, hmade, hcount⟩ := hfields
  obtain ⟨residual, hz⟩ := recordBag_charges (ringEntry w l d number) hshare hnodup hy (by rw [honTrack]; exact htrack)
  refine ⟨_, hz, ?_, ?_, fun hlane => ⟨?_, ?_⟩, fun hlane => ?_⟩
  · show addMass y.massBagged share.mass = _
    rw [hmass]
  · show y.bagsMade + 1 = _
    rw [hmade]
  · have hreject : (ringEntry w l d number).lane = .reject := hlane
    simp only [Lot.claimed, hreject, hcount]
    rfl
  · rw [lot?_congr (hrejected hlane), hx] at hy
    cases hy
    rfl
  · have hnot : ((ringEntry w l d number).lane == .reject) = false :=
      beq_eq_false_iff_ne.mpr hlane
    simp only [Lot.claimed, hnot, hcount]
    rfl

/-- A pallet in transit, UNCONFIRMED or STORED comes through (R159, R160). -/
theorem BagReady.settled (hnodup : (l.pack.pallets.map (·.number)).Nodup)
    (hfresh : ∀ q ∈ l.pack.pallets, q.number ≠ l.pack.palletCounter) (q : Pallet) (hq : q ∈ l.pack.pallets)
    (hstate : q.state = .inTransit ∨ q.state = .unconfirmed ∨ q.state = .stored) :
    pallet? (recordBag (drawMass l.pack.feed w) (ringEntry w l d number) j) q.number = some q := by
  obtain ⟨hpallets, -⟩ := recorded_units (w := w) (l := l) (j := j) d number
  have hsame : ∀ y ∈ l.pack.pallets, y.number = q.number → y = q := fun y hy hn =>
    eq_of_nodup_map hnodup hy hq hn
  have hbeyond : Beyond q.number q l.pack := by
    refine ⟨?_, fun y hy hopen hn => ?_, (hfresh q hq).symm⟩
    · cases hfind : l.pack.pallets.find? (·.number == q.number) with
      | none => exact absurd (by simp) (List.find?_eq_none.mp hfind q hq)
      | some y => rw [hsame y (List.mem_of_find?_eq_some hfind) (pallet?_number (l := l) hfind)]
    · rw [hsame y hy hn] at hopen
      rcases hstate with h | h | h <;> rw [h] at hopen <;> simp at hopen
  exact (pallet?_congr hpallets q.number).trans (h.beyond _ _ hbeyond).found

end

end Sys2Proof.Machine
end

section
/-! The judgment of a bag as BagJudged states it (R142 to R147, R149 to R152). -/

namespace Sys2Proof.Machine

/-! ## The parts of a judged bag -/

theorem laneTests_rejected {l : Line} {w : Nat} {lots : List Nat} (h : (laneTests l w lots).lane = .reject) :
    (laneTests l w lots).provisional = false := by
  revert h
  unfold laneTests
  dsimp only
  split
  · exact fun _ => rfl
  · split
    · exact fun _ => rfl
    · split
      · exact fun _ => rfl
      · split
        · exact fun _ => rfl
        · exact nofun

/-- A bag for REJECT has its provisional mark clear. -/
theorem decideLane_rejected {l : Line} {zoneBag : Bool} {w : Nat} {shares : List Share}
    (h : (decideLane l zoneBag w shares).lane = .reject) : (decideLane l zoneBag w shares).provisional = false := by
  revert h
  unfold decideLane
  split
  · exact fun _ => rfl
  · split
    · exact fun _ => rfl
    · exact fun _ => rfl
    · exact laneTests_rejected

/-- A judged bag: its lane decision, and the line it is recorded on, by the pallet it finds (R143, R147, R150). -/
theorem judgeBag_recorded (injected : Bool) (w : Nat) (l : Line) :
    let d := bagDecision injected w l
    let m := palletFor d.lane (bagLots w l) (drawn w l)
    ∃ d' number j,
      judgeBag injected w l = (bagResult l d' number, recordBag (drawMass l.pack.feed w) (ringEntry w l d' number) j)
      ∧ BagReady w l j
      ∧ (d'.lane = .reject → j.track = l.track ∧ number = 0 ∧ d'.provisional = false)
      ∧ (d.lane = .reject → d' = d ∧ j = drawn w l)
      ∧ (d.lane ≠ .reject → openPallet m d.lane = none → d' = .rejected .noPallet ∧ j = m)
      ∧ (d.lane ≠ .reject → ∀ p, openPallet m d.lane = some p →
          d' = d ∧ number = p.number ∧ j = joinPallet p w (bagLots w l) (bagStart w l) d.provisional m) := by
  intro d m
  by_cases hreject : d.lane = .reject
  · exact ⟨d, 0, drawn w l, judgeBag_rejects hreject, .drawn w l, fun _ => ⟨rfl, rfl, decideLane_rejected hreject⟩,
      fun _ => ⟨rfl, rfl⟩, fun h => absurd hreject h, fun h => absurd hreject h⟩
  · have hready : BagReady w l m := .palletFor w d.lane (bagLots w l) l
    cases hopen : openPallet m d.lane with
    | none =>
      exact ⟨.rejected .noPallet, 0, m, judgeBag_noPallet hreject hopen, hready,
        fun _ => ⟨palletFor_track _ _ _, rfl, rfl⟩, fun h => absurd h hreject, fun _ _ => ⟨rfl, rfl⟩,
        fun _ p hp => by cases hp⟩
    | some p =>
      refine ⟨d, p.number, _, judgeBag_joins hreject hopen, hready.joined hopen _ _ _, fun h => absurd h hreject,
        fun h => absurd h hreject, fun _ h => (by cases h), fun _ q hq => ?_⟩
      cases hq
      exact ⟨rfl, rfl, rfl⟩

theorem recordBag_still (a : Attribution) (e : RingEntry) (l : Line) : Still l (recordBag a e l) := by
  unfold recordBag
  refine Still.trans ?_ (.foldl (fun l e => retireFeed_still e l) _ _)
  refine Still.trans ?_ (writeRing_still _ _)
  exact Still.trans (.foldl (fun l s => changeLot_still _ _ l) _ _) (setLane_still _ _)

/-- A lot on the track keeps its counts of pallets through the record of the bag. -/
theorem BagReady.counts {w : Nat} {l j : Line} (h : BagReady w l j) (d : Decision) (number : Nat) (n : Nat) (x y : Lot)
    (hx : lot? l n = some x) (htrack : x.onTrack ≠ 0) (hy : lot? j n = some y) :
    ∃ z, lot? (recordBag (drawMass l.pack.feed w) (ringEntry w l d number) j) n = some z
      ∧ z.livePallets = y.livePallets ∧ z.exposedPallets = y.exposedPallets := by
  obtain ⟨y', hy', hfields⟩ := h.lots n x hx
  rw [hy] at hy'
  cases hy'
  simp only [Prod.mk.injEq] at hfields
  obtain ⟨honTrack, -⟩ := hfields
  exact recordBag_counts _ _ hy (by rw [honTrack]; exact htrack)

/-! ## The closing for LOTS -/

theorem closePallet_joinCounter (n : Nat) (r : CloseReason) (l : Line) :
    (closePallet n r l).transfer.joinCounter = l.transfer.joinCounter + 1 := by
  rw [closePallet_eq, openPallets_transfer]
  unfold judgeDispatch
  split
  · split <;> rfl
  · rfl

theorem closePallet_busy {n : Nat} {r : CloseReason} {l : Line} (h : l.transfer.transit.isSome = true) :
    (closePallet n r l).transfer.transit.isSome = true := by
  rw [closePallet_eq, openPallets_transfer, judgeDispatch_stays (l := joinedQueue n r l) (.inl h)]
  exact h

/-- Without the BAG zone RUNNING, a free record or a free reservation no pallet opens (R149). -/
theorem openPallets_noRoom {l : Line}
    (h : bagRunning l = false ∨ 32 ≤ l.pack.pallets.length ∨ freeUnreserved l.log = 0) :
    (openPallets l).pack.pallets = l.pack.pallets := by
  obtain ⟨news, hopened, -, hlength, -⟩ := tryOpen_both l
  obtain ⟨hpallets, -⟩ := judgeHold_kept (tryOpen .hold (tryOpen .release l))
  have hnone : news = [] := by
    rw [← List.length_eq_zero_iff, hlength]
    split
    · next hbag =>
      rcases h with h | h
      · rw [hbag] at h
        cases h
      · omega
    · rfl
  rw [openPallets, hpallets, hopened.pallets, hnone, List.append_nil]

/-- A pallet closed for LOTS where none can open leaves its lane without one (R150). -/
theorem closePallet_noRoom {l : Line} {n : Nat} {x : Lane} (r : CloseReason)
    (honly : ∀ q ∈ l.pack.pallets, q.lane = x → q.state = .opened → q.number = n)
    (h : bagRunning l = false ∨ 32 ≤ l.pack.pallets.length ∨ freeUnreserved l.log = 0) :
    openPallet (closePallet n r l) x = none := by
  have hpath : PathOnly l (judgeDispatch (joinedQueue n r l)) := PathOnly.trans ⟨_, _, _, rfl⟩ (judgeDispatch_pathOnly _)
  obtain ⟨hlog, -, hzones, -⟩ := hpath.blocks
  have hlength : (judgeDispatch (joinedQueue n r l)).pack.pallets.length = l.pack.pallets.length :=
    (judgeDispatch_length _).trans (List.length_map ..)
  have hstays := openPallets_noRoom (l := judgeDispatch (joinedQueue n r l)) (by
    rw [hlog, hlength, show bagRunning _ = bagRunning l from kindIn_congr hzones .bag .running]
    exact h)
  rw [closePallet_eq, openPallet, hstays]
  exact openPallet_judged_none r honly

/-- The pallet opened in the place of one closed is found by its number. -/
theorem pallet?_closePallet_new {l : Line} {n : Nat} {r : CloseReason} {q : Pallet}
    (hpallets : (closePallet n r l).pack.pallets = (judgeDispatch (joinedQueue n r l)).pack.pallets ++ [q])
    (hfresh : ∀ y ∈ l.pack.pallets, y.number ≠ q.number) : pallet? (closePallet n r l) q.number = some q := by
  have hnumbers : (judgeDispatch (joinedQueue n r l)).pack.pallets.map (·.number) = l.pack.pallets.map (·.number) :=
    (judgeDispatch_numbers _).trans
      (changePallet_numbers n (Pallet.shut .closed r l.transfer.joinCounter) (by intro p; rfl) l)
  have hnone : (judgeDispatch (joinedQueue n r l)).pack.pallets.find? (·.number == q.number) = none := by
    rw [List.find?_eq_none]
    intro y hy hsame
    have hmem := List.mem_map_of_mem (f := (·.number)) hy
    rw [hnumbers] at hmem
    obtain ⟨z, hz, hzy⟩ := List.mem_map.mp hmem
    exact hfresh z hz (hzy.trans (by simpa using hsame))
  rw [pallet?, hpallets, List.find?_append, hnone]
  simp

/-! ## The bag judged -/

section
variable {injected : Bool} {w : Nat} {l : Line}

/-- The bag's lane where its zone takes it: the tests of its lots, or OVERSPAN (R143, R144, R146). -/
theorem bagDecision_lane (hzone : (!injected && !bagRunning l) = false) (hfeed : l.pack.feed ≠ []) :
    (3 ≤ (drawMass l.pack.feed w).shares.length → bagDecision injected w l = .rejected .overspan)
      ∧ ((drawMass l.pack.feed w).shares.length ≤ 2 → bagDecision injected w l = laneTests l w (bagLots w l)) := by
  obtain ⟨-, hsome, -⟩ := drawMass_spec l.pack.feed w hfeed
  rw [bagDecision, hzone]
  exact ⟨decideLane_overspan, decideLane_tests hsome⟩

/-- A bag that finds a pallet with room joins it. -/
theorem bagJudged_fits {want : Lane} {why : BagReason} {provisional : Bool} {p : Pallet}
    (hd : bagDecision injected w l = { lane := want, reason := why, provisional := provisional }) (hwant : want ≠ .reject)
    (hopen : openPallet l want = some p) (hfits : p.lots.length + (newLots p (bagLots w l)).length ≤ 8) :
    let r := (judgeBag injected w l).1
    let l' := (judgeBag injected w l).2
    r.lane = want ∧ r.reason = why ∧ r.pallet = p.number
      ∧ (pallet? l p.number = some p → ∀ share, (drawMass l.pack.feed w).shares.head? = some share →
          PalletJoined l l' p (bagLots w l) w provisional share.exit l.transfer.joinCounter) := by
  have hm : palletFor want (bagLots w l) (drawn w l) = drawn w l := palletFor_fits (l := drawn w l) hopen hfits
  obtain ⟨d', number, j, heq, hready, -, -, -, hjoins⟩ := judgeBag_recorded injected w l
  simp only [hd, hm] at hjoins
  obtain ⟨rfl, rfl, rfl⟩ := hjoins hwant p hopen
  rw [heq]
  refine ⟨rfl, rfl, rfl, fun hp share hshare => ?_⟩
  have hstart : bagStart w l = share.exit := by rw [bagStart, hshare]; rfl
  obtain ⟨-, -, hstate⟩ := openPallet_spec hopen
  have hjoined := joinPallet_spec p w (bagLots w l) (bagStart w l) provisional (drawn w l) hp hstate
  rw [hstart] at hjoined hready
  simp only [hstart]
  refine hjoined.congr rfl rfl rfl id (recorded_units _ _).1 ((recordBag_still _ _ _).within.notices _) ?_
  exact hready.counts _ _

/-- A bag whose pallet has no room joins the one opened in its place. -/
theorem bagJudged_opens {want : Lane} {why : BagReason} {provisional : Bool} {p : Pallet}
    (hd : bagDecision injected w l = { lane := want, reason := why, provisional := provisional }) (hwant : want ≠ .reject)
    (hopen : openPallet l want = some p) (hfull : 8 < p.lots.length + (newLots p (bagLots w l)).length)
    (honly : ∀ q ∈ l.pack.pallets, q.lane = want → q.state = .opened → q.number = p.number)
    (hbag : bagRunning l = true) (hroom : l.pack.pallets.length < 32) (hfree : 1 ≤ freeUnreserved l.log)
    (hother : (openPallet l want.other).isSome = true) (hnodup : (l.pack.pallets.map (·.number)).Nodup)
    (hfresh : ∀ q ∈ l.pack.pallets, q.number ≠ l.pack.palletCounter) :
    let r := (judgeBag injected w l).1
    let l' := (judgeBag injected w l).2
    r.lane = want ∧ r.reason = why ∧ r.pallet = l.pack.palletCounter
      ∧ (∃ pos, ∀ share, (drawMass l.pack.feed w).shares.head? = some share →
          PalletJoined l l' (newPallet pos l.pack.palletCounter want) (bagLots w l) w provisional share.exit
            (l.transfer.joinCounter + 1))
      ∧ ∃ st, (st = .closed ∨ st = .inTransit) ∧ pallet? l' p.number = some
          { p with state := st, reason := .lots, joinOrder := some l.transfer.joinCounter } := by
  obtain ⟨hmem, hlane, hstate⟩ := openPallet_spec hopen
  have hm : palletFor want (bagLots w l) (drawn w l) = closePallet p.number .lots (drawn w l) :=
    palletFor_full (l := drawn w l) hopen hfull
  have hp : pallet? (drawn w l) p.number = some p := by
    cases hfind : l.pack.pallets.find? (·.number == p.number) with
    | none => exact absurd (by simp) (List.find?_eq_none.mp hfind p hmem)
    | some y =>
      rw [eq_of_nodup_map hnodup (List.mem_of_find?_eq_some hfind) hmem (pallet?_number (l := l) hfind)] at hfind
      exact hfind
  subst hlane
  obtain ⟨q, hq, hnew, hpallets, -⟩ := closePallet_opens (l := drawn w l) .lots hp hbag hroom hfree hwant hother honly hnodup
  have hnumber : q.number = l.pack.palletCounter := by rw [hnew]; rfl
  have hqstate : q.state = .opened := by rw [hnew]; rfl
  obtain ⟨d', number, j, heq, hready, -, -, -, hjoins⟩ := judgeBag_recorded injected w l
  simp only [hd, hm] at hjoins
  obtain ⟨rfl, rfl, rfl⟩ := hjoins hwant q hq
  rw [heq]
  obtain ⟨hunits, -⟩ := recorded_units (w := w) (l := l)
    (j := joinPallet q w (bagLots w l) (bagStart w l) provisional (closePallet p.number .lots (drawn w l)))
    { lane := p.lane, reason := why, provisional := provisional } q.number
  refine ⟨rfl, rfl, hnumber, ⟨q.pos, fun share hshare => ?joined⟩, ?waits⟩
  case joined =>
    have hstart : bagStart w l = share.exit := by rw [bagStart, hshare]; rfl
    have hq' : pallet? (closePallet p.number .lots (drawn w l)) q.number = some q :=
      pallet?_closePallet_new (l := drawn w l) hpallets (by rw [hnumber]; exact hfresh)
    have hstill := closePallet_still p.number .lots (drawn w l)
    have hjoined := joinPallet_spec q w (bagLots w l) (bagStart w l) provisional _ hq' hqstate
    have hcounts := hready.counts { lane := p.lane, reason := why, provisional := provisional } q.number
    rw [closePallet_joinCounter, hstart] at hjoined
    rw [hstart] at hunits hcounts
    simp only [hstart]
    have hnew' : newPallet q.pos l.pack.palletCounter p.lane = q := hnew.symm
    rw [hnew']
    refine hjoined.congr hstill.within.active (closePallet_track _ _ _) hstill.within.now (fun hbusy => ?_) hunits
      ((recordBag_still _ _ _).within.notices _) hcounts
    rcases hbusy with hbusy | hidle
    · exact .inl (closePallet_busy (l := drawn w l) hbusy)
    · exact .inr ((kindIn_congr hstill.zones .transfer .running).trans hidle)
  case waits =>
    obtain ⟨st, hclosed, hst, -⟩ := closePallet_spec p.number .lots (drawn w l) p hp
    have hne : q.number ≠ p.number := fun h => hfresh p hmem (h.symm.trans hnumber)
    obtain ⟨st', hst', hfound⟩ := (waitsOrGone_beside hne
      { p with reason := .lots, joinOrder := some l.transfer.joinCounter }).join w (bagLots w l) (bagStart w l) provisional
      (l := closePallet p.number .lots (drawn w l)) ⟨st, hst, hclosed⟩
    exact ⟨st', hst', (pallet?_congr hunits p.number).trans hfound⟩

end

end Sys2Proof.Machine
end

section
/-! The statement of INJECT_BAG and BAG_DONE (R142 to R147, R149 to R152, R156 to R159). -/

namespace Sys2Proof.Machine

/-- A bag that its zone takes and that reaches a lot is judged as stated. -/
theorem bagJudged {injected : Bool} {w : Nat} {l : Line} (hzone : (!injected && !bagRunning l) = false)
    (hfeed : l.pack.feed ≠ []) : BagJudged l (judgeBag injected w l).2 w (judgeBag injected w l).1 := by
  obtain ⟨d', number, j, heq, hready, hrejected, hrejects, hfinds, hjoins⟩ := judgeBag_recorded injected w l
  obtain ⟨hoverspan, htests⟩ := bagDecision_lane (w := w) hzone hfeed
  obtain ⟨hfed, hbags, hselect, hvalue, hring, hnext⟩ := hready.recorded d' number
  obtain ⟨hpallets, -, htransfer⟩ := recorded_units (w := w) (l := l) (j := j) d' number
  have hstill := judgeBag_still injected w l
  have hresult : (judgeBag injected w l).1 = bagResult l d' number := by rw [heq]
  have hline : (judgeBag injected w l).2 = recordBag (drawMass l.pack.feed w) (ringEntry w l d' number) j := by rw [heq]
  have hfits := fun {want why provisional p} (hd : bagDecision injected w l = ⟨want, why, provisional⟩) hwant hopen hfits =>
    bagJudged_fits (p := p) hd hwant hopen hfits
  have hopens := fun {want why provisional p} (hd : bagDecision injected w l = ⟨want, why, provisional⟩) =>
    bagJudged_opens (p := p) hd
  rw [hresult, hline] at hfits hopens ⊢
  rw [hline] at hstill
  -- a bag for REJECT is recorded on the line it was drawn on
  have hdirect : (bagDecision injected w l).lane = .reject → d' = bagDecision injected w l
      ∧ (recordBag (drawMass l.pack.feed w) (ringEntry w l d' number) j).pack.pallets = l.pack.pallets
      ∧ (recordBag (drawMass l.pack.feed w) (ringEntry w l d' number) j).transfer = l.transfer := fun hlane => by
    obtain ⟨hd, rfl⟩ := hrejects hlane
    exact ⟨hd, hpallets, htransfer⟩
  refine ⟨d'.provisional, rfl, hfed, hbags, hselect, hvalue, hring, hnext, fun hlen => ?overspan, fun hlen ht => ?trial,
    fun hlen ht hm => ?weight, fun want why hlen ht hm hlane => ?lanes, fun hlane => ?reject,
    fun share hshare x hnodup hx htrack => ?charged, hready.settled d' number, hstill.zones, hstill.within.plantOnly⟩
  case overspan =>
    have hd := hoverspan hlen
    obtain ⟨hd', hkeeps⟩ := hdirect (by rw [hd]; rfl)
    rw [hd', hd]
    rw [hd', hd] at hkeeps
    exact ⟨rfl, rfl, hkeeps⟩
  case trial =>
    have hd := (htests hlen).trans (laneTests_trial ht)
    obtain ⟨hd', hkeeps⟩ := hdirect (by rw [hd]; rfl)
    rw [hd', hd]
    rw [hd', hd] at hkeeps
    exact ⟨rfl, rfl, hkeeps⟩
  case weight =>
    have hd := (htests hlen).trans (laneTests_weight ht hm)
    obtain ⟨hd', hkeeps⟩ := hdirect (by rw [hd]; rfl)
    rw [hd', hd]
    rw [hd', hd] at hkeeps
    exact ⟨rfl, rfl, hkeeps⟩
  case lanes =>
    dsimp only
    obtain ⟨provisional, hlaneTests, hmarked⟩ := laneTests_lane ht hm hlane
    have hd : bagDecision injected w l = ⟨want, why, provisional⟩ := (htests hlen).trans hlaneTests
    have hwant : want ≠ .reject := LaneOf.not_reject hlane
    simp only [hd] at hfinds hjoins
    refine ⟨fun hnone => ?none, fun p hopen => ⟨fun hroom => ?fits, fun hfull honly => ⟨fun hno => ?noRoom, ?opens⟩⟩⟩
    case none =>
      have hm : palletFor want (bagLots w l) (drawn w l) = drawn w l := palletFor_none (l := drawn w l) _ hnone
      rw [hm] at hfinds
      obtain ⟨rfl, rfl⟩ := hfinds hwant hnone
      exact ⟨rfl, rfl, hpallets, htransfer⟩
    case fits =>
      obtain ⟨hl, hr, hp, hjoined⟩ := hfits hd hwant hopen hroom
      have hm : palletFor want (bagLots w l) (drawn w l) = drawn w l := palletFor_fits (l := drawn w l) hopen hroom
      rw [hm] at hjoins
      obtain ⟨rfl, -, -⟩ := hjoins hwant p hopen
      exact ⟨hl, hr, hp, hmarked, hjoined⟩
    case noRoom =>
      have hm : palletFor want (bagLots w l) (drawn w l) = closePallet p.number .lots (drawn w l) :=
        palletFor_full (l := drawn w l) hopen hfull
      rw [hm] at hfinds
      obtain ⟨rfl, -⟩ := hfinds hwant (closePallet_noRoom (l := drawn w l) .lots honly hno)
      exact ⟨rfl, rfl⟩
    case opens =>
      intro hbag hroom hfree hother hnodup hfresh
      obtain ⟨hl, hr, hp, hjoined, hwaits⟩ := hopens hd hwant hopen hfull honly hbag hroom hfree hother hnodup hfresh
      have hsame : d'.provisional = provisional := by
        cases hfound : openPallet (palletFor want (bagLots w l) (drawn w l)) want with
        | none =>
          obtain ⟨rfl, -⟩ := hfinds hwant hfound
          exact absurd hl.symm hwant
        | some q =>
          obtain ⟨rfl, -, -⟩ := hjoins hwant q hfound
          rfl
      rw [hsame]
      exact ⟨hl, hr, hp, hmarked, hjoined, hwaits⟩
  case reject =>
    obtain ⟨-, hnumber, hprovisional⟩ := hrejected hlane
    exact ⟨hnumber, hprovisional⟩
  case charged =>
    exact hready.charged d' number share hshare x hnodup hx htrack fun hlane => (hrejected hlane).1

/-! ## A bag that reaches no lot, or comes with its zone not RUNNING -/

theorem getD_take_two (xs : List Nat) : (xs.take 2).getD 0 0 = xs.getD 0 0 ∧ (xs.take 2).getD 1 0 = xs.getD 1 0 := by
  match xs with
  | [] => exact ⟨rfl, rfl⟩
  | [_] => exact ⟨rfl, rfl⟩
  | _ :: _ :: _ => exact ⟨rfl, rfl⟩

theorem bagDecision_emptyFeed {injected : Bool} {w : Nat} {l : Line} (hzone : (!injected && !bagRunning l) = false)
    (hfeed : l.pack.feed = []) : bagDecision injected w l = .rejected .noLot := by
  rw [bagDecision, hzone, hfeed]
  rfl

theorem bagDecision_zone {w : Nat} {l : Line} (hbag : bagRunning l = false) :
    bagDecision false w l = .rejected .zone := by
  rw [bagDecision, hbag]
  rfl

/-- What a bag rejected before any lane test leaves. -/
theorem bagRejected {injected : Bool} {w : Nat} {l : Line} {reason : BagReason}
    (hd : bagDecision injected w l = .rejected reason) :
    let number := l.pack.bagCounter
    let a := drawMass l.pack.feed w
    let l' := (judgeBag injected w l).2
    (judgeBag injected w l).1 = { bag := number, lane := .reject, reason := reason, pallet := 0 }
      ∧ l'.pack =
          { l.pack with
            feed := a.feed
            bagCounter := if number + 1 = 0 then 1 else number + 1
            laneSelect := .reject
            ring := l.pack.ring.modify l.pack.ringNext fun _ =>
              { bag := number, weight := w, pallet := 0, first := (a.shares.map (·.lot)).getD 0 0,
                second := (a.shares.map (·.lot)).getD 1 0, lane := .reject, reason := reason, provisional := false }
            ringNext := (l.pack.ringNext + 1) % 64 }
      ∧ (∀ j, (chan l' j).desc.kind = .partOutput → (chan l' j).desc.func = .laneSelect →
          (chan l' j).run.functionValue = 2)
      ∧ (∀ j, (chan l j).desc.kind ≠ .partOutput ∨ (chan l j).desc.func ≠ .laneSelect → chan l' j = chan l j)
      ∧ (∀ share ∈ a.shares, ∀ x, (a.shares.map (·.lot)).Nodup → lot? l share.lot = some x → x.onTrack ≠ 0 →
          ∃ y, lot? l' share.lot = some y ∧ y.massBagged = addMass x.massBagged share.mass
            ∧ y.bagsMade = x.bagsMade + 1 ∧ y.bagsRejected = x.bagsRejected + 1)
      ∧ (l.pack.feed = [] → { l' with pack := l.pack, chans := l.chans } = l)
      ∧ l'.transfer = l.transfer ∧ l'.zones = l.zones ∧ PlantOnly l l' := by
  intro number a l'
  have heq := judgeBag_rejects (injected := injected) (w := w) (l := l) (by rw [hd]; rfl)
  have hstill := judgeBag_still injected w l
  rw [hd] at heq
  have hl : l' = recordBag a (ringEntry w l (.rejected reason) 0) (drawn w l) := congrArg Prod.snd heq
  obtain ⟨_, _, _, hf⟩ := recordBag_lotsOnly a (ringEntry w l (.rejected reason) 0) (drawn w l)
  obtain ⟨hfirst, hsecond⟩ := getD_take_two (a.shares.map (·.lot))
  have hchans : l'.chans = (setLane .reject (drawn w l)).chans := by
    rw [hl, hf]
    rfl
  have hvalue := functionValue_setFunction .laneSelect Lane.reject.code
    { drawn w l with pack := { (drawn w l).pack with laneSelect := .reject } }
  have hothers := setFunction_other .laneSelect Lane.reject.code
    { drawn w l with pack := { (drawn w l).pack with laneSelect := .reject } }
  refine ⟨congrArg Prod.fst heq, ?_, fun j hkind hfunc => ?_, fun j hj => ?_, fun share hshare x hnodup hx htrack => ?_,
    fun hfeed => ?_, ?_, hstill.zones, hstill.within.plantOnly⟩
  · rw [← hfirst, ← hsecond, hl, hf]
    rfl
  · rw [chan_congr hchans] at hkind hfunc ⊢
    exact hvalue j hkind hfunc
  · exact (chan_congr hchans j).trans (hothers j hj)
  · obtain ⟨y, hy, hmass, hmade, hcount, -⟩ := (BagReady.drawn w l).charged (.rejected reason) 0 share hshare x hnodup hx
      htrack fun _ => rfl
    rw [hl]
    exact ⟨y, hy, hmass, hmade, (hcount rfl).1⟩
  · have hnone : a = { shares := [], feed := [], retired := [] } := by
      show drawMass l.pack.feed w = _
      rw [hfeed]
      rfl
    rw [hl, hnone]
    rfl
  · rw [hl, hf]
    rfl

/-! ## INJECT_BAG -/

theorem injectChecks_pass {a : Slot} {l : Line} (hweight : a.arg2.toNat ≤ 65535) (hactive : l.active.isSome = true)
    (hzone : kindIn l .bag .simulate = true) : refusal (injectChecks a l) = none := by
  simp [injectChecks, refusal, hweight, hactive, hzone]

/-- A judged bag is judged whatever the requests are, and with a notice more. -/
theorem BagJudged.completed {l f : Line} {w : Nat} {r : BagResult} (h : BagJudged l f w r) (n : Notice) (q : RequestUnit) :
    BagJudged { l with request := q } { raise n f with request := q } w r := by
  obtain ⟨provisional, hbag, hfeed, hbags, hselect, hvalue, hring, hnext, hoverspan, htrial, hweight, hlanes, hreject,
    hcharged, hsettled, hzones, hplant⟩ := h
  have hjoined : ∀ {p listed b start order}, PalletJoined l f p listed w b start order →
      PalletJoined { l with request := q } { raise n f with request := q } p listed w b start order := fun h =>
    h.congr rfl rfl rfl id rfl (raise_noticeSet _ _ f) fun _ _ y _ _ hy => ⟨y, hy, rfl, rfl⟩
  obtain ⟨-, hactive, hmatch, hlink, hstop, hstatus⟩ := hplant
  refine ⟨provisional, hbag, hfeed, hbags, hselect, hvalue, hring, hnext, hoverspan, htrial, hweight,
    fun want why hlen ht hm hlane => ?_, hreject, hcharged, hsettled, hzones,
    rfl, hactive, hmatch, hlink, hstop, hstatus⟩
  obtain ⟨hnone, hsome⟩ := hlanes want why hlen ht hm hlane
  refine ⟨hnone, fun p hopen => ?_⟩
  obtain ⟨hfits, hfull⟩ := hsome p hopen
  refine ⟨fun hroom => ?_, fun hlots honly => ?_⟩
  · obtain ⟨hl, hr, hp, hmarked, hjoins⟩ := hfits hroom
    exact ⟨hl, hr, hp, hmarked, fun hfound share hshare => hjoined (hjoins hfound share hshare)⟩
  · obtain ⟨hno, hopens⟩ := hfull hlots honly
    refine ⟨hno, fun hbag hroom hfree hother hnodup hfresh => ?_⟩
    obtain ⟨hl, hr, hp, hmarked, ⟨pos, hjoins⟩, hwaits⟩ := hopens hbag hroom hfree hother hnodup hfresh
    exact ⟨hl, hr, hp, hmarked, ⟨pos, fun share hshare => hjoined (hjoins share hshare)⟩, hwaits⟩

/-- The taking of an INJECT_BAG that passes its checks. -/
theorem takeInject_passes {s : State} {i : Nat} (hhead : HeadIs s.line i .injectBag)
    (hweight : (slotAt s.line i).arg2.toNat ≤ 65535) (hactive : s.line.active.isSome = true)
    (hzone : kindIn s.line .bag .simulate = true) :
    let m := judgeBag true (slotAt s.line i).arg2.toNat (leaveQueue s.line)
    takeInject s.line = complete i
      { code := .ok, v9 := m.1.bag, v10 := word m.1.lane.code, v11 := word m.1.reason.code, v12 := word m.1.pallet } m.2 :=
  take_immediate (act := actInject) (busy := neverBusy) hhead rfl
    (injectChecks_pass (l := leaveQueue s.line) hweight hactive hzone)

/-- Settles O52: an injected bag, one of BAG_DONE, and the drawing on the feed list. -/
theorem injectedBagDrawsOnTheFeedList : Obligations.InjectedBagDrawsOnTheFeedList := by
  refine ⟨fun s i hhead hweight hactive hzone => ?injected, fun l w => ?bagDone, drawMass_spec⟩
  case injected =>
    intro number w
    have htake := takeInject_passes hhead hweight hactive hzone
    have hstill := judgeBag_still true w (leaveQueue s.line)
    rw [exec_injectBag]
    refine ⟨fun hfeed => ?empty, fun hfeed => ?drawn⟩
    case empty =>
      obtain ⟨hresult, hpack, hvalue, hothers, -, hrest, -⟩ :=
        bagRejected (bagDecision_emptyFeed (injected := true) (w := w) (l := leaveQueue s.line) rfl hfeed)
      refine ⟨_, rfl, ⟨rfl, rfl, rfl⟩, ?_⟩
      rw [onLine_line, htake]
      change (judgeBag true (slotAt s.line i).arg2.toNat (leaveQueue s.line)).1 = _ at hresult
      rw [hresult]
      have hrest := hrest hfeed
      generalize (judgeBag true (slotAt s.line i).arg2.toNat (leaveQueue s.line)).2 = m at *
      refine ⟨completed_of hhead.2.1 hstill.within.request, ?_, hvalue, hothers, ?_⟩
      · refine hpack.trans ?_
        simp only [leaveQueue_pack, hfeed, drawMass]
        rfl
      · have e := congrArg (fun k : Line => raise .reqDone { k with request := s.line.request }) hrest
        exact e
    case drawn =>
      have hjudged := bagJudged (injected := true) (w := w) (l := leaveQueue s.line) rfl hfeed
      refine ⟨_, (judgeBag true w (leaveQueue s.line)).1, rfl, ⟨rfl, rfl, rfl⟩, ?_⟩
      rw [onLine_line, htake]
      exact ⟨completed_of hhead.2.1 hstill.within.request, hjudged.completed .reqDone s.line.request⟩
  case bagDone =>
    intro number a r l'
    refine ⟨fun hbag hfeed => bagJudged (by rw [hbag]; rfl) hfeed, fun hno => ?_⟩
    intro reason
    refine bagRejected ?_
    by_cases hbag : bagRunning l = true
    · have hfeed := hno.resolve_left (by rw [hbag]; decide)
      rw [bagDecision_emptyFeed (by rw [hbag]; rfl) hfeed]
      simp only [reason, hbag, if_true]
    · rw [bagDecision_zone (Bool.eq_false_iff.mpr hbag)]
      exact congrArg Decision.rejected (if_neg hbag).symm

end Sys2Proof.Machine
end

section
/-! SUPPORT. A fresh sample at the zone sequencer: the trips it brings, the cascade behind them, and the waits it meets
(R41, R93, R98, R99). -/

namespace Sys2Proof.Machine

/-! ## A cascade that has run -/

/-- With no RUNNING zone behind one that left RUNNING, the cascade does nothing (R98). -/
theorem cascade_settled {l c : Line}
    (h : ∀ z w, z < 8 → w < 8 → isRunning c z = true → isRunning l z = true → w ∈ (zoneDesc l z).prereqs →
      isRunning l w = true → isRunning c w = true) : cascade l c = c := by
  have hreach : ∀ left : List Nat, (∀ w ∈ left, w < 8 ∧ isRunning l w = true ∧ isRunning c w = false) →
      ∀ z ∈ withNamers l left, z < 8 ∧ isRunning l z = true ∧ isRunning c z = false := fun left hleft z hz => by
    obtain ⟨hrange, hz⟩ := List.mem_filter.mp hz
    simp only [Bool.or_eq_true, Bool.and_eq_true, List.any_eq_true, List.contains_iff_mem] at hz
    rcases hz with hz | ⟨hran, w, hw, hwleft⟩
    · exact hleft z hz
    · refine ⟨List.mem_range.mp hrange, hran, Bool.eq_false_iff.mpr fun hruns => ?_⟩
      obtain ⟨hw8, hwran, hwstopped⟩ := hleft w hwleft
      rw [h z w (List.mem_range.mp hrange) hw8 hruns hran hw hwran] at hwstopped
      cases hwstopped
  have hrounds : ∀ n left, (∀ w ∈ left, w < 8 ∧ isRunning l w = true ∧ isRunning c w = false) →
      cascadeRounds l n left c = c := fun n => by
    induction n with
    | zero => exact fun _ _ => rfl
    | succ n ih =>
      intro left hleft
      rw [cascadeRounds, cascadeRound_none l left c fun z hz => (hreach left hleft z hz).2.2]
      exact ih _ (hreach left hleft)
  refine hrounds _ _ fun w hw => ?_
  obtain ⟨hrange, hleft⟩ := List.mem_filter.mp hw
  exact ⟨List.mem_range.mp hrange, by simpa using hleft⟩

/-- A cascade leaves nothing for a second one (R98). -/
theorem cascade_idem (l m : Line) : cascade l (cascade l m) = cascade l m := by
  refine cascade_settled fun z w hz hw8 hruns hran hw hwran => ?_
  cases hwruns : isRunning (cascade l m) w with
  | true => rfl
  | false =>
    have hwin : w ∈ cascadeSet l Config.zoneCount (leftRunning l m) := by
      refine Classical.byContradiction fun hout => ?_
      have hkept := cascadeRounds_keeps l Config.zoneCount (leftRunning l m) m w hout
      have hstopped : isRunning m w = false := by
        rw [isRunning, zoneState, ← show zone? (cascade l m) w = zone? m w from hkept]
        exact hwruns
      exact hout (cascadeSet_keeps l Config.zoneCount (leftRunning l m)
        (fun v hv => List.mem_range.mp (List.mem_filter.mp hv).1) w
        (List.mem_filter.mpr ⟨List.mem_range.mpr hw8, by simp [hwran, hstopped]⟩))
    have hzin := cascadeSet_closed l (fun v => isRunning l v && !isRunning m v) z w hz hran hw hwin
    rw [cascade_stops l m z hzin] at hruns
    cases hruns

/-! ## What a program's steps leave of the other zones -/

/-- Every other zone is as it was, or was READY and has been woken into RUNNING (R95). -/
def Wakes (z : Nat) (l l' : Line) : Prop :=
  ∀ y, y ≠ z → zone? l' y = zone? l y
    ∨ ∃ x t, zone? l y = some x ∧ x.run.state = .ready ∧ zone? l' y = some (x.woken t)

theorem Wakes.of_onlyZone {z : Nat} {l l' : Line} (h : OnlyZone z l l') : Wakes z l l' :=
  fun y hy => .inl (h.others y hy)

theorem Wakes.of_zones {z : Nat} {l l' : Line} (h : l'.zones = l.zones) : Wakes z l l' :=
  fun y _ => .inl (zone?_congr h y)

theorem Wakes.trans {z : Nat} {a b c : Line} (x : Wakes z a b) (y : Wakes z b c) : Wakes z a c := by
  intro w hw
  rcases x w hw with hx | ⟨u, t, hu, hready, hwoken⟩
  · rcases y w hw with hy | ⟨u, t, hu, hready, hwoken⟩
    · exact .inl (hy.trans hx)
    · exact .inr ⟨u, t, hx ▸ hu, hready, hwoken⟩
  · rcases y w hw with hy | ⟨v, t', hv, hready', -⟩
    · exact .inr ⟨u, t, hu, hready, hy.trans hwoken⟩
    · rw [hwoken] at hv
      cases hv
      cases hready'

theorem enterRunning_wakes (n z : Nat) (l : Line) : Wakes z l (enterRunning n z l) := by
  have hone : Wakes z l (if n = 0 then l
      else enterState z .running (changeZone z (fun r => { r with runPending := false }) l)) := by
    split
    · exact .of_zones rfl
    · exact .of_onlyZone ((changeZone_only z _ l).trans (enterState_only z _ _))
  refine hone.trans fun y _ => ?_
  rcases (enterRunning_woken n z l).zones y with h | ⟨x, hx, hready, -, hwoken, -⟩
  · exact .inl h
  · exact .inr ⟨x, _, hx, hready, hwoken⟩

theorem endProgram_wakes (z : Nat) (p : Program) (l : Line) : Wakes z l (endProgram z p l) := by
  have hstate : ∀ st, Wakes z l
      (enterState z st (changeZone z (fun r => { r with program := none, deadline := none }) l)) := fun st =>
    .of_onlyZone ((changeZone_only z _ l).trans (enterState_only z _ _))
  unfold endProgram
  cases p with
  | stop => exact hstate .off
  | start =>
    dsimp only
    split
    · exact (hstate .ready).trans (enterRunning_wakes _ z _)
    · exact hstate .ready

theorem runSteps_wakes (z : Nat) (p : Program) (steps : List Step) (k : Nat) (l : Line) :
    Wakes z l (runSteps z p k steps l) := by
  induction steps generalizing k l with
  | nil => exact endProgram_wakes z p l
  | cons step steps ih =>
    cases step with
    | set i v =>
      rw [runSteps]
      exact Wakes.trans (.of_zones (setProgram_zones i v l)) (ih (k + 1) (setProgram i v l))
    | waitTime ms =>
      rw [runSteps]
      exact .of_onlyZone (changeZone_only z _ l)
    | waitUntil i cmp threshold ms =>
      rw [runSteps]
      split
      · exact ih (k + 1) l
      · exact .of_onlyZone (changeZone_only z _ l)

theorem advanceProgram_wakes (z : Nat) (l : Line) : Wakes z l (advanceProgram z l) := by
  unfold advanceProgram
  split
  · exact .of_zones rfl
  · exact runSteps_wakes z _ _ _ l

/-- A zone that is woken runs no program but the one it had. -/
theorem Wakes.currentStep {z y : Nat} {l l' : Line} (h : Wakes z l l') (hy : y ≠ z) :
    currentStep l' y = Machine.currentStep l y := by
  rcases h y hy with heq | ⟨x, t, hx, -, hwoken⟩
  · simp only [Machine.currentStep, programSteps, zoneDesc, heq]
  · have hprogram : (x.woken t).run.program = x.run.program := rfl
    have hdesc : zoneDesc l' y = zoneDesc l y := by rw [zoneDesc_of hx, zoneDesc_of hwoken]; rfl
    simp only [Machine.currentStep, hx, hwoken, Option.bind_some, hprogram]
    cases x.run.program with
    | none => rfl
    | some pk =>
      obtain ⟨p, k⟩ := pk
      cases p <;> simp only [programSteps, hdesc]

/-- A zone that is not READY is not woken. -/
theorem Wakes.kept {z y : Nat} {x : Zone} {l l' : Line} (h : Wakes z l l') (hy : y ≠ z) (hx : zone? l y = some x)
    (hstate : x.run.state ≠ .ready) : zone? l' y = some x := by
  rcases h y hy with heq | ⟨u, t, hu, hready, -⟩
  · exact heq.trans hx
  · rw [hx] at hu
    cases hu
    exact absurd hready hstate

/-! ## The waits that a sample meets -/

/-- One zone's turn at the waits of a sample (R93). -/
def waitTurn (i : Nat) (v : Int) (l : Line) (z : Nat) : Line := if waitMet l i v z then advanceProgram z l else l

theorem sampleZones_eq (i : Nat) (v : Int) (l : Line) :
    sampleZones i v l = zoneNumbers.foldl (waitTurn i v) (cascade l (tripOwn (sampleCauses l i v) l)) := rfl

theorem waitTurn_wakes (i : Nat) (v : Int) (z : Nat) (l : Line) : Wakes z l (waitTurn i v l z) := by
  unfold waitTurn
  split
  · exact advanceProgram_wakes z l
  · exact .of_zones rfl

theorem waitMet_congr {l l' : Line} {z : Nat} (h : currentStep l' z = currentStep l z) (i : Nat) (v : Int) :
    waitMet l' i v z = waitMet l i v z := by
  rw [waitMet, waitMet, h]

/-- With no wait met the turns change nothing. -/
theorem foldl_waitTurn_none {i : Nat} {v : Int} {l : Line} (zs : List Nat) (h : ∀ z ∈ zs, waitMet l i v z = false) :
    zs.foldl (waitTurn i v) l = l := by
  induction zs with
  | nil => rfl
  | cons z zs ih =>
    rw [List.foldl_cons, waitTurn, h z (by simp), if_neg (by decide)]
    exact ih fun y hy => h y (List.mem_cons_of_mem z hy)

/-- With one zone's wait met that zone's program goes on, and that is all. -/
theorem foldl_waitTurn_one {i z : Nat} {v : Int} {l : Line} (hz : z < 8) (hmet : waitMet l i v z = true)
    (hothers : ∀ y, y < 8 → y ≠ z → waitMet l i v y = false) :
    zoneNumbers.foldl (waitTurn i v) l = advanceProgram z l := by
  obtain ⟨before, behind, hsplit⟩ := List.append_of_mem (List.mem_range.mpr hz : z ∈ List.range 8)
  have hnodup : (before ++ z :: behind).Nodup := hsplit ▸ List.nodup_range
  have hlt : ∀ y ∈ before ++ z :: behind, y < 8 := fun y hy => List.mem_range.mp (hsplit ▸ hy)
  obtain ⟨-, hbehind, hapart⟩ := List.nodup_append.mp hnodup
  have hfresh := (List.nodup_cons.mp hbehind).1
  have hfirst : before.foldl (waitTurn i v) l = l := foldl_waitTurn_none before fun y hy =>
    hothers y (hlt y (List.mem_append_left _ hy)) (hapart y hy z (by simp))
  have hrest : behind.foldl (waitTurn i v) (advanceProgram z l) = advanceProgram z l :=
    foldl_waitTurn_none behind fun y hy => by
      have hne : y ≠ z := fun h => hfresh (h ▸ hy)
      rw [waitMet_congr ((advanceProgram_wakes z l).currentStep hne)]
      exact hothers y (hlt y (by simp [hy])) hne
  rw [show zoneNumbers = before ++ z :: behind from hsplit, List.foldl_append, List.foldl_cons, hfirst, waitTurn,
    if_pos hmet, hrest]

/-- A zone that runs no program and is not READY comes through the turns. -/
theorem foldl_waitTurn_kept {i z : Nat} {v : Int} {x : Zone} (zs : List Nat) {l : Line} (hx : zone? l z = some x)
    (hprogram : x.run.program = none) (hstate : x.run.state ≠ .ready) :
    zone? (zs.foldl (waitTurn i v) l) z = some x := by
  induction zs generalizing l with
  | nil => exact hx
  | cons y zs ih =>
    rw [List.foldl_cons]
    refine ih ?_
    by_cases hy : z = y
    · have hnone : waitMet l i v y = false := by
        rw [waitMet, ← hy, currentStep, hx, Option.bind_some, hprogram]
      rw [waitTurn, hnone]
      exact hx
    · exact (waitTurn_wakes i v y l).kept hy hx hstate

end Sys2Proof.Machine
end

section
/-! The statement of the step deadlines and of the waits that a sample meets (R44, R92 to R98, R172). -/

namespace Sys2Proof.Machine

/-! ## A program that goes on -/

theorem advanceProgram_eq {l : Line} {z : Nat} {x : Zone} {p : Program} {k : Nat} (hx : zone? l z = some x)
    (hprogram : x.run.program = some (p, k)) :
    advanceProgram z l = runSteps z p (k + 1) ((x.steps p).drop k) l := by
  rw [advanceProgram, hx, Option.bind_some, hprogram]
  dsimp only
  rw [programSteps_of hx]

theorem currentStep_eq {l : Line} {z : Nat} {x : Zone} {p : Program} {k : Nat} (hx : zone? l z = some x)
    (hprogram : x.run.program = some (p, k)) : currentStep l z = (x.steps p)[k - 1]? := by
  rw [currentStep, hx, Option.bind_some, hprogram]
  dsimp only
  rw [programSteps_of hx]

theorem endProgram_notice (z : Nat) (p : Program) (l : Line) : noticeSet (endProgram z p l) .zoneChange = true := by
  unfold endProgram
  cases p with
  | stop => exact enterState_notice z .off _
  | start =>
    dsimp only
    split
    · exact (enterRunning_within _ z _).notices _ (enterState_notice z .ready _)
    · exact enterState_notice z .ready _

section
variable {l m : Line} (still : Still l m) {z : Nat} {x : Zone} {p : Program} {k : Nat} (hx : zone? l z = some x)
  (hprogram : x.run.program = some (p, k)) (hstate : x.run.state = p.home)
include still hx hprogram hstate

/-- A program takes no zone out of RUNNING as it goes on. -/
theorem advanceProgram_rises (w : Nat) (hw : isRunning m w = true) : isRunning (advanceProgram z m) w = true := by
  have hmx := (zone?_congr still.zones z).trans hx
  rw [advanceProgram_eq hmx hprogram]
  exact runSteps_mono z p _ _ m (not_running hmx fun h => p.home_isActive.1 (hstate.symm.trans h)) w hw

/-- The program goes on through the steps that pass and comes to stand at the first that does not (R44, R92 to R96). -/
theorem advanceProgram_lands {done rest : List Step} (hsteps : (x.steps p).drop k = done ++ rest)
    (hdone : ∀ step ∈ done, Passes l step) (hrest : ∀ step ∈ rest.head?, ¬ Passes l step) :
    Lands l (advanceProgram z m) z x p (k + done.length + 1) rest
      ∧ SetsApplied l (advanceProgram z m) (fun j => (chan l j).run.programValue) done
      ∧ (rest = [] → noticeSet (advanceProgram z m) .zoneChange = true) := by
  let b := done.foldl passStep m
  have hmx := (zone?_congr still.zones z).trans hx
  have hb : Within l b := still.within.trans (passSteps_within done m)
  have hbzones : b.zones = l.zones := (passSteps_zones done m).trans still.zones
  have heq : advanceProgram z m = runSteps z p (k + done.length + 1) rest b := by
    rw [advanceProgram_eq hmx hprogram, hsteps,
      runSteps_passes z p done rest (k + 1) m fun s hs => (Passes.congr still.within s).mpr (hdone s hs),
      Nat.add_right_comm]
  have hstands : ∀ step ∈ rest.head?, ¬ Passes b step := fun step hs hp => hrest step hs ((Passes.congr hb step).mp hp)
  rw [heq]
  refine ⟨runSteps_lands z p _ rest ((zone?_congr hbzones z).trans hx) ?_ rfl hb.now
      (fun _ => prereqsRun_congr (zone?_congr hbzones) z) hstands,
    SetsApplied.congr (.of_steps done m _ (fun j => still.within.desc j) fun j _ => programValue_congr still.programs j)
      (runSteps_programs z p _ rest b hstands), fun hend => ?_⟩
  · rw [hstate]
    exact p.home_isActive.1
  · rw [hend]
    exact endProgram_notice z p b

end

/-! ## The waits that run out -/

theorem stepDue_of {l : Line} {z : Nat} {x : Zone} {deadline : Word} (hx : zone? l z = some x)
    (hdeadline : x.run.deadline = some deadline) (hreached : reached (now l) deadline = true) : stepDue l z = true := by
  rw [stepDue, hx, Option.bind_some, hdeadline]
  exact hreached

theorem exec_waitTimeExpiry (z : BitVec 3) (s : State) :
    exec (.waitTimeExpiry z) s = .next (s.onLine (waitTimeExpires z.toNat)) := rfl

theorem waitTimeExpires_due {l : Line} {z ms : Nat} (hstep : currentStep l z = some (.waitTime ms))
    (hdue : stepDue l z = true) : waitTimeExpires z l = plainEvent (advanceProgram z) l := by
  rw [waitTimeExpires, hstep]
  exact if_pos hdue

theorem exec_waitUntilTimeout (z : BitVec 3) (s : State) :
    exec (.waitUntilTimeout z) s = .next (s.onLine (waitUntilExpires z.toNat)) := rfl

/-- The event of a WAIT_UNTIL step that has run out (R93). -/
def timeoutEvent (z : Nat) (l : Line) : Line := plainEvent (fun l => tripZone z (timeoutCause l z) l) l

theorem waitUntilExpires_due {l : Line} {z c ms : Nat} {cmp : Comparison} {th : Int}
    (hstep : currentStep l z = some (.waitUntil c cmp th ms)) (hdue : stepDue l z = true) :
    waitUntilExpires z l = timeoutEvent z l := by
  rw [waitUntilExpires, hstep]
  exact if_pos hdue

theorem timeoutCause_of {l : Line} {z : Nat} {x : Zone} {p : Program} {k : Nat} (hx : zone? l z = some x)
    (hprogram : x.run.program = some (p, k)) : timeoutCause l z = .stepTimeout p k := by
  rw [timeoutCause, hx, Option.bind_some, hprogram]

theorem tripZone_only (z : Nat) (k : TripCause) (l : Line) : OnlyZone z l (tripZone z k l) := by
  obtain ⟨hnow, hlength, hdescs, hothers⟩ :=
    (changeZone_only z (fun r =>
      { r with runPending := false, cause := k, program := none, deadline := none, trips := r.trips + 1 }) l).trans
      (enterState_only z .tripped _)
  exact ⟨hnow, hlength, hdescs, hothers⟩

/-- A zone event that changes one zone alone, which it leaves not RUNNING, records the trips behind it (R97, R98). -/
theorem plainEvent_oneZone_records {f : Line → Line} {l : Line} {z : Nat} (only : OnlyZone z l (f l))
    (hstopped : isRunning (f l) z = false) (hquiet : Quiet l (f l)) (hwithin : Within l (f l)) :
    TripsRecorded [] l (plainEvent f l) :=
  zoneEvent_records (fun _ l => l) (fun _ => []) f l (fun _ _ _ => rfl) (fun _ m => .refl m) hquiet hwithin
    (plainEvent_oneZone only hstopped).2.2

/-- One zone's trip and the cascade behind it: the zone, the others, the notice and the records (R93, R97, R98). -/
theorem timeoutEvent_spec {l : Line} {z : Nat} {x : Zone} {p : Program} {k : Nat} (hx : zone? l z = some x)
    (hprogram : x.run.program = some (p, k)) :
    PlantOnly l (timeoutEvent z l) ∧ zone? (timeoutEvent z l) z = some (x.trippedBy (now l) (.stepTimeout p k))
      ∧ noticeSet (timeoutEvent z l) .zoneTrip = true ∧ Cascaded (· = z) l (timeoutEvent z l)
      ∧ TripsRecorded [] l (timeoutEvent z l) := by
  unfold timeoutEvent
  obtain ⟨f, hf⟩ : ∃ f : Line → Line, f = fun l => tripZone z (timeoutCause l z) l := ⟨_, rfl⟩
  have hline : f l = tripZone z (.stepTimeout p k) l := by
    rw [hf]
    dsimp only
    rw [timeoutCause_of hx hprogram]
  have hwithin : ∀ l, Within l (f l) := fun l => by
    rw [hf]
    exact tripZone_within _ _ _
  have htrip : zone? (f l) z = some (x.trippedBy (now l) (.stepTimeout p k)) := by
    rw [hline, zone?_tripZone, if_pos rfl, hx]
    rfl
  have hset : noticeSet (f l) .zoneTrip = true := by
    rw [hline]
    exact raise_noticeSet_self .zoneTrip _
  have hstopped : isRunning (f l) z = false := not_running htrip (by simp [Zone.trippedBy])
  have only : OnlyZone z l (f l) := hline ▸ tripZone_only z _ l
  have hquiet : Quiet l (f l) := hline ▸ (tripZone_onZones z _ l).quiet
  rw [← hf]
  obtain ⟨hzone, hcascaded, -⟩ := plainEvent_oneZone only hstopped
  exact ⟨(plainEvent_within hwithin l).plantOnly, hzone.trans htrip,
    ((cascade_within l _).trans (plainEvent_after f l).within).notices _ hset, hcascaded,
    plainEvent_oneZone_records only hstopped hquiet (hwithin l)⟩

/-! ## The wait that a sample meets -/

/-- With no condition on the sample's channel no zone has a cause. -/
theorem sampleCauses_none {l : Line} {i : Nat} (h : ∀ z x, zone? l z = some x → ∀ d ∈ x.desc.conditions, d.channel ≠ i)
    (v : Int) (z : Nat) : sampleCauses l i v z = [] := by
  have hnone : firstCondition l z (fun c => c.channel == i && meets c.cmp v c.limit) = none := by
    refine List.findIdx?_eq_none_iff.mpr fun d hd => ?_
    cases hx : zone? l z with
    | none => simp [zoneDesc, hx] at hd
    | some x =>
      rw [zoneDesc_of hx] at hd
      simp [h z x hx d hd]
  rw [sampleCauses, hnone]

/-- A fresh sample reaches the zone sequencer and the track unit, of which the latter touches no zone (R41). -/
theorem freshSample_parts (i : Nat) (v : Int) (l : Line) :
    ∃ m, Still l m ∧ Still (zoneSample i v m) (freshSample i v l) := by
  have hchoice : Still l { l with choices := l.choices + 1 } := ⟨choices_within _ l, rfl⟩
  unfold freshSample
  generalize (zoneTakes i v l && trackTakes l i) = both
  unfold unordered
  cases both with
  | false => exact ⟨l, .refl l, trackSample_still i v _⟩
  | true =>
    rw [if_pos rfl]
    split
    · exact ⟨_, hchoice.trans (trackSample_still i v _), .refl _⟩
    · exact ⟨_, hchoice, trackSample_still i v _⟩

theorem Still.currentStep {l m : Line} (h : Still l m) (z : Nat) : currentStep m z = Machine.currentStep l z := by
  simp only [Machine.currentStep, programSteps, zoneDesc, zone?_congr h.zones]

/-- Where a sample meets one wait and no condition, the zone's program goes on and nothing else changes. -/
theorem sampleZones_one {l : Line} {i z k ms : Nat} {v : Int} {x : Zone} {p : Program} {cmp : Comparison} {threshold : Int}
    (hz : z < 8) (hx : zone? l z = some x) (hprogram : x.run.program = some (p, k))
    (hstep : (x.steps p)[k - 1]? = some (.waitUntil i cmp threshold ms)) (hmeets : meets cmp v threshold = true)
    (hconditions : ∀ y x, zone? l y = some x → ∀ d ∈ x.desc.conditions, d.channel ≠ i)
    (hothers : ∀ y, y < 8 → y ≠ z → ∀ c cmp' th' ms', currentStep l y = some (.waitUntil c cmp' th' ms') → c ≠ i) :
    sampleZones i v l = advanceProgram z l := by
  rw [sampleZones_eq, tripOwn_none _ _ (sampleCauses_none hconditions v), cascade_self]
  refine foldl_waitTurn_one hz ?_ fun y hy hne => ?_
  · rw [waitMet, (currentStep_eq hx hprogram).trans hstep]
    simp [hmeets]
  · unfold waitMet
    split
    next c cmp' th' ms' hcurrent => simp [hothers y hy hne c cmp' th' ms' hcurrent]
    next => rfl

/-- Settles O57: the time waited, the sample that meets a wait, and the wait that runs out. -/
theorem stepDeadlinesAdvanceOrTripTheZone : Obligations.StepDeadlinesAdvanceOrTripTheZone := by
  unfold Obligations.StepDeadlinesAdvanceOrTripTheZone
  intro stepsOf stateOf
  have hsteps : ∀ zone p, stepsOf zone p = Zone.steps zone p := fun zone p => by cases p <;> rfl
  have hhome : ∀ p, stateOf p = Program.home p := fun p => by cases p <;> rfl
  refine ⟨fun s z zone p k ms deadline done rest hzone hprogram _ hstate hstep hdrop hdone hrest hdeadline hreached => ?time,
    fun l z i v zone p k ms cmp threshold done rest hz hzone hprogram _ hstate hstep hmeets hdrop hdone hrest hconditions
      hothers => ?sample,
    fun s z zone p k deadline _ hzone hprogram ⟨c, cmp, th, ms, hstep⟩ hdeadline hreached => ?timeout⟩
  case time =>
    rw [hsteps] at hstep hdrop
    rw [hhome] at hstate
    obtain ⟨hlands, hsets, hends⟩ := advanceProgram_lands (.refl s.line) hzone hprogram hstate hdrop hdone hrest
    obtain ⟨hzones, hprograms, hwithin⟩ :=
      plainEvent_rising (advanceProgram_rises (.refl s.line) hzone hprogram hstate)
    rw [exec_waitTimeExpiry]
    refine ⟨_, rfl, ⟨rfl, rfl, rfl⟩, ?_, ?_, ?_, fun hend => ?_⟩ <;>
      rw [onLine_line, waitTimeExpires_due ((currentStep_eq hzone hprogram).trans hstep)
        (stepDue_of hzone hdeadline hreached)]
    · exact ((advanceProgram_within _ _).trans hwithin).plantOnly
    · exact hlands.congr (zone?_congr hzones _)
    · exact hsets.congr hprograms
    · exact hwithin.notices _ (hends hend)
  case sample =>
    rw [hsteps] at hstep hdrop
    rw [hhome] at hstate
    obtain ⟨m, hstill, hbehind⟩ := freshSample_parts i v l
    have hmzone := (zone?_congr hstill.zones z).trans hzone
    obtain ⟨hlands, hsets, -⟩ := advanceProgram_lands hstill hzone hprogram hstate hdrop hdone hrest
    have hsample : sampleZones i v m = advanceProgram z m :=
      sampleZones_one hz hmzone hprogram hstep hmeets
        (fun y x hy => hconditions y x ((zone?_congr hstill.zones y).symm.trans hy))
        fun y hy hne c cmp' th' ms' hcurrent =>
          hothers y hy hne c cmp' th' ms' ((hstill.currentStep y).symm.trans hcurrent)
    obtain ⟨hzones, hprograms, -⟩ := plainEvent_rising (f := sampleZones i v) (l := m)
      fun w hw => by
        rw [hsample]
        exact advanceProgram_rises hstill hzone hprogram hstate w hw
    rw [hsample] at hzones hprograms
    exact ⟨hlands.congr (zone?_congr (hbehind.zones.trans hzones) z), hsets.congr (hbehind.programs.trans hprograms)⟩
  case timeout =>
    obtain ⟨hplant, hzone', hnotice, hcascaded, hrecords⟩ := timeoutEvent_spec hzone hprogram
    rw [exec_waitUntilTimeout]
    refine ⟨_, rfl, ⟨rfl, rfl, rfl⟩, ?_, ?_, ?_, ?_, ?_⟩ <;>
      rw [onLine_line, waitUntilExpires_due hstep (stepDue_of hzone hdeadline hreached)]
    · exact hplant
    · exact hzone'
    · exact hnotice
    · exact hcascaded
    · exact hrecords

end Sys2Proof.Machine
end

section
/-! The statement of the samples and the stale timers (R38, R39, R41, R49, R97 to R99, R172). -/

namespace Sys2Proof.Machine

/-! ## What a field sample stores -/

/-- A channel as a field sample of an input that is not simulated leaves it (R38). -/
def sampledRun (l : Line) (i : Nat) (raw : Half) (r : ChanRun) : ChanRun :=
  { r with
    raw := raw, eng := engineering (chan l i) (rangeOf (chan l i)) raw, lastSample := some (now l), quality := .good
    timer := .running (now l + word (chan l i).desc.staleLimit) }

/-- The line as the consumers of such a sample find it. -/
def sampledLine (i : Nat) (raw : Half) (l : Line) : Line := changeRun i (sampledRun l i raw) l

theorem changeRun_changeRun (i : Nat) (f g : ChanRun → ChanRun) (l : Line) :
    changeRun i g (changeRun i f l) = changeRun i (fun r => g (f r)) l := by
  simp only [changeRun, change, List.modify_modify_eq]
  rfl

theorem fieldSample_simulated {l : Line} {i : Nat} (hsim : (chan l i).run.simFlag = true) (raw : Half) :
    fieldSample i raw l
      = changeRun i (fun r =>
          { r with raw := raw, eng := engineering (chan l i) (rangeOf (chan l i)) raw, lastSample := some (now l) }) l := by
  unfold fieldSample
  exact if_pos hsim

theorem fieldSample_good {l : Line} {i : Nat} (hsim : (chan l i).run.simFlag = false) (raw : Half) :
    fieldSample i raw l = freshSample i (engineering (chan l i) (rangeOf (chan l i)) raw) (sampledLine i raw l) := by
  unfold fieldSample
  dsimp only
  rw [if_neg (by rw [hsim]; decide), changeRun_changeRun]
  rfl

theorem chan_sampledLine {l : Line} {i : Nat} (hi : i < l.chans.length) (raw : Half) :
    chan (sampledLine i raw l) i = { chan l i with run := sampledRun l i raw (chan l i).run } := chan_changeRun_self hi _

/-- The channel table in the terms of the statements, which take the stale limit from the channel that is changed. -/
theorem sampledLine_eq {l : Line} {i : Nat} (raw : Half) :
    sampledLine i raw l =
      { l with
        chans := l.chans.modify i fun c =>
          { c with
            run := { c.run with
              raw := raw, eng := engineering (chan l i) (rangeOf (chan l i)) raw, lastSample := some (now l),
              quality := .good, timer := .running (now l + word c.desc.staleLimit) } } } := by
  have hchans : change l.chans i (fun c => { c with run := sampledRun l i raw c.run })
      = l.chans.modify i fun c =>
          { c with
            run := { c.run with
              raw := raw, eng := engineering (chan l i) (rangeOf (chan l i)) raw, lastSample := some (now l),
              quality := .good, timer := .running (now l + word c.desc.staleLimit) } } := by
    refine List.ext_getElem? fun j => ?_
    simp only [change, List.getElem?_modify]
    by_cases hj : i = j
    · subst hj
      cases hc : l.chans[i]? with
      | none => rfl
      | some c =>
        have hchan : chan l i = c := by rw [chan, List.getD_eq_getElem?_getD, hc, Option.getD_some]
        simp [sampledRun, hchan]
    · simp [hj]
  rw [sampledLine, changeRun, hchans]

/-! ## The zones that a fresh sample trips -/

theorem firstCondition_eq {l : Line} {z k : Nat} {x : Zone} {d : Condition} {p : Condition → Bool} (hx : zone? l z = some x)
    (hk : x.desc.conditions[k]? = some d) (hd : p d = true)
    (hbefore : ∀ j e, j < k → x.desc.conditions[j]? = some e → p e = false) : firstCondition l z p = some k := by
  obtain ⟨hlt, hget⟩ := List.getElem?_eq_some_iff.mp hk
  rw [firstCondition, zoneDesc_of hx]
  refine List.findIdx?_eq_some_iff_getElem.mpr ⟨hlt, by rw [hget]; exact hd, fun j hj => ?_⟩
  rw [hbefore j _ hj (List.getElem?_eq_getElem (Nat.lt_trans hj hlt))]
  decide

theorem sampleCauses_first {l : Line} {i z k : Nat} {v : Int} {x : Zone} {d : Condition} (hx : zone? l z = some x)
    (hk : x.desc.conditions[k]? = some d) (hchannel : d.channel = i) (hmeets : meets d.cmp v d.limit = true)
    (hbefore : ∀ j e, j < k → x.desc.conditions[j]? = some e → e.channel = i → meets e.cmp v e.limit = false) :
    sampleCauses l i v z = [.condition k] := by
  rw [sampleCauses, firstCondition_eq hx hk (by simp [hchannel, hmeets]) fun j e hj he => by
    by_cases hc : e.channel = i
    · simp [hbefore j e hj he hc]
    · simp [hc]]

theorem waitTurn_within (i : Nat) (v : Int) (l : Line) (z : Nat) : Within l (waitTurn i v l z) :=
  ite_within (advanceProgram_within z l) (.refl l)

/-- An active zone with a cause of its own trips with it in a fresh sample, whatever waits the sample meets (R99). -/
theorem zoneSample_trips {l : Line} {i z : Nat} {v : Int} {x : Zone} {k : TripCause} (hz : z < Config.zoneCount)
    (hx : zone? l z = some x) (hactive : x.run.state.isActive = true) (hcauses : sampleCauses l i v z = [k]) :
    zone? (zoneSample i v l) z = some (x.trippedBy (now l) k) ∧ noticeSet (zoneSample i v l) .zoneTrip = true
      ∧ noticeSet (zoneSample i v l) .zoneChange = true := by
  obtain ⟨k', hk', htrip⟩ := tripOwn_acts (sampleCauses l i v) l z hz (by rw [hcauses]; simp) x hx hactive
  obtain rfl : k' = k := by simpa [hcauses] using hk'
  have hfold : zone? (sampleZones i v l) z = some (x.trippedBy (now l) k') := by
    rw [sampleZones_eq]
    refine foldl_waitTurn_kept _ ?_ rfl (by simp [Zone.trippedBy])
    exact (cascade_idle l _ z (not_running htrip (by simp [Zone.trippedBy]))).trans htrip
  have hwithin : Within (tripOwn (sampleCauses l i v) l) (zoneSample i v l) := by
    have hwaits : Within (tripOwn (sampleCauses l i v) l) (sampleZones i v l) :=
      (cascade_within l _).trans (Within.foldl (waitTurn_within i v) zoneNumbers _)
    exact hwaits.trans ((cascade_within l _).trans (plainEvent_after _ l).within)
  have hset : noticeSet (tripOwn (sampleCauses l i v) l) .zoneTrip = true
      ∧ noticeSet (tripOwn (sampleCauses l i v) l) .zoneChange = true := by
    rcases tripOwn_notices (sampleCauses l i v) l z with same | hset
    · rw [htrip, hx] at same
      have hstate := congrArg (fun o : Option Zone => o.map (·.run.state)) same
      simp only [Option.map_some, Zone.trippedBy, Option.some.injEq] at hstate
      rw [← hstate] at hactive
      cases hactive
    · exact hset
  refine ⟨?_, hwithin.notices _ hset.1, hwithin.notices _ hset.2⟩
  rw [zoneSample, zone?_congr (plainEvent_after (sampleZones i v) l).zones z,
    cascade_idle l _ z (not_running hfold (by simp [Zone.trippedBy]))]
  exact hfold

/-! ## A fresh sample that no step waits on -/

theorem zoneEvent_cascaded_congr {lead : List Nat → Line → Line} {f g : Line → Line} {l : Line}
    (h : cascade l (f l) = cascade l (g l)) : zoneEvent lead f l = zoneEvent lead g l := by
  simp only [zoneEvent, h]

theorem Cut.waits {l m : Line} (h : Cut l m) {z : Nat} {s : Step} (hs : currentStep m z = some s) :
    currentStep l z = some s := by
  rcases h.zones z with same | ⟨x, k, hx, -, htrip⟩
  · simpa only [currentStep, programSteps, zoneDesc, same] using hs
  · rw [currentStep, htrip, Option.bind_some] at hs
    cases hs

/-- With no wait on the channel the sample's trips are all that changes. -/
theorem zoneSample_tripsOnly {l : Line} {i : Nat} (v : Int)
    (hwaits : ∀ y, y < 8 → ∀ c cmp th ms, currentStep l y = some (.waitUntil c cmp th ms) → c ≠ i) :
    zoneSample i v l = plainEvent (fun l => tripOwn (sampleCauses l i v) l) l := by
  have hturns : sampleZones i v l = cascade l (tripOwn (sampleCauses l i v) l) := by
    rw [sampleZones_eq]
    refine foldl_waitTurn_none _ fun z hz => ?_
    unfold waitMet
    split
    next c cmp th ms hcurrent =>
      have hstep := ((tripOwn_cut (sampleCauses l i v) l).trans (cascade_cut l _)).waits hcurrent
      simp [hwaits z (List.mem_range.mp hz) c cmp th ms hstep]
    next => rfl
  have hsame : cascade l (sampleZones i v l) = cascade l (tripOwn (sampleCauses l i v) l) := by
    rw [hturns]
    exact cascade_idem l _
  rw [zoneSample, plainEvent, plainEvent]
  exact zoneEvent_cascaded_congr hsame

/-! ## The track unit's part -/

theorem trackReport_sections (before l : Line) : Sections l (trackReport before l) := by
  unfold trackReport
  split
  · exact Sections.trans (judgeVerdict_sections _ (changeLot _ _ l)) (judgeRetirement_sections _ _)
  · rfl

/-- The sections of the track are as the zone event's own changes left them. -/
theorem zoneEvent_sections {lead : List Nat → Line → Line} (hlead : ∀ zs l, (lead zs l).track = l.track) (f : Line → Line)
    (l : Line) : Sections (f l) (zoneEvent lead f l) := by
  have hchanged : Sections (f l) (cascade l (f l)) := congrArg Track.sections (cascade_quiet l (f l)).2
  have hevent : zoneEvent lead f l = inFreeOrder
      ([(!(trippedBetween l (cascade l (f l))).isEmpty,
          fun x => offerTrips l (cascade l (f l)) (lead (trippedBetween l (cascade l (f l))) x))]
        ++ ((lotClosedBy l (cascade l (f l))).isSome, trackReport l)
          :: [(bagEnters l (cascade l (f l)), packReport l), (false, transferReport l)]) (cascade l (f l)) := rfl
  rw [hevent]
  generalize cascade l (f l) = m at hchanged ⊢
  generalize f l = b at hchanged ⊢
  have keeps : ∀ {g : Line → Line}, (∀ m, Sections m (g m)) → ∀ m, (Sections b m → Sections b (g m))
      ∧ (Sections b m → Sections b (g m)) := fun hg m => ⟨fun h => h.trans (hg m), fun h => h.trans (hg m)⟩
  refine inFreeOrder_reaches (P := Sections b) (Q := Sections b) (fun _ _ h => h) (fun _ _ h => h)
    (fun m h => h.trans (trackReport_sections l m)) _ (fun p hp => ?_) hchanged
  simp only [List.cons_append, List.nil_append, List.mem_cons, List.not_mem_nil, or_false] at hp
  rcases hp with rfl | rfl | rfl
  · exact keeps fun m => congrArg Track.sections ((offerTrips_track _ _ _).trans (hlead _ m))
  · exact keeps fun m => congrArg Track.sections (packReport_track l m)
  · exact keeps fun m => congrArg Track.sections (transferReport_quiet l m).2

/-- No section is driven or judged by the channel. -/
def Untracked (l : Line) (i : Nat) : Prop :=
  ∀ f ∈ l.track.sections, f.desc.motion ≠ i ∧ (f.desc.criterion = .none ∨ f.desc.criterionChan ≠ i)

theorem judgedBy_false {i : Nat} {d : SectionDesc} (h : d.criterion = .none ∨ d.criterionChan ≠ i) : judgedBy i d = false := by
  rcases h with hnone | hother
  · simp [judgedBy, hnone]
  · simp [judgedBy, hother]

theorem motionSample_other {l : Line} {i : Nat} (h : ∀ f ∈ l.track.sections, f.desc.motion ≠ i) (v : Int) :
    motionSample i v l = l := by
  rw [motionSample, if_neg]
  rw [List.any_eq_true]
  rintro ⟨f, hf, hmotion⟩
  exact h f hf (beq_iff_eq.mp hmotion)

theorem trackSample_untracked {l : Line} {i : Nat} (h : Untracked l i) (v : Int) : trackSample i v l = l := by
  rw [trackSample, motionSample_other fun f hf => (h f hf).1]
  refine criterionSample_unnamed l i v fun d hd => ?_
  obtain ⟨f, hf, rfl⟩ := List.mem_map.mp hd
  exact (h f hf).2

theorem trackTakes_untracked {l : Line} {i : Nat} (h : Untracked l i) : trackTakes l i = false := by
  rw [trackTakes, List.any_eq_false]
  intro f hf
  obtain ⟨hmotion, hcriterion⟩ := h f hf
  simp [hmotion, judgedBy_false hcriterion]

theorem freshSample_untracked {l : Line} {i : Nat} (h : Untracked l i) {v : Int}
    (hsections : Sections l (zoneSample i v l)) : freshSample i v l = zoneSample i v l := by
  rw [freshSample, trackTakes_untracked h, Bool.and_false, unordered, if_neg Bool.false_ne_true]
  refine trackSample_untracked (fun f hf => h f ?_) v
  rwa [← show (zoneSample i v l).track.sections = l.track.sections from hsections]

end Sys2Proof.Machine
end

section
/-! The statement of the samples and the stale timers: the timers that run out, and the whole (R38, R39, R41, R49, R97 to
R99, R172). -/

namespace Sys2Proof.Machine

/-! ## A stale timer that has run out -/

theorem exec_staleTimerExpiry (channel : BitVec 8) (s : State) :
    exec (.staleTimerExpiry channel) s = .next (s.onLine (staleExpires channel.toNat)) := rfl

/-- The line as the consumers of the loss find it (R39). -/
def staleLine (i : Nat) (l : Line) : Line :=
  raise .channelStale (changeRun i (fun r => { r with quality := .stale, timer := .stopped }) l)

theorem staleExpires_due {l : Line} {i : Nat} {deadline : Word} (htimer : (chan l i).run.timer = .running deadline)
    (hreached : reached (now l) deadline = true) : staleExpires i l = loseGood i (staleLine i l) := by
  have hdue : staleDue l i = true := by
    rw [staleDue, htimer]
    exact hreached
  rw [staleExpires, if_pos hdue]
  rfl

theorem chan_staleLine {l : Line} {i : Nat} (hi : i < l.chans.length) :
    chan (staleLine i l) i
      = { chan l i with run := { (chan l i).run with quality := .stale, timer := .stopped } } :=
  chan_changeRun_self hi fun r => { r with quality := .stale, timer := .stopped }

theorem lossCauses_first {l : Line} {i z k : Nat} {x : Zone} {d : Condition} (hx : zone? l z = some x)
    (hk : x.desc.conditions[k]? = some d) (hchannel : d.channel = i) (htrips : d.tripOnLoss = true)
    (hbefore : ∀ j e, j < k → x.desc.conditions[j]? = some e → e.channel = i → e.tripOnLoss = false) :
    lossCauses l [i] z = [.conditionLost k] := by
  rw [lossCauses, List.filterMap_cons, firstCondition_eq hx hk (by simp [hchannel, htrips]) fun j e hj he => by
    by_cases hc : e.channel = i
    · simp [hbefore j e hj he hc]
    · simp [hc]]
  rfl

/-- A zone is inactive, or has no cause, where no condition of it, active, answers. -/
theorem firstCondition_none {l : Line} {z : Nat} {p : Condition → Bool}
    (h : ¬ ∃ x d, zone? l z = some x ∧ x.run.state.isActive = true ∧ d ∈ x.desc.conditions ∧ p d = true) :
    isActive l z = false ∨ firstCondition l z p = none := by
  cases hactive : isActive l z with
  | false => exact .inl rfl
  | true =>
    obtain ⟨x, hx, hstate⟩ := (isActive_iff l z).mp hactive
    refine .inr (List.findIdx?_eq_none_iff.mpr fun d hd => ?_)
    rw [zoneDesc_of hx] at hd
    refine Classical.byContradiction fun hp => ?_
    exact h ⟨x, d, hx, hstate, hd, by simpa using hp⟩

theorem sampleCauses_inactive {l : Line} {z i : Nat} {v : Int}
    (h : ¬ ∃ x d, zone? l z = some x ∧ x.run.state.isActive = true ∧ d ∈ x.desc.conditions ∧ d.channel = i
      ∧ meets d.cmp v d.limit = true) : isActive l z = false ∨ sampleCauses l i v z = [] := by
  refine (firstCondition_none (p := fun c => c.channel == i && meets c.cmp v c.limit)
    fun ⟨x, d, hx, hstate, hd, hp⟩ => h ⟨x, d, hx, hstate, hd, ?_⟩).imp id fun hnone => by rw [sampleCauses, hnone]
  simpa using hp

theorem lossCauses_inactive {l : Line} {z i : Nat}
    (h : ¬ ∃ x d, zone? l z = some x ∧ x.run.state.isActive = true ∧ d ∈ x.desc.conditions ∧ d.channel = i
      ∧ d.tripOnLoss = true) : isActive l z = false ∨ lossCauses l [i] z = [] := by
  refine (firstCondition_none (p := fun c => c.channel == i && c.tripOnLoss)
    fun ⟨x, d, hx, hstate, hd, hp⟩ => h ⟨x, d, hx, hstate, hd, ?_⟩).imp id fun hnone => by
      rw [lossCauses, List.filterMap_cons, hnone]
      rfl
  simpa using hp

/-! ## The zone event of a loss -/

/-- A loss of GOOD at the zones: each active zone with a trip-on-loss condition on the channel, the zones behind them, and
the records (R97 to R99). -/
theorem loseGood_trips {l m : Line} {i : Nat} (hzones : m.zones = l.zones) (hnow : now m = now l) (hlog : m.log = l.log)
    (hfloor : reserveFloor m = reserveFloor l) (htrack : m.track = l.track) :
    (∀ (z k : Nat) (x : Zone) (d : Condition), z < 8 → zone? l z = some x → x.run.state.isActive = true →
      x.desc.conditions[k]? = some d → d.channel = i → d.tripOnLoss = true →
      (∀ j e, j < k → x.desc.conditions[j]? = some e → e.channel = i → e.tripOnLoss = false) →
      zone? (loseGood i m) z = some (x.trippedBy (now l) (.conditionLost k)) ∧ noticeSet (loseGood i m) .zoneTrip = true)
    ∧ Cascaded (fun z => ∃ x d, zone? l z = some x ∧ x.run.state.isActive = true ∧ d ∈ x.desc.conditions ∧ d.channel = i
        ∧ d.tripOnLoss = true) l (loseGood i m)
    ∧ TripsRecorded [] l (loseGood i m) := by
  obtain ⟨tr, hb, hlots, hdescs⟩ := trackLosses_cellsOnly [i] m
  rw [loseGood]
  generalize trackLosses [i] m = b at hb ⊢
  have bzones : b.zones = l.zones := by rw [hb]; exact hzones
  have bnow : now b = now l := by rw [hb]; exact hnow
  have blog : b.log = l.log := by rw [hb]; exact hlog
  have bfloor : reserveFloor b = reserveFloor l := by rw [hb]; exact hfloor
  have blots : b.track.lots = l.track.lots := by rw [hb, ← htrack]; exact hlots
  have bdescs : b.track.sections.map (·.desc) = l.track.sections.map (·.desc) := by rw [hb, ← htrack]; exact hdescs
  have hstill : ∀ (zs : List Nat) (l : Line), Still l l := fun _ l => .refl l
  refine ⟨fun z k x d hz hx hactive hk hchannel htrips hbefore => ?_, ?_, ?_⟩
  · have hbx := (zone?_congr bzones z).trans hx
    have hcauses := lossCauses_first hbx hk hchannel htrips hbefore
    obtain ⟨k', hk', htrip⟩ := tripEvent_trips hstill (fun l => lossCauses l [i]) hz hbx hactive (by rw [hcauses]; simp)
    obtain rfl : k' = .conditionLost k := by simpa [hcauses] using hk'
    rw [bnow] at htrip
    exact ⟨htrip, (tripEvent_notices hstill (fun l => lossCauses l [i]) hz hbx hactive (by rw [hcauses]; simp)).1⟩
  · refine Cascaded.congr (b := b) ?_ bzones bnow rfl
    refine tripEvent_cascaded hstill (fun l => lossCauses l [i]) fun z hz => lossCauses_inactive fun ⟨x, d, hx, h⟩ => ?_
    exact hz ⟨x, d, (zone?_congr bzones z).symm.trans hx, h⟩
  · have hrecords := tripEvent_records (fun _ l => l) (fun _ => []) (fun l => lossCauses l [i]) b (fun _ _ _ => rfl) hstill
    exact hrecords.congr bzones blog bnow bfloor blots bdescs rfl rfl id

/-! ## The whole -/

/-- The trips of a fresh sample that no section takes and no step waits on (R97 to R99). -/
theorem freshSample_tripsOnly {l : Line} {i : Nat} {v : Int} (huntracked : Untracked l i)
    (hwaits : ∀ y, y < 8 → ∀ c cmp th ms, currentStep l y = some (.waitUntil c cmp th ms) → c ≠ i) :
    Cascaded (fun z => ∃ x d, zone? l z = some x ∧ x.run.state.isActive = true ∧ d ∈ x.desc.conditions
        ∧ d.channel = i ∧ meets d.cmp v d.limit = true) l (freshSample i v l)
      ∧ TripsRecorded [] l (freshSample i v l) := by
  have hevent := zoneSample_tripsOnly v hwaits
  have hsections : Sections l (zoneSample i v l) := by
    rw [hevent]
    have hown : Sections l (tripOwn (sampleCauses l i v) l) := congrArg Track.sections (tripOwn_onZones _ l).track
    exact hown.trans (zoneEvent_sections (fun _ _ => rfl) (fun l => tripOwn (sampleCauses l i v) l) l)
  rw [freshSample_untracked huntracked hsections, hevent]
  have hstill : ∀ (zs : List Nat) (l : Line), Still l l := fun _ l => .refl l
  exact ⟨tripEvent_cascaded hstill (fun l => sampleCauses l i v) fun z hz => sampleCauses_inactive hz,
    tripEvent_records (fun _ l => l) (fun _ => []) (fun l => sampleCauses l i v) l (fun _ _ _ => rfl) hstill⟩

/-- Settles O55: what a field sample stores, the trips of a fresh sample, and the stale timer. -/
theorem qualityFollowsTheSamplesAndTheStaleTimer : Obligations.QualityFollowsTheSamplesAndTheStaleTimer := by
  unfold Obligations.QualityFollowsTheSamplesAndTheStaleTimer
  refine ⟨fun l i raw hi => ?field, fun l i v => ?fresh, fun s channel deadline hi htimer hreached => ?stale⟩
  case field =>
    intro c c'
    obtain ⟨hraw, heng⟩ := fieldSample_raw_eng hi raw
    refine ⟨hraw, heng, ?_⟩
    cases hsim : c.run.simFlag with
    | true =>
      have hline := fieldSample_simulated hsim raw
      have hchan : c' = { c with
          run := { c.run with raw := raw, eng := engineering c (rangeOf c) raw, lastSample := some (now l) } } := by
        show chan (fieldSample i raw l) i = _
        rw [hline]
        exact chan_changeRun_self hi _
      refine ⟨by rw [hchan], fun h => (by cases h), fun _ => ⟨by rw [hchan], by rw [hchan], by rw [hchan], ?_⟩,
        fun h => (by cases h)⟩
      rw [hline]
      rfl
    | false =>
      have hline := fieldSample_good hsim raw
      have hchan := chan_sampledLine hi raw
      have hwithin : Within (sampledLine i raw l) (fieldSample i raw l) := by
        rw [hline]
        exact freshSample_within i _ _
      obtain ⟨hquality, -, -, hlast, htimer, -⟩ := hwithin.run i
      rw [hchan] at hquality hlast htimer
      exact ⟨hlast, fun _ => ⟨hquality, htimer⟩, fun h => (by cases h), fun _ => hline⟩
  case fresh =>
    intro l'
    refine ⟨fun z k zone d hz hzone hactive hk hchannel hmeets hbefore => ?_, freshSample_tripsOnly⟩
    obtain ⟨m, hstill, hbehind⟩ := freshSample_parts i v l
    have hmzone := (zone?_congr hstill.zones z).trans hzone
    obtain ⟨htrip, hset, hchange⟩ := zoneSample_trips hz hmzone hactive
      (sampleCauses_first hmzone hk hchannel hmeets hbefore)
    rw [hstill.within.now, ← zone?_congr hbehind.zones z] at htrip
    exact ⟨htrip, hbehind.within.notices _ hset, hbehind.within.notices _ hchange⟩
  case stale =>
    have hline := staleExpires_due htimer hreached
    have hwithin := loseGood_within channel.toNat (staleLine channel.toNat s.line)
    obtain ⟨hquality, -, heng, -, htimer', -⟩ := hwithin.run channel.toNat
    rw [chan_staleLine hi] at hquality heng htimer'
    obtain ⟨htrips, hcascaded, hrecords⟩ := loseGood_trips (l := s.line) (m := staleLine channel.toNat s.line)
      (i := channel.toNat) rfl rfl rfl rfl rfl
    rw [exec_staleTimerExpiry]
    refine ⟨_, rfl, ⟨rfl, rfl, rfl⟩, ?_⟩
    rw [onLine_line, hline]
    exact ⟨hwithin.plantOnly, hquality, htimer', heng, hwithin.notices _ (raise_noticeSet_self .channelStale _), htrips,
      hcascaded, hrecords⟩

end Sys2Proof.Machine
end

section
/-! SUPPORT. The part-owned area as the host reads it (R5, R176, Tables 1-2, 12-2, 12-3, 12-5): the word of each view at
its offset. -/

namespace Sys2Proof.Machine

/-! ## The views by offset (Table 1-2) -/

/-- Word k of record n of a view of `2 ^ s`-byte records that begins at an offset: the record's number and the word's. -/
theorem view_index {off base size n k : Nat} (hoff : off = base + size * n + 4 * k) (hk : 4 * k < size) :
    (off - base) / size = n ∧ (off - base) % size / 4 = k := by
  have hrest : off - base = size * n + 4 * k := by omega
  have hmod : (4 * k) % size = 4 * k := Nat.mod_eq_of_lt hk
  rw [hrest, Nat.mul_add_div (by omega), Nat.div_eq_of_lt hk, Nat.mul_add_mod, hmod]
  omega

section
variable (st : Straps) (l : Line) {off n k : Nat}

theorem partWord_status (hk : k < 64) : partWord st l (4 * k) = recordWord (statusWords st l) k := by
  unfold partWord
  dsimp only
  rw [if_pos (by omega), Nat.mul_div_cancel_left k (by omega)]

theorem partWord_slot (hoff : off = 0x100 + 64 * n + 4 * k) (hn : n < 16) (hk : k < 16) :
    partWord st l off = recordWord (slotWords (slotAt l n)) k := by
  obtain ⟨hindex, hpart⟩ := view_index hoff (by omega)
  simp (disch := omega) only [partWord, if_neg, if_pos, hindex, hpart]

theorem partWord_channel (hoff : off = 0x1000 + 16 * n + 4 * k) (hn : n < 256) (hk : k < 4) :
    partWord st l off = recordWord (channelWords (chan l n)) k := by
  obtain ⟨hindex, hpart⟩ := view_index hoff (by omega)
  simp (disch := omega) only [partWord, if_neg, if_pos, hindex, hpart]

theorem partWord_zone (hoff : off = 0x2000 + 64 * n + 4 * k) (hn : n < 8) (hk : k < 16) :
    partWord st l off = optionWord (zoneWords l.stopHigh) (zone? l n) k := by
  obtain ⟨hindex, hpart⟩ := view_index hoff (by omega)
  simp (disch := omega) only [partWord, if_neg, if_pos, hindex, hpart]

theorem partWord_node (hoff : off = 0x3000 + 512 * (n - 1) + 4 * k) (hone : 1 ≤ n) (hn : n ≤ 16) (hk : k < 128) :
    partWord st l off = nodeWord l (nodeAt l n) k := by
  obtain ⟨hindex, hpart⟩ := view_index hoff (by omega)
  simp (disch := omega) only [partWord, if_neg, if_pos, hindex, hpart, Nat.sub_add_cancel hone]

theorem partWord_section (hoff : off = 0x5000 + 32 * n + 4 * k) (hn : n < 12) (hk : k < 8) :
    partWord st l off = optionWord (sectionWords l) (usedSection? l n) k := by
  obtain ⟨hindex, hpart⟩ := view_index hoff (by omega)
  simp (disch := omega) only [partWord, if_neg, if_pos, hindex, hpart]

theorem partWord_cell (hoff : off = 0x6000 + 16 * n + 4 * k) (hn : n < 1024) (hk : k < 4) :
    partWord st l off = optionWord cellWords (l.track.sections.flatMap (·.places))[n]? k := by
  obtain ⟨hindex, hpart⟩ := view_index hoff (by omega)
  simp (disch := omega) only [partWord, if_neg, if_pos, hindex, hpart]

theorem partWord_lot (hoff : off = 0xA000 + 64 * n + 4 * k) (hn : n < 48) (hk : k < 16) :
    partWord st l off = optionWord lotWords (l.track.lots.find? (·.pos == n)) k := by
  obtain ⟨hindex, hpart⟩ := view_index hoff (by omega)
  simp (disch := omega) only [partWord, if_neg, if_pos, hindex, hpart]

theorem partWord_feed (hoff : off = 0xAC00 + 16 * n + 4 * k) (hn : n < 16) (hk : k < 4) :
    partWord st l off = optionWord feedWords l.pack.feed[n]? k := by
  obtain ⟨hindex, hpart⟩ := view_index hoff (by omega)
  simp (disch := omega) only [partWord, if_neg, if_pos, hindex, hpart]

theorem partWord_pallet (hoff : off = 0xB000 + 128 * n + 4 * k) (hn : n < 32) (hk : k < 32) :
    partWord st l off = optionWord palletWords (l.pack.pallets.find? (·.pos == n)) k := by
  obtain ⟨hindex, hpart⟩ := view_index hoff (by omega)
  simp (disch := omega) only [partWord, if_neg, if_pos, hindex, hpart]

theorem partWord_transfer (hoff : off = 0xC000 + 4 * k) (hk : k < 16) :
    partWord st l off = recordWord (transferWords l) k := by
  obtain ⟨-, hpart⟩ := view_index (n := 0) (size := 64) (base := 0xC000) (by omega : off = 0xC000 + 64 * 0 + 4 * k) (by omega)
  simp (disch := omega) only [partWord, if_neg, if_pos, hpart]

theorem partWord_ring (hoff : off = 0xC400 + 16 * n + 4 * k) (hn : n < 64) (hk : k < 4) :
    partWord st l off = optionWord ringWords l.pack.ring[n]? k := by
  obtain ⟨hindex, hpart⟩ := view_index hoff (by omega)
  simp (disch := omega) only [partWord, if_neg, if_pos, hindex, hpart]

theorem partWord_recipe (hoff : off = 0xC800 + 64 * n + 4 * k) (hn : n < 32) (hk : k < 16) :
    partWord st l off = recordWord (recipeWords (recipeAt l n)) k := by
  obtain ⟨hindex, hpart⟩ := view_index hoff (by omega)
  simp (disch := omega) only [partWord, if_neg, if_pos, hindex, hpart]

theorem partWord_log (hoff : off = 0x10000 + 64 * n + 4 * k) (hk : k < 16) :
    partWord st l off = recordWord (logWords (l.log.entries.getD n none)) k := by
  obtain ⟨hindex, hpart⟩ := view_index hoff (by omega)
  simp (disch := omega) only [partWord, if_neg, hindex, hpart]

end

end Sys2Proof.Machine
end

section
/-! The statement of the host reads that the part answers (R2, R5, R8, R9, R12, R13, R16, R18, R31, R52, R74, R106, R125,
R139, R147, R148, R169, R170). -/

namespace Sys2Proof.Machine

/-! ## Reads of channel words and of memory -/

theorem exec_hostRead (addr : Word) (be : BitVec 4) (data : Word) (s : State) :
    exec (.passThroughAccess { write := false, addr := addr, be := be, data := data }) s = .next (hostRead addr be s) := by
  rw [exec_passThroughAccess, hostAccess_read rfl]

theorem hostRead_part {addr : Word} {be : BitVec 4} {s : State} {off : Nat} (h0 : be ≠ 0)
    (hc : classify s.path.straps s.line.matchTable (wordAddress addr) = .part off) :
    hostRead addr be s = answer (maskLanes be (upstreamOrder s.path.straps.ubo (partWord s.path.straps s.line off))) s := by
  simp only [hostRead, if_neg h0, hc]

theorem hostRead_channel {addr : Word} {be : BitVec 4} {s : State} {i : Nat} (h0 : be ≠ 0)
    (hc : classify s.path.straps s.line.matchTable (wordAddress addr) = .channel i) :
    hostRead addr be s = channelRead addr be i s := by
  simp only [hostRead, if_neg h0, hc]

theorem channelRead_input {i : Nat} {s : State} (addr : Word) (be : BitVec 4)
    (hinput : (chan s.line i).desc.kind.isInput = true) :
    channelRead addr be i s = answer (maskLanes be
      (channelLanes s.path.straps.ubo (chan s.line i).desc.arrangement (inputAnswer (chan s.line i)))) s := by
  unfold channelRead
  exact if_pos hinput

theorem channelRead_applied {i : Nat} {s : State} (addr : Word) (be : BitVec 4)
    (hinput : (chan s.line i).desc.kind.isInput = false) (hreadback : (chan s.line i).desc.readback = .applied) :
    channelRead addr be i s = answer (maskLanes be
      (channelLanes s.path.straps.ubo (chan s.line i).desc.arrangement (chan s.line i).run.applied)) s := by
  unfold channelRead
  dsimp only
  rw [if_neg (by rw [hinput]; decide), hreadback]

/-- A read that the memory answers at once (R4, R9). -/
theorem portRead_claimed {w : Nat} {s : State} (hbelow : s.path.arbiter < 16) (hin : w < memorySize s.path.straps) :
    portRead w (claimPort s)
      = (memoryWord s.path.straps s.mem s.path.freeReads w, { s with
          path := { s.path with
            arbiter := if (waitingOffset s.line).isSome then s.path.arbiter + 1 else s.path.arbiter } }) := by
  rw [claimPort_below hbelow, portRead_inside (by exact hin)]

theorem channelRead_commanded {addr : Word} {i : Nat} {s : State} (be : BitVec 4)
    (hinput : (chan s.line i).desc.kind.isInput = false) (hreadback : (chan s.line i).desc.readback = .commanded)
    (hbelow : s.path.arbiter < 16) (hin : wordAddress addr < memorySize s.path.straps) :
    channelRead addr be i s = { s with
      path := { s.path with
        arbiter := if (waitingOffset s.line).isSome then s.path.arbiter + 1 else s.path.arbiter
        readData := maskLanes be (memoryWord s.path.straps s.mem s.path.freeReads (wordAddress addr)) } } := by
  unfold channelRead
  dsimp only
  rw [if_neg (by rw [hinput]; decide), hreadback, portRead_claimed hbelow hin]
  rfl

theorem memoryRead_inside {w : Nat} {s : State} (hbelow : s.path.arbiter < 16) (hin : w < memorySize s.path.straps) :
    memoryRead w s = { s with
      path := { s.path with
        arbiter := if (waitingOffset s.line).isSome then s.path.arbiter + 1 else s.path.arbiter
        readData := memoryWord s.path.straps s.mem s.path.freeReads w } } := by
  rw [memoryRead, portRead_claimed hbelow hin]
  rfl

/-! ## Fields with a gap or a narrow last one -/

theorem fields_congr {fs gs : List (Nat × Nat × Nat)} (h : fieldSum fs = fieldSum gs) : fields fs = fields gs := by
  rw [fields_eq_ofNat, fields_eq_ofNat, h]

theorem flag_le (b : Bool) : flag b ≤ 1 := by cases b <;> decide

theorem flag_mod (b : Bool) {len : Nat} (hlen : 0 < len) : flag b % 2 ^ len = flag b :=
  Nat.mod_eq_of_lt (Nat.lt_of_le_of_lt (flag_le b) (Nat.one_lt_two_pow (Nat.pos_iff_ne_zero.mp hlen)))

theorem code_mod_8 {n : Nat} (h : n < 256) : n % 2 ^ 8 = n := Nat.mod_eq_of_lt h

/-- Three flags at the low end of a word. -/
theorem getLsbD_threeFlags (a b c : Bool) {k : Nat} (hk : k < 32) :
    (fields [(0, 1, flag a), (1, 1, flag b), (2, 1, flag c)]).getLsbD k = (k == 0 && a || k == 1 && b || k == 2 && c) := by
  have h : ∀ a b c : Bool, ∀ k : Fin 32,
      (fields [(0, 1, flag a), (1, 1, flag b), (2, 1, flag c)]).getLsbD k
        = (k.val == 0 && a || k.val == 1 && b || k.val == 2 && c) := by decide
  exact h a b c ⟨k, hk⟩

/-! ## The views, word by word -/

section
variable (st : Straps) (l : Line)

theorem channelWords_eq {c : Channel} (h : c.desc.kind ≠ .unused) (k : Nat) (hk : 1 ≤ k) :
    recordWord (channelWords c) k
      = recordWord [0, shownValue c,
          if c.desc.kind.drives then signedWord c.run.applied
          else if c.desc.kind.isInput then signedWord c.run.simValue else 0,
          if c.desc.kind.drives then word c.run.appliedRaw.toNat
          else if c.desc.kind.isInput then orZero c.run.lastSample else 0] k := by
  obtain ⟨j, rfl⟩ : ∃ j, k = j + 1 := ⟨k - 1, by omega⟩
  rw [channelWords, if_neg h]
  dsimp only
  rw [recordWord, recordWord, List.getD_cons_succ, List.getD_cons_succ]

/-- The current value of an input as the channel view shows it (R52). -/
theorem partWord_input {i : Nat} (hi : i < 256) (hinput : (chan l i).desc.kind.isInput = true) :
    partWord st l (0x1004 + 16 * i)
      = signedWord (if (chan l i).run.simFlag then (chan l i).run.simValue else (chan l i).run.eng) := by
  have hused : (chan l i).desc.kind ≠ .unused := fun h => by rw [h] at hinput; cases hinput
  rw [partWord_channel st l (n := i) (k := 1) (by omega) hi (by omega), channelWords_eq hused 1 (by omega)]
  show shownValue (chan l i) = _
  rw [shownValue, if_pos hinput, currentValue]

/-- The values of an output as the channel view shows them (R52). -/
theorem partWord_output {i : Nat} (hi : i < 256) (houtput : (chan l i).desc.kind.isOutput = true) :
    partWord st l (0x1004 + 16 * i) = signedWord (chan l i).run.hostValue
      ∧ partWord st l (0x1008 + 16 * i) = signedWord (chan l i).run.applied
      ∧ partWord st l (0x100C + 16 * i) = word (chan l i).run.appliedRaw.toNat := by
  have hused : (chan l i).desc.kind ≠ .unused := fun h => by rw [h] at houtput; cases houtput
  have hinput : (chan l i).desc.kind.isInput = false := by
    cases hkind : (chan l i).desc.kind with
    | outputAnalog => rfl
    | outputDiscrete => rfl
    | _ => rw [hkind] at houtput; cases houtput
  have hdrives : (chan l i).desc.kind.drives = true := by rw [ChanKind.drives, houtput, Bool.true_or]
  rw [partWord_channel st l (n := i) (k := 1) (by omega) hi (by omega), channelWords_eq hused 1 (by omega),
    partWord_channel st l (n := i) (k := 2) (by omega) hi (by omega), channelWords_eq hused 2 (by omega),
    partWord_channel st l (n := i) (k := 3) (by omega) hi (by omega), channelWords_eq hused 3 (by omega)]
  refine ⟨?_, if_pos hdrives, if_pos hdrives⟩
  show shownValue (chan l i) = _
  rw [shownValue, hinput, if_neg Bool.false_ne_true, if_pos houtput]

theorem partWord_event {i : Nat} (hi : i < 256) (hkind : (chan l i).desc.kind = .event) :
    partWord st l (0x1004 + 16 * i) = (chan l i).run.events := by
  have hused : (chan l i).desc.kind ≠ .unused := fun h => by rw [h] at hkind; cases hkind
  rw [partWord_channel st l (n := i) (k := 1) (by omega) hi (by omega), channelWords_eq hused 1 (by omega)]
  show shownValue (chan l i) = _
  simp [shownValue, hkind, ChanKind.isInput, ChanKind.isOutput]

/-- The zone view (R106). -/
theorem partWord_presentZone {z : Nat} {x : Zone} (hz : z < 8) (hx : zone? l z = some x) :
    partWord st l (0x2008 + 64 * z) = word x.run.cause.detail
      ∧ partWord st l (0x200C + 64 * z) = x.run.deadline.getD 0
      ∧ partWord st l (0x2010 + 64 * z) = x.run.entryTime ∧ partWord st l (0x2014 + 64 * z) = x.run.trips := by
  rw [partWord_zone st l (n := z) (k := 2) (by omega) hz (by omega),
    partWord_zone st l (n := z) (k := 3) (by omega) hz (by omega),
    partWord_zone st l (n := z) (k := 4) (by omega) hz (by omega),
    partWord_zone st l (n := z) (k := 5) (by omega) hz (by omega), hx]
  exact ⟨rfl, rfl, rfl, rfl⟩

/-- The node view (R74). -/
theorem partWord_nodeView {n : Nat} (hone : 1 ≤ n) (hn : n ≤ 16) :
    partWord st l (0x300C + 512 * (n - 1)) = word (nodeAt l n).misses
      ∧ partWord st l (0x3014 + 512 * (n - 1)) = (nodeAt l n).repeats
      ∧ partWord st l (0x3018 + 512 * (n - 1)) = (nodeAt l n).unbound
      ∧ partWord st l (0x31CC + 512 * (n - 1)) = l.link.overrun
      ∧ partWord st l (0x31D0 + 512 * (n - 1)) = l.link.safeCount := by
  rw [partWord_node st l (n := n) (k := 3) (by omega) hone hn (by omega),
    partWord_node st l (n := n) (k := 5) (by omega) hone hn (by omega),
    partWord_node st l (n := n) (k := 6) (by omega) hone hn (by omega),
    partWord_node st l (n := n) (k := 115) (by omega) hone hn (by omega),
    partWord_node st l (n := n) (k := 116) (by omega) hone hn (by omega)]
  exact ⟨rfl, rfl, rfl, rfl, rfl⟩

/-- The section view (R125). -/
theorem partWord_usedSection {j : Nat} {f : Section} (hj : j < 12) (hf : l.track.sections[j]? = some f) :
    let stored := l.track.motion.getD f.desc.motion none
    let cells := f.places.filterMap id
    let at_ (k : Nat) : Word := partWord st l (0x5000 + 32 * j + 4 * k)
    bits (at_ 0) 0 8 = f.desc.zone % 256 ∧ bits (at_ 0) 8 8 = f.desc.criterion.code
      ∧ bits (at_ 0) 16 1 = flag f.desc.arrivalFlag ∧ bits (at_ 0) 17 1 = flag stored.isSome
      ∧ bits (at_ 0) 18 1 = flag (stored.any (·.simulated)) ∧ bits (at_ 0) 19 1 = flag f.arrival.isSome
      ∧ bits (at_ 0) 20 12 = flag f.lastCriterion.isSome
      ∧ bits (at_ 1) 0 16 = f.desc.length % 65536 ∧ bits (at_ 1) 16 16 = cells.length % 65536
      ∧ at_ 2 = word (cells.map (·.units)).sum
      ∧ bits (at_ 3) 0 16 = ((stored.map (·.count)).getD 0) % 65536 ∧ bits (at_ 3) 16 16 = f.remainder % 65536
      ∧ bits (at_ 4) 0 16 = f.lastLot % 65536 ∧ bits (at_ 4) 16 16 = ((f.arrival.map (·.1)).getD 0) % 65536
      ∧ at_ 5 = (f.arrival.map (·.2)).getD 0 ∧ at_ 6 = f.lastCriterion.getD 0 := by
  intro stored cells at_
  have hword : ∀ k, k < 8 → at_ k = recordWord (sectionWords l f) k := fun k hk => by
    have hview := partWord_section st l (n := j) (k := k) rfl hj hk
    rw [usedSection?, hf] at hview
    exact hview
  have hfirst : at_ 0 = fields [(0, 8, f.desc.zone), (8, 8, f.desc.criterion.code), (16, 1, flag f.desc.arrivalFlag),
      (17, 1, flag stored.isSome), (18, 1, flag (stored.any (·.simulated))), (19, 1, flag f.arrival.isSome),
      (20, 12, flag f.lastCriterion.isSome)] := by
    refine (hword 0 (by omega)).trans (fields_congr ?_)
    simp only [fieldSum, flag_mod f.lastCriterion.isSome (by decide : 0 < 1),
      flag_mod f.lastCriterion.isSome (by decide : 0 < 12)]
    rfl
  have hcode : f.desc.criterion.code % 2 ^ 8 = f.desc.criterion.code := code_mod_8 (by
    cases f.desc.criterion <;> decide)
  rw [hfirst, hword 1 (by omega), hword 2 (by omega), hword 3 (by omega), hword 4 (by omega), hword 5 (by omega),
    hword 6 (by omega)]
  refine ⟨bits_fields 0 rfl rfl, (bits_fields 1 rfl rfl).trans hcode, (bits_fields 2 rfl rfl).trans (flag_mod _ (by decide)),
    (bits_fields 3 rfl rfl).trans (flag_mod _ (by decide)), (bits_fields 4 rfl rfl).trans (flag_mod _ (by decide)),
    (bits_fields 5 rfl rfl).trans (flag_mod _ (by decide)), (bits_fields 6 rfl rfl).trans (flag_mod _ (by decide)),
    bits_fields 0 rfl rfl, bits_fields 1 rfl rfl, ?_, bits_fields 0 rfl rfl, bits_fields 1 rfl rfl,
    bits_fields 0 rfl rfl, bits_fields 1 rfl rfl, rfl, rfl⟩
  exact congrArg word (foldl_add_eq_sum (·.units) cells)

/-- The recent bag ring (R147). -/
theorem partWord_ringEntry {k : Nat} {e : RingEntry} (hk : k < 64) (he : l.pack.ring[k]? = some e) :
    let at_ (j : Nat) : Word := partWord st l (0xC400 + 16 * k + 4 * j)
    at_ 0 = e.bag ∧ bits (at_ 1) 0 16 = e.weight % 65536 ∧ bits (at_ 1) 16 16 = e.pallet % 65536
      ∧ bits (at_ 2) 0 16 = e.first % 65536 ∧ bits (at_ 2) 16 16 = e.second % 65536
      ∧ bits (at_ 3) 0 8 = e.lane.code ∧ bits (at_ 3) 8 8 = e.reason.code
      ∧ bits (at_ 3) 16 16 = flag e.provisional := by
  intro at_
  have hword : ∀ j, j < 4 → at_ j = recordWord (ringWords e) j := fun j hj => by
    have hview := partWord_ring st l (n := k) (k := j) rfl hk hj
    rw [he] at hview
    exact hview
  have hlast : at_ 3 = fields [(0, 8, e.lane.code), (8, 8, e.reason.code), (16, 16, flag e.provisional)] := by
    refine (hword 3 (by omega)).trans (fields_congr ?_)
    simp only [fieldSum, flag_mod e.provisional (by decide : 0 < 1), flag_mod e.provisional (by decide : 0 < 16)]
  have hlane : e.lane.code % 2 ^ 8 = e.lane.code := code_mod_8 (by cases e.lane <;> decide)
  have hreason : e.reason.code % 2 ^ 8 = e.reason.code := code_mod_8 (by cases e.reason <;> decide)
  rw [hword 0 (by omega), hword 1 (by omega), hword 2 (by omega), hlast]
  exact ⟨rfl, bits_fields 0 rfl rfl, bits_fields 1 rfl rfl, bits_fields 0 rfl rfl, bits_fields 1 rfl rfl,
    (bits_fields 0 rfl rfl).trans hlane, (bits_fields 1 rfl rfl).trans hreason,
    (bits_fields 2 rfl rfl).trans (flag_mod _ (by decide))⟩

/-- The active recipe view (R139). -/
theorem partWord_validRecipe {i : Nat} {r : Recipe} (hi : i < 32) (hr : recipeAt l i = some r) :
    let at_ (k : Nat) : Word := partWord st l (0xC800 + 64 * i + 4 * k)
    bits (at_ 0) 0 16 = r.product % 65536 ∧ bits (at_ 0) 16 15 = 0 ∧ bits (at_ 0) 31 1 = 1
      ∧ ∀ k, k < 15 → at_ (k + 1) = recordWord
          [signedWord r.blanchMin, signedWord r.blanchDeviation, word r.blanchCreditMin, word r.blanchCreditMax,
           signedWord r.freezeMax, signedWord r.freezeDeviation, word r.freezeCreditMin, word r.massPerUnit,
           word r.bagTarget, word r.bagMin, word r.bagMax, word r.exposureLimit] k := by
  intro at_
  have hword : ∀ k, k < 16 → at_ k = recordWord (recipeWords (some r)) k := fun k hk => by
    rw [← hr]
    exact partWord_recipe st l rfl hi hk
  have hfirst : at_ 0 = fields [(0, 16, r.product), (16, 15, 0), (31, 1, 1)] := by
    refine (hword 0 (by omega)).trans (fields_congr ?_)
    simp only [fieldSum, Nat.zero_mod, Nat.zero_mul, Nat.zero_add]
  rw [hfirst]
  refine ⟨bits_fields 0 rfl rfl, (bits_fields 1 rfl rfl).trans (Nat.zero_mod _), (bits_fields 2 rfl rfl).trans (by decide),
    fun k hk => ?_⟩
  rw [hword (k + 1) (by omega), recipeWords, recordWord, List.getD_cons_succ]
  rfl

/-- The status block's words but its four of the notices (R31). -/
theorem partWord_statusBlock :
    partWord st l 0x08 = l.status.heartbeat ∧ partWord st l 0x0C = word l.log.consumer
      ∧ partWord st l 0x10 = l.status.time ∧ partWord st l 0x14 = l.status.lastBad ∧ partWord st l 0x18 = l.log.drops
      ∧ partWord st l 0x1C = (match l.status.watchdog with | .stopped => 0 | .running => 1 | .expired => 2)
      ∧ partWord st l 0x20 = word l.log.producer
      ∧ (∀ k, k < 32 → (partWord st l 0x24).getLsbD k =
          (k == 0 && l.log.full || k == 1 && l.active.isSome || k == 2 && l.stopHigh))
      ∧ partWord st l 0x28 = word l.log.reserved ∧ partWord st l 0x2C = word (usedCount l.log)
      ∧ partWord st l 0x30 = word (logThreshold l) ∧ partWord st l 0x34 = word (reserveFloor l)
      ∧ partWord st l 0x38 = l.log.seq
      ∧ bits (partWord st l 0x3C) 0 2 = st.ca.toNat ∧ bits (partWord st l 0x3C) 2 2 = st.ms.toNat
      ∧ bits (partWord st l 0x3C) 4 1 = flag st.ubo ∧ bits (partWord st l 0x3C) 5 27 = st.lr.toNat
      ∧ partWord st l 0x40 = word l.pack.ringNext
      ∧ ∀ k, 16 < k → k < 64 → partWord st l (4 * k) = 0 := by
  have hword : ∀ k, k < 64 → partWord st l (4 * k) = recordWord (statusWords st l) k := fun k hk => partWord_status st l hk
  have hstraps : partWord st l 0x3C
      = fields [(0, 2, st.ca.toNat), (2, 2, st.ms.toNat), (4, 1, flag st.ubo), (5, 27, st.lr.toNat)] := by
    refine (hword 15 (by omega)).trans (fields_congr ?_)
    have hlr := st.lr.isLt
    simp only [fieldSum, Nat.mod_eq_of_lt hlr, Nat.mod_eq_of_lt (show st.lr.toNat < 2 ^ 27 by omega)]
  refine ⟨hword 2 (by omega), hword 3 (by omega), hword 4 (by omega), hword 5 (by omega), hword 6 (by omega), ?watchdog,
    hword 8 (by omega), fun k hk => ?flags, hword 10 (by omega), hword 11 (by omega), hword 12 (by omega),
    hword 13 (by omega), hword 14 (by omega), ?_, ?_, ?_, ?_, hword 16 (by omega), fun k hk hk' => ?rest⟩
  case watchdog =>
    rw [show (0x1C : Nat) = 4 * 7 from rfl, hword 7 (by omega)]
    show word l.status.watchdog.code = _
    cases l.status.watchdog <;> rfl
  case flags =>
    rw [show (0x24 : Nat) = 4 * 9 from rfl, hword 9 (by omega)]
    exact getLsbD_threeFlags l.log.full l.active.isSome l.stopHigh hk
  case rest =>
    rw [hword k hk', recordWord, getD_of_ge _ _ (show (statusWords st l).length ≤ k from hk)]
  all_goals rw [hstraps]
  · exact (bits_fields 0 rfl rfl).trans (Nat.mod_eq_of_lt st.ca.isLt)
  · exact (bits_fields 1 rfl rfl).trans (Nat.mod_eq_of_lt st.ms.isLt)
  · exact (bits_fields 2 rfl rfl).trans (flag_mod _ (by decide))
  · exact (bits_fields 3 rfl rfl).trans (Nat.mod_eq_of_lt (by have := st.lr.isLt; omega))

end

/-! ## The whole -/

/-- What a host read answers, by the class of its address (R2, R8, R9, R13, R16). -/
theorem hostRead_answers {addr : Word} {be : BitVec 4} (data : Word) {s : State} (h0 : be ≠ 0) :
    let read := exec (.passThroughAccess { write := false, addr := addr, be := be, data := data }) s
    let answers (w : Word) : Prop :=
      read = .next { s with path := { s.path with readData := maskLanes be (upstreamOrder s.path.straps.ubo w) } }
    let fetched (w : Word) : Prop :=
      read = .next
        { s with
          path := { s.path with
            arbiter := if (waitingOffset s.line).isSome then s.path.arbiter + 1 else s.path.arbiter, readData := w } }
    let held := memoryWord s.path.straps s.mem s.path.freeReads (wordAddress addr)
    (∀ off, classify s.path.straps s.line.matchTable (wordAddress addr) = .part off →
      answers (partWord s.path.straps s.line off))
    ∧ (∀ i, classify s.path.straps s.line.matchTable (wordAddress addr) = .channel i →
        (chan s.line i).desc.kind.isInput = true →
        answers (arrange (chan s.line i).desc.arrangement
          (signedWord
            (if (chan s.line i).run.simFlag then (chan s.line i).run.simValue
             else if (chan s.line i).run.quality = .good then (chan s.line i).run.eng
             else (chan s.line i).desc.fallback))))
    ∧ (∀ i, classify s.path.straps s.line.matchTable (wordAddress addr) = .channel i →
        (chan s.line i).desc.kind.isInput = false → (chan s.line i).desc.readback = .applied →
        answers (arrange (chan s.line i).desc.arrangement (signedWord (chan s.line i).run.applied)))
    ∧ (∀ i, classify s.path.straps s.line.matchTable (wordAddress addr) = .channel i →
        (chan s.line i).desc.kind.isInput = false → (chan s.line i).desc.readback = .commanded →
        wordAddress addr < memorySize s.path.straps → s.path.arbiter < 16 → fetched (maskLanes be held))
    ∧ (classify s.path.straps s.line.matchTable (wordAddress addr) = .staging →
        wordAddress addr < memorySize s.path.straps → s.path.arbiter < 16 → fetched held) := by
  intro read answers fetched held
  have hread : read = .next (hostRead addr be s) := exec_hostRead addr be data s
  refine ⟨fun off hc => ?part, fun i hc hinput => ?input, fun i hc hinput hreadback => ?applied,
    fun i hc hinput hreadback hin hbelow => ?commanded, fun hc hin hbelow => ?staging⟩
  case part => exact hread.trans (congrArg _ (hostRead_part h0 hc))
  case input => exact hread.trans (congrArg _ ((hostRead_channel h0 hc).trans (channelRead_input addr be hinput)))
  case applied =>
    exact hread.trans (congrArg _ ((hostRead_channel h0 hc).trans (channelRead_applied addr be hinput hreadback)))
  case commanded =>
    exact hread.trans (congrArg _ ((hostRead_channel h0 hc).trans (channelRead_commanded be hinput hreadback hbelow hin)))
  case staging => exact hread.trans (congrArg _ ((hostRead_memory h0 (.inr hc)).trans (memoryRead_inside hbelow hin)))

/-- Settles O14: the classes of an address, and the part-owned area view by view. -/
theorem partAnsweredReadChangesOnlyTheDataLines : Obligations.PartAnsweredReadChangesOnlyTheDataLines := by
  unfold Obligations.PartAnsweredReadChangesOnlyTheDataLines
  refine ⟨fun addr be data s h0 => hostRead_answers data h0, fun st l => ⟨fun i k hi hk => partWord_slot st l rfl hi hk,
    fun i hi => partWord_input st l hi, fun i hi => partWord_output st l hi, fun i hi => partWord_event st l hi,
    fun z x hz hx => partWord_presentZone st l hz hx, fun z k hz hk hnone => ?zone,
    fun n hone hn => partWord_nodeView st l hone hn, fun j c hj hc => ?cell, fun p x hp hx => ?lot, fun k e hk he => ?feed,
    fun p x hp hx => ?pallet, ?transfer, fun k e hk he => ?log, partWord_statusBlock st l,
    fun j f hj hf => partWord_usedSection st l hj hf, fun j k hj hk hnone => ?unusedSection,
    fun k e hk he => partWord_ringEntry st l hk he, fun i r hi hr => partWord_validRecipe st l hi hr,
    fun i k hi hk hnone => ?recipe⟩⟩
  case zone =>
    rw [partWord_zone st l rfl hz hk, hnone]
    rfl
  case cell =>
    rw [partWord_cell st l (n := j) (k := 1) (by omega) hj (by omega), hc]
    rfl
  case lot =>
    rw [partWord_lot st l (n := p) (k := 2) (by omega) hp (by omega),
      partWord_lot st l (n := p) (k := 3) (by omega) hp (by omega),
      partWord_lot st l (n := p) (k := 6) (by omega) hp (by omega),
      partWord_lot st l (n := p) (k := 7) (by omega) hp (by omega),
      partWord_lot st l (n := p) (k := 8) (by omega) hp (by omega), hx]
    exact ⟨rfl, rfl, rfl, rfl, rfl⟩
  case feed =>
    rw [partWord_feed st l (n := k) (k := 0) (by omega) hk (by omega),
      partWord_feed st l (n := k) (k := 1) (by omega) hk (by omega),
      partWord_feed st l (n := k) (k := 2) (by omega) hk (by omega), he]
    exact ⟨rfl, rfl, rfl⟩
  case pallet =>
    rw [partWord_pallet st l (n := p) (k := 1) (by omega) hp (by omega),
      partWord_pallet st l (n := p) (k := 2) (by omega) hp (by omega),
      partWord_pallet st l (n := p) (k := 4) (by omega) hp (by omega), hx]
    exact ⟨rfl, rfl, rfl⟩
  case transfer =>
    rw [partWord_transfer st l (k := 1) (by omega) (by omega), partWord_transfer st l (k := 2) (by omega) (by omega),
      partWord_transfer st l (k := 5) (by omega) (by omega), partWord_transfer st l (k := 6) (by omega) (by omega),
      partWord_transfer st l (k := 7) (by omega) (by omega), partWord_transfer st l (k := 8) (by omega) (by omega),
      partWord_transfer st l (k := 9) (by omega) (by omega)]
    exact ⟨rfl, rfl, rfl, rfl, rfl, rfl, rfl⟩
  case log =>
    have hentry : l.log.entries.getD k none = some e := by rw [List.getD_eq_getElem?_getD, he, Option.getD_some]
    rw [partWord_log st l (n := k) (k := 0) (by omega) (by omega), partWord_log st l (n := k) (k := 1) (by omega) (by omega),
      partWord_log st l (n := k) (k := 2) (by omega) (by omega), hentry]
    exact ⟨rfl, rfl, rfl⟩
  case unusedSection =>
    rw [partWord_section st l rfl hj hk, usedSection?, List.getElem?_eq_none hnone]
    rfl
  case recipe =>
    rw [partWord_recipe st l rfl hi hk, hnone]
    rfl

end Sys2Proof.Machine
end

section
/-! SUPPORT. What the track takes of samples and losses that no zone looks at (R38, R39, R41, R117, R132), and the
evaluations of a cell (R107, R112, R127 to R130, R134, R135). -/

namespace Sys2Proof.Machine

/-! ## Samples and losses that no zone looks at -/

/-- No zone has a condition or a wait on the channel. -/
def Unwatched (l : Line) (i : Nat) : Prop :=
  ∀ z zone, zone? l z = some zone → (∀ c ∈ zone.desc.conditions, c.channel ≠ i)
    ∧ ∀ c cmp threshold ms, currentStep l z = some (.waitUntil c cmp threshold ms) → c ≠ i

theorem Unwatched.congr {l m : Line} {i : Nat} (h : Unwatched l i) (hzones : m.zones = l.zones) : Unwatched m i := by
  intro z zone hz
  rw [zone?_congr hzones] at hz
  obtain ⟨hconditions, hwaits⟩ := h z zone hz
  refine ⟨hconditions, fun c cmp threshold ms hstep => hwaits c cmp threshold ms ?_⟩
  simpa only [currentStep, programSteps, zoneDesc, zone?_congr hzones] using hstep

theorem sampleZones_unwatched {l : Line} {i : Nat} (h : Unwatched l i) (v : Int) : sampleZones i v l = l := by
  rw [sampleZones_eq, tripOwn_none _ _ (sampleCauses_none (fun z x hx => (h z x hx).1) v), cascade_self]
  refine foldl_waitTurn_none _ fun z _ => ?_
  unfold waitMet
  split
  next c cmp threshold ms hcurrent =>
    cases hz : zone? l z with
    | none =>
      rw [currentStep, hz] at hcurrent
      cases hcurrent
    | some x => simp [(h z x hz).2 c cmp threshold ms hcurrent]
  next => rfl

theorem freshSample_unwatched {l : Line} {i : Nat} (h : Unwatched l i) (v : Int) : freshSample i v l = trackSample i v l := by
  have hzones := sampleZones_unwatched h v
  have htakes : zoneTakes i v l = false := by
    rw [zoneTakes, hzones]
    exact bne_self_eq_false _
  rw [freshSample, htakes, Bool.false_and, unordered, if_neg Bool.false_ne_true, zoneSample,
    plainEvent_self (sampleZones i v) l hzones]

theorem lossCauses_unwatched {l : Line} {i : Nat} (h : Unwatched l i) (z : Nat) : lossCauses l [i] z = [] := by
  have hnone : firstCondition l z (fun c => c.channel == i && c.tripOnLoss) = none := by
    refine List.findIdx?_eq_none_iff.mpr fun d hd => ?_
    cases hx : zone? l z with
    | none => simp [zoneDesc, hx] at hd
    | some x =>
      rw [zoneDesc_of hx] at hd
      simp [(h z x hx).1 d hd]
  rw [lossCauses, List.filterMap_cons, hnone]
  rfl

theorem loseGood_unwatched {l : Line} {i : Nat} (h : Unwatched l i) : loseGood i l = trackLosses [i] l := by
  have hlosses : Unwatched (trackLosses [i] l) i := h.congr (trackLosses_still [i] l).zones
  exact plainEvent_self _ _ (tripOwn_none _ _ (lossCauses_unwatched hlosses))

/-- A section with the marks of a loss of the channel on its cells (R117, R132). -/
def lostCells (i : Nat) (f : Section) : Section :=
  { f with
    places := f.places.map fun p => p.map fun c =>
      { c with
        positionLost := c.positionLost || f.desc.motion == i
        unmeasured := c.unmeasured || (f.desc.criterion != .none && f.desc.criterionChan == i) } }

theorem lostCells_judged {i : Nat} {f : Section} (hmotion : (f.desc.motion == i) = false) :
    (if judgedBy i f.desc then { f with places := f.places.map (·.map fun c => { c with unmeasured := true }) } else f)
      = lostCells i f := by
  cases hjudged : judgedBy i f.desc with
  | true =>
    rw [judgedBy] at hjudged
    simp [lostCells, hmotion, hjudged]
  | false =>
    rw [judgedBy] at hjudged
    simp [lostCells, hmotion, hjudged]

theorem lostCells_driven {i : Nat} {f : Section} (hmotion : (f.desc.motion == i) = true) :
    (if judgedBy i f.desc then
        { f with
          places := List.map (·.map fun c => { c with unmeasured := true })
            (f.places.map (·.map fun c => { c with positionLost := true })) }
      else { f with places := f.places.map (·.map fun c => { c with positionLost := true }) })
      = lostCells i f := by
  cases hjudged : judgedBy i f.desc with
  | true =>
    rw [judgedBy] at hjudged
    simp [lostCells, hmotion, hjudged, Function.comp_def]
  | false =>
    rw [judgedBy] at hjudged
    simp [lostCells, hmotion, hjudged]

/-- One channel's loss on the track: the stored count, and each cell of the sections it drives or judges (R117, R132). -/
theorem trackLosses_one (i : Nat) (l : Line) :
    trackLosses [i] l = { l with
      track := { l.track with
        motion :=
          if l.track.sections.any (·.desc.motion == i) then l.track.motion.modify i fun _ => none else l.track.motion
        sections := l.track.sections.map (lostCells i) } } := by
  rw [trackLosses, List.foldl_cons, List.foldl_nil]
  cases hany : l.track.sections.any (·.desc.motion == i) with
  | false =>
    have hcells : l.track.sections.map (fun f =>
        if judgedBy i f.desc then { f with places := f.places.map (·.map fun c => { c with unmeasured := true }) } else f)
        = l.track.sections.map (lostCells i) :=
      List.map_congr_left fun f hf => lostCells_judged (by simpa using List.any_eq_false.mp hany f hf)
    rw [motionLoss, hany, if_neg Bool.false_ne_true, criterionLoss, changeCells, hcells]
    rfl
  | true =>
    have hcells : (l.track.sections.map (fun f =>
        if f.desc.motion == i then { f with places := f.places.map (·.map fun c => { c with positionLost := true }) }
        else f)).map (fun f =>
          if judgedBy i f.desc then { f with places := f.places.map (·.map fun c => { c with unmeasured := true }) } else f)
        = l.track.sections.map (lostCells i) := by
      rw [List.map_map]
      refine List.map_congr_left fun f _ => ?_
      cases hmotion : f.desc.motion == i with
      | false =>
        rw [Function.comp_apply, hmotion, if_neg Bool.false_ne_true]
        exact lostCells_judged hmotion
      | true =>
        rw [Function.comp_apply, hmotion, if_pos rfl]
        exact lostCells_driven hmotion
    rw [motionLoss, hany, if_pos rfl, if_pos rfl, criterionLoss, changeCells, changeCells]
    exact congrArg (fun fs : List Section => { l with
      track := { l.track with motion := l.track.motion.modify i fun _ => none, sections := fs } }) hcells

/-! ## The evaluations of a cell -/

theorem pastFinal_iff (l : Line) (k : Nat) : pastFinal l k = true ↔ ∃ j, finalSection l = some j ∧ j < k := by
  rw [pastFinal, Option.any_eq_true]
  simp

theorem carryCell_eq {l : Line} {j : Nat} {c : TrackCell} {r : Recipe} (hr : lotRecipe l c.lot = some r) :
    let c₁ := if blanchSection l = some j then { c with blanchOutcome := some (blanchOutcome r c) } else c
    let c₂ := if finalSection l = some j then { c₁ with overall := some (overallOutcome r c₁) } else c₁
    let l₂ := if finalSection l = some j then countFinal c₂ l else l
    carryCell j c l = if j + 1 < l₂.track.sections.length then placeCell (j + 1) c₂ l₂ else exitTrack c₂ l₂ := by
  intro c₁ c₂ l₂
  have hblanch : (if blanchSection l = some j then evaluateBlanch l c else c) = c₁ := by
    rw [evaluateBlanch, hr]
  have hlot : c₁.lot = c.lot := by
    rw [← hblanch]
    split
    · rw [evaluateBlanch, hr]
    · rfl
  have hfinal : (if finalSection l = some j then evaluateFinal l c₁ else c₁) = c₂ := by
    rw [evaluateFinal, show lotRecipe l c₁.lot = some r by rw [hlot, hr]]
  unfold carryCell
  dsimp only
  rw [hblanch]
  simp only [hfinal]
  rfl

/-- The overall outcome is the most severe of the findings (R135). -/
theorem severity_overallOutcome (r : Recipe) (c : TrackCell) :
    (overallOutcome r c).severity =
      max (max (max (max (c.blanchOutcome.getD .pass).severity (freezeOutcome r c).severity) (if c.unmeasured then 3 else 0))
        (if c.positionLost then 4 else 0)) (if c.blanchDeviation then 5 else 0) := by
  have hstep : ∀ (b : Bool) (o k : CellOutcome),
      (if b then worse o k else o).severity = max o.severity (if b then k.severity else 0) := fun b o k => by
    cases b with
    | false => simp
    | true => simp [severity_worse]
  unfold overallOutcome
  dsimp only
  rw [hstep, hstep, hstep, severity_worse]
  rfl

/-! ## Criterion samples -/

/-- A value carried to one decimal (R127). -/
theorem carryDecimals_one {n : Nat} (hn : n ≤ 3) (v : Int) :
    carryDecimals n 1 v
      = if n = 0 then v * 10 else if n = 1 then v else roundQuotient v (if n = 2 then 10 else 100) := by
  match n, hn with
  | 0, _ => rfl
  | 1, _ => simp [carryDecimals]
  | 2, _ => rfl
  | 3, _ => rfl

theorem judgedBy_iff {i : Nat} {d : SectionDesc} : judgedBy i d = true ↔ d.criterion ≠ .none ∧ d.criterionChan = i := by
  simp [judgedBy]

theorem criterionInterval_eq (f : Section) (t : Word) :
    criterionInterval f t = f.lastCriterion.elim 0 fun last => min (t - last).toNat f.desc.maxGap := by
  rw [criterionInterval]
  cases f.lastCriterion <;> rfl

/-- One cell of a judged section at a sample (R128 to R130). -/
theorem sampleCell_eq {l : Line} {f : Section} {c : TrackCell} (v : Int) (hjudged : f.desc.criterion ≠ .none) :
    sampleCell l f v c = (lotRecipe l c.lot).elim c fun r =>
      let gain := min (f.lastCriterion.elim 0 fun t => min (now l - t).toNat f.desc.maxGap) (now l - c.entryTime).toNat
      if f.desc.criterion = .blanch then
        { c with
          blanchCredit := if r.blanchMin ≤ v then min 2147483647 (c.blanchCredit + gain) else c.blanchCredit
          blanchDeviation := c.blanchDeviation || decide (v < r.blanchDeviation) }
      else
        { c with
          freezeCredit := if v ≤ r.freezeMax then min 2147483647 (c.freezeCredit + gain) else c.freezeCredit
          freezeDeviation := c.freezeDeviation || decide (r.freezeDeviation < v) } := by
  unfold sampleCell
  dsimp only
  rw [← criterionInterval_eq]
  cases lotRecipe l c.lot with
  | none => rfl
  | some r =>
    cases hcriterion : f.desc.criterion with
    | none => exact absurd hcriterion hjudged
    | blanch =>
      rw [Option.elim_some, if_pos rfl]
      simp only [blanchSample, addCredit, capped_eq_min, elapsed, Config.maxCredit]
    | freeze =>
      rw [Option.elim_some, if_neg (by decide)]
      simp only [freezeSample, addCredit, capped_eq_min, elapsed, Config.maxCredit]

end Sys2Proof.Machine
end

section
/-! SUPPORT. Motion samples and shifts: the rounds of the sections due, and what one shift does (R109 to R111). -/

namespace Sys2Proof.Machine

/-! ## Rounds -/

theorem shiftRound_eq (ks : List Nat) (j : Nat) (l : Line) :
    shiftRound ks j l = ((List.range ks.length).filter fun i => decide (j ≤ ks.getD i 0)).foldr shiftSection l := by
  rw [shiftRound, List.foldr_filter]
  simp only [decide_eq_true_eq]

theorem shiftRounds_eq (ks : List Nat) (n j : Nat) (l : Line) :
    shiftRounds ks n j l = (List.range n).foldl (fun l round => shiftRound ks (j + round) l) l := by
  induction n generalizing j l with
  | zero => rfl
  | succ n ih =>
    rw [shiftRounds, ih, List.range_succ_eq_map, List.foldl_cons, List.foldl_map]
    simp only [Nat.succ_eq_add_one, Nat.add_right_comm j 1, Nat.add_assoc, Nat.add_zero]

theorem foldl_max_le_iff {xs : List Nat} {a m : Nat} : xs.foldl max a ≤ m ↔ a ≤ m ∧ ∀ x ∈ xs, x ≤ m := by
  induction xs generalizing a with
  | nil => simp
  | cons x xs ih =>
    rw [List.foldl_cons, ih]
    rw [List.forall_mem_cons, Nat.max_le, and_assoc]

/-- A round for which no section is due does nothing. -/
theorem shiftRound_none {ks : List Nat} {j : Nat} (h : ∀ k ∈ ks, k < j) (l : Line) : shiftRound ks j l = l := by
  have hnone : (List.range ks.length).filter (fun i => decide (j ≤ ks.getD i 0)) = [] := by
    refine List.filter_eq_nil_iff.mpr fun i hi => ?_
    have hlt := List.mem_range.mp hi
    have hk := h _ (List.getElem_mem hlt)
    rw [getD_of_lt _ _ hlt]
    simpa using hk
  rw [shiftRound_eq, hnone]
  rfl

/-- Rounds beyond the last due one may be added (R110). -/
theorem shiftRounds_upTo {ks : List Nat} {m : Nat} (h : ∀ k ∈ ks, k ≤ m) (l : Line) :
    shiftRounds ks (ks.foldl max 0) 1 l = (List.range m).foldl (fun l round => shiftRound ks (1 + round) l) l := by
  have hdone : ∀ k ∈ ks, k ≤ ks.foldl max 0 := (foldl_max_le_iff.mp (Nat.le_refl _)).2
  obtain ⟨extra, rfl⟩ := Nat.exists_eq_add_of_le (foldl_max_le_iff.mpr ⟨Nat.zero_le m, h⟩)
  have hrest : ∀ (xs : List Nat) (l : Line),
      (xs.map (ks.foldl max 0 + ·)).foldl (fun l round => shiftRound ks (1 + round) l) l = l := fun xs => by
    induction xs with
    | nil => exact fun _ => rfl
    | cons x xs ih =>
      intro l
      rw [List.map_cons, List.foldl_cons, ih, shiftRound_none fun k hk => ?_]
      have := hdone k hk
      omega
  rw [shiftRounds_eq, List.range_add, List.foldl_append, hrest]

/-! ## Motion samples -/

theorem set_of_modify {α : Type} (xs : List α) (i : Nat) (a : α) : xs.modify i (fun _ => a) = xs.set i a :=
  modify_eq_set xs i (fun _ => a) a

theorem motion_toNat {c : Nat} (hc : c ≤ 65535) : ((c : Int) % 65536).toNat = c := by omega

theorem driven_any {l : Line} {i : Nat} (h : ∃ f ∈ l.track.sections, f.desc.motion = i) :
    l.track.sections.any (·.desc.motion == i) = true := by
  obtain ⟨f, hf, hmotion⟩ := h
  exact List.any_eq_true.mpr ⟨f, hf, by simp [hmotion]⟩

theorem motionSample_rebases {l : Line} {i c : Nat} (hdriven : ∃ f ∈ l.track.sections, f.desc.motion = i) (hc : c ≤ 65535)
    (hold : ∀ old, l.track.motion.getD i none = some old → old.simulated ≠ (chan l i).run.simFlag) :
    motionSample i c l = rebase i c (chan l i).run.simFlag l := by
  rw [motionSample, if_pos (driven_any hdriven)]
  dsimp only
  rw [motion_toNat hc]
  split
  next old heq => rw [if_neg (hold old heq)]
  next => rfl

theorem motionSample_moves {l : Line} {i c n : Nat} (hdriven : ∃ f ∈ l.track.sections, f.desc.motion = i) (hc : c ≤ 65535)
    (hold : l.track.motion.getD i none = some { count := n, simulated := (chan l i).run.simFlag }) :
    motionSample i c l = moveSections i ((c + 65536 - n) % 65536) (storeCount i c (chan l i).run.simFlag l) := by
  rw [motionSample, if_pos (driven_any hdriven)]
  dsimp only
  rw [motion_toNat hc, hold]
  exact if_pos rfl

theorem rebase_eq (i c : Nat) (simulated : Bool) (l : Line) :
    rebase i c simulated l = { l with
      track := { l.track with
        motion := l.track.motion.set i (some { count := c, simulated := simulated })
        sections := l.track.sections.map fun f => if f.desc.motion = i then { f with remainder := 0 } else f } } := by
  rw [← set_of_modify]
  rfl

/-- The line as the rounds of a motion find it: the count stored, the remainders changed (R109). -/
def movedLine (i c d : Nat) (simulated : Bool) (l : Line) : Line :=
  { l with
    track := { l.track with
      motion := l.track.motion.set i (some { count := c, simulated := simulated })
      sections := l.track.sections.map fun f =>
        if f.desc.motion = i then { f with remainder := (d + f.remainder) % f.desc.countsPerCell } else f } }

/-- The sections due for a round, by their numbers (R110). -/
def dueSections (i d : Nat) (l : Line) (round : Nat) : List Nat :=
  (List.range l.track.sections.length).filter fun j => l.track.sections[j]?.any fun f =>
    f.desc.motion == i && decide (round < (d + f.remainder) / f.desc.countsPerCell)

theorem shiftRound_due (i d : Nat) (l m : Line) (round : Nat) :
    shiftRound (l.track.sections.map fun s => (sectionMotion i d s).1) (1 + round) m
      = (dueSections i d l round).foldr shiftSection m := by
  rw [shiftRound_eq, dueSections, List.length_map]
  congr 1
  refine List.filter_congr fun j hj => ?_
  have hlt := List.mem_range.mp hj
  rw [getD_of_lt _ _ (by rw [List.length_map]; exact hlt), List.getElem_map, List.getElem?_eq_getElem hlt,
    Option.any_some]
  generalize l.track.sections[j] = f
  unfold sectionMotion
  by_cases hmotion : f.desc.motion = i
  · rw [if_pos hmotion, Nat.add_comm 1, hmotion, beq_self_eq_true, Bool.true_and]
    rfl
  · rw [if_neg hmotion, beq_eq_false_iff_ne.mpr hmotion, Bool.false_and]
    exact decide_eq_false (by omega)

theorem moveSections_eq {i c d m : Nat} {simulated : Bool} {l : Line}
    (hm : ∀ f ∈ l.track.sections, f.desc.motion = i → (d + f.remainder) / f.desc.countsPerCell ≤ m) :
    moveSections i d (storeCount i c simulated l)
      = (List.range m).foldl (fun l' round => (dueSections i d l round).foldr shiftSection l')
          (movedLine i c d simulated l) := by
  have hline : ({ storeCount i c simulated l with
      track := { (storeCount i c simulated l).track with
        sections := l.track.sections.map fun s => { s with remainder := (sectionMotion i d s).2 } } } : Line)
      = movedLine i c d simulated l := by
    have hsections : l.track.sections.map (fun s => { s with remainder := (sectionMotion i d s).2 })
        = l.track.sections.map fun f =>
            if f.desc.motion = i then { f with remainder := (d + f.remainder) % f.desc.countsPerCell } else f := by
      refine List.map_congr_left fun f _ => ?_
      unfold sectionMotion
      split <;> rfl
    rw [hsections, movedLine, ← set_of_modify]
    rfl
  have hks : ∀ k ∈ l.track.sections.map (fun s => (sectionMotion i d s).1), k ≤ m := fun k hk => by
    obtain ⟨f, hf, rfl⟩ := List.mem_map.mp hk
    unfold sectionMotion
    split
    next hmotion => exact hm f hf hmotion
    next => exact Nat.zero_le m
  calc moveSections i d (storeCount i c simulated l)
      = shiftRounds (l.track.sections.map fun s => (sectionMotion i d s).1)
          ((l.track.sections.map fun s => (sectionMotion i d s).1).foldl max 0) 1 (movedLine i c d simulated l) := by
        rw [← hline]
        rfl
    _ = _ := by
        rw [shiftRounds_upTo hks]
        simp only [shiftRound_due]

theorem foldr_shiftSection_descs (js : List Nat) (l : Line) : sectionDescs (js.foldr shiftSection l) = sectionDescs l := by
  induction js with
  | nil => rfl
  | cons j js ih => rw [List.foldr_cons, shiftSection_descs, ih]

theorem movedLine_descs (i c d : Nat) (simulated : Bool) (l : Line) :
    sectionDescs (movedLine i c d simulated l) = sectionDescs l := by
  unfold sectionDescs movedLine
  dsimp only
  rw [List.map_map]
  refine List.map_congr_left fun f _ => ?_
  rw [Function.comp_apply]
  split <;> rfl

theorem rebase_descs (i c : Nat) (simulated : Bool) (l : Line) : sectionDescs (rebase i c simulated l) = sectionDescs l := by
  rw [rebase_eq]
  unfold sectionDescs
  dsimp only
  rw [List.map_map]
  refine List.map_congr_left fun f _ => ?_
  rw [Function.comp_apply]
  split <;> rfl

theorem rounds_descs (i d : Nat) (l : Line) (rounds : List Nat) (m : Line) :
    sectionDescs (rounds.foldl (fun l' round => (dueSections i d l round).foldr shiftSection l') m) = sectionDescs m := by
  induction rounds generalizing m with
  | nil => rfl
  | cons round rounds ih => rw [List.foldl_cons, ih, foldr_shiftSection_descs]

/-- The difference of two counts of 16 bits, around (R109). -/
theorem count_delta {n c : Nat} (hc : c ≤ 65535) (hn : n ≤ 65535) :
    (c + 65536 - n) % 65536 = if n ≤ c then c - n else c + 65536 - n := by
  split <;> omega

/-! ## One shift -/

/-- The section's cells one place on, its entry empty (R111). -/
def shiftedLine (j : Nat) (f : Section) (l : Line) : Line :=
  { l with track := { l.track with sections := l.track.sections.set j { f with places := none :: f.places.dropLast } } }

/-- The exit cell carried on from there. -/
def carriedLine (j : Nat) (f : Section) (l : Line) : Line :=
  (f.places.getLast?.join).elim (shiftedLine j f l) fun c => carryCell j c (shiftedLine j f l)

theorem changeSection_of {l : Line} {j : Nat} {f : Section} (hf : l.track.sections[j]? = some f) (g : Section → Section) :
    changeSection j g l = { l with track := { l.track with sections := l.track.sections.set j (g f) } } := by
  rw [changeSection, change, modify_eq_set _ _ _ f, List.getD_eq_getElem?_getD, hf, Option.getD_some]

theorem shiftSection_eq {l : Line} {j : Nat} {f : Section} (hf : l.track.sections[j]? = some f) (hplaces : f.places ≠ []) :
    shiftSection j l = if j = 0 then admitCell (carriedLine j f l) else carriedLine j f l := by
  have hshifted : changeSection j shiftPlaces l = shiftedLine j f l := by
    rw [changeSection_of hf, shiftPlaces]
    split
    next hnil => exact absurd hnil hplaces
    next => rfl
  rw [shiftSection, usedSection?, hf]
  dsimp only
  rw [hshifted, carriedLine]
  cases f.places.getLast?.join <;> rfl

theorem carriedLine_now (j : Nat) (f : Section) (l : Line) : now (carriedLine j f l) = now l := by
  rw [carriedLine]
  cases f.places.getLast?.join with
  | none => rfl
  | some c => exact (carryCell_still j c (shiftedLine j f l)).within.now

theorem admitCell_none {l : Line} (h : openLot l = none) : admitCell l = l := by
  rw [admitCell, h]

theorem admitCell_some {l : Line} {x : Lot} (h : openLot l = some x) :
    admitCell l = placeCell 0 (freshCell x.number (now l))
      (changeLot x.number (fun x =>
        { x with admitted := x.admitted + 1, onTrack := x.onTrack + 1, unevaluated := x.unevaluated + 1 }) l) := by
  rw [admitCell, h]

end Sys2Proof.Machine
end

section
/-! SUPPORT. The cell that leaves the final point and the track, and the cell that is placed (R112 to R116, R124, R133,
R135, R141). -/

namespace Sys2Proof.Machine

/-! ## Leaving the final point and the track -/

/-- The lot of a cell judged at the final point, whose verdict is not due with it (R112, R135). -/
def countedLot (k : CellOutcome) (u : Word) (y : Lot) : Lot :=
  { y with outcomes := y.outcomes.add k u, unevaluated := y.unevaluated - u }

theorem countFinal_waits {l : Line} {c : TrackCell} {x : Lot} {k : CellOutcome} (hx : lot? l c.lot = some x)
    (hk : c.overall = some k) (hwaits : x.isOpen = true ∨ x.unevaluated ≠ word c.units) :
    countFinal c l = changeLot c.lot (countedLot k (word c.units)) l := by
  have hline : changeLot c.lot (fun x =>
      { x with
        outcomes := x.outcomes.add (c.overall.getD .pass) (word c.units)
        unevaluated := x.unevaluated - word c.units }) l = changeLot c.lot (countedLot k (word c.units)) l := by
    rw [hk]
    rfl
  have hlot := lot?_changeLot_self (countedLot k (word c.units)) (fun _ => rfl) hx
  have hdue : verdictDue (countedLot k (word c.units) x) = false := by
    rw [verdictDue]
    rcases hwaits with hopen | hcount
    · simp [countedLot, hopen]
    · have hne : (countedLot k (word c.units) x).unevaluated ≠ 0 := fun h => hcount (word_sub_eq_zero.mp h)
      rw [beq_eq_false_iff_ne.mpr hne, Bool.and_false, Bool.false_and]
  rw [countFinal, hline, judgeVerdict_waits hlot hdue]

/-- A cell's lot as it leaves the track (R116, R141). -/
def leftLot (t : Word) (u : Word) (mass : Nat) (y : Lot) : Lot :=
  { y with
    onTrack := y.onTrack - u, firstExit := some (y.firstExit.getD t), massDelivered := min 4294967295 (y.massDelivered + mass) }

theorem addMass_eq (a b : Nat) : addMass a b = min 4294967295 (a + b) := capped_eq_min _ _

/-- A mass that joins an empty feed list, or one whose tail is of its lot (R141). -/
theorem feedJoin_plain {feed feed' : List FeedEntry} {n mass : Nat} {t : Word}
    (h : feed = [] ∧ feed' = [{ lot := n, mass := mass, exit := t }]
      ∨ ∃ before tail, feed = before ++ [tail] ∧ tail.lot = n
        ∧ feed' = before ++ [{ tail with mass := min 4294967295 (tail.mass + mass) }]) :
    feedJoin feed n mass t = (feed', none) := by
  rcases h with ⟨rfl, rfl⟩ | ⟨before, tail, rfl, hlot, rfl⟩
  · rfl
  · rw [feedJoin, List.getLast?_concat]
    dsimp only
    rw [if_pos hlot, List.dropLast_concat, addMass_eq]

theorem exitTrack_joins {l : Line} {c : TrackCell} {r : Recipe} {feed : List FeedEntry} (hr : lotRecipe l c.lot = some r)
    (hfeed : l.pack.feed = [] ∧ feed = [{ lot := c.lot, mass := min 4294967295 (c.units * r.massPerUnit), exit := now l }]
      ∨ ∃ before tail, l.pack.feed = before ++ [tail] ∧ tail.lot = c.lot
        ∧ feed = before ++ [{ tail with mass := min 4294967295 (tail.mass + min 4294967295 (c.units * r.massPerUnit)) }]) :
    exitTrack c l = setFeed feed
      (changeLot c.lot (leftLot (now l) (word c.units) (min 4294967295 (c.units * r.massPerUnit))) l) := by
  obtain ⟨x, hx, -⟩ := Option.bind_eq_some_iff.mp hr
  let leaves (x : Lot) : Lot := { x with onTrack := x.onTrack - word c.units, firstExit := some (x.firstExit.getD (now l)) }
  have hmass : unitsMass (changeLot c.lot leaves l) c.lot c.units = min 4294967295 (c.units * r.massPerUnit) := by
    rw [unitsMass, lotRecipe_changeLot leaves (fun _ => ⟨rfl, rfl⟩) hr, capped_eq_min]
    rfl
  have hlots : changeLot c.lot (fun x =>
      { x with massDelivered := addMass x.massDelivered (min 4294967295 (c.units * r.massPerUnit)) })
        (changeLot c.lot leaves l)
      = changeLot c.lot (leftLot (now l) (word c.units) (min 4294967295 (c.units * r.massPerUnit))) l := by
    rw [changeLot_changeLot c.lot leaves _ (fun _ => rfl)]
    simp only [addMass_eq]
    rfl
  have hjoins : feedCell c.lot c.units (changeLot c.lot leaves l) = setFeed feed
      (changeLot c.lot (leftLot (now l) (word c.units) (min 4294967295 (c.units * r.massPerUnit))) l) := by
    unfold feedCell
    dsimp only
    rw [hmass, hlots]
    have hplain : feedJoin l.pack.feed c.lot (min 4294967295 (c.units * r.massPerUnit)) (now l) = (feed, none) :=
      feedJoin_plain hfeed
    rw [show (changeLot c.lot (leftLot (now l) (word c.units) (min 4294967295 (c.units * r.massPerUnit))) l).pack.feed
        = l.pack.feed from rfl,
      show now (changeLot c.lot (leftLot (now l) (word c.units) (min 4294967295 (c.units * r.massPerUnit))) l) = now l
        from rfl, hplain]
  have hexit : exitTrack c l = judgeRetirement c.lot (feedCell c.lot c.units (changeLot c.lot leaves l)) := rfl
  have hlot : lot? (setFeed feed
      (changeLot c.lot (leftLot (now l) (word c.units) (min 4294967295 (c.units * r.massPerUnit))) l)) c.lot
      = some (leftLot (now l) (word c.units) (min 4294967295 (c.units * r.massPerUnit)) x) :=
    lot?_changeLot_self _ (fun _ => rfl) hx
  rw [hexit, hjoins]
  refine judgeRetirement_stays hlot (.inr (.inr ?_))
  show feed.any (·.lot == c.lot) = true
  rcases hfeed with ⟨-, rfl⟩ | ⟨before, tail, -, htail, rfl⟩
  · simp
  · simp [htail]

/-! ## Placing a cell -/

/-- The line with a cell in the entry place of section j, its lot judged for arrival there (R113, R114, R124). -/
def receivedLine (j : Nat) (f : Section) (n : Nat) (rest : List (Option TrackCell)) (l : Line) (cell : TrackCell)
    (lots : List Lot) : Line :=
  let arrives := f.desc.arrivalFlag && f.lastLot != n
  let l' := { l with
    track := { l.track with
      lots := lots
      sections := l.track.sections.set j
        { f with
          places := some cell :: rest, lastLot := n
          arrival := if arrives then some (n, now l) else f.arrival } } }
  if arrives then raise .lotArrival l' else l'

/-- The line with the cell in its place, before the judgment of the arrival. -/
def enteredLine (j : Nat) (f : Section) (rest : List (Option TrackCell)) (l : Line) (cell : TrackCell) (lots : List Lot) :
    Line :=
  { l with
    track := { l.track with
      lots := lots, sections := l.track.sections.set j { f with places := some cell :: rest } } }

section
variable {l : Line} {j : Nat} {f : Section} (hf : l.track.sections[j]? = some f)
include hf

theorem enteredLine_section (rest : List (Option TrackCell)) (cell : TrackCell) (lots : List Lot) :
    (enteredLine j f rest l cell lots).track.sections[j]? = some { f with places := some cell :: rest } :=
  List.getElem?_set_self (List.getElem?_eq_some_iff.mp hf).1

theorem judgeArrival_entered (n : Nat) (rest : List (Option TrackCell)) (cell : TrackCell) (lots : List Lot) :
    judgeArrival j n (enteredLine j f rest l cell lots) = receivedLine j f n rest l cell lots := by
  have hsection := enteredLine_section hf rest cell lots
  rw [judgeArrival, usedSection?, hsection]
  dsimp only
  rw [changeSection_of hsection, show (enteredLine j f rest l cell lots).track.sections
    = l.track.sections.set j { f with places := some cell :: rest } from rfl, List.set_set]
  rfl

theorem changeSection_entry {p : Option TrackCell} {rest : List (Option TrackCell)} (hplaces : f.places = p :: rest)
    (cell : TrackCell) :
    changeSection j (setEntry (some cell)) l = enteredLine j f rest l cell l.track.lots := by
  rw [changeSection_of hf, setEntry, hplaces]
  rfl

theorem placeCell_empty {rest : List (Option TrackCell)} (hplaces : f.places = none :: rest) (c : TrackCell) :
    placeCell j c l = receivedLine j f c.lot rest l (enteringCell l f.desc c) l.track.lots := by
  have hhead : f.places.head?.join = none := by rw [hplaces]; rfl
  rw [placeCell, usedSection?, hf]
  dsimp only
  rw [hhead]
  dsimp only
  rw [changeSection_entry hf hplaces, judgeArrival_entered hf]

theorem placeCell_merges {r : TrackCell} {rest : List (Option TrackCell)} (hplaces : f.places = some r :: rest)
    (c : TrackCell) {lots : List Lot}
    (hmerge : mergeLots (pastFinal l j) c r (enteredLine j f rest l (mergedCell c r) l.track.lots)
      = enteredLine j f rest l (mergedCell c r) lots) :
    placeCell j c l = receivedLine j f c.lot rest l (mergedCell c r) lots := by
  have hhead : f.places.head?.join = some r := by rw [hplaces]; rfl
  rw [placeCell, usedSection?, hf]
  dsimp only
  rw [hhead]
  dsimp only
  rw [changeSection_entry hf hplaces, hmerge, judgeArrival_entered hf]

end

/-! ## The lots of a merge (R115) -/

/-- The lots of a merge within one lot. -/
def sameLotMerged (past : Bool) (c r : TrackCell) (lots : List Lot) : List Lot :=
  lots.map fun y =>
    if y.number = c.lot then
      { y with
        onTrack := y.onTrack - word (c.units + r.units - 65535)
        mixedAway := y.mixedAway + word (c.units + r.units - 65535)
        unevaluated := if past then y.unevaluated else y.unevaluated - word (c.units + r.units - 65535) }
    else y

theorem mergeLots_same {past : Bool} {c r : TrackCell} (hlot : c.lot = r.lot) (l : Line) :
    mergeLots past c r l = { l with track := { l.track with lots := sameLotMerged past c r l.track.lots } } := by
  rw [mergeLots, if_pos hlot]
  rfl

/-- The older lot of a merge of two. -/
def olderMerged (past : Bool) (r : TrackCell) (y : Lot) : Lot :=
  { y with
    onTrack := y.onTrack - word r.units
    mixedAway := y.mixedAway + word r.units
    unevaluated := if past then y.unevaluated else y.unevaluated - word r.units
    mixed := true }

/-- The lot that gains by it. -/
def newerMerged (past : Bool) (c r : TrackCell) (y : Lot) : Lot :=
  { y with
    onTrack := y.onTrack + word (r.units - (c.units + r.units - 65535))
    mergedIn := y.mergedIn + word (r.units - (c.units + r.units - 65535))
    unevaluated := if past then y.unevaluated else y.unevaluated + word (r.units - (c.units + r.units - 65535))
    mixed := true }

theorem newerMerged_number (past : Bool) (c r : TrackCell) (y : Lot) : (newerMerged past c r y).number = y.number := by
  rw [newerMerged]

theorem mergeTwoLots_eq (past : Bool) (c r : TrackCell) (l : Line) :
    mergeTwoLots past c r l = changeLot c.lot (newerMerged past c r) (changeLot r.lot (olderMerged past r) l) := rfl

theorem lots_mergeTwoLots {past : Bool} {c r : TrackCell} (hlot : c.lot ≠ r.lot) (lots : List Lot) :
    ((lots.map fun y => if y.number = r.lot then olderMerged past r y else y).map
        fun y => if y.number = c.lot then newerMerged past c r y else y)
      = lots.map fun y =>
          if y.number = r.lot then olderMerged past r y else if y.number = c.lot then newerMerged past c r y else y := by
  rw [List.map_map]
  refine List.map_congr_left fun y _ => ?_
  rw [Function.comp_apply]
  by_cases hy : y.number = r.lot
  · rw [if_pos hy, if_pos hy, if_neg fun h : (olderMerged past r y).number = c.lot => hlot (h.symm.trans hy)]
  · rw [if_neg hy, if_neg hy]

theorem mergeLots_two {past : Bool} {c r : TrackCell} {l : Line} {x : Lot} (hlot : c.lot ≠ r.lot)
    (hx : lot? l r.lot = some x) (hpending : x.verdict = .pending)
    (hwaits : x.isOpen = true ∨ x.unevaluated ≠ if past then 0 else word r.units) :
    mergeLots past c r l = { l with
      track := { l.track with
        lots := l.track.lots.map fun y =>
          if y.number = r.lot then olderMerged past r y else if y.number = c.lot then newerMerged past c r y else y } } := by
  have hmerged : lot? (mergeTwoLots past c r l) r.lot = some (olderMerged past r x) := by
    have holder := lot?_changeLot_self (olderMerged past r) (fun _ => rfl) hx
    rw [mergeTwoLots_eq, lot?_changeLot c.lot r.lot (newerMerged past c r) (newerMerged_number past c r), holder, Option.map_some,
      if_neg fun h : (olderMerged past r x).number = c.lot => hlot (h.symm.trans (lot?_number holder))]
  have hdue : verdictDue (olderMerged past r x) = false := by
    rw [verdictDue]
    rcases hwaits with hopen | hcount
    · simp [olderMerged, hopen]
    · have hne : (if past = true then x.unevaluated else x.unevaluated - word r.units) ≠ 0 := by
        cases past with
        | true => exact hcount
        | false => exact fun h => hcount (word_sub_eq_zero.mp h)
      simp only [olderMerged, beq_eq_false_iff_ne.mpr hne, Bool.and_false, Bool.false_and]
  rw [mergeLots, if_neg hlot, judgeVerdict_waits hmerged hdue, judgeRetirement_stays hmerged (.inr (.inl hpending)),
    mergeTwoLots_eq, ← lots_mergeTwoLots hlot]
  rfl

theorem worseOption_eq (a b : Option CellOutcome) :
    worseOption a b = if a.elim 0 (·.severity + 1) < b.elim 0 (·.severity + 1) then b else a := by
  cases a with
  | none => cases b <;> simp [worseOption]
  | some a =>
    cases b with
    | none => simp [worseOption]
    | some b =>
      simp only [worseOption, worse, Option.elim_some, Nat.add_lt_add_iff_right]
      split <;> rfl

theorem mergedCell_eq (c r : TrackCell) :
    mergedCell c r =
      { lot := c.lot, units := min 65535 (c.units + r.units), entryTime := r.entryTime
        blanchCredit := min c.blanchCredit r.blanchCredit, freezeCredit := min c.freezeCredit r.freezeCredit
        blanchOutcome :=
          if c.blanchOutcome.elim 0 (·.severity + 1) < r.blanchOutcome.elim 0 (·.severity + 1) then r.blanchOutcome
          else c.blanchOutcome
        overall :=
          if c.overall.elim 0 (·.severity + 1) < r.overall.elim 0 (·.severity + 1) then r.overall else c.overall
        blanchDeviation := c.blanchDeviation || r.blanchDeviation
        freezeDeviation := c.freezeDeviation || r.freezeDeviation
        unmeasured := c.unmeasured || r.unmeasured, positionLost := c.positionLost || r.positionLost
        mixed := c.mixed || r.mixed || c.lot != r.lot } := by
  rw [mergedCell, worseOption_eq, worseOption_eq, capped_eq_min]
  rfl

end Sys2Proof.Machine
end

section
/-! The statement of what samples and losses do on the track (R38, R39, R41, R107, R109 to R117, R124, R127 to R130, R132
to R135, R141). -/

namespace Sys2Proof.Machine

/-- The expiry of the stale timer of an input that no zone looks at (R39, R117, R132). -/
theorem staleTimer_unwatched {s : State} {channel : BitVec 8} {deadline : Word}
    (hwatch : Unwatched s.line channel.toNat) (htimer : (chan s.line channel.toNat).run.timer = .running deadline)
    (hreached : reached (now s.line) deadline = true) :
    exec (.staleTimerExpiry channel) s = .next
      { s with line := trackLosses [channel.toNat] (staleLine channel.toNat s.line) } := by
  rw [exec_staleTimerExpiry, State.onLine, staleExpires_due htimer hreached,
    loseGood_unwatched (hwatch.congr (m := staleLine channel.toNat s.line) rfl)]

/-- A motion sample of a channel that judges no section is all that the track does with it. -/
theorem trackSample_motion {l m : Line} {i : Nat} {v : Int}
    (hcriteria : ∀ f ∈ l.track.sections, f.desc.criterion = .none ∨ f.desc.criterionChan ≠ i)
    (hmotion : motionSample i v l = m) (hdescs : sectionDescs m = sectionDescs l) : trackSample i v l = m := by
  rw [trackSample, hmotion]
  refine criterionSample_unnamed m i v fun d hd => ?_
  rw [hdescs] at hd
  obtain ⟨f, hf, rfl⟩ := List.mem_map.mp hd
  exact hcriteria f hf

theorem trackSample_rebases {l : Line} {i c : Nat} (hc : c ≤ 65535) (hdriven : ∃ f ∈ l.track.sections, f.desc.motion = i)
    (hcriteria : ∀ f ∈ l.track.sections, f.desc.criterion = .none ∨ f.desc.criterionChan ≠ i)
    (hold : l.track.motion[i]? = some none
      ∨ ∃ n, l.track.motion[i]? = some (some { count := n, simulated := !(chan l i).run.simFlag })) :
    trackSample i c l = rebase i c (chan l i).run.simFlag l := by
  refine trackSample_motion hcriteria (motionSample_rebases hdriven hc fun old hget => ?_) (rebase_descs i c _ l)
  rw [List.getD_eq_getElem?_getD] at hget
  rcases hold with hnone | ⟨n, hother⟩
  · rw [hnone] at hget
    cases hget
  · rw [hother] at hget
    cases hget
    simp

theorem trackSample_moves {l : Line} {i c n m : Nat} (hc : c ≤ 65535) (hn : n ≤ 65535)
    (hdriven : ∃ f ∈ l.track.sections, f.desc.motion = i)
    (hcriteria : ∀ f ∈ l.track.sections, f.desc.criterion = .none ∨ f.desc.criterionChan ≠ i)
    (hold : l.track.motion[i]? = some (some { count := n, simulated := (chan l i).run.simFlag }))
    (hm : ∀ f ∈ l.track.sections, f.desc.motion = i →
      ((if n ≤ c then c - n else c + 65536 - n) + f.remainder) / f.desc.countsPerCell ≤ m) :
    trackSample i c l = (List.range m).foldl
      (fun l' round => (dueSections i (if n ≤ c then c - n else c + 65536 - n) l round).foldr shiftSection l')
      (movedLine i c (if n ≤ c then c - n else c + 65536 - n) (chan l i).run.simFlag l) := by
  have hget : l.track.motion.getD i none = some { count := n, simulated := (chan l i).run.simFlag } := by
    rw [List.getD_eq_getElem?_getD, hold, Option.getD_some]
  refine trackSample_motion hcriteria ?_ ((rounds_descs _ _ _ _ _).trans (movedLine_descs _ _ _ _ _))
  rw [motionSample_moves hdriven hc hget, count_delta hc hn, moveSections_eq hm]

/-- A criterion sample in the terms of the statement (R127 to R130). -/
theorem trackSample_criterion {l : Line} {i : Nat} (v : Int) (hmotion : ∀ f ∈ l.track.sections, f.desc.motion ≠ i) :
    trackSample i v l =
      { l with
        track := { l.track with
          sections := l.track.sections.map fun f =>
            if f.desc.criterion ≠ .none ∧ f.desc.criterionChan = i then
              { f with
                lastCriterion := some (now l)
                places := f.places.map fun p => p.map (sampleCell l f (carryDecimals (chan l i).desc.decimals 1 v)) }
            else f } } := by
  rw [trackSample, motionSample_other hmotion, criterionSample]
  simp only [judgedBy_iff]

/-- Settles O60, clause by clause. -/
theorem trackMovesMergesAndMeasuresItsCells : Obligations.TrackMovesMergesAndMeasuresItsCells := by
  unfold Obligations.TrackMovesMergesAndMeasuresItsCells
  refine ⟨fun l i hi hwatch => ⟨fun raw hsim => ?sample, ?loss⟩, fun l i c hc hi hdriven hcriteria => ?motion,
    fun l j f hf hplaces => ?shift, fun l k => ⟨lastOf_iff .blanch l k, lastOf_iff .freeze l k, pastFinal_iff l k⟩,
    fun l j c r hr => carryCell_eq hr, fun r c => ⟨rfl, severity_overallOutcome r c, rfl⟩,
    fun l c x k hx hk hwaits => ?final, fun l c r feed hr => ?leaving, fun l j f c rest hf => ?placing,
    fun l i v hmotion hdecimals => ?criterion⟩
  case sample =>
    have hwatch' : Unwatched (sampledLine i raw l) i := Unwatched.congr hwatch rfl
    rw [fieldSample_good hsim, freshSample_unwatched hwatch', sampledLine_eq]
  case loss =>
    rintro s channel deadline rfl rfl htimer hreached
    rw [staleTimer_unwatched hwatch htimer hreached, trackLosses_one]
    rfl
  case motion =>
    refine ⟨fun hold => (trackSample_rebases hc hdriven hcriteria hold).trans (rebase_eq i c _ l),
      fun n m hold hn => ?_⟩
    intro d hm
    exact trackSample_moves hc hn hdriven hcriteria hold fun f hf h => (hm f hf h).2
  case shift =>
    refine ⟨fun hkept => ?_, fun x hj hopen => ?_⟩
    · rw [shiftSection_eq hf hplaces]
      split
      next hj => exact admitCell_none (hkept.resolve_left fun h => h hj)
      next => rfl
    · have hopen' : openLot (carriedLine j f l) = some x := hopen
      rw [shiftSection_eq hf hplaces, if_pos hj, admitCell_some hopen', carriedLine_now]
      rfl
  case final =>
    rw [countFinal_waits hx hk hwaits, changeLot]
    simp only [countedLot, OutcomeUnits.add_eq]
  case leaving =>
    intro mass hfeed
    rw [exitTrack_joins hr hfeed]
    rfl
  case placing =>
    intro arrives received
    refine ⟨fun hplaces => placeCell_empty hf hplaces c, fun r hplaces => ?_⟩
    intro worst merged excess past
    have hmerged : mergedCell c r = merged := mergedCell_eq c r
    rw [← hmerged]
    refine ⟨fun hlot => placeCell_merges hf hplaces c (mergeLots_same hlot _), fun x hlot hx hpending hwaits => ?_⟩
    exact placeCell_merges hf hplaces c (mergeLots_two hlot hx hpending hwaits)
  case criterion =>
    intro carried
    have hcarried : carryDecimals (chan l i).desc.decimals 1 v = carried := carryDecimals_one hdecimals v
    rw [trackSample_criterion v hmotion, hcarried]
    refine congrArg (fun fs : List Section => { l with track := { l.track with sections := fs } })
      (List.map_congr_left fun f _ => ?_)
    split
    next hjudged =>
      rw [show sampleCell l f carried = _ from funext fun c => sampleCell_eq carried hjudged.1]
    next => rfl

end Sys2Proof.Machine
end
